-- ==== Sys2Proof/Word.lean ====
section
/-! DEFINITION. The two widths of value the hardware sends and their plainest arithmetic (R16, R98, R109):
a byte, a 16-bit value, its high and low byte, and their concatenation. All values are unsigned. -/

namespace Sys2Proof

/-- An 8-bit value: a wire byte, a Register Address, a framebuffer byte. -/
abbrev Byte := BitVec 8

/-- A 16-bit value: a Register Value, a pixel colour, a burst word. -/
abbrev Half := BitVec 16

/-- `hi(v) = v[15:8]` (R16; the document's `value>>8`). -/
def hi (v : Half) : Byte := v.extractLsb' 8 8

/-- `lo(v) = v[7:0]` (R16; the document's `value & 0xFF`). -/
def lo (v : Half) : Byte := v.extractLsb' 0 8

/-- `h : l`, the concatenation with `h` in the more significant position (R16). -/
def join (h l : Byte) : Half := h ++ l

/-- `v` with bits 7:0 replaced by `b` and bits 15:8 kept. -/
def setLo (v : Half) (b : Byte) : Half := join (hi v) b

end Sys2Proof
end

