-- ==== Sys2Proof/Config.lean ====
section
/-! DEFINITION. What is fixed when the block is built: the document's five literals, the parameter set of R14 with its
constraints (R15, R155), the power-on ROM made from it (R150 to R154), and the constants with no body: the
parameter set of the machine at reset (log entry 1: DESIGN CHOICE, safe) and the values the spec leaves undefined in the panel (log entry 2: DEDUCED, safe). -/

namespace Sys2Proof

/-- `STRATEGY` (R14): "selected once at build time (not switchable per call)". -/
inductive Strategy where
  | BUFFERED
  | BURST
  deriving DecidableEq, Repr, Inhabited

/-- `SCAN_DIR` (R14, R35). -/
inductive ScanDir where
  | NORMAL
  | MIRRORED
  deriving DecidableEq, Repr, Inhabited

/-- One Power-On Step, the triple `(reg, val, dly)` of R17 and R103, kept unpacked; `dly = 0` means no delay.
The delay is a count of milliseconds of any size: R103 leaves the model free to widen the field (log entry 3: DESIGN CHOICE, safe). -/
structure RomStep where
  reg : Byte
  val : Half
  dly : Nat
  deriving DecidableEq, Repr, Inhabited

/-- One write of the power-control sequence, `PWR[i]` of R14. -/
structure PwrWrite where
  reg : Byte
  val : Half
  deriving DecidableEq, Repr, Inhabited

namespace Config

/-- `MARK_INDEX` (R14): the start marker of an Index Frame. -/
def MARK_INDEX : Byte := 0x74

/-- `INDEX_PAD` (R14, R96): the second byte of an Index Frame. -/
def INDEX_PAD : Byte := 0x00

/-- `MARK_DATA` (R14): the start marker of a Data Frame and the data marker of a bulk burst. -/
def MARK_DATA : Byte := 0x76

/-- `REG_MEMORY_WRITE` (R14, R36): the panel register a bulk pixel write selects. -/
def REG_MEMORY_WRITE : Byte := 0x22

/-- `SCRATCH_LEN` (R14): 16 bytes. -/
def SCRATCH_LEN : Nat := 16

end Config

/-- The least number of bits that holds `n`, at least 1 (R20). -/
def leastBits (n : Nat) : Nat := n.log2 + 1

/-- The parameters of R14, under the spec's names. A field's default value is the one R14 decides (D6, D7, D10); every other
default is only what a field needs to have one and is read by no rule. -/
structure Params where
  W : Nat := 1
  H : Nat := 8
  STRATEGY : Strategy := .BUFFERED
  SCAN_DIR : ScanDir := .NORMAL
  MASK_BLANK : Half := 0
  MASK_FILLED : Half := 0
  INIT_CLEAR_COLOR : Half := 0
  REG_DISPLAY_CONTROL : Byte := 0
  REG_DRIVE_CONTROL : Byte := 0
  REG_POWER_CONTROL_1 : Byte := 0
  REG_POWER_CONTROL_2 : Byte := 0
  REG_POWER_CONTROL_3 : Byte := 0
  REG_POWER_CONTROL_4 : Byte := 0
  REG_POWER_CONTROL_5 : Byte := 0
  REG_ENTRY_MODE : Byte := 0
  VAL_DISPLAY_OFF : Half := 0
  VAL_ENTRY_NORMAL : Half := 0
  VAL_ENTRY_MIRRORED : Half := 0
  VAL_DC_1 : Half := 1
  VAL_DC_2 : Half := 3
  VAL_DC_3 : Half := 7
  VAL_DC_4 : Half := 15
  BIT_D0 : Fin 16 := 0
  BIT_GON : Fin 16 := 1
  BIT_D1 : Fin 16 := 2
  BIT_DTE : Fin 16 := 3
  BULK_MARKER : Bool := true
  PWR : List PwrWrite := [⟨0, 0⟩, ⟨0, 0⟩]
  PWR_A : Nat := 0
  PWR_B : Nat := 1
  T_RST_HOLD : Nat := 50
  T_RST_WAIT : Nat := 50
  T_DISP_OFF : Nat := 10
  T_PWR_A : Nat := 40
  T_PWR_B : Nat := 40
  T_DISP_ON : Nat := 10
  MODE_INIT : Bool := true
  BULK_MODE : Nat := 0
  FIFO_DEPTH : Nat := 0
  deriving DecidableEq, Repr

namespace Params

/-- `G = H / 8`, byte-groups per column (R14). -/
def G (p : Params) : Nat := p.H / 8

/-- `N_PWR` (R14), the number of power-control writes. -/
def N_PWR (p : Params) : Nat := p.PWR.length

/-- `N_ROM = N_PWR + 6` (R14, R150). -/
def N_ROM (p : Params) : Nat := p.N_PWR + 6

/-- `PCW`, the width of `pc`: "the least number of bits that holds `N_ROM`" (R20, R30). -/
def PCW (p : Params) : Nat := leastBits p.N_ROM

/-- `CW`, the width of `col` and of the port `fb_col`: the least that holds `W - 1` (R20, R47). -/
def CW (p : Params) : Nat := leastBits (p.W - 1)

/-- `GW`, the width of `grp` and of the port `fb_grp`: the least that holds `G - 1` (R20, R47). -/
def GW (p : Params) : Nat := leastBits (p.G - 1)

/-- The registers the power-control sequence may name (R15, R152). -/
def powerRegs (p : Params) : List Byte :=
  [p.REG_DRIVE_CONTROL, p.REG_POWER_CONTROL_1, p.REG_POWER_CONTROL_2, p.REG_POWER_CONTROL_3,
    p.REG_POWER_CONTROL_4, p.REG_POWER_CONTROL_5]

/-- The value with the one bit `k` set. -/
def oneBit (k : Fin 16) : Half := 1#16 <<< k.val

/-- The four display-control values of R155: D0, GON, D1, DTE become set in that order and stay set, at four distinct places. -/
def displayValuesOk (p : Params) : Bool :=
  p.VAL_DC_1.getLsbD p.BIT_D0 && !p.VAL_DC_1.getLsbD p.BIT_GON && !p.VAL_DC_1.getLsbD p.BIT_D1
    && !p.VAL_DC_1.getLsbD p.BIT_DTE
    && p.VAL_DC_2 == (p.VAL_DC_1 ||| oneBit p.BIT_GON)
    && p.VAL_DC_3 == (p.VAL_DC_2 ||| oneBit p.BIT_D1)
    && p.VAL_DC_4 == (p.VAL_DC_3 ||| oneBit p.BIT_DTE)
    && decide ([p.BIT_D0, p.BIT_GON, p.BIT_D1, p.BIT_DTE].Nodup)

/-- The nine Register Addresses of R74: the memory-write register and the eight that the parameters name. -/
def addresses (p : Params) : List Byte :=
  [Config.REG_MEMORY_WRITE, p.REG_DISPLAY_CONTROL, p.REG_DRIVE_CONTROL, p.REG_POWER_CONTROL_1, p.REG_POWER_CONTROL_2,
    p.REG_POWER_CONTROL_3, p.REG_POWER_CONTROL_4, p.REG_POWER_CONTROL_5, p.REG_ENTRY_MODE]

/-- The nine are pairwise distinct: the constraint R74 allows a model "only if its claims need it", and R126's claim about `0x22` does.
It is a premise of such claims and no part of `admitted`, since R15 does not list it (log entry 31: DEDUCED, safe). -/
def addressesDistinct (p : Params) : Bool := decide p.addresses.Nodup

/-- The geometry R15 admits: `W >= 1`, `H >= 8`, `H mod 8 = 0`. -/
def geometryOk (p : Params) : Bool := decide (1 ≤ p.W) && decide (8 ≤ p.H) && decide (p.H % 8 = 0)

/-- Every delay parameter is at least its lower bound (R14, R15, R144). -/
def delaysOk (p : Params) : Bool :=
  decide (50 ≤ p.T_RST_HOLD) && decide (50 ≤ p.T_RST_WAIT) && decide (10 ≤ p.T_DISP_OFF)
    && decide (40 ≤ p.T_PWR_A) && decide (40 ≤ p.T_PWR_B) && decide (10 ≤ p.T_DISP_ON)

/-- `0 <= PWR_A < PWR_B < N_PWR` and every `PWR[i]` register is one of the six (R15, R152). -/
def powerSequenceOk (p : Params) : Bool :=
  decide (p.PWR_A < p.PWR_B) && decide (p.PWR_B < p.N_PWR) && p.PWR.all fun w => p.powerRegs.contains w.reg

/-- R15: a parameter set is admitted only if all of these hold; any other set is refused (U9, U10). -/
def admitted (p : Params) : Bool :=
  p.geometryOk && p.delaysOk && p.powerSequenceOk && p.displayValuesOk

/-- `VAL_ENTRY` (R35, R153), by the build-time scan direction. -/
def VAL_ENTRY (p : Params) : Half :=
  match p.SCAN_DIR with
  | .NORMAL => p.VAL_ENTRY_NORMAL
  | .MIRRORED => p.VAL_ENTRY_MIRRORED

/-- The delay after power-control write `i`, `d_i` of R152. -/
def powerDelay (p : Params) (i : Nat) : Nat :=
  if i = p.PWR_A then p.T_PWR_A else if i = p.PWR_B then p.T_PWR_B else 0

/-- Entries `1 .. N_PWR` of the ROM (R152). -/
def powerEntries (p : Params) : List RomStep :=
  p.PWR.mapIdx fun i w => ⟨w.reg, w.val, p.powerDelay i⟩

/-- The power-on ROM (R150 to R154, R156): display off, the power-control sequence, entry mode, four display-control writes. -/
def rom (p : Params) : List RomStep :=
  [⟨p.REG_DISPLAY_CONTROL, p.VAL_DISPLAY_OFF, p.T_DISP_OFF⟩]
    ++ p.powerEntries
    ++ [⟨p.REG_ENTRY_MODE, p.VAL_ENTRY, 0⟩]
    ++ [⟨p.REG_DISPLAY_CONTROL, p.VAL_DC_1, 0⟩, ⟨p.REG_DISPLAY_CONTROL, p.VAL_DC_2, 0⟩,
        ⟨p.REG_DISPLAY_CONTROL, p.VAL_DC_3, 0⟩, ⟨p.REG_DISPLAY_CONTROL, p.VAL_DC_4, p.T_DISP_ON⟩]

end Params

/-- A parameter set together with the proof that R15 admits it: a set outside R15 cannot be built, which is how the model
refuses one (R15, R223, R225, U9, U10; log entry 4: DEDUCED, safe). -/
structure Build extends Params where
  ok : toParams.admitted = true := by decide
  deriving DecidableEq, Repr, Inhabited

/-- The admission check on a raw parameter set: the `Build` it makes, or nothing where the model refuses it (R15). -/
def Params.build? (p : Params) : Option Build :=
  if h : p.admitted = true then some ⟨p, h⟩ else none

namespace Config

/-- The parameter set of the machine whose reset state is `State.reset`: some admitted set, nothing more (R14; log entry 1: DESIGN CHOICE, safe). -/
opaque build : Build

/-- What the panel's selected-register latch holds when the spec says its state is undefined: a free value (R222, U1; log entry 2: DEDUCED, safe). -/
opaque freeIR : Nat → Option Byte

/-- What the panel's registers hold when the spec says the panel's state is undefined: free writes (R222, U1; log entry 2: DEDUCED, safe). -/
opaque freePR : Nat → List (Byte × Half)

/-- What the panel's pixel list holds when the spec says the panel's state is undefined: a free value (R222, U1; log entry 2: DEDUCED, safe). -/
opaque freePIX : Nat → List Half

end Config
end Sys2Proof
end

