-- ==== Sys2Proof/Syntax.lean ====
section
/-! DEFINITION. The twelve operations of spec/opcode_table.json (R105), one constructor per row, and the five places an encoded
operation can stand in (R90). -/

namespace Sys2Proof

/-- The operations of the block (R105). The operands are those of the rule each constructor names; the three host commands
carry `host` in their names. -/
inductive Instr where
  /-- SEND_INDEX, R122: operand `r`, a Register Address. -/
  | sendIndex (r : Byte)
  /-- SEND_DATA, R123: operand `v`, a Register Value. -/
  | sendData (v : Half)
  /-- WRITE_REGISTER, R124: operands `r` and `v`. -/
  | writeRegister (r : Byte) (v : Half)
  /-- POWER_ON_STEP, R147: the ROM entry `(reg, val, dly)`. -/
  | powerOnStep (reg : Byte) (val : Half) (dly : Nat)
  /-- DELAY, R143: operand `n`, milliseconds. -/
  | delay (n : Nat)
  /-- CONFIG_LINES, R141: no operand. -/
  | configLines
  /-- RESET_PULSE, R142: no operand. -/
  | resetPulse
  /-- STREAM_BUFFERED, R172: its operands `src` and `color` are the registers `src` and `fill_color`. -/
  | streamBuffered
  /-- STREAM_BURST, R173: as STREAM_BUFFERED. -/
  | streamBurst
  /-- INITIALIZE, R201: no operand (`cmd_color` is ignored). -/
  | hostInitialize
  /-- CLEAR, R203: operand `color`. -/
  | hostClear (color : Half)
  /-- UPDATE, R202: no operand (`cmd_color` is ignored). -/
  | hostUpdate
  deriving DecidableEq, Repr

/-- Where an encoded operation stands (R90, R105). The same bits mean different operations in different places. -/
inductive Format where
  /-- Bytes of one register write or of the head of a bulk burst, in the order sent: IDX, DAT, REGW, BULK (R91 to R94). -/
  | wire
  /-- A ROM word, ROMW (R103). -/
  | rom
  /-- A host command word, CMDW (R104). -/
  | cmd
  /-- The sequencer's state code `q_st` (R21). -/
  | seq
  /-- The `dly` field of a ROM word on its own (R103, R143). -/
  | dly
  deriving DecidableEq, Repr

end Sys2Proof
end

