-- ==== Sys2Proof/WellFormed.lean ====
section
/-! DEFINITION. Which operations have an encoding: the `dly` field of ROMW has 8 bits (R103). Every other operand has exactly
the width of its field, so its type is the whole check. -/

namespace Sys2Proof

/-- The `dly` field of a 32-bit ROM word holds 0..255 (R103). -/
def delayFits (n : Nat) : Bool := decide (n < 256)

/-- The operation has an encoding in the formats of R90. A wider delay still runs (R103), it only has no 32-bit ROM word. -/
def Instr.wellFormed (i : Instr) : Bool :=
  match i with
  | .sendIndex _ => true
  | .sendData _ => true
  | .writeRegister _ _ => true
  | .powerOnStep _ _ dly => delayFits dly
  | .delay n => delayFits n
  | .configLines => true
  | .resetPulse => true
  | .streamBuffered => true
  | .streamBurst => true
  | .hostInitialize => true
  | .hostClear _ => true
  | .hostUpdate => true

/-- The block built with this strategy has the operation: exactly one of the two streams exists in it (R170). -/
def Instr.presentIn (st : Strategy) (i : Instr) : Bool :=
  match i with
  | .streamBuffered => st == .BUFFERED
  | .streamBurst => st == .BURST
  | .sendIndex _ => true
  | .sendData _ => true
  | .writeRegister _ _ => true
  | .powerOnStep _ _ _ => true
  | .delay _ => true
  | .configLines => true
  | .resetPulse => true
  | .hostInitialize => true
  | .hostClear _ => true
  | .hostUpdate => true

end Sys2Proof
end

