-- ==== Sys2Proof/Decode.lean ====
section
/-! DEFINITION. Decoding and encoding of the twelve operations in the formats of R90: total on any bytes, refusing by name.
Bytes are listed in the order sent, or most significant first for the ROM word and the command word (R16, R90). -/

namespace Sys2Proof

/-- Why bytes are no operation. -/
inductive DecodeError where
  /-- No format of this place has this many bytes. -/
  | badLength
  /-- The first byte of a frame is neither `0x74` nor `0x76`, or the second frame of a register write does not start `0x76` (R95, R106). -/
  | badMarker
  /-- The second byte of an Index Frame is not `0x00` (R96). -/
  | badPad
  /-- Four wire bytes that are not `0x74 0x00 0x22 0x76` (R94). -/
  | badBulkHeader
  /-- `cmd_op = 00`, reserved (R104). -/
  | reservedCommand
  /-- A command word with a bit above its 18 (R104). -/
  | commandTooWide
  /-- A sequencer state at which no operation of the table begins by its code alone (R105). -/
  | noOperationHere
  deriving DecidableEq, Repr

/-- What decoding answers. -/
inductive Decoded where
  | ok (i : Instr)
  | error (e : DecodeError)
  deriving DecidableEq, Repr

/-- The operation, where decoding found one. -/
def Decoded.instr? (d : Decoded) : Option Instr :=
  match d with
  | .ok i => some i
  | .error _ => none

/-- The streaming operation of a block: the one its strategy selects (R105, R170). -/
def streamOf (st : Strategy) : Instr :=
  match st with
  | .BUFFERED => .streamBuffered
  | .BURST => .streamBurst

/-- One standalone frame, IDX or DAT (R91, R92, R97). -/
def decodeFrame (m a b : Byte) : Decoded :=
  if m = Config.MARK_INDEX then
    if a = Config.INDEX_PAD then .ok (.sendIndex b) else .error .badPad
  else if m = Config.MARK_DATA then .ok (.sendData (join a b))
  else .error .badMarker

/-- A register write, REGW: an Index Frame, then a Data Frame (R93). -/
def decodePair (m p r d h l : Byte) : Decoded :=
  if m ≠ Config.MARK_INDEX ∨ d ≠ Config.MARK_DATA then .error .badMarker
  else if p ≠ Config.INDEX_PAD then .error .badPad
  else .ok (.writeRegister r (join h l))

/-- The head of a bulk burst (R94, with the data marker of D10), as the one word of the opcode table has it: with `0x76` also for a block
built with `BULK_MARKER` off (log entry 33: DESIGN CHOICE, safe). -/
def decodeBulk (st : Strategy) (m p r d : Byte) : Decoded :=
  if m = Config.MARK_INDEX ∧ p = Config.INDEX_PAD ∧ r = Config.REG_MEMORY_WRITE ∧ d = Config.MARK_DATA then
    .ok (streamOf st)
  else .error .badBulkHeader

/-- A host command word, CMDW, in three bytes: six zero bits, `cmd_op`, `cmd_color` (R104). -/
def decodeCommand (x h l : Byte) : Decoded :=
  match x.toNat with
  | 0 => .error .reservedCommand
  | 1 => .ok .hostInitialize
  | 2 => .ok (.hostClear (join h l))
  | 3 => .ok .hostUpdate
  | _ => .error .commandTooWide

/-- The two sequencer states that select an operation by their code (R105: `Q_CFG`, `Q_RST_LO`). -/
def decodeSeqCode (q : Byte) : Decoded :=
  match q.toNat with
  | 1 => .ok .configLines
  | 2 => .ok .resetPulse
  | _ => .error .noOperationHere

/-- The decoder of a block with strategy `st`: the operation that the bytes standing in place `f` encode. -/
def decode (st : Strategy) (f : Format) (bs : List Byte) : Decoded :=
  match f, bs with
  | .wire, [m, a, b] => decodeFrame m a b
  | .wire, [m, p, r, d] => decodeBulk st m p r d
  | .wire, [m, p, r, d, h, l] => decodePair m p r d h l
  | .rom, [d, r, h, l] => .ok (.powerOnStep r (join h l) d.toNat)
  | .cmd, [x, h, l] => decodeCommand x h l
  | .seq, [q] => decodeSeqCode q
  | .dly, [d] => .ok (.delay d.toNat)
  | _, _ => .error .badLength

/-- Where an operation's encoding stands (R105). -/
def formatOf (i : Instr) : Format :=
  match i with
  | .sendIndex _ => .wire
  | .sendData _ => .wire
  | .writeRegister _ _ => .wire
  | .powerOnStep _ _ _ => .rom
  | .delay _ => .dly
  | .configLines => .seq
  | .resetPulse => .seq
  | .streamBuffered => .wire
  | .streamBurst => .wire
  | .hostInitialize => .cmd
  | .hostClear _ => .cmd
  | .hostUpdate => .cmd

/-- The Index Frame of `r` (R91). -/
def indexFrame (r : Byte) : List Byte := [Config.MARK_INDEX, Config.INDEX_PAD, r]

/-- The Data Frame of `v` (R92). -/
def dataFrame (v : Half) : List Byte := [Config.MARK_DATA, hi v, lo v]

/-- The encoder, from the tables of R91 to R94, R103, R104 and R21. The bits that R104 ignores are zero. The head of a stream has its `0x76`
whatever `BULK_MARKER` is (log entry 33: DESIGN CHOICE, safe). -/
def encode (i : Instr) : List Byte :=
  match i with
  | .sendIndex r => indexFrame r
  | .sendData v => dataFrame v
  | .writeRegister r v => indexFrame r ++ dataFrame v
  | .powerOnStep reg val dly => [BitVec.ofNat 8 dly, reg, hi val, lo val]
  | .delay n => [BitVec.ofNat 8 n]
  | .configLines => [0x01]
  | .resetPulse => [0x02]
  | .streamBuffered => indexFrame Config.REG_MEMORY_WRITE ++ [Config.MARK_DATA]
  | .streamBurst => indexFrame Config.REG_MEMORY_WRITE ++ [Config.MARK_DATA]
  | .hostInitialize => [0x01, 0x00, 0x00]
  | .hostClear color => [0x02, hi color, lo color]
  | .hostUpdate => [0x03, 0x00, 0x00]

/-- The `n` bytes of `w`, most significant first: the table numbers the first byte sent as the highest bits. -/
def bytesOf : Nat → Nat → List Byte
  | 0, _ => []
  | n + 1, w => BitVec.ofNat 8 (w / 256 ^ n) :: bytesOf n w

/-- The place a row of the table stands in, told from the row's length in bytes and, where two places share a length, from
the bits: a 24-bit word below 2^18 is a command word; the 32-bit word `0x74002276` is the head of a bulk burst and any
other a ROM word; the bytes 1 and 2 are the sequencer's codes and any other a delay (log entry 5: DESIGN CHOICE, safe). -/
def tableFormat (nbytes w : Nat) : Option Format :=
  match nbytes with
  | 1 => some (if w = 1 ∨ w = 2 then .seq else .dly)
  | 3 => some (if w < 262144 then .cmd else .wire)
  | 4 => some (if w = 0x74002276 then .wire else .rom)
  | 6 => some .wire
  | _ => none

/-- The operation this decoder reads from a word of `nbits` bits, numbered as spec/opcode_table.json numbers them; the stream
it reads is the one of the block at reset. -/
def decodeTableWord (nbits w : Nat) : Option Instr :=
  match tableFormat ((nbits + 7) / 8) w with
  | some f => (decode Config.build.STRATEGY f (bytesOf ((nbits + 7) / 8) w)).instr?
  | none => none

end Sys2Proof
end

