-- ==== Sys2Proof/Machine/State.lean ====
section
/-! DEFINITION. The state of the machine as plain data: the registers of the block (R20), the inputs its collaborators drive
(R40 to R47), the hidden state outside the block that its events change (R37, R48, R76), the framebuffer (R61), the ROM (R65),
the parameter set (R14) and the event trace (R10); the reasons a step can stop; and the reset state (R50). -/

namespace Sys2Proof.Machine

/-- The states of the sequencer SEQ (R21). -/
inductive QState where
  | Q_IDLE | Q_CFG | Q_RST_LO | Q_RST_HOLD | Q_RST_HI | Q_RST_WAIT | Q_STEP_IDX | Q_STEP_DAT | Q_STEP_DLY
  | Q_STEP_NEXT | Q_FILL | Q_UPD | Q_DONE
  deriving DecidableEq, Repr

/-- The states of the frame encoder FE (R24). -/
inductive FeState where
  | F_IDLE | F_CS_LO | F_B0 | F_B1 | F_B2 | F_CS_HI
  deriving DecidableEq, Repr

/-- The states of the streamer FS (R25). -/
inductive FsState where
  | S_IDLE | S_CS_LO | S_INDEX | S_MARK | S_WIDE | S_LOAD | S_EXPAND | S_BULK | S_PUSH | S_ADV | S_DRAIN | S_NARROW
  | S_CS_HI
  deriving DecidableEq, Repr

/-- `fe_kind` (R24): IDX = 0, DAT = 1. -/
inductive FrameKind where
  | IDX | DAT
  deriving DecidableEq, Repr

/-- `src` (R25): FB = 0, CONST = 1. -/
inductive PixelSource where
  | FB | CONST
  deriving DecidableEq, Repr

/-- The transport's word size (R37): 8 or 16 bits. -/
inductive BusWidth where
  | W8 | W16
  deriving DecidableEq, Repr

/-- A host command as the event `CMD(op, color)` shows it: `color` is used by CLEAR only (R13). -/
inductive HostCommand where
  | INITIALIZE
  | CLEAR (color : Half)
  | UPDATE
  deriving DecidableEq, Repr

/-- The event alphabet (R13). A level is `false` for low, `true` for high. -/
inductive Event where
  | CMD (c : HostCommand)
  | DONE
  | CFG (c m r : Bool)
  | CS (l : Bool)
  | RST (l : Bool)
  | BYTE (b : Byte)
  | BULK (bs : Vector Byte 16)
  | WIDTH (n : BusWidth)
  | WORD (w : Half)
  | DELAY (n : Nat)
  | FBREAD (c g : Nat) (v : Byte)
  deriving DecidableEq, Repr

/-- The framebuffer's bytes by address: strictly rising addresses, and no byte equal to what an unlisted address reads as. -/
abbrev Memory := List Host.Cell

/-- The inputs of the block (R26, R40 to R46, R251): levels that its environment sets between steps. A step changes none of them
but `cmd_valid`, which acceptance takes down (log entry 6: DESIGN CHOICE, safe). -/
structure Inputs where
  /-- The block's reset (R251). -/
  blk_rst : Bool
  /-- The host presents a command (R40). -/
  cmd_valid : Bool
  /-- The command's code (R40, R104). -/
  cmd_op : BitVec 2
  /-- The command's colour (R40). -/
  cmd_color : Half
  /-- The transport completes a `BYTE` (R42). -/
  tx_byte_ack : Bool
  /-- The transport completes a `BULK` (R43). -/
  tx_bulk_ack : Bool
  /-- The delay primitive ends a wait (R46). -/
  dly_done : Bool
  /-- The framebuffer answers a read (R47). -/
  fb_ack : Bool
  /-- The transport's FIFO cannot take another word (R26). -/
  fifo_full : Bool
  /-- Something handed to the transport has not left the wire (R26). -/
  bus_busy : Bool
  /-- The transport puts on the wire what it completes: premise `P_DELIVER` of R256, false in the silent failure of R222. -/
  tx_delivers : Bool
  /-- The model's own: the environment looks at the block after every row of its tables. While it is false the block runs the operation
  that begins to its end or its first wait before the inputs can change (log entry 15: DESIGN CHOICE, safe). -/
  by_rows : Bool
  deriving DecidableEq, Repr

/-- The state outside the block that its events change (R48): the transport's (R37) and the reference receiver's (R76). -/
structure Outside where
  /-- The transport's FIFO-width register (R37). -/
  bus_width : BusWidth
  /-- The words handed to the transport's FIFO that the block's events have not yet found off the wire (R48, R80; log entry 7: DEDUCED,
  safe). -/
  fifo : List Half
  /-- The bytes on the wire since the last `CS(0)` (R11). -/
  rx : List Byte
  /-- Every byte of this burst reached a listening panel in a known form (R80, R86, R207, R256; log entry 8: DESIGN CHOICE, safe). -/
  rx_ok : Bool
  /-- `IR`: the currently selected Register Address, no value until the first Index Frame (R76). -/
  ir : Option Byte
  /-- `PR`: the panel registers that have a value, by rising address (R76). -/
  pr : List (Nat × Half)
  /-- `PIX`: the bulk pixels in arrival order (R76). -/
  pix : List Half
  /-- The panel's state has become undefined and no panel reset of an INITIALIZE has come since (R163, R255, R258; log entry 2: DEDUCED, safe). -/
  panel_lost : Bool
  /-- The model's own counter: how often the panel's state has become undefined (log entry 2: DEDUCED, safe). -/
  panel_free : Nat
  deriving DecidableEq, Repr

/-- The whole state. The names and the meaning of the registers are those of R20. -/
structure State where
  /-- The parameter set the block is built with: constant (R14, R28; log entry 1: DESIGN CHOICE, safe). -/
  par : Build
  /-- The power-on ROM: constant (R65). -/
  rom : List RomStep
  /-- The host's framebuffer; the block only reads it (R61, R62). -/
  fb : Memory
  /-- The inputs. -/
  inp : Inputs
  /-- The transport and the reference receiver. -/
  out : Outside
  q_st : QState
  /-- `PCW` bits: a number from 0 to `N_ROM` in every state that meets `Inv` (R20, R22, R30; log entry 17: DESIGN CHOICE, safe). -/
  pc : Nat
  op : BitVec 2
  color : Half
  fe_st : FeState
  fe_kind : FrameKind
  fe_arg : Half
  fe_bracket : Bool
  fs_st : FsState
  src : PixelSource
  fill_color : Half
  /-- `CW` bits: a number below `2 ^ CW` in every state that meets `Inv` (R20, R25; log entry 17: DESIGN CHOICE, safe). -/
  col : Nat
  /-- `GW` bits: a number below `2 ^ GW` in every state that meets `Inv` (R20, R25; log entry 17: DESIGN CHOICE, safe). -/
  grp : Nat
  bit : Fin 8
  cur : Byte
  scratch : Vector Byte 16
  busy : Bool
  cs_n : Bool
  rst_n : Bool
  mode_sel : Bool
  lines_oe : Bool
  /-- The event the block has put to a collaborator that has not completed it (the `_req` outputs of R42, R43, R46, R47; log entry 9: DEDUCED, safe). -/
  req : Option Event
  /-- The completed events so far, oldest first (R10). -/
  trace : List Event
  deriving DecidableEq, Repr

/-- Why the machine stops with a fault. The block itself traps on nothing (R220, R225): both faults are checks on states that no
run reaches. -/
inductive Fault where
  /-- Raised by a transition in a ROM state (`Q_STEP_IDX`, `Q_STEP_DAT`, `Q_STEP_DLY`) when `pc` names no ROM entry (R60). Safe. -/
  | romOutOfRange
  /-- Raised by a transition in `S_LOAD` when `(col, grp)` is no framebuffer address (R60, R64). Safe. -/
  | framebufferOutOfRange
  deriving DecidableEq, Repr

/-- Why a step has no meaning. -/
inductive Refusal where
  /-- Raised by `exec` alone, for an operation without a meaning yet. Safe. -/
  | notModelled (mnemonic : String)
  /-- Raised by STREAM_BUFFERED, STREAM_BURST and a streamer state of the strategy the block is not built with: it does not
  exist in this block (R25, R170). Safe. -/
  | absentInThisStrategy
  deriving DecidableEq, Repr

/-- The transport, the wire and the receiver before anything is sent (R37, R76, 95_test_vectors section 3). -/
def Outside.quiet : Outside :=
  { bus_width := .W8, fifo := [], rx := [], rx_ok := false, ir := none, pr := [], pix := [], panel_lost := false,
    panel_free := 0 }

/-- Inputs of an environment in which nobody asks for anything and no collaborator holds the block up (P_FAIR and P_DELIVER of R256). -/
def Inputs.calm : Inputs :=
  { blk_rst := false, cmd_valid := false, cmd_op := 0, cmd_color := 0, tx_byte_ack := true, tx_bulk_ack := true,
    dly_done := true, fb_ack := true, fifo_full := false, bus_busy := false, tx_delivers := true,
    by_rows := false }

/-- The reset state of a block built with parameter set `p` (R50). The registers R50 calls unspecified hold zero (log entry 10: DESIGN CHOICE, unsafe). -/
def State.resetOf (p : Build) : State :=
  { par := p, rom := p.rom, fb := [], inp := Inputs.calm, out := Outside.quiet,
    q_st := .Q_IDLE, pc := 0, op := 0, color := 0,
    fe_st := .F_IDLE, fe_kind := .IDX, fe_arg := 0, fe_bracket := false,
    fs_st := .S_IDLE, src := .FB, fill_color := 0, col := 0, grp := 0, bit := 0, cur := 0,
    scratch := #v[0, 0, 0, 0, 0, 0, 0, 0, 0, 0, 0, 0, 0, 0, 0, 0],
    busy := false, cs_n := true, rst_n := true, mode_sel := p.MODE_INIT, lines_oe := false,
    req := none, trace := [] }

/-- The machine right after reset (R50, R252), built with some admitted parameter set (R14; log entry 1: DESIGN CHOICE, safe). -/
def State.reset : State := State.resetOf Config.build

end Sys2Proof.Machine
end

