-- ==== Sys2Proof/Machine/Ops.lean ====
section
/-! DEFINITION. The shared operations: memory in canonical form, the reference receiver, completing an event, asking a
collaborator, and the block's reset. The block has no exception, trap or interrupt to take or to return from (R220, R227, R230
to R232): its one way out of a command is `blk_rst`, written here beside the events. -/

namespace Sys2Proof.Machine

/-! ### Lists of address and value, addresses strictly rising -/

/-- What is listed at address `a`. -/
def cellsFind {α : Type} : List (Nat × α) → Nat → Option α
  | [], _ => none
  | (k, v) :: m, a => if k = a then some v else cellsFind m a

/-- The list with `v` at address `a`, in place. -/
def cellsPut {α : Type} : List (Nat × α) → Nat → α → List (Nat × α)
  | [], a, v => [(a, v)]
  | (k, w) :: m, a, v =>
    if a < k then (a, v) :: (k, w) :: m else if k = a then (a, v) :: m else (k, w) :: cellsPut m a v

/-- The list with nothing at address `a`. -/
def cellsDrop {α : Type} : List (Nat × α) → Nat → List (Nat × α)
  | [], _ => []
  | (k, w) :: m, a => if k = a then m else (k, w) :: cellsDrop m a

/-- Every address of the list is above `a`. -/
def cellsAbove {α : Type} (a : Nat) (m : List (Nat × α)) : Bool := m.all fun kv => decide (a < kv.1)

/-- The addresses are strictly rising. -/
def cellsRising {α : Type} : List (Nat × α) → Bool
  | [] => true
  | (k, _) :: m => cellsAbove k m && cellsRising m

/-! ### The framebuffer -/

/-- What an address of the framebuffer that nothing has written reads as: eight blank pixels (log entry 11: DESIGN CHOICE, unsafe). -/
def Memory.unlisted : Byte := 0x00

/-- The canonical form: rising addresses, no entry equal to what an unlisted address reads as. -/
def Memory.wf (m : Memory) : Bool := cellsRising m && m.all fun kv => kv.2 != Memory.unlisted

/-- Read one byte. -/
def Memory.read (m : Memory) (a : Nat) : Byte := (cellsFind m a).getD Memory.unlisted

/-- Write one byte, keeping the canonical form. The block never does this: it is how the host draws (R62). -/
def Memory.write (m : Memory) (a : Nat) (b : Byte) : Memory :=
  if b = Memory.unlisted then cellsDrop m a else cellsPut m a b

/-- The number under which byte `(c, g)` of a framebuffer with `groups` byte-groups a column is kept (log entry 12: R64 gives the pair
and no linear address). -/
def fbAddr (groups c g : Nat) : Nat := c * groups + g

/-- `byteAt(column, group)` (R47, R61). -/
def fbByte (s : State) (c g : Nat) : Byte := s.fb.read (fbAddr s.par.G c g)

/-- `(c, g)` is an address of the framebuffer (R60). -/
def fbInRange (s : State) (c g : Nat) : Bool := decide (c < s.par.W) && decide (g < s.par.G)

/-! ### The reference receiver (R75 to R79) -/

/-- What the receiver holds. -/
structure Panel where
  ir : Option Byte
  pr : List (Nat × Half)
  pix : List Half
  deriving DecidableEq, Repr

/-- `PR[r] <- v`. -/
def Panel.setReg (p : Panel) (r : Byte) (v : Half) : Panel := { p with pr := cellsPut p.pr r.toNat v }

/-- `PR[r]`, no value until written (R76). -/
def Panel.reg (p : Panel) (r : Byte) : Option Half := cellsFind p.pr r.toNat

/-- One write of a bulk pair to the selected register: to `PIX` for the memory-write register (R79). -/
def Panel.bulkWrite (r : Byte) (p : Panel) (v : Half) : Panel :=
  if r = Config.REG_MEMORY_WRITE then { p with pix := p.pix ++ [v] } else p.setReg r v

/-- The 16-bit values a list of payload bytes carries, high byte first (R67); nothing for an odd number of bytes (R79). -/
def pairs? : List Byte → Option (List Half)
  | [] => some []
  | h :: l :: bs => (pairs? bs).map (join h l :: ·)
  | [_] => none

/-- A bulk burst for register `r` with this payload (R79). -/
def Panel.bulk? (p : Panel) (r : Byte) (payload : List Byte) : Option Panel :=
  (pairs? payload).map fun vs => vs.foldl (Panel.bulkWrite r) { p with ir := some r }

/-- A Data burst: `PR[IR] <- v`, undefined if `IR` has no value (R78). -/
def Panel.data? (p : Panel) (v : Half) : Option Panel := p.ir.map fun r => p.setReg r v

/-- A standalone frame, Index (R77) or Data (R78). -/
def Panel.frame? (p : Panel) (m a b : Byte) : Option Panel :=
  if m = Config.MARK_INDEX ∧ a = Config.INDEX_PAD then some { p with ir := some b }
  else if m = Config.MARK_DATA then p.data? (join a b)
  else none

/-- What follows the Index Frame of a bulk burst (R79). `marker` is `BULK_MARKER`: where the block is built without the data marker, a
bulk burst has none (R171; log entry 13: DEDUCED, unsafe). -/
def Panel.afterIndex? (marker : Bool) (p : Panel) (r d : Byte) (payload : List Byte) : Option Panel :=
  if marker then (if d = Config.MARK_DATA then p.bulk? r payload else none) else p.bulk? r (d :: payload)

/-- What the receiver does with one burst (R77 to R79); nothing where the result is undefined. -/
def Panel.receive? (marker : Bool) (p : Panel) (burst : List Byte) : Option Panel :=
  match burst with
  | [m, a, b] => p.frame? m a b
  | m :: a :: r :: d :: payload =>
    if m = Config.MARK_INDEX ∧ a = Config.INDEX_PAD then p.afterIndex? marker r d payload else none
  | _ => none

/-- The panel whose state is undefined for the `n`-th time: free values, the registers in canonical form (log entry 2: DEDUCED, safe). -/
def Panel.free (n : Nat) : Panel :=
  { ir := Config.freeIR n
    pr := (Config.freePR n).foldl (fun m rv => cellsPut m rv.1.toNat rv.2) []
    pix := Config.freePIX n }

/-- The receiver inside the state. -/
def Outside.panel (o : Outside) : Panel := { ir := o.ir, pr := o.pr, pix := o.pix }

/-- The state with this receiver. -/
def Outside.withPanel (o : Outside) (p : Panel) : Outside := { o with ir := p.ir, pr := p.pr, pix := p.pix }

/-- The panel's state is undefined from here on (R222, R251, U1, U14). -/
def Outside.losePanel (o : Outside) : Outside :=
  { o.withPanel (Panel.free o.panel_free) with panel_lost := true, panel_free := o.panel_free + 1 }

/-- The reset line is released after having been low: from here on the panel's state follows again from what is sent to it (R163, R253, R255). -/
def Outside.panelReset (o : Outside) : Outside := { o with panel_lost := false }

/-! ### Events -/

/-- The two bytes of a word, high byte first (R67, R101). -/
def wordBytes (w : Half) : List Byte := [hi w, lo w]

/-- Everything in the FIFO has left on the wire, in order (R80, R186). -/
def Outside.drain (o : Outside) : Outside :=
  { o with rx := o.rx ++ o.fifo.flatMap wordBytes, fifo := [] }

/-- Bytes have left on the wire, in this order, and before them whatever was queued (R80, D16; log entry 7: DEDUCED, safe). `ok` says that
they reach a listening panel in a known form. -/
def Outside.send (ok : Bool) (bs : List Byte) (o : Outside) : Outside :=
  { o.drain with rx := o.drain.rx ++ bs, rx_ok := o.rx_ok && ok }

/-- `CS(0)`: a burst begins (R11). `listening` says that the line is driven (R207), `busy` is the transport's flag: where it is down, the
words that a `blk_rst` left queued are off the wire and in no burst (R26; log entry 7: DEDUCED, safe). The bytes of a burst that `blk_rst`
left open are dropped (R251; log entry 30: DESIGN CHOICE, unsafe). -/
def Outside.openBurst (listening busy : Bool) (o : Outside) : Outside :=
  { o with rx := [], rx_ok := listening, fifo := if busy then o.fifo else [] }

/-- `CS(1)`: the burst ends and the receiver takes it (R11, R77 to R79). Words still queued, an undriven line, an undelivered byte or a
form R79 leaves out make the panel's state undefined (R81, R207, R222, R267), and it stays so until the panel is reset (R258, U6). Words
still queued stay queued; no row of the tables comes here with any (log entry 7: DEDUCED, safe). Only here, and at `blk_rst`, does the
panel of a burst left partial become undefined (R130, R163); until then it is what it was (log entry 32: DESIGN CHOICE, unsafe). -/
def Outside.closeBurst (marker listening : Bool) (o : Outside) : Outside :=
  let o' := { o with rx := [], rx_ok := false }
  if o.rx_ok && listening && o.fifo.isEmpty && !o.panel_lost then
    match o.panel.receive? marker o.rx with
    | some p => o'.withPanel p
    | none => o'.losePanel
  else o'.losePanel

/-- A byte handed over now is sent in a known form: the transport delivers, is at its narrow width and has no word queued before it
(R80, R256 `P_WIDTH8`, R267). -/
def byteClear (s : State) : Bool :=
  s.inp.tx_delivers && decide (s.out.bus_width = .W8) && s.out.fifo.isEmpty

/-- A word handed over now is sent in a known form: the transport delivers and is at its wide width (R173). -/
def wordClear (s : State) : Bool := s.inp.tx_delivers && decide (s.out.bus_width = .W16)

/-- What completing an event does outside the trace: to the lines (R27), to the transport (R37) and on the wire (R11). -/
def State.act (e : Event) (s : State) : State :=
  match e with
  | .CMD _ => s
  | .DONE => s
  | .CFG c m r => { s with lines_oe := true, cs_n := c, mode_sel := m, rst_n := r }
  | .CS true => { s with cs_n := true, out := s.out.closeBurst s.par.BULK_MARKER s.lines_oe }
  | .CS false => { s with cs_n := false, out := s.out.openBurst s.lines_oe s.inp.bus_busy }
  | .RST l => { s with rst_n := l, out := if l && s.lines_oe && !s.rst_n then s.out.panelReset else s.out }
  | .BYTE b => { s with out := s.out.send (byteClear s) [b] }
  | .BULK bs => { s with out := s.out.send (byteClear s) bs.toList }
  | .WIDTH n => { s with out := { s.out with bus_width := n, rx_ok := s.out.rx_ok && s.out.fifo.isEmpty } }
  | .WORD w => { s with out := { s.out with fifo := s.out.fifo ++ [w], rx_ok := s.out.rx_ok && wordClear s } }
  | .DELAY _ => s
  | .FBREAD _ _ _ => s

/-- `emit E` completed (R17): the event is in the trace, its effect is done, and nothing is asked for any longer. -/
def State.emit (e : Event) (s : State) : State :=
  { s.act e with trace := s.trace ++ [e], req := none }

/-! ### Work that a collaborator can hold up -/

/-- How far a piece of work came: to its end, or to a wait (R224). -/
inductive Run where
  /-- The work is complete. -/
  | done (s : State)
  /-- The block stays where it is until a collaborator moves. -/
  | wait (s : State)
  deriving DecidableEq, Repr

/-- The state it came to. -/
def Run.state : Run → State
  | .done s => s
  | .wait s => s

/-- Go on with `f` where the work so far is complete. -/
def Run.bind (r : Run) (f : State → Run) : Run :=
  match r with
  | .done s => f s
  | .wait s => .wait s

/-- `emit E` toward a collaborator (R17, R80): complete it if the collaborator does, else hold it out and wait (R224). While an event inside
an open burst is held out, for however long, the receiver holds what it held before that burst; R130 and R163 call the panel's state after
a burst that stays partial undefined (log entry 32: DESIGN CHOICE, unsafe). -/
def State.ask (ready : Bool) (e : Event) (s : State) : Run :=
  if ready then .done (s.emit e) else .wait { s with req := some e }

/-! ### The sequencer moves on -/

/-- SEQ goes from `a` to `b`; in any other state it stays. -/
def State.move (a b : QState) (s : State) : State := if s.q_st = a then { s with q_st := b } else s

/-! ### The block's reset -/

/-- A command, a frame or a stream is in progress. -/
def State.inFlight (s : State) : Bool :=
  s.busy || decide (s.q_st ≠ .Q_IDLE) || decide (s.fe_st ≠ .F_IDLE) || decide (s.fs_st ≠ .S_IDLE)

/-- `blk_rst` asserted (R50, R251): the registers take their reset values, the lines are no longer driven, no event is produced;
the transport, the framebuffer and the ROM are not touched; a command in progress is abandoned and leaves the panel's state undefined. -/
def State.blockReset (s : State) : State :=
  { State.resetOf s.par with
    rom := s.rom
    fb := s.fb
    inp := s.inp
    trace := s.trace
    out := if s.inFlight then { s.out.losePanel with rx := [], rx_ok := false } else s.out }

end Sys2Proof.Machine
end

