-- ==== Sys2Proof/Machine/Operands.lean ====
section
/-! DEFINITION. The operand forms: the three bytes of a frame from FE's registers (R128), the pixel of a position (R99, R102), the
expansion of a byte-group (R100), the ROM entry at `pc` (R65), the codes of the sequencer's states (R21), the command port's word (R104). -/

namespace Sys2Proof.Machine

/-- First byte of a frame: the start marker of its kind (R91, R92, R128). -/
def frameByte0 (k : FrameKind) : Byte :=
  match k with
  | .IDX => Config.MARK_INDEX
  | .DAT => Config.MARK_DATA

/-- Second byte of a frame: the pad of an Index Frame, the high byte of a Data Frame (R128). -/
def frameByte1 (k : FrameKind) (arg : Half) : Byte :=
  match k with
  | .IDX => Config.INDEX_PAD
  | .DAT => hi arg

/-- Third byte of a frame: `fe_arg[7:0]` in both kinds (R128). -/
def frameByte2 (arg : Half) : Byte := lo arg

/-- The frame FE's registers hold, as wire bytes. -/
def State.frame (s : State) : List Byte := [frameByte0 s.fe_kind, frameByte1 s.fe_kind s.fe_arg, frameByte2 s.fe_arg]

/-- `px(k)` for a framebuffer byte: filled for a 1 bit, blank for a 0 bit (R99). -/
def maskPixel (p : Params) (b : Byte) (k : Fin 8) : Half :=
  if b.getLsbD k then p.MASK_FILLED else p.MASK_BLANK

/-- `px(k)` of the current group: by `cur` and the masks, or the fill colour whatever the position (R99, R102, R177). -/
def pixel (p : Params) (src : PixelSource) (fill : Half) (b : Byte) (k : Fin 8) : Half :=
  match src with
  | .FB => maskPixel p b k
  | .CONST => fill

/-- `px(k)` from the streamer's registers. -/
def State.px (s : State) (k : Fin 8) : Half := pixel s.par.toParams s.src s.fill_color s.cur k

/-- The scratch layout: `scratch[2k] = px(k)[15:8]`, `scratch[2k+1] = px(k)[7:0]` (R100). -/
def expand (px : Fin 8 → Half) : Vector Byte 16 :=
  #v[hi (px 0), lo (px 0), hi (px 1), lo (px 1), hi (px 2), lo (px 2), hi (px 3), lo (px 3),
     hi (px 4), lo (px 4), hi (px 5), lo (px 5), hi (px 6), lo (px 6), hi (px 7), lo (px 7)]

/-- `ROM[pc]`, nothing where `pc` names no entry (R17, R65). -/
def State.romEntry? (s : State) : Option RomStep := s.rom[s.pc]?

/-- `N_ROM`: the number of ROM entries (R14, R150). -/
def State.romLength (s : State) : Nat := s.rom.length

/-- The code of a sequencer state (R21). -/
def QState.code (q : QState) : Byte :=
  match q with
  | .Q_IDLE => 0
  | .Q_CFG => 1
  | .Q_RST_LO => 2
  | .Q_RST_HOLD => 3
  | .Q_RST_HI => 4
  | .Q_RST_WAIT => 5
  | .Q_STEP_IDX => 6
  | .Q_STEP_DAT => 7
  | .Q_STEP_DLY => 8
  | .Q_STEP_NEXT => 9
  | .Q_FILL => 10
  | .Q_UPD => 11
  | .Q_DONE => 12

/-- The command word on the host port, as three bytes (R104). -/
def Inputs.commandBytes (i : Inputs) : List Byte := [i.cmd_op.setWidth 8, hi i.cmd_color, lo i.cmd_color]

/-- The `cmd_op` code of a command (R104). -/
def HostCommand.code (c : HostCommand) : BitVec 2 :=
  match c with
  | .INITIALIZE => 1
  | .CLEAR _ => 2
  | .UPDATE => 3

end Sys2Proof.Machine
end

