-- ==== Sys2Proof/Machine/Flags.lean ====
section
/-! DEFINITION. The flags (R26). The block has no condition codes and no arithmetic flags: `busy` is set by acceptance and cleared in
`Q_DONE`; `fifo_full` and `bus_busy` are read by the two busy-waits of the burst strategy (R83). -/

namespace Sys2Proof.Machine

/-- The block accepts a command only when `q_st = Q_IDLE` and `busy = 0` (R200, R205). -/
def State.canAccept (s : State) : Bool := decide (s.q_st = .Q_IDLE) && !s.busy

/-- Acceptance: event `CMD`, `op`, `color`, `busy <- 1` (R23, R26, R200). The host takes its request down (log entry 6: DESIGN CHOICE, safe). -/
def State.accept (c : HostCommand) (color : Half) (s : State) : State :=
  { s.emit (.CMD c) with
    op := c.code, color := color, busy := true, inp := { s.inp with cmd_valid := false } }

/-- `busy <- 0`, then `DONE`; the block is ready again (R12, R26, R206). -/
def State.finish (s : State) : State := { ({ s with busy := false }).emit .DONE with q_st := .Q_IDLE }

/-- `wait(fifo_full = 0)` (R184): no event, no timeout. -/
def State.waitFifo (s : State) : Run := if s.inp.fifo_full then .wait s else .done s

/-- `wait(bus_busy = 0)` (R186): no event, no timeout. Once it is over, everything queued has left the wire (R26). -/
def State.waitDrain (s : State) : Run := if s.inp.bus_busy then .wait s else .done { s with out := s.out.drain }

end Sys2Proof.Machine
end

