-- ==== Sys2Proof/Machine/FrameEncoder.lean ====
section
/-! DEFINITION. The frame encoder FE (40_frame_encoder.md): its transition table (R128), a frame run to its end, and SEND_INDEX (R122),
SEND_DATA (R123) and WRITE_REGISTER (R124) over it. -/

namespace Sys2Proof.Machine

/-- FE is started: `fe_kind`, `fe_arg`, `fe_bracket` are written and `fe_st` leaves `F_IDLE` (R24, R128). -/
def State.feStart (k : FrameKind) (arg : Half) (bracket : Bool) (s : State) : State :=
  { s with
    fe_kind := k, fe_arg := arg, fe_bracket := bracket
    fe_st := if bracket then .F_CS_LO else .F_B0
    req := none }

/-- An Index Frame is started: the address goes to `fe_arg[7:0]`, `fe_arg[15:8]` is not written (R128, R160, R180). -/
def State.feStartIndex (r : Byte) (bracket : Bool) (s : State) : State :=
  s.feStart .IDX (setLo s.fe_arg r) bracket

/-- `fe_st` is `F_IDLE` again and the starter that was waiting for it moves: FS from `S_INDEX` (R180, R188), SEQ from `Q_STEP_IDX`
or `Q_STEP_DAT` (R160). -/
def State.feReturn (s : State) : State :=
  match s.fs_st, s.q_st with
  | .S_INDEX, _ => { s with fe_st := .F_IDLE, fs_st := .S_MARK }
  | .S_IDLE, .Q_STEP_IDX => { s with fe_st := .F_IDLE, q_st := .Q_STEP_DAT }
  | .S_IDLE, .Q_STEP_DAT => { s with fe_st := .F_IDLE, q_st := .Q_STEP_DLY }
  | _, _ => { s with fe_st := .F_IDLE }

/-- One row of R128. -/
def feRow (s : State) : Run :=
  match s.fe_st with
  | .F_IDLE => .done s
  | .F_CS_LO => .done { s.emit (.CS false) with fe_st := .F_B0 }
  | .F_B0 => (s.ask s.inp.tx_byte_ack (.BYTE (frameByte0 s.fe_kind))).bind fun s => .done { s with fe_st := .F_B1 }
  | .F_B1 => (s.ask s.inp.tx_byte_ack (.BYTE (frameByte1 s.fe_kind s.fe_arg))).bind fun s => .done { s with fe_st := .F_B2 }
  | .F_B2 =>
    (s.ask s.inp.tx_byte_ack (.BYTE (frameByte2 s.fe_arg))).bind fun s =>
      .done (if s.fe_bracket then { s with fe_st := .F_CS_HI } else s.feReturn)
  | .F_CS_HI => .done (s.emit (.CS true)).feReturn

/-- Rows of R128 until `F_IDLE` or a wait, at most `n`; a frame has at most five. -/
def feRun : Nat → State → Run
  | 0, s => .done s
  | n + 1, s => if s.fe_st = .F_IDLE then .done s else (feRow s).bind (feRun n)

/-- SEND_INDEX in the form FE's input `fe_bracket` selects: standalone, or inside a bulk burst (R122, R125). -/
def sendIndexOp (r : Byte) (s : State) : Run := feRun 5 (s.feStartIndex r s.fe_bracket)

/-- SEND_DATA, always bracketed (R123). -/
def sendDataOp (v : Half) (s : State) : Run := feRun 5 (s.feStart .DAT v true)

/-- WRITE_REGISTER: SEND_INDEX in its standalone form immediately followed by SEND_DATA (R124, R127). -/
def writeRegisterOp (r : Byte) (v : Half) (s : State) : Run :=
  (sendIndexOp r { s with fe_bracket := true }).bind (sendDataOp v)

/-- SEND_INDEX (R122). -/
def execSendIndex (r : Byte) (s : State) : Host.Outcome State Fault Refusal := .next (sendIndexOp r s).state

/-- SEND_DATA (R123). -/
def execSendData (v : Half) (s : State) : Host.Outcome State Fault Refusal := .next (sendDataOp v s).state

/-- WRITE_REGISTER (R124). -/
def execWriteRegister (r : Byte) (v : Half) (s : State) : Host.Outcome State Fault Refusal :=
  .next (writeRegisterOp r v s).state

end Sys2Proof.Machine
end

