-- ==== Sys2Proof/Machine/Sequencer.lean ====
section
/-! DEFINITION. The power-on sequencer's operations (41_power_sequencer.md): DELAY (R143), CONFIG_LINES (R141), RESET_PULSE (R142),
POWER_ON_STEP (R147), and the walk over the ROM (R158). Where SEQ is in the row of R160 that an operation performs, SEQ goes on to the next row. -/

namespace Sys2Proof.Machine

/-- The wait is over and SEQ moves on (R160). `pc <- 0` when the reset pulse has ended (R22, R30). -/
def State.delayReturn (s : State) : State :=
  match s.q_st with
  | .Q_RST_HOLD => { s with q_st := .Q_RST_HI }
  | .Q_RST_WAIT => { s with pc := 0, q_st := .Q_STEP_IDX }
  | .Q_STEP_DLY => { s with q_st := .Q_STEP_NEXT }
  | _ => s

/-- DELAY: one event, complete when the delay primitive ends the wait; no event at all for `n = 0` (R143). -/
def delayOp (n : Nat) (s : State) : Run :=
  if n = 0 then .done s.delayReturn
  else (s.ask s.inp.dly_done (.DELAY n)).bind fun s => .done s.delayReturn

/-- CONFIG_LINES: the three lines become driven outputs at their initial levels, in one event (R141). -/
def configLinesOp (s : State) : Run := .done ((s.emit (.CFG true s.par.MODE_INIT true)).move .Q_CFG .Q_RST_LO)

/-- "Assert hardware reset low" (R142, row `Q_RST_LO` of R160). -/
def resetLow (s : State) : Run := .done ((s.emit (.RST false)).move .Q_RST_LO .Q_RST_HOLD)

/-- "then release reset" (R142, row `Q_RST_HI` of R160). -/
def resetHigh (s : State) : Run := .done ((s.emit (.RST true)).move .Q_RST_HI .Q_RST_WAIT)

/-- RESET_PULSE (R142). -/
def resetPulseOp (s : State) : Run :=
  (((resetLow s).bind (delayOp s.par.T_RST_HOLD)).bind resetHigh).bind (delayOp s.par.T_RST_WAIT)

/-- `pc <- pc + 1` and the choice of the next state (R22, R147, row `Q_STEP_NEXT` of R160): at the end of the ROM the streamer's
operands for the initial clear are written (R157). -/
def State.stepNext (s : State) : State :=
  let s' := { s with pc := s.pc + 1 }
  if s.q_st = .Q_STEP_NEXT then
    if s.pc + 1 = s.romLength then
      { s' with src := .CONST, fill_color := s.par.INIT_CLEAR_COLOR, q_st := .Q_FILL }
    else { s' with q_st := .Q_STEP_IDX }
  else s'

/-- POWER_ON_STEP: a register write, its delay, the next `pc` (R147). -/
def powerOnStepOp (reg : Byte) (val : Half) (dly : Nat) (s : State) : Run :=
  ((writeRegisterOp reg val s).bind (delayOp dly)).bind fun s => .done s.stepNext

/-- `while pc != N_ROM: POWER_ON_STEP(ROM[pc])`, at most `n` entries (R158, R161). -/
def romWalk : Nat → State → Run
  | 0, s => .done s
  | n + 1, s =>
    match s.romEntry? with
    | some e => (powerOnStepOp e.reg e.val e.dly s).bind (romWalk n)
    | none => .done s

/-- DELAY (R143). -/
def execDelay (n : Nat) (s : State) : Host.Outcome State Fault Refusal := .next (delayOp n s).state

/-- CONFIG_LINES (R141). -/
def execConfigLines (s : State) : Host.Outcome State Fault Refusal := .next (configLinesOp s).state

/-- RESET_PULSE (R142). -/
def execResetPulse (s : State) : Host.Outcome State Fault Refusal := .next (resetPulseOp s).state

/-- POWER_ON_STEP (R147). -/
def execPowerOnStep (reg : Byte) (val : Half) (dly : Nat) (s : State) : Host.Outcome State Fault Refusal :=
  .next (powerOnStepOp reg val dly s).state

end Sys2Proof.Machine
end

