-- ==== Sys2Proof/Machine/Streamer.lean ====
section
/-! DEFINITION. The framebuffer streamer FS (42_framebuffer_streamer.md): its transition table (R180 to R188), a stream run to its end,
and STREAM_BUFFERED (R172) and STREAM_BURST (R173) over it. -/

namespace Sys2Proof.Machine

/-- `S_MARK` done: `col <- W - 1`, `grp <- 0`, then `S_WIDE` or `S_LOAD` (R180, R188). -/
def State.afterMark (s : State) : State :=
  { s with
    col := s.par.W - 1, grp := 0
    fs_st := match s.par.STRATEGY with
      | .BURST => .S_WIDE
      | .BUFFERED => .S_LOAD }

/-- `S_LOAD` done, with `cur` read or left alone: in the burst strategy `bit <- 0` (R182, R188). -/
def State.afterLoad (s : State) : State :=
  match s.par.STRATEGY with
  | .BURST => { s with bit := 0, fs_st := .S_PUSH }
  | .BUFFERED => { s with fs_st := .S_EXPAND }

/-- `S_PUSH` done: the next bit, or `S_ADV` after bit 7 (R184). -/
def State.afterPush (s : State) : State :=
  if s.bit = 7 then { s with fs_st := .S_ADV } else { s with bit := s.bit + 1 }

/-- `S_ADV`: the next group, else the next column, else the end; the test `col = 0` comes before any decrement (R187). -/
def State.advance (s : State) : State :=
  if s.grp ≠ s.par.G - 1 then { s with grp := s.grp + 1, fs_st := .S_LOAD }
  else if s.col ≠ 0 then { s with col := s.col - 1, grp := 0, fs_st := .S_LOAD }
  else
    { s with
      fs_st := match s.par.STRATEGY with
        | .BURST => .S_DRAIN
        | .BUFFERED => .S_CS_HI }

/-- `fs_st` is `S_IDLE` again and SEQ, waiting in `Q_FILL` or `Q_UPD`, goes to `Q_DONE` (R206). -/
def State.fsReturn (s : State) : State :=
  match s.q_st with
  | .Q_FILL => { s with fs_st := .S_IDLE, q_st := .Q_DONE }
  | .Q_UPD => { s with fs_st := .S_IDLE, q_st := .Q_DONE }
  | _ => { s with fs_st := .S_IDLE }

/-- `FbRead(col, grp)` into `cur` (R17, R182): the framebuffer byte of this moment (R62). -/
def loadByte (s : State) : Run :=
  (s.ask s.inp.fb_ack (.FBREAD s.col s.grp (fbByte s s.col s.grp))).bind fun t =>
    .done { t with cur := fbByte s s.col s.grp }

/-- One row of R188. -/
def fsRow (s : State) : Run :=
  match s.fs_st with
  | .S_IDLE => .done s
  | .S_CS_LO => .done { s.emit (.CS false) with fs_st := .S_INDEX }
  | .S_INDEX => .done (s.feStartIndex Config.REG_MEMORY_WRITE false)
  | .S_MARK =>
    if s.par.BULK_MARKER then
      (s.ask s.inp.tx_byte_ack (.BYTE Config.MARK_DATA)).bind fun s => .done s.afterMark
    else .done s.afterMark
  | .S_WIDE => .done { s.emit (.WIDTH .W16) with fs_st := .S_LOAD }
  | .S_LOAD =>
    match s.src with
    | .FB => (loadByte s).bind fun s => .done s.afterLoad
    | .CONST => .done s.afterLoad
  | .S_EXPAND => .done { s with scratch := expand s.px, fs_st := .S_BULK }
  | .S_BULK => (s.ask s.inp.tx_bulk_ack (.BULK s.scratch)).bind fun s => .done { s with fs_st := .S_ADV }
  | .S_PUSH => s.waitFifo.bind fun s => .done (s.emit (.WORD (s.px s.bit))).afterPush
  | .S_ADV => .done s.advance
  | .S_DRAIN => s.waitDrain.bind fun s => .done { s with fs_st := .S_NARROW }
  | .S_NARROW => .done { s.emit (.WIDTH .W8) with fs_st := .S_CS_HI }
  | .S_CS_HI => .done (s.emit (.CS true)).fsReturn

/-- One row of the machine that is at work inside a stream: FE while it sends the Index Frame, else FS (R52). -/
def streamRow (s : State) : Run := if s.fe_st = .F_IDLE then fsRow s else feRow s

/-- Rows until `S_IDLE` or a wait, at most `n`. -/
def streamRun : Nat → State → Run
  | 0, s => .done s
  | n + 1, s => if s.fs_st = .S_IDLE then .done s else (streamRow s).bind (streamRun n)

/-- Enough rows for one stream: at most ten for the header and trailer and ten for each byte-group (R188, R190). -/
def streamRows (p : Params) : Nat := 10 + 10 * (p.W * p.G)

/-- FS is started: `fs_st` leaves `S_IDLE` (R188). Its operands stand in `src` and `fill_color` (R25). -/
def State.fsStart (s : State) : State := { s with fs_st := .S_CS_LO, req := none }

/-- STREAM, in the strategy the block is built with (R171, R189). -/
def streamOp (s : State) : Run := streamRun (streamRows s.par.toParams) s.fsStart

/-- STREAM_BUFFERED (R172); it does not exist in a block built for the burst strategy (R170). -/
def execStreamBuffered (s : State) : Host.Outcome State Fault Refusal :=
  match s.par.STRATEGY with
  | .BUFFERED => .next (streamOp s).state
  | .BURST => .refused .absentInThisStrategy

/-- STREAM_BURST (R173); it does not exist in a block built for the buffered strategy (R170). -/
def execStreamBurst (s : State) : Host.Outcome State Fault Refusal :=
  match s.par.STRATEGY with
  | .BURST => .next (streamOp s).state
  | .BUFFERED => .refused .absentInThisStrategy

end Sys2Proof.Machine
end

