-- ==== Sys2Proof/Machine/Commands.lean ====
section
/-! DEFINITION. The host commands INITIALIZE (R201), CLEAR (R203) and UPDATE (R202): acceptance, the command's body and `DONE`. A command
presented when the block cannot accept one has no effect (R205). -/

namespace Sys2Proof.Machine

/-- Acceptance of INITIALIZE: `color` is latched from the port and read by nothing; SEQ goes to `Q_CFG` (R200, R206). -/
def State.acceptInitialize (s : State) : State :=
  { s.accept .INITIALIZE s.inp.cmd_color with q_st := .Q_CFG }

/-- Acceptance of CLEAR: the streamer's operands are written and SEQ goes to `Q_FILL` (R200, R206). -/
def State.acceptClear (color : Half) (s : State) : State :=
  { s.accept (.CLEAR color) color with src := .CONST, fill_color := color, q_st := .Q_FILL }

/-- Acceptance of UPDATE: the framebuffer is the source and SEQ goes to `Q_UPD`; `color` is latched and read by nothing (R200, R206). -/
def State.acceptUpdate (s : State) : State :=
  { s.accept .UPDATE s.inp.cmd_color with src := .FB, q_st := .Q_UPD }

/-- `busy <- 0; emit DONE` (R206). -/
def finishOp (s : State) : Run := .done s.finish

/-- INITIALIZE: configure the lines, pulse the panel's reset, walk the ROM, fill the panel, report (R158, R201). -/
def initializeOp (s : State) : Run :=
  ((((configLinesOp s.acceptInitialize).bind resetPulseOp).bind (romWalk s.romLength)).bind streamOp).bind finishOp

/-- CLEAR: stream the constant colour, report (R203). -/
def clearOp (color : Half) (s : State) : Run := (streamOp (s.acceptClear color)).bind finishOp

/-- UPDATE: stream the framebuffer, report (R202). -/
def updateOp (s : State) : Run := (streamOp s.acceptUpdate).bind finishOp

/-- INITIALIZE (R201); without effect where the block cannot accept a command (R205). -/
def execHostInitialize (s : State) : Host.Outcome State Fault Refusal :=
  .next (if s.canAccept then (initializeOp s).state else s)

/-- CLEAR (R203); without effect where the block cannot accept a command (R205). -/
def execHostClear (color : Half) (s : State) : Host.Outcome State Fault Refusal :=
  .next (if s.canAccept then (clearOp color s).state else s)

/-- UPDATE (R202); without effect where the block cannot accept a command (R205). -/
def execHostUpdate (s : State) : Host.Outcome State Fault Refusal :=
  .next (if s.canAccept then (updateOp s).state else s)

end Sys2Proof.Machine
end

