-- ==== Sys2Proof/Machine/Dispatch.lean ====
section
/-! DEFINITION. One arm per operation of spec/opcode_table.json: the call of its meaning. -/

namespace Sys2Proof.Machine

def exec (i : Instr) (s : State) : Host.Outcome State Fault Refusal :=
  match i with
  | .sendIndex r => Sys2Proof.Machine.execSendIndex r s
  | .sendData v => Sys2Proof.Machine.execSendData v s
  | .writeRegister r v => Sys2Proof.Machine.execWriteRegister r v s
  | .powerOnStep reg val dly => Sys2Proof.Machine.execPowerOnStep reg val dly s
  | .delay n => Sys2Proof.Machine.execDelay n s
  | .configLines => Sys2Proof.Machine.execConfigLines s
  | .resetPulse => Sys2Proof.Machine.execResetPulse s
  | .streamBuffered => Sys2Proof.Machine.execStreamBuffered s
  | .streamBurst => Sys2Proof.Machine.execStreamBurst s
  | .hostInitialize => Sys2Proof.Machine.execHostInitialize s
  | .hostClear color => Sys2Proof.Machine.execHostClear color s
  | .hostUpdate => Sys2Proof.Machine.execHostUpdate s

end Sys2Proof.Machine
end

