-- ==== Sys2Proof/Machine/Fetch.lean ====
section
/-! DEFINITION. What a step runs: the operation that begins in the present state (R105: a command on the port, a sequencer state, the
ROM entry at `pc`, a frame FE has been started with), or else one row of the transition tables (R128, R160, R188, R206), by which work
that had to wait goes on (R224). Also the placing of an operation where the next step fetches it. -/

namespace Sys2Proof.Machine

/-! ### One row of the transition tables -/

/-- The states of FS that a block built with strategy `st` has (R25). -/
def fsPresent (st : Strategy) (f : FsState) : Bool :=
  match f with
  | .S_WIDE => st == .BURST
  | .S_PUSH => st == .BURST
  | .S_DRAIN => st == .BURST
  | .S_NARROW => st == .BURST
  | .S_EXPAND => st == .BUFFERED
  | .S_BULK => st == .BUFFERED
  | .S_IDLE => true
  | .S_CS_LO => true
  | .S_INDEX => true
  | .S_MARK => true
  | .S_LOAD => true
  | .S_ADV => true
  | .S_CS_HI => true

/-- One row of FS, with the checks of R25 and R60 on states no run reaches. -/
def fsTick (s : State) : Host.Outcome State Fault Refusal :=
  if !fsPresent s.par.STRATEGY s.fs_st then .refused .absentInThisStrategy
  else if s.fs_st = .S_LOAD ∧ s.src = .FB ∧ fbInRange s s.col s.grp = false then .fault .framebufferOutOfRange
  else .next (fsRow s).state

/-- The operation on the command port (R104); nothing where no command is presented or its code is reserved. -/
def portCommand (s : State) : Option Instr :=
  if s.inp.cmd_valid then (decode s.par.STRATEGY .cmd s.inp.commandBytes).instr? else none

/-- Row `Q_IDLE` of R206: a command is accepted, or nothing happens. -/
def acceptRow (s : State) : State :=
  if s.canAccept then
    match portCommand s with
    | some .hostInitialize => s.acceptInitialize
    | some (.hostClear color) => s.acceptClear color
    | some .hostUpdate => s.acceptUpdate
    | _ => s
  else s

/-- A row that reads `ROM[pc]`. -/
def withRomEntry (s : State) (f : RomStep → State) : Host.Outcome State Fault Refusal :=
  match s.romEntry? with
  | some e => .next (f e)
  | none => .fault .romOutOfRange

/-- One row of SEQ (R160, R206). -/
def seqTick (s : State) : Host.Outcome State Fault Refusal :=
  match s.q_st with
  | .Q_IDLE => .next (acceptRow s)
  | .Q_CFG => .next (configLinesOp s).state
  | .Q_RST_LO => .next (resetLow s).state
  | .Q_RST_HOLD => .next (delayOp s.par.T_RST_HOLD s).state
  | .Q_RST_HI => .next (resetHigh s).state
  | .Q_RST_WAIT => .next (delayOp s.par.T_RST_WAIT s).state
  | .Q_STEP_IDX => withRomEntry s fun e => s.feStartIndex e.reg true
  | .Q_STEP_DAT => withRomEntry s fun e => s.feStart .DAT e.val true
  | .Q_STEP_DLY => withRomEntry s fun e => (delayOp e.dly s).state
  | .Q_STEP_NEXT => .next s.stepNext
  | .Q_FILL => .next s.fsStart
  | .Q_UPD => .next s.fsStart
  | .Q_DONE => .next s.finish

/-- One row of the one machine that is at work (R52). -/
def tick (s : State) : Host.Outcome State Fault Refusal :=
  if s.fe_st ≠ .F_IDLE then .next (feRow s).state
  else if s.fs_st ≠ .S_IDLE then fsTick s
  else seqTick s

/-! ### The operation that begins here -/

/-- FE has been started and has asked for nothing yet (R24, R128); a frame that waits for its first byte goes on row by row (R130). -/
def State.frameBegins (s : State) : Bool :=
  decide (s.fe_st = .F_CS_LO)
    || (decide (s.fe_st = .F_B0) && !s.fe_bracket && decide (s.fe_kind = .IDX) && s.req.isNone)

/-- The frame FE was started with: the first half of a register write when SEQ is in `Q_STEP_IDX`, else a frame on its own (R105). -/
def frameFetch (s : State) : Option Instr :=
  if s.fs_st = .S_IDLE ∧ s.q_st = .Q_STEP_IDX ∧ s.fe_kind = .IDX ∧ s.fe_bracket = true then
    s.romEntry?.map fun e => .writeRegister (frameByte2 s.fe_arg) e.val
  else (decode s.par.STRATEGY .wire s.frame).instr?

/-- The operation the sequencer's state selects (R105). -/
def seqFetch (s : State) : Option Instr :=
  match s.q_st with
  | .Q_IDLE => if s.canAccept then portCommand s else none
  | .Q_CFG => (decode s.par.STRATEGY .seq [s.q_st.code]).instr?
  | .Q_RST_LO => (decode s.par.STRATEGY .seq [s.q_st.code]).instr?
  | .Q_RST_HOLD => some (.delay s.par.T_RST_HOLD)
  | .Q_RST_HI => none
  | .Q_RST_WAIT => some (.delay s.par.T_RST_WAIT)
  | .Q_STEP_IDX => s.romEntry?.map fun e => .powerOnStep e.reg e.val e.dly
  | .Q_STEP_DAT => s.romEntry?.map fun e => .sendData e.val
  | .Q_STEP_DLY => s.romEntry?.map fun e => .delay e.dly
  | .Q_STEP_NEXT => none
  | .Q_FILL => some (streamOf s.par.STRATEGY)
  | .Q_UPD => some (streamOf s.par.STRATEGY)
  | .Q_DONE => none

/-- The operation that begins in this state, nothing where the state lies inside one or waits. -/
def fetch (s : State) : Option Instr :=
  if s.frameBegins then frameFetch s
  else if s.fe_st = .F_IDLE ∧ s.fs_st = .S_IDLE then seqFetch s
  else none

/-! ### Placing an operation where the next step fetches it (log entry 14: DESIGN CHOICE, safe) -/

/-- Out of reset, the operation run as a whole, no frame and no stream in progress, nothing asked for. -/
def State.rested (s : State) : State :=
  { s with inp := { s.inp with blk_rst := false, by_rows := false }, fe_st := .F_IDLE, fs_st := .S_IDLE, req := none }

/-- `e` is ROM entry 0, and `pc` points at it. -/
def State.romPut (e : RomStep) (s : State) : State := { s with rom := e :: s.rom.drop 1, pc := 0 }

/-- What ROM entry 0 holds, for the fields a placing leaves alone. -/
def State.romHead (s : State) : RomStep :=
  match s.rom with
  | e :: _ => e
  | [] => ⟨0, 0, 0⟩

/-- The state in which operation `i` begins. -/
def placeInstr (i : Instr) (s : State) : State :=
  match i with
  | .sendIndex r => { s.rested with q_st := .Q_IDLE }.feStartIndex r true
  | .sendData v => { s.rested with q_st := .Q_IDLE }.feStart .DAT v true
  | .writeRegister r v =>
    ({ s.rested with q_st := .Q_STEP_IDX }.romPut { s.romHead with reg := r, val := v }).feStartIndex r true
  | .powerOnStep reg val dly => { s.rested with q_st := .Q_STEP_IDX }.romPut ⟨reg, val, dly⟩
  | .delay n => { s.rested with q_st := .Q_STEP_DLY }.romPut { s.romHead with dly := n }
  | .configLines => { s.rested with q_st := .Q_CFG }
  | .resetPulse => { s.rested with q_st := .Q_RST_LO }
  | .streamBuffered => { s.rested with q_st := match s.src with | .CONST => .Q_FILL | .FB => .Q_UPD }
  | .streamBurst => { s.rested with q_st := match s.src with | .CONST => .Q_FILL | .FB => .Q_UPD }
  | .hostInitialize => s.rested
  | .hostClear _ => s.rested
  | .hostUpdate => s.rested

/-- A command word stands on the port and the block is idle. -/
def placeCommand (w : Nat) (s : State) : State :=
  let t := s.rested
  { t with
    q_st := .Q_IDLE, busy := false
    inp := { t.inp with
      cmd_valid := true, cmd_op := BitVec.ofNat 2 (w / 65536), cmd_color := BitVec.ofNat 16 w } }

/-- The word of the table (numbered as the table numbers it) placed where the next step fetches it. A word that no place decodes changes nothing. -/
def placeWord (s : State) (nbits w : Nat) : State :=
  match tableFormat ((nbits + 7) / 8) w with
  | some .cmd => placeCommand w s
  | some f =>
    match (decode s.par.STRATEGY f (bytesOf ((nbits + 7) / 8) w)).instr? with
    | some i => placeInstr i s
    | none => s
  | none => s

end Sys2Proof.Machine
end

