-- ==== Sys2Proof/Machine/Step.lean ====
section
/-! DEFINITION. The step of the machine, and the placing of a table word for its next step. -/

namespace Sys2Proof.Machine

/-- One step. While `blk_rst` is asserted the block holds its reset values (R229, R251). Else the operation that begins in this state is
run, to its end or to the first wait; where none begins, and where the environment looks after every row, the machine that is at work
performs one row of its table (R128, R160, R188, R206; log entry 15: DESIGN CHOICE, safe). -/
def step (s : State) : Host.Outcome State Fault Refusal :=
  if s.inp.blk_rst then .next s.blockReset
  else if s.inp.by_rows then tick s
  else
    match fetch s with
    | some i => exec i s
    | none => tick s

/-- `s` with the instruction of the table word `w` where `step` fetches its next one. -/
def State.withFetchWord (s : State) (nbits w : Nat) : State := placeWord s nbits w

end Sys2Proof.Machine
end

