-- ==== Sys2Proof/Machine/Traces.lean ====
section
/-! DEFINITION. What claims about traces speak of: the wire and timing projections (R11), and the event lists the big-step rules write out
(R122 to R124, R141 to R143, R147, R158, R171 to R173), as functions of operands and parameters alone. -/

namespace Sys2Proof.Machine

/-! ### Projections of a trace -/

/-- The bytes an event puts on the wire (R11). -/
def eventBytes (e : Event) : List Byte :=
  match e with
  | .BYTE b => [b]
  | .BULK bs => bs.toList
  | .WORD w => wordBytes w
  | .CMD _ => []
  | .DONE => []
  | .CFG _ _ _ => []
  | .CS _ => []
  | .RST _ => []
  | .WIDTH _ => []
  | .DELAY _ => []
  | .FBREAD _ _ _ => []

/-- The bursts of a trace, given the bytes since a `CS(0)` that no `CS(1)` has closed yet. A second `CS(0)` before any `CS(1)` (a `blk_rst`
inside a burst, then a new command) begins the burst anew, and the bytes of the abandoned one are in no burst; R11 says nothing of this
case (log entry 30: DESIGN CHOICE, unsafe). -/
def wireFrom : Option (List Byte) → List Event → List (List Byte)
  | _, [] => []
  | _, .CS false :: es => wireFrom (some []) es
  | none, .CS true :: es => wireFrom none es
  | some bs, .CS true :: es => bs :: wireFrom none es
  | burst, e :: es => wireFrom (burst.map (· ++ eventBytes e)) es

/-- `wire(trace)`: the bursts, each the bytes between a `CS(0)` and the next `CS(1)` (R11). -/
def wire (es : List Event) : List (List Byte) := wireFrom none es

/-- The event is kept in the timing projection (R11). -/
def isTiming (e : Event) : Bool :=
  match e with
  | .CFG _ _ _ => true
  | .RST _ => true
  | .DELAY _ => true
  | .CMD _ => false
  | .DONE => false
  | .CS _ => false
  | .BYTE _ => false
  | .BULK _ => false
  | .WIDTH _ => false
  | .WORD _ => false
  | .FBREAD _ _ _ => false

/-- The timed events alone: `DELAY`, `RST` and `CFG` in their trace order (R11); beside the bursts they stand in `observe`. -/
def timing (es : List Event) : List Event := es.filter isTiming

/-- What stands in a trace for an observer of wire and time (R11): a burst, or an event of the timing projection. -/
inductive Observed where
  | burst (bs : List Byte)
  | timed (e : Event)
  deriving DecidableEq, Repr

/-- The bursts and the timed events of a trace in their order, given the bytes since a `CS(0)` that no `CS(1)` has closed yet. A burst stands
where its `CS(1)` is; abandoned bursts are as in `wireFrom` (log entry 30: DESIGN CHOICE, unsafe). -/
def observeFrom : Option (List Byte) → List Event → List Observed
  | _, [] => []
  | _, .CS false :: es => observeFrom (some []) es
  | none, .CS true :: es => observeFrom none es
  | some bs, .CS true :: es => .burst bs :: observeFrom none es
  | burst, e :: es =>
    (if isTiming e then [.timed e] else []) ++ observeFrom (burst.map (· ++ eventBytes e)) es

/-- Both projections of R11 in one: the `DELAY`, `RST` and `CFG` events beside the bursts in their trace order. -/
def observe (es : List Event) : List Observed := observeFrom none es

/-- The milliseconds of an event, 0 for any other than `DELAY`. -/
def eventDelay (e : Event) : Nat :=
  match e with
  | .DELAY n => n
  | _ => 0

/-- The sum of the `DELAY` arguments of a trace (R159). -/
def totalDelay (es : List Event) : Nat := (es.map eventDelay).sum

/-! ### Kinds of event, for counting (R190) -/

/-- A framebuffer read. -/
def isRead (e : Event) : Bool :=
  match e with
  | .FBREAD _ _ _ => true
  | .CMD _ => false
  | .DONE => false
  | .CFG _ _ _ => false
  | .CS _ => false
  | .RST _ => false
  | .BYTE _ => false
  | .BULK _ => false
  | .WIDTH _ => false
  | .WORD _ => false
  | .DELAY _ => false

/-- A single byte handed to the transport. -/
def isByte (e : Event) : Bool :=
  match e with
  | .BYTE _ => true
  | .CMD _ => false
  | .DONE => false
  | .CFG _ _ _ => false
  | .CS _ => false
  | .RST _ => false
  | .BULK _ => false
  | .WIDTH _ => false
  | .WORD _ => false
  | .DELAY _ => false
  | .FBREAD _ _ _ => false

/-- A bulk transfer of 16 bytes. -/
def isBulk (e : Event) : Bool :=
  match e with
  | .BULK _ => true
  | .CMD _ => false
  | .DONE => false
  | .CFG _ _ _ => false
  | .CS _ => false
  | .RST _ => false
  | .BYTE _ => false
  | .WIDTH _ => false
  | .WORD _ => false
  | .DELAY _ => false
  | .FBREAD _ _ _ => false

/-- A 16-bit word handed to the transport's FIFO. -/
def isWord (e : Event) : Bool :=
  match e with
  | .WORD _ => true
  | .CMD _ => false
  | .DONE => false
  | .CFG _ _ _ => false
  | .CS _ => false
  | .RST _ => false
  | .BYTE _ => false
  | .BULK _ => false
  | .WIDTH _ => false
  | .DELAY _ => false
  | .FBREAD _ _ _ => false

/-- A change of the transport's word size. -/
def isWidth (e : Event) : Bool :=
  match e with
  | .WIDTH _ => true
  | .CMD _ => false
  | .DONE => false
  | .CFG _ _ _ => false
  | .CS _ => false
  | .RST _ => false
  | .BYTE _ => false
  | .BULK _ => false
  | .WORD _ => false
  | .DELAY _ => false
  | .FBREAD _ _ _ => false

/-- An edge of chip-select. -/
def isChipSelect (e : Event) : Bool :=
  match e with
  | .CS _ => true
  | .CMD _ => false
  | .DONE => false
  | .CFG _ _ _ => false
  | .RST _ => false
  | .BYTE _ => false
  | .BULK _ => false
  | .WIDTH _ => false
  | .WORD _ => false
  | .DELAY _ => false
  | .FBREAD _ _ _ => false

/-- The column and group a framebuffer read names. -/
def readPlace (e : Event) : Option (Nat × Nat) :=
  match e with
  | .FBREAD c g _ => some (c, g)
  | .CMD _ => none
  | .DONE => none
  | .CFG _ _ _ => none
  | .CS _ => none
  | .RST _ => none
  | .BYTE _ => none
  | .BULK _ => none
  | .WIDTH _ => none
  | .WORD _ => none
  | .DELAY _ => none

/-! ### The lists of the big-step rules -/

/-- A frame's events, with or without its own bracket (R122, R123, R125). -/
def frameTrace (bracket : Bool) (bs : List Byte) : List Event :=
  if bracket then .CS false :: bs.map Event.BYTE ++ [.CS true] else bs.map Event.BYTE

/-- SEND_INDEX (R122). -/
def indexTrace (bracket : Bool) (r : Byte) : List Event := frameTrace bracket (indexFrame r)

/-- SEND_DATA (R123). -/
def dataTrace (v : Half) : List Event := frameTrace true (dataFrame v)

/-- WRITE_REGISTER (R124). -/
def writeTrace (r : Byte) (v : Half) : List Event := indexTrace true r ++ dataTrace v

/-- DELAY (R143): no event for 0. -/
def delayTrace (n : Nat) : List Event := if n = 0 then [] else [.DELAY n]

/-- CONFIG_LINES (R141). -/
def configTrace (p : Params) : List Event := [.CFG true p.MODE_INIT true]

/-- RESET_PULSE (R142). -/
def resetTrace (p : Params) : List Event :=
  [.RST false, .DELAY p.T_RST_HOLD, .RST true, .DELAY p.T_RST_WAIT]

/-- POWER_ON_STEP (R147). -/
def stepTrace (e : RomStep) : List Event := writeTrace e.reg e.val ++ delayTrace e.dly

/-- Every ROM step in order (R158). -/
def romTrace (rom : List RomStep) : List Event := rom.flatMap stepTrace

/-- The eight positions of a byte-group, in the order they are sent (R68, R176). -/
def positions : List (Fin 8) := [0, 1, 2, 3, 4, 5, 6, 7]

/-- The columns in the order they are visited: `W-1, ..., 0` (R176). -/
def columns (w : Nat) : List Nat := (List.range w).reverse

/-- The read of one group, which only the framebuffer source makes (R172, R176). -/
def readTrace (src : PixelSource) (fb : Nat → Nat → Byte) (c g : Nat) : List Event :=
  match src with
  | .FB => [.FBREAD c g (fb c g)]
  | .CONST => []

/-- The pixels of one group as the strategy hands them over (R172, R173). -/
def pixelTrace (p : Params) (src : PixelSource) (fill : Half) (b : Byte) : List Event :=
  match p.STRATEGY with
  | .BUFFERED => [.BULK (expand (pixel p src fill b))]
  | .BURST => positions.map fun k => .WORD (pixel p src fill b k)

/-- One group of a stream. -/
def groupTrace (p : Params) (src : PixelSource) (fill : Half) (fb : Nat → Nat → Byte) (c g : Nat) : List Event :=
  readTrace src fb c g ++ pixelTrace p src fill (fb c g)

/-- All groups of a stream, columns from last to first, groups ascending (R176). -/
def groupsTrace (p : Params) (src : PixelSource) (fill : Half) (fb : Nat → Nat → Byte) : List Event :=
  (columns p.W).flatMap fun c => (List.range p.G).flatMap fun g => groupTrace p src fill fb c g

/-- The data marker, where the block is built with it (R94, R180). -/
def markerTrace (p : Params) : List Event := if p.BULK_MARKER then [.BYTE Config.MARK_DATA] else []

/-- The widening of the word size, in the burst strategy (R173, R181). -/
def widenTrace (p : Params) : List Event :=
  match p.STRATEGY with
  | .BUFFERED => []
  | .BURST => [.WIDTH .W16]

/-- The narrowing of the word size, in the burst strategy (R173, R185). -/
def narrowTrace (p : Params) : List Event :=
  match p.STRATEGY with
  | .BUFFERED => []
  | .BURST => [.WIDTH .W8]

/-- The head of a stream, up to its first group. -/
def headTrace (p : Params) : List Event :=
  .CS false :: indexTrace false Config.REG_MEMORY_WRITE ++ markerTrace p ++ widenTrace p

/-- The end of a stream, after its last group. -/
def tailTrace (p : Params) : List Event := narrowTrace p ++ [.CS true]

/-- STREAM (R171 to R173). -/
def streamTrace (p : Params) (src : PixelSource) (fill : Half) (fb : Nat → Nat → Byte) : List Event :=
  headTrace p ++ groupsTrace p src fill fb ++ tailTrace p

/-- The body of INITIALIZE (R158). -/
def initializeTrace (p : Params) (rom : List RomStep) : List Event :=
  configTrace p ++ resetTrace p ++ romTrace rom
    ++ streamTrace p .CONST p.INIT_CLEAR_COLOR (fun _ _ => 0)

/-! ### The wire image of a stream -/

/-- The `n`-th pixel of a stream (R171): `c = W - 1 - (n div H)`, `g = (n mod H) div 8`, `k = n mod 8`. -/
def streamPixel (p : Params) (src : PixelSource) (fill : Half) (fb : Nat → Nat → Byte) (n : Nat) : Half :=
  pixel p src fill (fb (p.W - 1 - n / p.H) (n % p.H / 8)) (Fin.ofNat 8 n)

/-- All pixels of a stream in order, `W * H` of them (R171). -/
def streamPixels (p : Params) (src : PixelSource) (fill : Half) (fb : Nat → Nat → Byte) : List Half :=
  (List.range (p.W * p.H)).map (streamPixel p src fill fb)

/-- The one burst of a stream (R94, R171). -/
def streamBurst (p : Params) (src : PixelSource) (fill : Half) (fb : Nat → Nat → Byte) : List Byte :=
  indexFrame Config.REG_MEMORY_WRITE ++ (if p.BULK_MARKER then [Config.MARK_DATA] else [])
    ++ (streamPixels p src fill fb).flatMap wordBytes

/-- Logical pixel `(x, y)` of the framebuffer: bit `y mod 8` of byte `FB[x][y div 8]` (R61). -/
def logicalPixel (fb : Nat → Nat → Byte) (x y : Nat) : Bool := (fb x (y / 8)).getLsbD (y % 8)

end Sys2Proof.Machine
end

