-- ==== Sys2Proof/Safety.lean ====
section
/-! DEFINITION. What claims about runs speak of: the launch premises of R256, runs of single table rows, the stages of the panel's power-up (R241),
and the invariant of the machine (R20, R52, R60, R204). -/

namespace Sys2Proof.Machine

/-! ### Premises (R256) -/

/-- Every collaborator completes at once and no flag holds the block up: `P_FAIR` at its strongest, for claims about one operation. -/
def State.collaboratorsReady (s : State) : Bool :=
  s.inp.tx_byte_ack && s.inp.tx_bulk_ack && s.inp.dly_done && s.inp.fb_ack && !s.inp.fifo_full && !s.inp.bus_busy

/-- `P_IDLE`. -/
def State.idle (s : State) : Bool :=
  decide (s.q_st = .Q_IDLE) && decide (s.fe_st = .F_IDLE) && decide (s.fs_st = .S_IDLE) && !s.busy

/-- What the block sends now reaches the wire in a known form: `P_DELIVER`, and `P_WIDTH8` with nothing queued. -/
def State.wireClear (s : State) : Bool :=
  s.inp.tx_delivers && decide (s.out.bus_width = .W8) && s.out.fifo.isEmpty

/-- The panel takes what the block sends now: the wire is clear, the lines are driven (R207) and the panel has been reset since its state was
last undefined (`P_INIT` of R258). -/
def State.panelListens (s : State) : Bool := s.wireClear && s.lines_oe && !s.out.panel_lost

/-! ### Runs -/

/-- `n` rows of the transition tables, one at a time. -/
def ticks : Nat → State → Host.Outcome State Fault Refusal
  | 0, s => .next s
  | n + 1, s =>
    match tick s with
    | .next t => ticks n t
    | .fault f => .fault f
    | .refused r => .refused r

/-- `n` steps, one after the other. -/
def steps : Nat → State → Host.Outcome State Fault Refusal
  | 0, s => .next s
  | n + 1, s =>
    match step s with
    | .next t => steps n t
    | .fault f => .fault f
    | .refused r => .refused r

/-- Steps in an environment that sets the inputs anew before each of them. -/
def drive : List Inputs → State → Host.Outcome State Fault Refusal
  | [], s => .next s
  | i :: is, s =>
    match step { s with inp := i } with
    | .next t => drive is t
    | .fault f => .fault f
    | .refused r => .refused r

/-- The run of `n` steps in an environment that sets the inputs `env k` before step `k`. -/
def driveFor (env : Nat → Inputs) (n : Nat) (s : State) : Host.Outcome State Fault Refusal := drive ((List.range n).map env) s

/-- `P_FAIR` (R256): every collaborator eventually completes what it is asked for and lets every flag fall, whenever it may be that it is
asked: each level is right again and again. -/
structure Fair (env : Nat → Inputs) : Prop where
  byte : ∀ n, ∃ m, n ≤ m ∧ (env m).tx_byte_ack = true
  bulk : ∀ n, ∃ m, n ≤ m ∧ (env m).tx_bulk_ack = true
  delay : ∀ n, ∃ m, n ≤ m ∧ (env m).dly_done = true
  read : ∀ n, ∃ m, n ≤ m ∧ (env m).fb_ack = true
  fifo : ∀ n, ∃ m, n ≤ m ∧ (env m).fifo_full = false
  drain : ∀ n, ∃ m, n ≤ m ∧ (env m).bus_busy = false

/-- Values for the registers whose reset value R50 leaves unspecified. -/
structure Unspecified where
  pc : Nat
  op : BitVec 2
  color : Half
  fe_kind : FrameKind
  fe_arg : Half
  fe_bracket : Bool
  src : PixelSource
  fill_color : Half
  col : Nat
  grp : Nat
  bit : Fin 8
  cur : Byte
  scratch : Vector Byte 16
  deriving DecidableEq, Repr

/-- The state with these values in those registers and everything else as it is. -/
def State.withUnspecified (u : Unspecified) (s : State) : State :=
  { s with
    pc := u.pc, op := u.op, color := u.color, fe_kind := u.fe_kind, fe_arg := u.fe_arg, fe_bracket := u.fe_bracket
    src := u.src, fill_color := u.fill_color, col := u.col, grp := u.grp, bit := u.bit, cur := u.cur
    scratch := u.scratch }

/-- The inputs but for `cmd_valid`, the one a step can take down. -/
def Inputs.otherThanRequest (i : Inputs) : Inputs := { i with cmd_valid := false }

/-- The event completed, after the wait that comes before it: a narrowing of the word size follows the drain wait of `S_DRAIN`, and by
then everything queued has left the wire (R185, R186). -/
def State.complete (e : Event) (s : State) : State :=
  match e with
  | .WIDTH .W8 => { s with out := s.out.drain }.emit e
  | _ => s.emit e

/-- The events of a list completed one after the other. -/
def State.emits (es : List Event) (s : State) : State := es.foldl (fun s e => s.complete e) s

/-- Outside the block's datapath registers, `t` differs from `s` exactly by the completion of the events `es`, in order: trace, lines, transport
and receiver are those of `s` after them; parameters, ROM, framebuffer and inputs are the same, but for a command request taken up. -/
structure Produced (es : List Event) (s t : State) : Prop where
  par : t.par = s.par
  rom : t.rom = s.rom
  fb : t.fb = s.fb
  inp : t.inp.otherThanRequest = s.inp.otherThanRequest
  trace : t.trace = s.trace ++ es
  out : t.out = (s.emits es).out
  cs_n : t.cs_n = (s.emits es).cs_n
  rst_n : t.rst_n = (s.emits es).rst_n
  mode_sel : t.mode_sel = (s.emits es).mode_sel
  lines_oe : t.lines_oe = (s.emits es).lines_oe

/-- No command has been accepted or ended, and no input has changed. -/
def SameCommand (s t : State) : Prop := t.op = s.op ∧ t.color = s.color ∧ t.busy = s.busy ∧ t.inp = s.inp

/-- The streamer's counters, its group byte and its scratch buffer are the same. -/
def SameCounters (s t : State) : Prop :=
  t.col = s.col ∧ t.grp = s.grp ∧ t.bit = s.bit ∧ t.cur = s.cur ∧ t.scratch = s.scratch

/-- The streamer's operands are the same. -/
def SameSource (s t : State) : Prop := t.src = s.src ∧ t.fill_color = s.fill_color

/-- The frame encoder's registers are the same. -/
def SameFrame (s t : State) : Prop :=
  t.fe_st = s.fe_st ∧ t.fe_kind = s.fe_kind ∧ t.fe_arg = s.fe_arg ∧ t.fe_bracket = s.fe_bracket

/-- Parameters, ROM and every byte of the framebuffer are the same. -/
def SameStore (s t : State) : Prop := t.par = s.par ∧ t.rom = s.rom ∧ ∀ a, t.fb.read a = s.fb.read a

/-- The control lines other than chip-select are the same. -/
def SameLines (s t : State) : Prop := t.rst_n = s.rst_n ∧ t.mode_sel = s.mode_sel ∧ t.lines_oe = s.lines_oe

/-! ### What any piece of work does, waiting or not -/

/-- The levels of the control lines (R27, R41). -/
structure Lines where
  cs_n : Bool
  rst_n : Bool
  mode_sel : Bool
  lines_oe : Bool
  deriving DecidableEq, Repr

/-- The levels the block drives. -/
def State.lines (s : State) : Lines := { cs_n := s.cs_n, rst_n := s.rst_n, mode_sel := s.mode_sel, lines_oe := s.lines_oe }

/-- The levels after an event: `CFG`, `CS` and `RST` write them and nothing else does (R27). -/
def Lines.after (l : Lines) (e : Event) : Lines :=
  match e with
  | .CFG c m r => { cs_n := c, rst_n := r, mode_sel := m, lines_oe := true }
  | .CS v => { l with cs_n := v }
  | .RST v => { l with rst_n := v }
  | .CMD _ => l
  | .DONE => l
  | .BYTE _ => l
  | .BULK _ => l
  | .WIDTH _ => l
  | .WORD _ => l
  | .DELAY _ => l
  | .FBREAD _ _ _ => l

/-- The transport's word size after an event: only `WIDTH` writes it (R37). -/
def widthAfter (w : BusWidth) (e : Event) : BusWidth :=
  match e with
  | .WIDTH n => n
  | .CMD _ => w
  | .DONE => w
  | .CFG _ _ _ => w
  | .CS _ => w
  | .RST _ => w
  | .BYTE _ => w
  | .BULK _ => w
  | .WORD _ => w
  | .DELAY _ => w
  | .FBREAD _ _ _ => w

/-- The collaborator that completes the event is ready for it, and a framebuffer read answers what the framebuffer holds (R42 to R47). -/
def Event.permitted (s : State) (e : Event) : Bool :=
  match e with
  | .BYTE _ => s.inp.tx_byte_ack
  | .BULK _ => s.inp.tx_bulk_ack
  | .WORD _ => !s.inp.fifo_full
  | .DELAY n => s.inp.dly_done && decide (n ≠ 0)
  | .FBREAD c g v => s.inp.fb_ack && decide (v = fbByte s c g)
  | .CMD _ => true
  | .DONE => true
  | .CFG _ _ _ => true
  | .CS _ => true
  | .RST _ => true
  | .WIDTH _ => true

/-- From `s` the work has come to `t` with the events `es`, whether it is complete or waits: what is constant is constant, the framebuffer is the
same, each event was one its collaborator was ready for, and lines and word size are what the events made them. -/
structure Extends (es : List Event) (s t : State) : Prop where
  par : t.par = s.par
  rom : t.rom = s.rom
  fb : t.fb = s.fb
  inp : t.inp.otherThanRequest = s.inp.otherThanRequest
  trace : t.trace = s.trace ++ es
  lines : t.lines = es.foldl Lines.after s.lines
  width : t.out.bus_width = es.foldl widthAfter s.out.bus_width
  permitted : es.all (Event.permitted s) = true

/-- The event the block holds out to a collaborator that is not ready for it (R224). -/
def State.heldEvent (s : State) : Option Event :=
  let byte := fun b => if s.inp.tx_byte_ack then none else some (Event.BYTE b)
  let wait := fun n => if n = 0 ∨ s.inp.dly_done = true then none else some (Event.DELAY n)
  match s.fe_st with
  | .F_CS_LO => none
  | .F_B0 => byte (frameByte0 s.fe_kind)
  | .F_B1 => byte (frameByte1 s.fe_kind s.fe_arg)
  | .F_B2 => byte (frameByte2 s.fe_arg)
  | .F_CS_HI => none
  | .F_IDLE =>
    match s.fs_st with
    | .S_MARK => if s.par.BULK_MARKER then byte Config.MARK_DATA else none
    | .S_LOAD => if s.src = .FB ∧ s.inp.fb_ack = false then some (.FBREAD s.col s.grp (fbByte s s.col s.grp)) else none
    | .S_BULK => if s.inp.tx_bulk_ack then none else some (.BULK s.scratch)
    | .S_CS_LO => none
    | .S_INDEX => none
    | .S_WIDE => none
    | .S_EXPAND => none
    | .S_PUSH => none
    | .S_ADV => none
    | .S_DRAIN => none
    | .S_NARROW => none
    | .S_CS_HI => none
    | .S_IDLE =>
      match s.q_st with
      | .Q_RST_HOLD => wait s.par.T_RST_HOLD
      | .Q_RST_WAIT => wait s.par.T_RST_WAIT
      | .Q_STEP_DLY => s.romEntry?.bind fun e => wait e.dly
      | .Q_IDLE => none
      | .Q_CFG => none
      | .Q_RST_LO => none
      | .Q_RST_HI => none
      | .Q_STEP_IDX => none
      | .Q_STEP_DAT => none
      | .Q_STEP_NEXT => none
      | .Q_FILL => none
      | .Q_UPD => none
      | .Q_DONE => none

/-- The block waits for one of the transport's two flags to fall (R184, R186). -/
def State.heldByFlag (s : State) : Bool :=
  decide (s.fe_st = .F_IDLE) &&
    ((decide (s.fs_st = .S_PUSH) && s.inp.fifo_full) || (decide (s.fs_st = .S_DRAIN) && s.inp.bus_busy))

/-! ### The panel's power-up, as far as INITIALIZE has come (R241) -/

/-- The stages of R241, in the order INITIALIZE passes them; `turningOn k` is the `k`-th of the four visible stages D0, GON, D1, DTE. -/
inductive PowerStage where
  | inReset
  | settling
  | displayOff
  | powerComingUp
  | scanDirectionSet
  | turningOn (k : Nat)
  | active
  deriving DecidableEq, Repr

/-- The place of a stage in the order of R241. -/
def PowerStage.number (p : PowerStage) : Nat :=
  match p with
  | .inReset => 1
  | .settling => 2
  | .displayOff => 3
  | .powerComingUp => 4
  | .scanDirectionSet => 5
  | .turningOn k => 5 + k
  | .active => 10

/-- The stage after the first `k` ROM entries of a block with `nPwr` power-control writes have been written (R150, R241). -/
def stageAfter (nPwr k : Nat) : PowerStage :=
  if k = 0 then .settling
  else if k = 1 then .displayOff
  else if k ≤ nPwr + 1 then .powerComingUp
  else if k = nPwr + 2 then .scanDirectionSet
  else .turningOn (k - (nPwr + 2))

/-- The stage an INITIALIZE in progress has brought the panel to; none where the block's state does not tell, since the block keeps no record of it (R241). -/
def State.powerStage (s : State) : Option PowerStage :=
  match s.q_st with
  | .Q_RST_HOLD => some .inReset
  | .Q_RST_HI => some .inReset
  | .Q_RST_WAIT => some .settling
  | .Q_STEP_IDX => some (stageAfter s.par.N_PWR s.pc)
  | .Q_STEP_DAT => some (stageAfter s.par.N_PWR s.pc)
  | .Q_STEP_DLY => some (stageAfter s.par.N_PWR (s.pc + 1))
  | .Q_STEP_NEXT => some (stageAfter s.par.N_PWR (s.pc + 1))
  | .Q_FILL => if s.op = HostCommand.INITIALIZE.code then some .active else none
  | .Q_IDLE => none
  | .Q_CFG => none
  | .Q_RST_LO => none
  | .Q_UPD => none
  | .Q_DONE => if s.op = HostCommand.INITIALIZE.code then some .active else none

/-! ### The invariant -/

/-- SEQ is inside a Power-On Step. -/
def QState.inStep (q : QState) : Bool :=
  match q with
  | .Q_STEP_IDX => true
  | .Q_STEP_DAT => true
  | .Q_STEP_DLY => true
  | .Q_STEP_NEXT => true
  | .Q_IDLE => false
  | .Q_CFG => false
  | .Q_RST_LO => false
  | .Q_RST_HOLD => false
  | .Q_RST_HI => false
  | .Q_RST_WAIT => false
  | .Q_FILL => false
  | .Q_UPD => false
  | .Q_DONE => false

/-- SEQ is past `Q_CFG` of an INITIALIZE and before its initial clear: the lines are driven. -/
def QState.linesConfigured (q : QState) : Bool :=
  match q with
  | .Q_RST_LO => true
  | .Q_RST_HOLD => true
  | .Q_RST_HI => true
  | .Q_RST_WAIT => true
  | .Q_STEP_IDX => true
  | .Q_STEP_DAT => true
  | .Q_STEP_DLY => true
  | .Q_STEP_NEXT => true
  | .Q_IDLE => false
  | .Q_CFG => false
  | .Q_FILL => false
  | .Q_UPD => false
  | .Q_DONE => false

/-- FS is between `S_MARK` and the end of its loops: the counters name a framebuffer byte. -/
def FsState.inLoop (f : FsState) : Bool :=
  match f with
  | .S_WIDE => true
  | .S_LOAD => true
  | .S_EXPAND => true
  | .S_BULK => true
  | .S_PUSH => true
  | .S_ADV => true
  | .S_IDLE => false
  | .S_CS_LO => false
  | .S_INDEX => false
  | .S_MARK => false
  | .S_DRAIN => false
  | .S_NARROW => false
  | .S_CS_HI => false

/-- FS is past `CS(0)` of its bracket and before `CS(1)`. -/
def FsState.inBracket (f : FsState) : Bool := decide (f ≠ .S_IDLE) && decide (f ≠ .S_CS_LO)

/-- FE is past `CS(0)` of a bracket of its own and before `CS(1)`. -/
def State.inFrameBracket (s : State) : Bool :=
  s.fe_bracket && decide (s.fe_st ≠ .F_IDLE) && decide (s.fe_st ≠ .F_CS_LO)

/-- SEQ has started FE with an Index Frame or a Data Frame (R160). -/
def State.frameOfStep (s : State) : Prop :=
  s.fs_st = .S_IDLE ∧ s.fe_bracket = true ∧
    ((s.q_st = .Q_STEP_IDX ∧ s.fe_kind = .IDX) ∨ (s.q_st = .Q_STEP_DAT ∧ s.fe_kind = .DAT))

/-- FS has started FE with the Index Frame of a bulk burst (R180). -/
def State.frameOfStream (s : State) : Prop :=
  s.fs_st = .S_INDEX ∧ s.fe_bracket = false ∧ s.fe_kind = .IDX ∧ lo s.fe_arg = Config.REG_MEMORY_WRITE ∧
    s.fe_st ≠ .F_CS_LO ∧ s.fe_st ≠ .F_CS_HI

/-- The three counters hold what their widths have room for (R20), whatever the machine does or does not do with them: `pc` is in `0 .. N_ROM`
(R22, R30), which `PCW` bits hold, `col` has `CW` bits and `grp` has `GW`. -/
structure CountersFit (s : State) : Prop where
  /-- `pc` is in `0 .. N_ROM` (R22), and so within `PCW` bits. -/
  pc : s.pc ≤ s.par.N_ROM
  /-- `col` is within `CW` bits. -/
  col : s.col < 2 ^ s.par.CW
  /-- `grp` is within `GW` bits. -/
  grp : s.grp < 2 ^ s.par.GW
  /-- "the program ends when `pc = N_ROM`", and `pc` stays there through the initial clear (R30, R158). -/
  atEnd : s.q_st = .Q_FILL → s.op = HostCommand.INITIALIZE.code → s.pc = s.par.N_ROM

/-- The invariant of the machine. -/
structure Inv (s : State) : Prop where
  /-- The ROM is the one the parameters give: "never mutated at runtime" (R65, R150). -/
  romConstant : s.rom = s.par.rom
  /-- The framebuffer is in canonical form. -/
  fbForm : s.fb.wf = true
  /-- The panel registers are listed by rising address. -/
  prForm : cellsRising s.out.pr = true
  /-- `busy` is exactly "a command is in progress" (R20, R26). -/
  busyIff : s.busy = decide (s.q_st ≠ .Q_IDLE)
  /-- FE leaves `F_IDLE` only for SEQ in `Q_STEP_IDX` or `Q_STEP_DAT` or for FS in `S_INDEX` (R52). -/
  feOwner : s.fe_st ≠ .F_IDLE → s.frameOfStep ∨ s.frameOfStream
  /-- FS leaves `S_IDLE` only while SEQ is in `Q_FILL` or `Q_UPD` (R52). -/
  fsOwner : s.fs_st ≠ .S_IDLE → s.q_st = .Q_FILL ∨ s.q_st = .Q_UPD
  /-- FS is in no state of the other strategy (R25). -/
  fsBuilt : fsPresent s.par.STRATEGY s.fs_st = true
  /-- `Q_FILL` streams a constant and `Q_UPD` the framebuffer (R206). -/
  sourceOf : (s.q_st = .Q_FILL → s.src = .CONST) ∧ (s.q_st = .Q_UPD → s.src = .FB)
  /-- Inside a Power-On Step `pc` names a ROM entry (R30, R60). -/
  pcInRom : s.q_st.inStep = true → s.pc < s.romLength
  /-- Inside its loops FS's counters name a framebuffer byte (R60, R64, R187). -/
  countersInRange : s.fs_st.inLoop = true → s.col < s.par.W ∧ s.grp < s.par.G
  /-- Chip-select is low exactly inside a bracket (R125, R175). -/
  chipSelect : s.cs_n = !(s.inFrameBracket || s.fs_st.inBracket)
  /-- The panel's reset line is low only between the two edges of RESET_PULSE (R142). -/
  resetLine : s.rst_n = false → s.q_st = .Q_RST_HOLD ∨ s.q_st = .Q_RST_HI
  /-- From the reset pulse to the last ROM step the lines are driven (R141, R158). -/
  linesDriven : s.q_st.linesConfigured = true → s.lines_oe = true
  /-- The lines are driven only at `MODE_INIT` on mode-select (R27, R204). -/
  modeLine : s.mode_sel = s.par.MODE_INIT
  /-- The counters are within their widths in every state, in use or not (R20, R22, R30). -/
  counters : CountersFit s

end Sys2Proof.Machine
end

