-- ==== Sys2Proof/Certificates/Slice0/Obligations.lean ====
section
/-! DEFINITION. The statements for the provers: what each operation does, the transition tables, what holds of every step, and what the traces of
the big-step rules look like on the wire. Every docstring names the rule of spec/ a statement formalises, or says that it is the model's own. -/

open Sys2Proof Sys2Proof.Machine

/-! ### Encoding -/

/-- Words written out from the worked examples of the spec decode to the operation they stand for (R91 to R94, R103 to R105, R122 to R124,
R147, R203). That the head of a stream has its `0x76` whatever `BULK_MARKER` is, is the model's (log entry 33). -/
def Obligations.SpecWordsDecode : Prop :=
  ∀ st : Strategy,
    decode st .wire [0x74, 0x00, 0x07] = .ok (.sendIndex 0x07) ∧
    decode st .wire [0x76, 0x12, 0x34] = .ok (.sendData 0x1234) ∧
    decode st .wire [0x74, 0x00, 0x07, 0x76, 0x00, 0x37] = .ok (.writeRegister 0x07 0x0037) ∧
    decode st .rom [0x0A, 0x07, 0x00, 0x37] = .ok (.powerOnStep 0x07 0x0037 10) ∧
    decode st .dly [0x28] = .ok (.delay 40) ∧
    decode st .seq [0x01] = .ok .configLines ∧
    decode st .seq [0x02] = .ok .resetPulse ∧
    decode .BUFFERED .wire [0x74, 0x00, 0x22, 0x76] = .ok .streamBuffered ∧
    decode .BURST .wire [0x74, 0x00, 0x22, 0x76] = .ok .streamBurst ∧
    decode st .cmd [0x01, 0x00, 0x00] = .ok .hostInitialize ∧
    decode st .cmd [0x02, 0xF8, 0x00] = .ok (.hostClear 0xF800) ∧
    decode st .cmd [0x03, 0x00, 0x00] = .ok .hostUpdate

/-- Every operation that has an encoding and exists in the block is read back from its encoding, with every operand (R90 to R94, R103 to
R105). That the head of a stream has its `0x76` whatever `BULK_MARKER` is, is the model's (log entry 33). -/
def Obligations.EncodedOperationsDecode : Prop :=
  ∀ (st : Strategy) (i : Instr), i.wellFormed = true → i.presentIn st = true → decode st (formatOf i) (encode i) = .ok i

/-- Whatever bytes the decoder reads as an operation are that operation's encoding, but for the colour bits that R104 ignores; the operation
has an encoding, stands in its own place and exists in the block. That the head of a stream has its `0x76` whatever `BULK_MARKER` is, is the
model's (log entry 33). -/
def Obligations.DecodedBytesAreTheEncoding : Prop :=
  ∀ (st : Strategy) (f : Format) (bs : List Byte) (i : Instr), decode st f bs = .ok i →
    f = formatOf i ∧ i.wellFormed = true ∧ i.presentIn st = true ∧
      (bs = encode i ∨
        (i = .hostInitialize ∧ ∃ h l : Byte, bs = [0x01, h, l]) ∨
        (i = .hostUpdate ∧ ∃ h l : Byte, bs = [0x03, h, l]))

/-- Reserved and illegal encodings are refused by name (R95, R96, R104, R106); in the ROM every 32-bit word is a step (R106). That the codes
of `Q_CFG` and `Q_RST_LO` alone select an operation by themselves is the decoder's own choice (log entry 5): R105 gives the others'
operations too, with operands that stand elsewhere. That the head of a stream has its `0x76` whatever `BULK_MARKER` is, is the decoder's own
too (log entry 33). -/
def Obligations.ReservedEncodingsRefused : Prop :=
  ∀ st : Strategy,
    (∀ m a b : Byte, m ≠ 0x74 → m ≠ 0x76 → decode st .wire [m, a, b] = .error .badMarker) ∧
    (∀ a b : Byte, a ≠ 0x00 → decode st .wire [0x74, a, b] = .error .badPad) ∧
    (∀ m p r d : Byte, [m, p, r, d] ≠ [0x74, 0x00, 0x22, 0x76] → decode st .wire [m, p, r, d] = .error .badBulkHeader) ∧
    (∀ m p r d h l : Byte, m ≠ 0x74 ∨ d ≠ 0x76 → decode st .wire [m, p, r, d, h, l] = .error .badMarker) ∧
    (∀ p r h l : Byte, p ≠ 0x00 → decode st .wire [0x74, p, r, 0x76, h, l] = .error .badPad) ∧
    (∀ h l : Byte, decode st .cmd [0x00, h, l] = .error .reservedCommand) ∧
    (∀ x h l : Byte, 4 ≤ x.toNat → decode st .cmd [x, h, l] = .error .commandTooWide) ∧
    (∀ q : Byte, q ≠ 0x01 → q ≠ 0x02 → decode st .seq [q] = .error .noOperationHere) ∧
    (∀ d r h l : Byte, ∃ v : Half, v.toNat = 256 * h.toNat + l.toNat ∧ decode st .rom [d, r, h, l] = .ok (.powerOnStep r v d.toNat))

/-- R98: the payload of a Data Frame is `value >> 8` and `value & 0xFF`, unsigned, neither scaled nor escaped. -/
def Obligations.DataFramePayload : Prop :=
  ∀ v : Half, ∃ h l : Byte, encode (.sendData v) = [0x76, h, l] ∧ h.toNat = v.toNat / 256 ∧ l.toNat = v.toNat % 256

/-! ### A step runs the decoded operation -/

/-- A step runs exactly the operation that begins where the machine stands: the command word on the port, the frame FE was started with, the
ROM entry at `pc`, the sequencer's code, a wait's field; where none begins, and where the environment looks after every row, it is one row
of the tables, and under `blk_rst` the reset (R105, R229, R251; the unit of a step is the model's own, log entry 15). The head of a stream
is the table's word whatever `BULK_MARKER` is (log entry 33). -/
def Obligations.StepRunsTheDecodedOperation : Prop :=
  ∀ s : State,
    (s.inp.blk_rst = true → step s = .next s.blockReset) ∧
    (s.inp.blk_rst = false → s.inp.by_rows = true → step s = tick s) ∧
    (s.inp.blk_rst = false → s.inp.by_rows = false →
      (∀ i, s.fe_st = .F_IDLE → s.fs_st = .S_IDLE → s.canAccept = true → s.inp.cmd_valid = true →
        decode s.par.STRATEGY .cmd s.inp.commandBytes = .ok i → step s = exec i s) ∧
      (∀ i, s.frameBegins = true →
        ¬(s.fs_st = .S_IDLE ∧ s.q_st = .Q_STEP_IDX ∧ s.fe_kind = .IDX ∧ s.fe_bracket = true) →
        decode s.par.STRATEGY .wire s.frame = .ok i → step s = exec i s) ∧
      (∀ e, s.fe_st = .F_CS_LO → s.fs_st = .S_IDLE → s.q_st = .Q_STEP_IDX → s.fe_kind = .IDX → s.fe_bracket = true →
        s.romEntry? = some e → step s = exec (.writeRegister (lo s.fe_arg) e.val) s) ∧
      (∀ i e bs, s.fe_st = .F_IDLE → s.fs_st = .S_IDLE → s.q_st = .Q_STEP_IDX → s.romEntry? = some e →
        encode (.powerOnStep e.reg e.val e.dly) = bs → e.dly < 256 → decode s.par.STRATEGY .rom bs = .ok i → step s = exec i s) ∧
      (∀ e, s.fe_st = .F_IDLE → s.fs_st = .S_IDLE → s.q_st = .Q_STEP_IDX → s.romEntry? = some e →
        step s = exec (.powerOnStep e.reg e.val e.dly) s) ∧
      (∀ e, s.fe_st = .F_IDLE → s.fs_st = .S_IDLE → s.q_st = .Q_STEP_DAT → s.romEntry? = some e → step s = exec (.sendData e.val) s) ∧
      (∀ e, s.fe_st = .F_IDLE → s.fs_st = .S_IDLE → s.q_st = .Q_STEP_DLY → s.romEntry? = some e → step s = exec (.delay e.dly) s) ∧
      (∀ i, s.fe_st = .F_IDLE → s.fs_st = .S_IDLE → s.q_st = .Q_CFG ∨ s.q_st = .Q_RST_LO →
        decode s.par.STRATEGY .seq [s.q_st.code] = .ok i → step s = exec i s) ∧
      (s.fe_st = .F_IDLE → s.fs_st = .S_IDLE → s.q_st = .Q_RST_HOLD → step s = exec (.delay s.par.T_RST_HOLD) s) ∧
      (s.fe_st = .F_IDLE → s.fs_st = .S_IDLE → s.q_st = .Q_RST_WAIT → step s = exec (.delay s.par.T_RST_WAIT) s) ∧
      (∀ i, s.fe_st = .F_IDLE → s.fs_st = .S_IDLE → s.q_st = .Q_FILL ∨ s.q_st = .Q_UPD →
        decode s.par.STRATEGY .wire [0x74, 0x00, 0x22, 0x76] = .ok i → step s = exec i s) ∧
      (fetch s = none → step s = tick s))

/-! ### The transition tables -/

/-- R128: starting FE and the rows of FE, with a transport that completes. That the starter, whose wait is over with FE's last row (R160, R188), moves in
that same row is the model's (log entry 18). A Data Frame is never started without its bracket. -/
def Obligations.FrameEncoderTable : Prop :=
  ∀ s : State,
    (s.fe_st = .F_IDLE → feRow s = .done s) ∧
    (∀ k arg br, s.feStart k arg br = { s with
      fe_kind := k, fe_arg := arg, fe_bracket := br, fe_st := if br then .F_CS_LO else .F_B0, req := none }) ∧
    (∀ r br, ∃ arg, lo arg = r ∧ s.feStartIndex r br = s.feStart .IDX arg br) ∧
    (s.fe_st = .F_CS_LO → tick s = .next { s.emit (.CS false) with fe_st := .F_B0 }) ∧
    (s.inp.tx_byte_ack = true →
      (s.fe_st = .F_B0 → s.fe_kind = .IDX → tick s = .next { s.emit (.BYTE 0x74) with fe_st := .F_B1 }) ∧
      (s.fe_st = .F_B0 → s.fe_kind = .DAT → tick s = .next { s.emit (.BYTE 0x76) with fe_st := .F_B1 }) ∧
      (s.fe_st = .F_B1 → s.fe_kind = .IDX → tick s = .next { s.emit (.BYTE 0x00) with fe_st := .F_B2 }) ∧
      (s.fe_st = .F_B1 → s.fe_kind = .DAT → tick s = .next { s.emit (.BYTE (hi s.fe_arg)) with fe_st := .F_B2 }) ∧
      (s.fe_st = .F_B2 → s.fe_bracket = true → tick s = .next { s.emit (.BYTE (lo s.fe_arg)) with fe_st := .F_CS_HI }) ∧
      (s.fe_st = .F_B2 → s.fe_bracket = false → ∃ q f,
        tick s = .next { s.emit (.BYTE (lo s.fe_arg)) with fe_st := .F_IDLE, q_st := q, fs_st := f } ∧
          (s.fs_st = .S_INDEX → f = .S_MARK ∧ q = s.q_st))) ∧
    (s.fe_st = .F_CS_HI → ∃ q f, tick s = .next { s.emit (.CS true) with fe_st := .F_IDLE, q_st := q, fs_st := f } ∧
      (s.fs_st = .S_IDLE → f = .S_IDLE ∧ (s.q_st = .Q_STEP_IDX → q = .Q_STEP_DAT) ∧ (s.q_st = .Q_STEP_DAT → q = .Q_STEP_DLY))) ∧
    (Inv s → s.fe_st ≠ .F_IDLE → ¬(s.fe_kind = .DAT ∧ s.fe_bracket = false))

/-- R160: the rows of SEQ in INITIALIZE, with a delay primitive that ends its waits. That SEQ, waiting for FE, moves in FE's last row is the model's
(log entry 18). -/
def Obligations.SequencerTable : Prop :=
  (∀ s : State, s.fs_st = .S_IDLE → s.fe_st = .F_CS_HI →
    (s.q_st = .Q_STEP_IDX → tick s = .next { s.emit (.CS true) with fe_st := .F_IDLE, q_st := .Q_STEP_DAT }) ∧
    (s.q_st = .Q_STEP_DAT → tick s = .next { s.emit (.CS true) with fe_st := .F_IDLE, q_st := .Q_STEP_DLY })) ∧
  ∀ s : State, s.fe_st = .F_IDLE → s.fs_st = .S_IDLE →
    (s.q_st = .Q_CFG → tick s = .next { s.emit (.CFG true s.par.MODE_INIT true) with q_st := .Q_RST_LO }) ∧
    (s.q_st = .Q_RST_LO → tick s = .next { s.emit (.RST false) with q_st := .Q_RST_HOLD }) ∧
    (s.q_st = .Q_RST_HOLD → s.inp.dly_done = true → tick s = .next { s.emit (.DELAY s.par.T_RST_HOLD) with q_st := .Q_RST_HI }) ∧
    (s.q_st = .Q_RST_HI → tick s = .next { s.emit (.RST true) with q_st := .Q_RST_WAIT }) ∧
    (s.q_st = .Q_RST_WAIT → s.inp.dly_done = true →
      tick s = .next { s.emit (.DELAY s.par.T_RST_WAIT) with pc := 0, q_st := .Q_STEP_IDX }) ∧
    (∀ e, s.rom[s.pc]? = some e →
      (s.q_st = .Q_STEP_IDX → ∃ arg, lo arg = e.reg ∧
        tick s = .next { s with fe_kind := .IDX, fe_arg := arg, fe_bracket := true, fe_st := .F_CS_LO, req := none }) ∧
      (s.q_st = .Q_STEP_DAT →
        tick s = .next { s with fe_kind := .DAT, fe_arg := e.val, fe_bracket := true, fe_st := .F_CS_LO, req := none }) ∧
      (s.q_st = .Q_STEP_DLY → e.dly ≠ 0 → s.inp.dly_done = true → tick s = .next { s.emit (.DELAY e.dly) with q_st := .Q_STEP_NEXT }) ∧
      (s.q_st = .Q_STEP_DLY → e.dly = 0 → tick s = .next { s with q_st := .Q_STEP_NEXT })) ∧
    (s.q_st = .Q_STEP_NEXT → s.pc + 1 = s.rom.length →
      tick s = .next { s with pc := s.pc + 1, src := .CONST, fill_color := s.par.INIT_CLEAR_COLOR, q_st := .Q_FILL }) ∧
    (s.q_st = .Q_STEP_NEXT → s.pc + 1 ≠ s.rom.length → tick s = .next { s with pc := s.pc + 1, q_st := .Q_STEP_IDX })

/-- R188 with R180 to R187: the rows of FS in the states of its strategy, with collaborators that complete, and its two waits on the transport's flags. The
model's own: the starter moves in the last row of the machine it waits for (log entry 18), and with the drain wait the queued words are off the wire (log
entry 7). -/
def Obligations.StreamerTable : Prop :=
  (∀ s : State, s.fs_st = .S_INDEX → s.fe_st = .F_B2 → s.fe_bracket = false → s.inp.tx_byte_ack = true →
    tick s = .next { s.emit (.BYTE (lo s.fe_arg)) with fe_st := .F_IDLE, fs_st := .S_MARK }) ∧
  ∀ s : State, s.fe_st = .F_IDLE →
    (s.fs_st = .S_IDLE → s.q_st = .Q_FILL ∨ s.q_st = .Q_UPD → tick s = .next { s with fs_st := .S_CS_LO, req := none }) ∧
    (s.fs_st = .S_CS_LO → tick s = .next { s.emit (.CS false) with fs_st := .S_INDEX }) ∧
    (s.fs_st = .S_INDEX → ∃ arg, lo arg = 0x22 ∧
      tick s = .next { s with fe_kind := .IDX, fe_arg := arg, fe_bracket := false, fe_st := .F_B0, req := none }) ∧
    (s.fs_st = .S_MARK →
      (s.par.BULK_MARKER = true → s.inp.tx_byte_ack = true →
        (s.par.STRATEGY = .BURST → tick s = .next { s.emit (.BYTE 0x76) with col := s.par.W - 1, grp := 0, fs_st := .S_WIDE }) ∧
        (s.par.STRATEGY = .BUFFERED → tick s = .next { s.emit (.BYTE 0x76) with col := s.par.W - 1, grp := 0, fs_st := .S_LOAD })) ∧
      (s.par.BULK_MARKER = false →
        (s.par.STRATEGY = .BURST → tick s = .next { s with col := s.par.W - 1, grp := 0, fs_st := .S_WIDE }) ∧
        (s.par.STRATEGY = .BUFFERED → tick s = .next { s with col := s.par.W - 1, grp := 0, fs_st := .S_LOAD }))) ∧
    (s.fs_st = .S_WIDE → s.par.STRATEGY = .BURST → tick s = .next { s.emit (.WIDTH .W16) with fs_st := .S_LOAD }) ∧
    (s.fs_st = .S_LOAD →
      (s.src = .FB → s.col < s.par.W → s.grp < s.par.G → s.inp.fb_ack = true →
        (s.par.STRATEGY = .BURST → tick s = .next
          { s.emit (.FBREAD s.col s.grp (fbByte s s.col s.grp)) with cur := fbByte s s.col s.grp, bit := 0, fs_st := .S_PUSH }) ∧
        (s.par.STRATEGY = .BUFFERED → tick s = .next
          { s.emit (.FBREAD s.col s.grp (fbByte s s.col s.grp)) with cur := fbByte s s.col s.grp, fs_st := .S_EXPAND })) ∧
      (s.src = .CONST →
        (s.par.STRATEGY = .BURST → tick s = .next { s with bit := 0, fs_st := .S_PUSH }) ∧
        (s.par.STRATEGY = .BUFFERED → tick s = .next { s with fs_st := .S_EXPAND }))) ∧
    (s.par.STRATEGY = .BUFFERED →
      (s.fs_st = .S_EXPAND → ∃ v, tick s = .next { s with scratch := v, fs_st := .S_BULK } ∧
        ∀ k : Fin 8, v[2 * k.val] = hi (s.px k) ∧ v[2 * k.val + 1] = lo (s.px k)) ∧
      (s.fs_st = .S_BULK → s.inp.tx_bulk_ack = true → tick s = .next { s.emit (.BULK s.scratch) with fs_st := .S_ADV })) ∧
    (s.par.STRATEGY = .BURST →
      (s.fs_st = .S_PUSH → s.inp.fifo_full = true → tick s = .next s) ∧
      (s.fs_st = .S_PUSH → s.inp.fifo_full = false →
        (s.bit = 7 → tick s = .next { s.emit (.WORD (s.px s.bit)) with fs_st := .S_ADV }) ∧
        (s.bit ≠ 7 → tick s = .next { s.emit (.WORD (s.px s.bit)) with bit := s.bit + 1 })) ∧
      (s.fs_st = .S_DRAIN → s.inp.bus_busy = true → tick s = .next s) ∧
      (s.fs_st = .S_DRAIN → s.inp.bus_busy = false → tick s = .next { s with out := s.out.drain, fs_st := .S_NARROW }) ∧
      (s.fs_st = .S_NARROW → tick s = .next { s.emit (.WIDTH .W8) with fs_st := .S_CS_HI })) ∧
    (s.fs_st = .S_ADV →
      (s.grp ≠ s.par.G - 1 → tick s = .next { s with grp := s.grp + 1, fs_st := .S_LOAD }) ∧
      (s.grp = s.par.G - 1 → s.col ≠ 0 → tick s = .next { s with col := s.col - 1, grp := 0, fs_st := .S_LOAD }) ∧
      (s.grp = s.par.G - 1 → s.col = 0 →
        (s.par.STRATEGY = .BURST → tick s = .next { s with fs_st := .S_DRAIN }) ∧
        (s.par.STRATEGY = .BUFFERED → tick s = .next { s with fs_st := .S_CS_HI }))) ∧
    (s.fs_st = .S_CS_HI → ∃ q, tick s = .next { s.emit (.CS true) with fs_st := .S_IDLE, q_st := q } ∧
      (s.q_st = .Q_FILL ∨ s.q_st = .Q_UPD → q = .Q_DONE))

/-- R206 (with R200): acceptance of each command, the start of FS, the end of its stream, and the end of a command. The model's own: acceptance takes
`cmd_valid` down (log entry 6), and SEQ moves in FS's last row (log entry 18). -/
def Obligations.CommandTable : Prop :=
  ∀ s : State, s.fe_st = .F_IDLE → s.fs_st = .S_IDLE →
    (s.q_st = .Q_IDLE → s.busy = false → s.inp.cmd_valid = true →
      (s.inp.cmd_op = 1 → tick s = .next { s.emit (.CMD .INITIALIZE) with
        op := 1, color := s.inp.cmd_color, busy := true, q_st := .Q_CFG, inp := { s.inp with cmd_valid := false } }) ∧
      (s.inp.cmd_op = 2 → tick s = .next { s.emit (.CMD (.CLEAR s.inp.cmd_color)) with
        op := 2, color := s.inp.cmd_color, busy := true, src := .CONST, fill_color := s.inp.cmd_color, q_st := .Q_FILL
        inp := { s.inp with cmd_valid := false } }) ∧
      (s.inp.cmd_op = 3 → tick s = .next { s.emit (.CMD .UPDATE) with
        op := 3, color := s.inp.cmd_color, busy := true, src := .FB, q_st := .Q_UPD, inp := { s.inp with cmd_valid := false } })) ∧
    (s.q_st = .Q_IDLE → s.busy = true ∨ s.inp.cmd_valid = false ∨ s.inp.cmd_op = 0 → tick s = .next s) ∧
    (s.q_st = .Q_FILL ∨ s.q_st = .Q_UPD → tick s = .next { s with fs_st := .S_CS_LO, req := none }) ∧
    (∀ t : State, t.fe_st = .F_IDLE → t.fs_st = .S_CS_HI → t.q_st = .Q_FILL ∨ t.q_st = .Q_UPD →
      tick t = .next { t.emit (.CS true) with fs_st := .S_IDLE, q_st := .Q_DONE }) ∧
    (s.q_st = .Q_DONE → tick s = .next { s.emit .DONE with busy := false, q_st := .Q_IDLE })

/-! ### The result of each operation -/

/-- SEND_INDEX (R122, R125) in both its forms, and the Index burst's effect on the receiver (R77). The model's own: the starter that waits
for FE moves in FE's last row (R160, R188; log entry 18), by its own state alone and not at all outside the rows that wait for a frame (log
entry 19), and `rx`, `rx_ok` as the record of the burst (log entry 8). -/
def Obligations.SendIndexResult : Prop :=
  ∀ (r : Byte) (s : State), s.inp.tx_byte_ack = true → ∃ t, exec (.sendIndex r) s = .next t ∧
    t.trace = s.trace ++ (if s.fe_bracket then ([.CS false, .BYTE 0x74, .BYTE 0x00, .BYTE r, .CS true] : List Event)
      else ([.BYTE 0x74, .BYTE 0x00, .BYTE r] : List Event)) ∧
    t.cs_n = (if s.fe_bracket then true else s.cs_n) ∧ SameLines s t ∧ SameStore s t ∧ SameCommand s t ∧ SameCounters s t ∧
    SameSource s t ∧ t.pc = s.pc ∧ t.req = none ∧ t.fe_st = .F_IDLE ∧ t.fe_kind = .IDX ∧ lo t.fe_arg = r ∧
    hi t.fe_arg = hi s.fe_arg ∧ t.fe_bracket = s.fe_bracket ∧
    (s.fs_st = .S_IDLE → t.fs_st = .S_IDLE ∧ t.q_st = (if s.q_st = .Q_STEP_IDX then .Q_STEP_DAT
      else if s.q_st = .Q_STEP_DAT then .Q_STEP_DLY else s.q_st)) ∧
    (s.fs_st = .S_INDEX → t.fs_st = .S_MARK ∧ t.q_st = s.q_st) ∧
    (s.fs_st ≠ .S_IDLE → s.fs_st ≠ .S_INDEX → t.fs_st = s.fs_st ∧ t.q_st = s.q_st) ∧
    (s.fe_bracket = true → s.panelListens = true → t.out = { s.out with rx := [], rx_ok := false, ir := some r }) ∧
    (s.fe_bracket = false → s.wireClear = true → t.out = { s.out with rx := s.out.rx ++ [0x74, 0x00, r] })

/-- SEND_DATA (R123): five events in its own bracket, and on the receiver `PR[IR] <- v` and nothing else (R78). The model's own: SEQ, where
it waits for a frame, moves in FE's last row (R160; log entry 18), by its own state alone, so from `Q_STEP_IDX` too, and SEQ and FS stay
elsewhere (log entry 19). -/
def Obligations.SendDataResult : Prop :=
  ∀ (v : Half) (s : State), s.inp.tx_byte_ack = true → ∃ t, exec (.sendData v) s = .next t ∧
    t.trace = s.trace ++ ([.CS false, .BYTE 0x76, .BYTE (hi v), .BYTE (lo v), .CS true] : List Event) ∧
    t.cs_n = true ∧ SameLines s t ∧ SameStore s t ∧ SameCommand s t ∧ SameCounters s t ∧
    SameSource s t ∧ t.pc = s.pc ∧ t.req = none ∧ t.fe_st = .F_IDLE ∧ t.fe_kind = .DAT ∧ t.fe_arg = v ∧ t.fe_bracket = true ∧
    (s.fs_st = .S_IDLE → t.fs_st = .S_IDLE ∧ t.q_st = (if s.q_st = .Q_STEP_IDX then .Q_STEP_DAT
      else if s.q_st = .Q_STEP_DAT then .Q_STEP_DLY else s.q_st)) ∧
    (s.fs_st ≠ .S_IDLE → s.fs_st ≠ .S_INDEX → t.fs_st = s.fs_st ∧ t.q_st = s.q_st) ∧
    (s.panelListens = true → ∀ k, s.out.ir = some k →
      t.out.ir = some k ∧ t.out.pix = s.out.pix ∧ t.out.panel_lost = false ∧ t.out.panel.reg k = some v ∧
        ∀ k', k' ≠ k → t.out.panel.reg k' = s.out.panel.reg k')

/-- WRITE_REGISTER (R124, R127): exactly ten events, two bursts, and on the receiver `IR <- r; PR[r] <- v` and nothing else. The model's
own: SEQ, where it waits for a frame, moves in the last row of each (R160; log entry 18), so that it stands in `Q_STEP_DLY` when begun in
`Q_STEP_IDX` or in `Q_STEP_DAT`, and it stays elsewhere (log entry 19). -/
def Obligations.WriteRegisterResult : Prop :=
  ∀ (r : Byte) (v : Half) (s : State), s.inp.tx_byte_ack = true → ∃ t es, exec (.writeRegister r v) s = .next t ∧
    t.trace = s.trace ++ es ∧
    es = ([.CS false, .BYTE 0x74, .BYTE 0x00, .BYTE r, .CS true, .CS false, .BYTE 0x76, .BYTE (hi v), .BYTE (lo v), .CS true] : List Event) ∧
    wire es = [[0x74, 0x00, r], [0x76, hi v, lo v]] ∧
    t.cs_n = true ∧ SameLines s t ∧ SameStore s t ∧ SameCommand s t ∧ SameCounters s t ∧
    SameSource s t ∧ t.pc = s.pc ∧ t.req = none ∧ t.fe_st = .F_IDLE ∧ t.fe_kind = .DAT ∧ t.fe_arg = v ∧ t.fe_bracket = true ∧
    (s.fs_st = .S_IDLE → t.fs_st = .S_IDLE ∧
      t.q_st = (if s.q_st = .Q_STEP_IDX ∨ s.q_st = .Q_STEP_DAT then .Q_STEP_DLY else s.q_st)) ∧
    (s.panelListens = true → t.out.ir = some r ∧ t.out.pix = s.out.pix ∧ t.out.panel_lost = false ∧ t.out.panel.reg r = some v ∧
      ∀ k, k ≠ r → t.out.panel.reg k = s.out.panel.reg k)

/-- DELAY (R143): one event, or none at all for 0; nothing changes but the sequencer's place (R160). The model's own: until the delay
primitive answers the event is held out and is not in the trace (log entry 9), and outside the three rows that wait SEQ stays where it is
(log entry 19). -/
def Obligations.DelayResult : Prop :=
  (∀ (n : Nat) (s : State), n ≠ 0 → s.inp.dly_done = false → exec (.delay n) s = .next { s with req := some (.DELAY n) }) ∧
  ∀ (n : Nat) (s : State), n = 0 ∨ s.inp.dly_done = true → ∃ q k, exec (.delay n) s = .next
      { s with
        trace := s.trace ++ (if n = 0 then [] else [.DELAY n])
        req := if n = 0 then s.req else none
        q_st := q, pc := k } ∧
    (s.q_st = .Q_RST_HOLD → q = .Q_RST_HI ∧ k = s.pc) ∧ (s.q_st = .Q_RST_WAIT → q = .Q_STEP_IDX ∧ k = 0) ∧
    (s.q_st = .Q_STEP_DLY → q = .Q_STEP_NEXT ∧ k = s.pc) ∧
    (s.q_st ≠ .Q_RST_HOLD → s.q_st ≠ .Q_RST_WAIT → s.q_st ≠ .Q_STEP_DLY → q = s.q_st ∧ k = s.pc)

/-- R141: CONFIG_LINES, on every state; where the lines have these levels already only the trace changes, and SEQ's place: from `Q_CFG` to
`Q_RST_LO` as R160 says, and that it stays elsewhere is the model's own (log entry 19). -/
def Obligations.ConfigLinesResult : Prop :=
  ∀ s : State, exec .configLines s = .next
    { s with
      lines_oe := true, cs_n := true, mode_sel := s.par.MODE_INIT, rst_n := true
      trace := s.trace ++ [.CFG true s.par.MODE_INIT true]
      req := none
      q_st := if s.q_st = .Q_CFG then .Q_RST_LO else s.q_st }

/-- R142: RESET_PULSE. No byte is sent and chip-select stays as it is. The model's own: `panel_lost`, its record of the panel (log entry 2), that the receiver
keeps `IR`, `PR` and `PIX` over the pulse (log entry 27), and where SEQ stands after a pulse begun outside `Q_RST_LO` (log entry 19). -/
def Obligations.ResetPulseResult : Prop :=
  ∀ s : State, s.inp.dly_done = true → ∃ q k, exec .resetPulse s = .next
      { s with
        rst_n := true
        trace := s.trace ++ [.RST false, .DELAY s.par.T_RST_HOLD, .RST true, .DELAY s.par.T_RST_WAIT]
        req := none
        out := if s.lines_oe then { s.out with panel_lost := false } else s.out
        q_st := q, pc := k } ∧
    (s.q_st = .Q_RST_LO ∨ s.q_st = .Q_RST_HOLD ∨ s.q_st = .Q_RST_HI ∨ s.q_st = .Q_RST_WAIT → q = .Q_STEP_IDX ∧ k = 0) ∧
    (s.q_st = .Q_STEP_DLY → q = .Q_STEP_NEXT ∧ k = s.pc) ∧
    (s.q_st ≠ .Q_RST_LO → s.q_st ≠ .Q_RST_HOLD → s.q_st ≠ .Q_RST_HI → s.q_st ≠ .Q_RST_WAIT → s.q_st ≠ .Q_STEP_DLY →
      q = s.q_st ∧ k = s.pc) ∧
    50 ≤ s.par.T_RST_HOLD ∧ 50 ≤ s.par.T_RST_WAIT

/-- R147: POWER_ON_STEP: the register write, the delay if there is one, `pc + 1`; after the last entry the operands of the initial clear and
`Q_FILL`, else the next entry (R157, R160). That SEQ, waiting for FE, moves in FE's last row is the model's (log entry 18). -/
def Obligations.PowerOnStepResult : Prop :=
  ∀ (reg : Byte) (val : Half) (dly : Nat) (s : State), s.inp.tx_byte_ack = true → s.inp.dly_done = true → s.fs_st = .S_IDLE →
    s.q_st = .Q_STEP_IDX → ∃ t, exec (.powerOnStep reg val dly) s = .next t ∧
      t.trace = s.trace ++ ([.CS false, .BYTE 0x74, .BYTE 0x00, .BYTE reg, .CS true, .CS false, .BYTE 0x76, .BYTE (hi val),
        .BYTE (lo val), .CS true] : List Event) ++ (if dly = 0 then [] else ([.DELAY dly] : List Event)) ∧
      t.pc = s.pc + 1 ∧ t.cs_n = true ∧ SameLines s t ∧ SameStore s t ∧ SameCommand s t ∧ SameCounters s t ∧
      t.fe_st = .F_IDLE ∧ t.fs_st = .S_IDLE ∧
      (s.pc + 1 = s.rom.length → t.q_st = .Q_FILL ∧ t.src = .CONST ∧ t.fill_color = s.par.INIT_CLEAR_COLOR) ∧
      (s.pc + 1 ≠ s.rom.length → t.q_st = .Q_STEP_IDX ∧ SameSource s t) ∧
      (s.panelListens = true → t.out.ir = some reg ∧ t.out.pix = s.out.pix ∧ t.out.panel.reg reg = some val ∧
        ∀ k, k ≠ reg → t.out.panel.reg k = s.out.panel.reg k)

/-- STREAM_BUFFERED (R172) from either pixel source: the events in the order of its three loops, and what it leaves in the registers. That
SEQ goes from `Q_FILL` or `Q_UPD` to `Q_DONE` (R206) with FS's last row is the model's (log entry 18), and that it stays elsewhere too (log
entry 19). -/
def Obligations.StreamBufferedResult : Prop :=
  ∀ s : State, s.par.STRATEGY = .BUFFERED → s.collaboratorsReady = true → s.fe_st = .F_IDLE → ∃ t, exec .streamBuffered s = .next t ∧
    t.trace = s.trace ++ ([.CS false, .BYTE 0x74, .BYTE 0x00, .BYTE 0x22] : List Event) ++ (if s.par.BULK_MARKER then ([.BYTE 0x76] : List Event) else []) ++
      ((List.range s.par.W).reverse.flatMap fun c => (List.range s.par.G).flatMap fun g =>
        (if s.src = .FB then ([.FBREAD c g (fbByte s c g)] : List Event) else []) ++
          ([.BULK (expand (pixel s.par.toParams s.src s.fill_color (fbByte s c g)))] : List Event)) ++ ([.CS true] : List Event) ∧
    t.cs_n = true ∧ SameLines s t ∧ SameStore s t ∧ SameCommand s t ∧ SameSource s t ∧ t.pc = s.pc ∧ t.req = none ∧
    t.fs_st = .S_IDLE ∧ t.fe_st = .F_IDLE ∧ t.fe_kind = .IDX ∧ lo t.fe_arg = 0x22 ∧ hi t.fe_arg = hi s.fe_arg ∧ t.fe_bracket = false ∧
    t.col = 0 ∧ t.grp = s.par.G - 1 ∧ t.bit = s.bit ∧
    t.cur = (if s.src = .FB then fbByte s 0 (s.par.G - 1) else s.cur) ∧
    t.scratch = expand (pixel s.par.toParams s.src s.fill_color (fbByte s 0 (s.par.G - 1))) ∧
    t.q_st = (if s.q_st = .Q_FILL ∨ s.q_st = .Q_UPD then .Q_DONE else s.q_st)

/-- STREAM_BURST (R173) from either pixel source; the transport's word size is narrow again at the end. The model's own: nothing is queued
after the drain wait (R186; log entry 7), SEQ goes from `Q_FILL` or `Q_UPD` to `Q_DONE` (R206) with FS's last row (log entry 18), and it
stays elsewhere (log entry 19). -/
def Obligations.StreamBurstResult : Prop :=
  ∀ s : State, s.par.STRATEGY = .BURST → s.collaboratorsReady = true → s.fe_st = .F_IDLE → ∃ t, exec .streamBurst s = .next t ∧
    t.trace = s.trace ++ ([.CS false, .BYTE 0x74, .BYTE 0x00, .BYTE 0x22] : List Event) ++ (if s.par.BULK_MARKER then ([.BYTE 0x76] : List Event) else []) ++
      ([.WIDTH .W16] : List Event) ++
      ((List.range s.par.W).reverse.flatMap fun c => (List.range s.par.G).flatMap fun g =>
        (if s.src = .FB then ([.FBREAD c g (fbByte s c g)] : List Event) else []) ++
          ([0, 1, 2, 3, 4, 5, 6, 7].map fun k => .WORD (pixel s.par.toParams s.src s.fill_color (fbByte s c g) k))) ++
      ([.WIDTH .W8, .CS true] : List Event) ∧
    t.out.bus_width = .W8 ∧ t.out.fifo = [] ∧
    t.cs_n = true ∧ SameLines s t ∧ SameStore s t ∧ SameCommand s t ∧ SameSource s t ∧ t.pc = s.pc ∧ t.req = none ∧
    t.fs_st = .S_IDLE ∧ t.fe_st = .F_IDLE ∧ t.fe_kind = .IDX ∧ lo t.fe_arg = 0x22 ∧ hi t.fe_arg = hi s.fe_arg ∧ t.fe_bracket = false ∧
    t.col = 0 ∧ t.grp = s.par.G - 1 ∧ t.bit = 7 ∧ t.scratch = s.scratch ∧
    t.cur = (if s.src = .FB then fbByte s 0 (s.par.G - 1) else s.cur) ∧
    t.q_st = (if s.q_st = .Q_FILL ∨ s.q_st = .Q_UPD then .Q_DONE else s.q_st)

/-- R170: the stream of the other strategy does not exist in the block. -/
def Obligations.OtherStrategyAbsent : Prop :=
  ∀ s : State,
    (s.par.STRATEGY = .BURST → exec .streamBuffered s = .refused .absentInThisStrategy) ∧
    (s.par.STRATEGY = .BUFFERED → exec .streamBurst s = .refused .absentInThisStrategy)

/-- INITIALIZE (R158, R201): the trace depends on parameters and ROM alone, not on the framebuffer; the block is idle again. That the request is taken
down is the model's (log entry 6). -/
def Obligations.InitializeResult : Prop :=
  ∀ s : State, s.idle = true → s.collaboratorsReady = true → s.rom ≠ [] → ∃ t, exec .hostInitialize s = .next t ∧
    t.trace = s.trace ++ ([.CMD .INITIALIZE, .CFG true s.par.MODE_INIT true, .RST false, .DELAY s.par.T_RST_HOLD, .RST true,
      .DELAY s.par.T_RST_WAIT] : List Event) ++
      (s.rom.flatMap fun e => ([.CS false, .BYTE 0x74, .BYTE 0x00, .BYTE e.reg, .CS true, .CS false, .BYTE 0x76, .BYTE (hi e.val),
        .BYTE (lo e.val), .CS true] : List Event) ++ (if e.dly = 0 then [] else ([.DELAY e.dly] : List Event))) ++
      streamTrace s.par.toParams .CONST s.par.INIT_CLEAR_COLOR (fun _ _ => 0) ++ ([.DONE] : List Event) ∧
    SameStore s t ∧ t.idle = true ∧ t.op = 1 ∧ t.color = s.inp.cmd_color ∧ t.pc = s.rom.length ∧
    t.inp = { s.inp with cmd_valid := false } ∧ t.src = .CONST ∧ t.fill_color = s.par.INIT_CLEAR_COLOR ∧
    t.cs_n = true ∧ t.rst_n = true ∧ t.mode_sel = s.par.MODE_INIT ∧ t.lines_oe = true ∧ t.req = none

/-- CLEAR (R203): the stream of its colour between `CMD` and `DONE`, whatever the colour. That the request is taken down is the model's (log entry 6). -/
def Obligations.ClearResult : Prop :=
  ∀ (color : Half) (s : State), s.idle = true → s.collaboratorsReady = true → ∃ t, exec (.hostClear color) s = .next t ∧
    t.trace = s.trace ++ ([.CMD (.CLEAR color)] : List Event) ++ streamTrace s.par.toParams .CONST color (fbByte s) ++ ([.DONE] : List Event) ∧
    SameStore s t ∧ SameLines s t ∧ t.cs_n = true ∧ t.idle = true ∧ t.op = 2 ∧ t.color = color ∧ t.pc = s.pc ∧
    t.inp = { s.inp with cmd_valid := false } ∧ t.src = .CONST ∧ t.fill_color = color ∧ t.req = none

/-- UPDATE (R202): the stream of the framebuffer between `CMD` and `DONE`. That the request is taken down is the model's (log entry 6). -/
def Obligations.UpdateResult : Prop :=
  ∀ s : State, s.idle = true → s.collaboratorsReady = true → ∃ t, exec .hostUpdate s = .next t ∧
    t.trace = s.trace ++ ([.CMD .UPDATE] : List Event) ++ streamTrace s.par.toParams .FB s.fill_color (fbByte s) ++ ([.DONE] : List Event) ∧
    SameStore s t ∧ SameLines s t ∧ t.cs_n = true ∧ t.idle = true ∧ t.op = 3 ∧ t.color = s.inp.cmd_color ∧ t.pc = s.pc ∧
    t.inp = { s.inp with cmd_valid := false } ∧ t.src = .FB ∧ t.fill_color = s.fill_color ∧ t.req = none

/-- R205: a command is not accepted while one is in flight: it has no effect at all. That the request then stays on the port is the model's
(log entry 6). -/
def Obligations.CommandWhileBusy : Prop :=
  ∀ s : State, s.busy = true ∨ s.q_st ≠ .Q_IDLE →
    exec .hostInitialize s = .next s ∧ (∀ color, exec (.hostClear color) s = .next s) ∧ exec .hostUpdate s = .next s

/-- R240, R252 and the reserved row of R104: an idle block does nothing until a command with a code other than `00` is presented. -/
def Obligations.IdleWaitsForACommand : Prop :=
  ∀ s : State, s.idle = true → s.inp.blk_rst = false → s.inp.cmd_valid = false ∨ s.inp.cmd_op = 0 → step s = .next s

/-! ### The receiver -/

/-- A STREAM reaches a listening receiver as one burst, in either strategy: `IR = 0x22`, `PIX` extended by the pixels of R171, no register
changed (R79, R171). For a block without the data marker the receiver is the model's (log entry 13). `rx` and `rx_ok` are the model's record
of the burst (log entry 8). -/
def Obligations.StreamReachesTheReceiver : Prop :=
  ∀ s : State, s.collaboratorsReady = true → s.panelListens = true → s.fe_st = .F_IDLE → ∃ t, exec (streamOf s.par.STRATEGY) s = .next t ∧
    t.out = { s.out with
      rx := [], rx_ok := false, ir := some 0x22
      pix := s.out.pix ++ streamPixels s.par.toParams s.src s.fill_color (fbByte s) }

/-- The end state of R201 on the receiver, from any panel, any lines and whatever a `blk_rst` left queued in the transport, at the narrow word size
(R231, R251, R255): every register the ROM names holds the value of the last entry that names it, no other register is written, `IR = 0x22`, and `W * H`
pixels of the initial colour have come. The model's own: registers and pixels are kept over the panel's reset (log entry 27), words still queued are off the
wire once `bus_busy` is down (log entry 7), and the receiver of a block without the data marker (log entry 13). -/
def Obligations.InitializeEndState : Prop :=
  ∀ s : State, s.idle = true → s.collaboratorsReady = true → s.rom ≠ [] → s.inp.tx_delivers = true → s.out.bus_width = .W8 →
    ∃ t, exec .hostInitialize s = .next t ∧ t.panelListens = true ∧ t.out.ir = some 0x22 ∧
    t.out.pix = s.out.pix ++ List.replicate (s.par.W * s.par.H) s.par.INIT_CLEAR_COLOR ∧
    (∀ a : Byte, t.out.panel.reg a = match s.rom.reverse.find? fun e => e.reg == a with
      | some e => some e.val
      | none => s.out.panel.reg a) ∧
    (s.rom = s.par.rom → t.out.panel.reg s.par.REG_DISPLAY_CONTROL = some s.par.VAL_DC_4 ∧
      (s.par.REG_ENTRY_MODE ≠ s.par.REG_DISPLAY_CONTROL → t.out.panel.reg s.par.REG_ENTRY_MODE = some s.par.VAL_ENTRY))

/-- The end states of R202 and R203 on a listening receiver. For a block without the data marker the receiver is the model's (log entry 13).
`rx` and `rx_ok` are the model's record of the burst (log entry 8). -/
def Obligations.ClearAndUpdateEndState : Prop :=
  ∀ s : State, s.idle = true → s.collaboratorsReady = true → s.panelListens = true →
    (∀ color, ∃ t, exec (.hostClear color) s = .next t ∧
      t.out = { s.out with
        rx := [], rx_ok := false, ir := some 0x22, pix := s.out.pix ++ List.replicate (s.par.W * s.par.H) color }) ∧
    (∃ t, exec .hostUpdate s = .next t ∧
      t.out = { s.out with
        rx := [], rx_ok := false, ir := some 0x22
        pix := s.out.pix ++ (List.range (s.par.W * s.par.H)).map fun n =>
          if logicalPixel (fbByte s) (s.par.W - 1 - n / s.par.H) (n % s.par.H) then s.par.MASK_FILLED else s.par.MASK_BLANK })

/-- The model's own (log entry 2): where a register write, CLEAR, UPDATE or INITIALIZE cannot reach the panel in a known form, it runs with
its ordinary trace and leaves the panel undefined: free values, and so until INITIALIZE resets the panel (R258). The causes: lines not
driven (no INITIALIZE since `blk_rst`, R207, U6), a transport that loses the bytes (R163, R222), a wide word size (`P_WIDTH8`, R256), a
panel undefined already. INITIALIZE drives the lines and resets the panel itself. A Data Frame with no register selected leaves the panel
undefined too (R78). The causes are followed burst by burst in the model's own `rx_ok` (log entries 8 and 28). -/
def Obligations.UndefinedPanel : Prop :=
  (∀ (v : Half) (s : State), s.inp.tx_byte_ack = true → s.panelListens = true → s.out.ir = none → ∃ t, exec (.sendData v) s = .next t ∧
    t.trace = s.trace ++ ([.CS false, .BYTE 0x76, .BYTE (hi v), .BYTE (lo v), .CS true] : List Event) ∧
    t.out.panel = Panel.free s.out.panel_free ∧ t.out.panel_lost = true) ∧
  (∀ s : State, s.lines_oe = false ∨ s.inp.tx_delivers = false ∨ s.out.bus_width = .W16 ∨ s.out.panel_lost = true →
    (∀ r v, s.inp.tx_byte_ack = true → ∃ t, exec (.writeRegister r v) s = .next t ∧
      t.trace = s.trace ++ ([.CS false, .BYTE 0x74, .BYTE 0x00, .BYTE r, .CS true, .CS false, .BYTE 0x76, .BYTE (hi v), .BYTE (lo v),
        .CS true] : List Event) ∧
      t.out.panel = Panel.free (s.out.panel_free + 1) ∧ t.out.panel_lost = true) ∧
    (∀ color, s.idle = true → s.collaboratorsReady = true → ∃ t, exec (.hostClear color) s = .next t ∧
      t.trace = s.trace ++ ([.CMD (.CLEAR color)] : List Event) ++ streamTrace s.par.toParams .CONST color (fbByte s) ++
        ([.DONE] : List Event) ∧ t.idle = true ∧
      t.out.panel = Panel.free s.out.panel_free ∧ t.out.panel_lost = true ∧ t.out.panel_free = s.out.panel_free + 1) ∧
    (s.idle = true → s.collaboratorsReady = true → ∃ t, exec .hostUpdate s = .next t ∧
      t.trace = s.trace ++ ([.CMD .UPDATE] : List Event) ++ streamTrace s.par.toParams .FB s.fill_color (fbByte s) ++
        ([.DONE] : List Event) ∧ t.idle = true ∧
      t.out.panel = Panel.free s.out.panel_free ∧ t.out.panel_lost = true ∧ t.out.panel_free = s.out.panel_free + 1)) ∧
  (∀ s : State, s.inp.tx_delivers = false ∨ s.out.bus_width = .W16 → s.idle = true → s.collaboratorsReady = true → s.rom ≠ [] →
    ∃ t, exec .hostInitialize s = .next t ∧
      t.trace = s.trace ++ ([.CMD .INITIALIZE] : List Event) ++ initializeTrace s.par.toParams s.rom ++ ([.DONE] : List Event) ∧
      t.idle = true ∧ t.out.panel = Panel.free (s.out.panel_free + 2 * s.rom.length) ∧ t.out.panel_lost = true)

/-- R204: after a completed command. -/
def Obligations.StateAfterACommand : Prop :=
  ∀ s : State, s.idle = true → s.collaboratorsReady = true → s.out.bus_width = .W8 → s.rom ≠ [] →
    ∀ i t, i = .hostInitialize ∨ (∃ color, i = .hostClear color) ∨ i = .hostUpdate → exec i s = .next t →
      t.q_st = .Q_IDLE ∧ t.fe_st = .F_IDLE ∧ t.fs_st = .S_IDLE ∧ t.busy = false ∧ t.cs_n = true ∧ t.out.bus_width = .W8 ∧
        (i = .hostInitialize → t.rst_n = true ∧ t.mode_sel = s.par.MODE_INIT) ∧
        (s.rst_n = true → t.rst_n = true) ∧ (s.mode_sel = s.par.MODE_INIT → t.mode_sel = s.par.MODE_INIT)

/-! ### Traces and the wire -/

/-- R171: the wire projection of a STREAM is exactly one burst, the same in both strategies. -/
def Obligations.StreamWireImage : Prop :=
  ∀ s : State, s.collaboratorsReady = true → s.fe_st = .F_IDLE → ∃ t es, exec (streamOf s.par.STRATEGY) s = .next t ∧ t.trace = s.trace ++ es ∧
    wire es = [([0x74, 0x00, 0x22] : List Byte) ++ (if s.par.BULK_MARKER then ([0x76] : List Byte) else []) ++
      (List.range (s.par.W * s.par.H)).flatMap fun n =>
        wordBytes (match s.src with
          | .CONST => s.fill_color
          | .FB =>
            if (fbByte s (s.par.W - 1 - n / s.par.H) (n % s.par.H / 8)).getLsbD (n % 8) then s.par.MASK_FILLED
            else s.par.MASK_BLANK)]

/-- R174: from two states that differ in the strategy, the streams have the same bytes on the wire and the same framebuffer reads. -/
def Obligations.StrategiesAgree : Prop :=
  ∀ (s s' : State), s.par.STRATEGY = .BUFFERED → s'.par.toParams = { s.par.toParams with STRATEGY := .BURST } → s'.src = s.src →
    s'.fill_color = s.fill_color → s'.fb = s.fb → s.collaboratorsReady = true → s'.collaboratorsReady = true → s.fe_st = .F_IDLE →
    s'.fe_st = .F_IDLE → ∃ t t' es es', exec .streamBuffered s = .next t ∧ exec .streamBurst s' = .next t' ∧ t.trace = s.trace ++ es ∧
      t'.trace = s'.trace ++ es' ∧ wire es = wire es' ∧ es.filter isRead = es'.filter isRead

/-- R175: every STREAM has exactly one `CS(0)`, its first event, and exactly one `CS(1)`, its last. -/
def Obligations.StreamBracket : Prop :=
  ∀ s : State, s.collaboratorsReady = true → s.fe_st = .F_IDLE → ∃ t es, exec (streamOf s.par.STRATEGY) s = .next t ∧
    t.trace = s.trace ++ ([.CS false] : List Event) ++ es ++ ([.CS true] : List Event) ∧ ∀ e ∈ es, ∀ l, e ≠ .CS l

/-- R176 and R63: a STREAM from the framebuffer reads every byte exactly once, columns from last to first, groups ascending; from a constant it reads none. -/
def Obligations.FramebufferReadOrder : Prop :=
  ∀ s : State, s.collaboratorsReady = true → s.fe_st = .F_IDLE → ∃ t es, exec (streamOf s.par.STRATEGY) s = .next t ∧ t.trace = s.trace ++ es ∧
    es.filterMap readPlace =
      (if s.src = .FB then (List.range (s.par.W * s.par.G)).map fun n => (s.par.W - 1 - n / s.par.G, n % s.par.G) else []) ∧
    ∀ c g v, Event.FBREAD c g v ∈ es → v = fbByte s c g

/-- R190: the counts of one STREAM. -/
def Obligations.StreamCounts : Prop :=
  ∀ s : State, s.collaboratorsReady = true → s.fe_st = .F_IDLE → ∃ t es, exec (streamOf s.par.STRATEGY) s = .next t ∧ t.trace = s.trace ++ es ∧
    (wire es).map List.length = [(if s.par.BULK_MARKER then 4 else 3) + 2 * s.par.W * s.par.H] ∧
    es.countP isRead = (if s.src = .FB then s.par.W * s.par.G else 0) ∧
    es.countP isByte = (if s.par.BULK_MARKER then 4 else 3) ∧
    es.countP isBulk = (if s.par.STRATEGY = .BUFFERED then s.par.W * s.par.G else 0) ∧
    es.countP isWord = (if s.par.STRATEGY = .BURST then s.par.W * s.par.H else 0) ∧
    es.countP isWidth = (if s.par.STRATEGY = .BURST then 2 else 0) ∧
    es.countP isChipSelect = 2

/-- R87: UPDATE sends one burst, whose `n`-th pixel pair is that of logical pixel `(W - 1 - n div H, n mod H)`: filled for a 1 bit, blank for a 0 bit. -/
def Obligations.PixelOrder : Prop :=
  ∀ s : State, s.idle = true → s.collaboratorsReady = true → ∃ t es b, exec .hostUpdate s = .next t ∧ t.trace = s.trace ++ es ∧
    wire es = [b] ∧ b.length = (if s.par.BULK_MARKER then 4 else 3) + 2 * (s.par.W * s.par.H) ∧
    ∀ n, n < s.par.W * s.par.H → ∀ v, v = (if logicalPixel (fbByte s) (s.par.W - 1 - n / s.par.H) (n % s.par.H) then s.par.MASK_FILLED
        else s.par.MASK_BLANK) →
      b[(if s.par.BULK_MARKER then 4 else 3) + 2 * n]? = some (hi v) ∧ b[(if s.par.BULK_MARKER then 4 else 3) + 2 * n + 1]? = some (lo v)

/-- The timing of INITIALIZE (R158, R159, R260): `CFG`, the two edges of the reset line and exactly six delays, each at least its lower bound, at least
200 ms together; and where they stand among the bursts, in trace order (R11). -/
def Obligations.InitializeTiming : Prop :=
  ∀ s : State, s.idle = true → s.collaboratorsReady = true → s.rom = s.par.rom → ∃ t es, exec .hostInitialize s = .next t ∧
    t.trace = s.trace ++ es ∧
    timing es = [.CFG true s.par.MODE_INIT true, .RST false, .DELAY s.par.T_RST_HOLD, .RST true, .DELAY s.par.T_RST_WAIT,
      .DELAY s.par.T_DISP_OFF, .DELAY s.par.T_PWR_A, .DELAY s.par.T_PWR_B, .DELAY s.par.T_DISP_ON] ∧
    observe es = ([.timed (.CFG true s.par.MODE_INIT true), .timed (.RST false), .timed (.DELAY s.par.T_RST_HOLD), .timed (.RST true),
      .timed (.DELAY s.par.T_RST_WAIT)] : List Observed) ++
      (s.rom.flatMap fun e => ([.burst [0x74, 0x00, e.reg], .burst [0x76, hi e.val, lo e.val]] : List Observed) ++
        (if e.dly = 0 then [] else ([.timed (.DELAY e.dly)] : List Observed))) ++
      ([.burst (streamBurst s.par.toParams .CONST s.par.INIT_CLEAR_COLOR (fun _ _ => 0))] : List Observed) ∧
    50 ≤ s.par.T_RST_HOLD ∧ 50 ≤ s.par.T_RST_WAIT ∧ 10 ≤ s.par.T_DISP_OFF ∧ 40 ≤ s.par.T_PWR_A ∧ 40 ≤ s.par.T_PWR_B ∧
    10 ≤ s.par.T_DISP_ON ∧
    totalDelay es = s.par.T_RST_HOLD + s.par.T_RST_WAIT + s.par.T_DISP_OFF + s.par.T_PWR_A + s.par.T_PWR_B + s.par.T_DISP_ON ∧
    200 ≤ totalDelay es

/-- R241 with R158: the panel's power stages come in the order of R241: a row of a table leaves the stage or goes to the next one. That the
stage is read off SEQ's place and `pc` is the model's (log entry 26). -/
def Obligations.PowerStagesInOrder : Prop :=
  ∀ (s t : State) (a b : PowerStage), Inv s → tick s = .next t → s.powerStage = some a → t.powerStage = some b →
    b = a ∨ b.number = a.number + 1

/-- The wire image of INITIALIZE (R126, R159, R262): for each ROM entry in order an Index burst immediately followed by its Data burst, then one bulk burst;
with the counts of R159. -/
def Obligations.InitializeWireImage : Prop :=
  ∀ s : State, s.idle = true → s.collaboratorsReady = true → s.rom = s.par.rom → ∃ t es, exec .hostInitialize s = .next t ∧
    t.trace = s.trace ++ es ∧
    wire es = (s.rom.flatMap fun e => [[0x74, 0x00, e.reg], [0x76, hi e.val, lo e.val]]) ++
      [streamBurst s.par.toParams .CONST s.par.INIT_CLEAR_COLOR (fun _ _ => 0)] ∧
    (wire es).length = 2 * s.par.N_ROM + 1 ∧
    ((wire es).map List.length).sum = 6 * s.par.N_ROM + (if s.par.BULK_MARKER then 4 else 3) + 2 * s.par.W * s.par.H

/-- The ROM of an admitted parameter set (R150 to R154). -/
def Obligations.RomLayout : Prop :=
  ∀ p : Build,
    p.rom.length = p.N_PWR + 6 ∧
    p.rom[0]? = some ⟨p.REG_DISPLAY_CONTROL, p.VAL_DISPLAY_OFF, p.T_DISP_OFF⟩ ∧ 10 ≤ p.T_DISP_OFF ∧
    (∀ i w, p.PWR[i]? = some w → p.rom[1 + i]? = some ⟨w.reg, w.val, if i = p.PWR_A then p.T_PWR_A else if i = p.PWR_B then p.T_PWR_B else 0⟩ ∧
      w.reg ∈ [p.REG_DRIVE_CONTROL, p.REG_POWER_CONTROL_1, p.REG_POWER_CONTROL_2, p.REG_POWER_CONTROL_3, p.REG_POWER_CONTROL_4,
        p.REG_POWER_CONTROL_5]) ∧
    40 ≤ p.T_PWR_A ∧ 40 ≤ p.T_PWR_B ∧ p.PWR_A < p.PWR_B ∧ p.PWR_B < p.N_PWR ∧
    p.rom[p.N_PWR + 1]? = some ⟨p.REG_ENTRY_MODE, if p.SCAN_DIR = .NORMAL then p.VAL_ENTRY_NORMAL else p.VAL_ENTRY_MIRRORED, 0⟩ ∧
    p.rom[p.N_PWR + 2]? = some ⟨p.REG_DISPLAY_CONTROL, p.VAL_DC_1, 0⟩ ∧ p.rom[p.N_PWR + 3]? = some ⟨p.REG_DISPLAY_CONTROL, p.VAL_DC_2, 0⟩ ∧
    p.rom[p.N_PWR + 4]? = some ⟨p.REG_DISPLAY_CONTROL, p.VAL_DC_3, 0⟩ ∧
    p.rom[p.N_PWR + 5]? = some ⟨p.REG_DISPLAY_CONTROL, p.VAL_DC_4, p.T_DISP_ON⟩ ∧ 10 ≤ p.T_DISP_ON

/-- R155: the four display-control values, bit by bit: D0, GON, D1, DTE become set in that order and stay set; nothing else changes between them. -/
def Obligations.DisplayControlValues : Prop :=
  ∀ p : Build,
    [p.BIT_D0, p.BIT_GON, p.BIT_D1, p.BIT_DTE].Nodup ∧
    p.VAL_DC_1.getLsbD p.BIT_D0 = true ∧ p.VAL_DC_1.getLsbD p.BIT_GON = false ∧ p.VAL_DC_1.getLsbD p.BIT_D1 = false ∧
    p.VAL_DC_1.getLsbD p.BIT_DTE = false ∧
    ∀ k : Fin 16,
      p.VAL_DC_2.getLsbD k = (p.VAL_DC_1.getLsbD k || decide (k = p.BIT_GON)) ∧
      p.VAL_DC_3.getLsbD k = (p.VAL_DC_2.getLsbD k || decide (k = p.BIT_D1)) ∧
      p.VAL_DC_4.getLsbD k = (p.VAL_DC_3.getLsbD k || decide (k = p.BIT_DTE))

/-- R208: the pixels of CLEAR are its colour; those of UPDATE are the two masks only and, for an all-zero framebuffer, the blank mask only. For a block
without the data marker the receiver is the model's (log entry 13). -/
def Obligations.FillPathsDiffer : Prop :=
  ∀ s : State, s.idle = true → s.collaboratorsReady = true → s.panelListens = true → ∀ color, ∃ t u px,
    exec (.hostClear color) s = .next t ∧ exec .hostUpdate t = .next u ∧
      t.out.pix = s.out.pix ++ List.replicate (s.par.W * s.par.H) color ∧ u.out.pix = t.out.pix ++ px ∧ px.length = s.par.W * s.par.H ∧
      (∀ v ∈ px, v = s.par.MASK_FILLED ∨ v = s.par.MASK_BLANK) ∧
      ((∀ c g, fbByte s c g = 0) → px = List.replicate (s.par.W * s.par.H) s.par.MASK_BLANK)

/-- R126 with the premise that R74 allows: where the nine Register Addresses are pairwise distinct, the bursts of each command are Index bursts of other
registers than `0x22`, each immediately followed by its Data burst, and then one bulk burst; `0x22` is selected by the bulk burst alone. -/
def Obligations.MemoryWriteInBulkBurstsOnly : Prop :=
  ∀ (s : State) (i : Instr), s.idle = true → s.collaboratorsReady = true → s.par.addressesDistinct = true →
    (i = .hostInitialize ∧ s.rom = s.par.rom) ∨ (∃ color, i = .hostClear color) ∨ i = .hostUpdate →
    ∃ t es bulk, ∃ ws : List (Byte × Half), exec i s = .next t ∧ t.trace = s.trace ++ es ∧
      wire es = (ws.flatMap fun w => ([[0x74, 0x00, w.1], [0x76, hi w.2, lo w.2]] : List (List Byte))) ++ [bulk] ∧
      (∀ w ∈ ws, w.1 ≠ 0x22) ∧ (i ≠ .hostInitialize → ws = []) ∧
      bulk.take 3 = [0x74, 0x00, 0x22] ∧ bulk.length = (if s.par.BULK_MARKER then 4 else 3) + 2 * (s.par.W * s.par.H)

/-! ### Every step -/

/-- R129 and R189, for the whole machine: what a step does at once is one or more rows of the transition tables, and no row is a stop. How
many rows one step goes is the model's choice (log entry 15). -/
def Obligations.StepIsRows : Prop :=
  ∀ s : State, Inv s → s.inp.blk_rst = false → ∃ n t, ticks (n + 1) s = .next t ∧ step s = .next t

/-- Every step keeps the invariant, `blk_rst` or not, waiting or not. -/
def Obligations.StepKeepsInv : Prop := ∀ s t : State, Inv s → step s = .next t → Inv t

/-- The reset state of every admitted parameter set has the invariant. -/
def Obligations.ResetHasInv : Prop := ∀ p : Build, Inv (State.resetOf p)

/-- What the environment does between steps keeps the invariant: any inputs, any byte drawn into the framebuffer (R40 to R47, R61, R62). -/
def Obligations.EnvironmentKeepsInv : Prop :=
  ∀ (s : State) (i : Inputs) (a : Nat) (b : Byte), Inv s → Inv { s with inp := i, fb := s.fb.write a b }

/-- R220 and R225: the block traps on nothing and a step is never refused. -/
def Obligations.NeverStops : Prop := ∀ s : State, Inv s → ∃ t, step s = .next t

/-- Every next state of every operation, whatever the collaborators do: parameters, ROM and framebuffer are what they were, a framebuffer
read carries the byte held there, and the lines and the word size are what the events made them (R27, R37, R42 to R47, R62, R65). The
model's own: an event is in the trace only when its collaborator was ready for it (log entry 9), and of the inputs only the request is ever
taken down (log entry 6). -/
def Obligations.EveryNextState : Prop :=
  ∀ (i : Instr) (s t : State), exec i s = .next t → SameStore s t ∧ t.inp.otherThanRequest = s.inp.otherThanRequest ∧
    ∃ es, t.trace = s.trace ++ es ∧ t.lines = es.foldl Lines.after s.lines ∧ t.out.bus_width = es.foldl widthAfter s.out.bus_width ∧
      es.all (Event.permitted s) = true

/-- What a frame leaves alone when it has to wait as well as when it ends (R24, R29): SEND_INDEX, SEND_DATA, WRITE_REGISTER. -/
def Obligations.FrameOperationsFrame : Prop :=
  ∀ (i : Instr) (s t : State), (∃ r, i = .sendIndex r) ∨ (∃ v, i = .sendData v) ∨ (∃ r v, i = .writeRegister r v) → exec i s = .next t →
    SameStore s t ∧ SameLines s t ∧ SameCommand s t ∧ SameCounters s t ∧ SameSource s t ∧ t.pc = s.pc

/-- What the waits, CONFIG_LINES and RESET_PULSE leave alone (R22, R27, R29). -/
def Obligations.SequencerOperationsFrame : Prop :=
  ∀ (i : Instr) (s t : State), (∃ n, i = .delay n) ∨ i = .configLines ∨ i = .resetPulse → exec i s = .next t →
    SameStore s t ∧ SameCommand s t ∧ SameCounters s t ∧ SameSource s t ∧ SameFrame s t ∧ t.fs_st = s.fs_st ∧
      (i ≠ .configLines → t.cs_n = s.cs_n ∧ t.mode_sel = s.mode_sel ∧ t.lines_oe = s.lines_oe) ∧
      (i ≠ .resetPulse → t.out = s.out) ∧ ((∃ n, i = .delay n) → t.rst_n = s.rst_n) ∧ (i = .configLines → t.pc = s.pc)

/-- What POWER_ON_STEP and the streams leave alone (R22, R25, R29). -/
def Obligations.StepAndStreamFrame : Prop :=
  ∀ (i : Instr) (s t : State), exec i s = .next t →
    ((∃ reg val dly, i = .powerOnStep reg val dly) → SameStore s t ∧ SameLines s t ∧ SameCommand s t ∧ SameCounters s t) ∧
    (i = .streamBuffered ∨ i = .streamBurst → SameStore s t ∧ SameLines s t ∧ SameCommand s t ∧ SameSource s t ∧ t.pc = s.pc)

/-- What CLEAR and UPDATE leave alone, waiting or not (R202, R203, R208): `pc`, the lines but chip-select; UPDATE leaves the fill colour. -/
def Obligations.StreamCommandsFrame : Prop :=
  ∀ (s t : State), (∀ color, exec (.hostClear color) s = .next t → SameStore s t ∧ SameLines s t ∧ t.pc = s.pc) ∧
    (exec .hostUpdate s = .next t → SameStore s t ∧ SameLines s t ∧ t.pc = s.pc ∧ t.fill_color = s.fill_color)

/-- R130, R191 and R224: while a collaborator does not complete what is asked of it, or a flag does not fall, the block stays where it is:
no register changes and it goes on holding its request out. The model's own: the event that hangs is not in the trace (log entry 9), and the
receiver holds meanwhile what it held before the burst that is open (log entry 32). -/
def Obligations.BlockedBlockStays : Prop :=
  ∀ s : State, Inv s → s.inp.blk_rst = false →
    (∀ e, s.heldEvent = some e → step s = .next { s with req := some e }) ∧ (s.heldByFlag = true → step s = .next s)

/-- R50: what reset leaves in the registers it specifies, in every block. The rest of the reset state is the model's choice (log entries 1, 10, 11, 16). -/
def Obligations.ResetValues : Prop :=
  ∀ p : Build, (State.resetOf p).q_st = .Q_IDLE ∧ (State.resetOf p).fe_st = .F_IDLE ∧ (State.resetOf p).fs_st = .S_IDLE ∧
    (State.resetOf p).busy = false ∧ (State.resetOf p).lines_oe = false ∧ (State.resetOf p).cs_n = true ∧
    (State.resetOf p).rst_n = true ∧ (State.resetOf p).mode_sel = p.MODE_INIT ∧ State.reset = State.resetOf Config.build

/-- R251: under `blk_rst` the block takes its reset values, produces no event and drives no line; the word size stays as it was. The model's
own: the queue stays too (log entry 20), after a command cut short the undefined panel holds free values (log entry 2), and a reset of an
idle block leaves everything outside as it is (log entry 29). -/
def Obligations.BlockResetResult : Prop :=
  ∀ s : State, s.inp.blk_rst = true → ∃ t, step s = .next t ∧
    t.q_st = .Q_IDLE ∧ t.fe_st = .F_IDLE ∧ t.fs_st = .S_IDLE ∧ t.busy = false ∧ t.lines_oe = false ∧ t.cs_n = true ∧ t.rst_n = true ∧
    t.mode_sel = s.par.MODE_INIT ∧ t.trace = s.trace ∧ t.inp = s.inp ∧ SameStore s t ∧ t.out.bus_width = s.out.bus_width ∧
    t.out.fifo = s.out.fifo ∧
    (s.idle = true → t.out = s.out) ∧
    (s.busy = true → t.out.panel = Panel.free s.out.panel_free ∧ t.out.panel_lost = true)

/-- R51 and R162: whatever an idle block holds in the registers R50 leaves unspecified, a run goes the same way in every step: the same
events, the same everything but those registers, for any commands, waits and resets the environment makes. -/
def Obligations.UnspecifiedRegistersAreNeverRead : Prop :=
  ∀ (s : State) (u : Unspecified) (is : List Inputs), Inv s → s.idle = true →
    ∃ t v, drive is s = .next t ∧ drive is (s.withUnspecified u) = .next (t.withUnspecified v)

/-- R192, R209 and `P_FAIR` of R256: with collaborators that complete, a command in progress runs to `DONE` from wherever it stands; nothing
stops or cancels it. -/
def Obligations.CommandsEnd : Prop :=
  ∀ s : State, Inv s → s.q_st ≠ .Q_IDLE → s.collaboratorsReady = true → s.inp.blk_rst = false → s.inp.cmd_valid = false →
    ∃ n t es, steps n s = .next t ∧ t.idle = true ∧ t.trace = s.trace ++ es ++ ([.DONE] : List Event)

/-- R192, R209, R224 under `P_FAIR` of R256: in any environment that answers again and again and does not reset the block, whatever command it presents
meanwhile and however often it looks, a command in progress runs to `DONE`. -/
def Obligations.FairCommandsEnd : Prop :=
  ∀ (s : State) (env : Nat → Inputs), Inv s → s.q_st ≠ .Q_IDLE → Fair env → (∀ n, (env n).blk_rst = false) →
    ∃ n t es, driveFor env n s = .next t ∧ t.idle = true ∧ t.trace = s.trace ++ es ++ ([.DONE] : List Event)

/-- R20, R22 and R30: `PCW`, `CW` and `GW` are the least numbers of bits, at least 1, that hold `N_ROM`, `W - 1` and `G - 1`; in every state that
meets the invariant, in use or not, `pc` is in `0 .. N_ROM` and the three counters are within their widths, so none ever wraps; a row changes `pc`
only to 0 at the end of the reset pulse's last wait or by `+ 1` in `Q_STEP_NEXT`, and the program ends exactly when `pc = N_ROM`. That the model
keeps a counter as a natural number whose width is an invariant is its own (log entry 17). -/
def Obligations.CountersHaveTheirWidths : Prop :=
  (∀ p : Params, 1 ≤ p.PCW ∧ 1 ≤ p.CW ∧ 1 ≤ p.GW ∧ p.N_ROM < 2 ^ p.PCW ∧ p.W - 1 < 2 ^ p.CW ∧ p.G - 1 < 2 ^ p.GW ∧
    ∀ w, 1 ≤ w → (p.N_ROM < 2 ^ w → p.PCW ≤ w) ∧ (p.W - 1 < 2 ^ w → p.CW ≤ w) ∧ (p.G - 1 < 2 ^ w → p.GW ≤ w)) ∧
  (∀ s : State, Inv s → s.pc ≤ s.par.N_ROM ∧ s.pc < 2 ^ s.par.PCW ∧ s.col < 2 ^ s.par.CW ∧ s.grp < 2 ^ s.par.GW) ∧
  ∀ s t : State, Inv s → tick s = .next t →
    (s.q_st = .Q_STEP_NEXT → t.pc = s.pc + 1 ∧ (t.q_st = .Q_FILL ↔ t.pc = s.par.N_ROM)) ∧
    (s.q_st ≠ .Q_STEP_NEXT → t.pc = s.pc ∨ (s.q_st = .Q_RST_WAIT ∧ t.q_st = .Q_STEP_IDX ∧ t.pc = 0))
end

