-- ==== Sys2Proof/Laws/Config.lean ====
section
/-! SUPPORT. What an admitted parameter set gives (R15), and the shape of the ROM made from one (R150 to R154). -/

namespace Sys2Proof

/-- The parts of R15. -/
theorem Build.parts (p : Build) : p.geometryOk = true ∧ p.delaysOk = true ∧ p.powerSequenceOk = true ∧ p.displayValuesOk = true := by
  have h := p.ok
  simpa [Params.admitted, and_assoc] using h

/-- The geometry R15 admits, and the number of byte-groups in it. -/
theorem Build.geometry (p : Build) : 1 ≤ p.W ∧ 8 ≤ p.H ∧ p.H % 8 = 0 ∧ 0 < p.G ∧ p.G * 8 = p.H := by
  have h := p.parts.1
  simp only [Params.geometryOk, Bool.and_eq_true, decide_eq_true_eq] at h
  unfold Params.G
  omega

/-- The lower bounds of the six delays (R15, R144). -/
theorem Build.delays (p : Build) : 50 ≤ p.T_RST_HOLD ∧ 50 ≤ p.T_RST_WAIT ∧ 10 ≤ p.T_DISP_OFF ∧ 40 ≤ p.T_PWR_A ∧ 40 ≤ p.T_PWR_B ∧
    10 ≤ p.T_DISP_ON := by
  have h := p.parts.2.1
  simpa [Params.delaysOk, and_assoc] using h

/-- The two delayed power-control writes are two of the sequence (R15, R152). -/
theorem Build.powerPlaces (p : Build) : p.PWR_A < p.PWR_B ∧ p.PWR_B < p.N_PWR := by
  have h := p.parts.2.2.1
  simp only [Params.powerSequenceOk, Bool.and_eq_true, decide_eq_true_eq] at h
  exact h.1

/-- `N_ROM = N_PWR + 6` (R150). -/
@[simp] theorem Params.rom_length (p : Params) : p.rom.length = p.N_ROM := by
  simp [Params.rom, Params.powerEntries, Params.N_ROM, Params.N_PWR]

/-- Entries `1 .. N_PWR` (R152). -/
theorem Params.rom_power (p : Params) (i : Nat) (h : i < p.N_PWR) :
    p.rom[1 + i]? = some ⟨(p.PWR[i]'h).reg, (p.PWR[i]'h).val, p.powerDelay i⟩ := by
  have hl : i < p.PWR.length := h
  simp [Params.rom, Params.powerEntries, Nat.add_comm 1 i, List.getElem?_append, hl]
  exact ⟨rfl, rfl⟩

/-- The last five entries (R153, R154). -/
theorem Params.rom_after (p : Params) (k : Nat) :
    p.rom[p.N_PWR + 1 + k]? =
      [(⟨p.REG_ENTRY_MODE, p.VAL_ENTRY, 0⟩ : RomStep), ⟨p.REG_DISPLAY_CONTROL, p.VAL_DC_1, 0⟩,
        ⟨p.REG_DISPLAY_CONTROL, p.VAL_DC_2, 0⟩, ⟨p.REG_DISPLAY_CONTROL, p.VAL_DC_3, 0⟩,
        ⟨p.REG_DISPLAY_CONTROL, p.VAL_DC_4, p.T_DISP_ON⟩][k]? := by
  have e : p.rom = (⟨p.REG_DISPLAY_CONTROL, p.VAL_DISPLAY_OFF, p.T_DISP_OFF⟩ :: p.powerEntries) ++
      [(⟨p.REG_ENTRY_MODE, p.VAL_ENTRY, 0⟩ : RomStep), ⟨p.REG_DISPLAY_CONTROL, p.VAL_DC_1, 0⟩,
        ⟨p.REG_DISPLAY_CONTROL, p.VAL_DC_2, 0⟩, ⟨p.REG_DISPLAY_CONTROL, p.VAL_DC_3, 0⟩,
        ⟨p.REG_DISPLAY_CONTROL, p.VAL_DC_4, p.T_DISP_ON⟩] := by
    simp [Params.rom]
  have l : (⟨p.REG_DISPLAY_CONTROL, p.VAL_DISPLAY_OFF, p.T_DISP_OFF⟩ :: p.powerEntries).length = p.N_PWR + 1 := by
    simp [Params.powerEntries, Params.N_PWR]
  rw [e, List.getElem?_append_right (by omega), l, Nat.add_sub_cancel_left]

end Sys2Proof
end

