-- ==== Sys2Proof/Laws/State.lean ====
section
/-! SUPPORT. Beside the state: for every named update, one lemma per field it leaves alone and one per field it writes, so that no
later proof unfolds an update of the record. -/

namespace Sys2Proof.Machine

/-! ### The transport -/

/-- With nothing queued there is nothing to wait for. -/
theorem Outside.drain_empty {o : Outside} (h : o.fifo = []) : o.drain = o := by cases o; simp_all [Outside.drain]

/-- With nothing queued the bytes join the burst. -/
theorem Outside.send_empty {o : Outside} (h : o.fifo = []) (ok : Bool) (bs : List Byte) :
    o.send ok bs = { o with rx := o.rx ++ bs, rx_ok := o.rx_ok && ok } := by simp [Outside.send, Outside.drain_empty h]

/-- With nothing queued the transport's flag does not matter to a burst that begins. -/
theorem Outside.openBurst_empty {o : Outside} (h : o.fifo = []) (l b : Bool) :
    o.openBurst l b = { o with rx := [], rx_ok := l } := by cases b <;> simp [Outside.openBurst, h]

/-! ### Completing an event -/

set_option Elab.async false in
@[simp] theorem State.emit_par (e : Event) (s : State) : (s.emit e).par = s.par := by
  cases e with
  | CS l => cases l <;> rfl
  | _ => rfl
@[simp] theorem State.emit_rom (e : Event) (s : State) : (s.emit e).rom = s.rom := by
  cases e with
  | CS l => cases l <;> rfl
  | _ => rfl
@[simp] theorem State.emit_fb (e : Event) (s : State) : (s.emit e).fb = s.fb := by
  cases e with
  | CS l => cases l <;> rfl
  | _ => rfl
@[simp] theorem State.emit_inp (e : Event) (s : State) : (s.emit e).inp = s.inp := by
  cases e with
  | CS l => cases l <;> rfl
  | _ => rfl
@[simp] theorem State.emit_q_st (e : Event) (s : State) : (s.emit e).q_st = s.q_st := by
  cases e with
  | CS l => cases l <;> rfl
  | _ => rfl
@[simp] theorem State.emit_pc (e : Event) (s : State) : (s.emit e).pc = s.pc := by
  cases e with
  | CS l => cases l <;> rfl
  | _ => rfl
@[simp] theorem State.emit_op (e : Event) (s : State) : (s.emit e).op = s.op := by
  cases e with
  | CS l => cases l <;> rfl
  | _ => rfl
@[simp] theorem State.emit_color (e : Event) (s : State) : (s.emit e).color = s.color := by
  cases e with
  | CS l => cases l <;> rfl
  | _ => rfl
@[simp] theorem State.emit_fe_st (e : Event) (s : State) : (s.emit e).fe_st = s.fe_st := by
  cases e with
  | CS l => cases l <;> rfl
  | _ => rfl
@[simp] theorem State.emit_fe_kind (e : Event) (s : State) : (s.emit e).fe_kind = s.fe_kind := by
  cases e with
  | CS l => cases l <;> rfl
  | _ => rfl
@[simp] theorem State.emit_fe_arg (e : Event) (s : State) : (s.emit e).fe_arg = s.fe_arg := by
  cases e with
  | CS l => cases l <;> rfl
  | _ => rfl
@[simp] theorem State.emit_fe_bracket (e : Event) (s : State) : (s.emit e).fe_bracket = s.fe_bracket := by
  cases e with
  | CS l => cases l <;> rfl
  | _ => rfl
@[simp] theorem State.emit_fs_st (e : Event) (s : State) : (s.emit e).fs_st = s.fs_st := by
  cases e with
  | CS l => cases l <;> rfl
  | _ => rfl
@[simp] theorem State.emit_src (e : Event) (s : State) : (s.emit e).src = s.src := by
  cases e with
  | CS l => cases l <;> rfl
  | _ => rfl
@[simp] theorem State.emit_fill_color (e : Event) (s : State) : (s.emit e).fill_color = s.fill_color := by
  cases e with
  | CS l => cases l <;> rfl
  | _ => rfl
@[simp] theorem State.emit_col (e : Event) (s : State) : (s.emit e).col = s.col := by
  cases e with
  | CS l => cases l <;> rfl
  | _ => rfl
@[simp] theorem State.emit_grp (e : Event) (s : State) : (s.emit e).grp = s.grp := by
  cases e with
  | CS l => cases l <;> rfl
  | _ => rfl
@[simp] theorem State.emit_bit (e : Event) (s : State) : (s.emit e).bit = s.bit := by
  cases e with
  | CS l => cases l <;> rfl
  | _ => rfl
@[simp] theorem State.emit_cur (e : Event) (s : State) : (s.emit e).cur = s.cur := by
  cases e with
  | CS l => cases l <;> rfl
  | _ => rfl
@[simp] theorem State.emit_scratch (e : Event) (s : State) : (s.emit e).scratch = s.scratch := by
  cases e with
  | CS l => cases l <;> rfl
  | _ => rfl
@[simp] theorem State.emit_busy (e : Event) (s : State) : (s.emit e).busy = s.busy := by
  cases e with
  | CS l => cases l <;> rfl
  | _ => rfl

@[simp] theorem State.emit_trace (e : Event) (s : State) : (s.emit e).trace = s.trace ++ [e] := rfl
@[simp] theorem State.emit_req (e : Event) (s : State) : (s.emit e).req = none := rfl

@[simp] theorem State.emit_cmd_cs_n (c : HostCommand) (s : State) : (s.emit (.CMD c)).cs_n = s.cs_n := rfl
@[simp] theorem State.emit_cmd_rst_n (c : HostCommand) (s : State) : (s.emit (.CMD c)).rst_n = s.rst_n := rfl
@[simp] theorem State.emit_cmd_mode_sel (c : HostCommand) (s : State) : (s.emit (.CMD c)).mode_sel = s.mode_sel := rfl
@[simp] theorem State.emit_cmd_lines_oe (c : HostCommand) (s : State) : (s.emit (.CMD c)).lines_oe = s.lines_oe := rfl
@[simp] theorem State.emit_cmd_out (c : HostCommand) (s : State) : (s.emit (.CMD c)).out = s.out := rfl
@[simp] theorem State.emit_done_cs_n (s : State) : (s.emit .DONE).cs_n = s.cs_n := rfl
@[simp] theorem State.emit_done_rst_n (s : State) : (s.emit .DONE).rst_n = s.rst_n := rfl
@[simp] theorem State.emit_done_mode_sel (s : State) : (s.emit .DONE).mode_sel = s.mode_sel := rfl
@[simp] theorem State.emit_done_lines_oe (s : State) : (s.emit .DONE).lines_oe = s.lines_oe := rfl
@[simp] theorem State.emit_done_out (s : State) : (s.emit .DONE).out = s.out := rfl
@[simp] theorem State.emit_delay_cs_n (n : Nat) (s : State) : (s.emit (.DELAY n)).cs_n = s.cs_n := rfl
@[simp] theorem State.emit_delay_rst_n (n : Nat) (s : State) : (s.emit (.DELAY n)).rst_n = s.rst_n := rfl
@[simp] theorem State.emit_delay_mode_sel (n : Nat) (s : State) : (s.emit (.DELAY n)).mode_sel = s.mode_sel := rfl
@[simp] theorem State.emit_delay_lines_oe (n : Nat) (s : State) : (s.emit (.DELAY n)).lines_oe = s.lines_oe := rfl
@[simp] theorem State.emit_delay_out (n : Nat) (s : State) : (s.emit (.DELAY n)).out = s.out := rfl
@[simp] theorem State.emit_fbread_cs_n (c g : Nat) (v : Byte) (s : State) : (s.emit (.FBREAD c g v)).cs_n = s.cs_n := rfl
@[simp] theorem State.emit_fbread_rst_n (c g : Nat) (v : Byte) (s : State) : (s.emit (.FBREAD c g v)).rst_n = s.rst_n := rfl
@[simp] theorem State.emit_fbread_mode_sel (c g : Nat) (v : Byte) (s : State) : (s.emit (.FBREAD c g v)).mode_sel = s.mode_sel := rfl
@[simp] theorem State.emit_fbread_lines_oe (c g : Nat) (v : Byte) (s : State) : (s.emit (.FBREAD c g v)).lines_oe = s.lines_oe := rfl
@[simp] theorem State.emit_fbread_out (c g : Nat) (v : Byte) (s : State) : (s.emit (.FBREAD c g v)).out = s.out := rfl
@[simp] theorem State.emit_cfg_cs_n (c m r : Bool) (s : State) : (s.emit (.CFG c m r)).cs_n = c := rfl
@[simp] theorem State.emit_cfg_rst_n (c m r : Bool) (s : State) : (s.emit (.CFG c m r)).rst_n = r := rfl
@[simp] theorem State.emit_cfg_mode_sel (c m r : Bool) (s : State) : (s.emit (.CFG c m r)).mode_sel = m := rfl
@[simp] theorem State.emit_cfg_lines_oe (c m r : Bool) (s : State) : (s.emit (.CFG c m r)).lines_oe = true := rfl
@[simp] theorem State.emit_cfg_out (c m r : Bool) (s : State) : (s.emit (.CFG c m r)).out = s.out := rfl
@[simp] theorem State.emit_rst_cs_n (l : Bool) (s : State) : (s.emit (.RST l)).cs_n = s.cs_n := rfl
@[simp] theorem State.emit_rst_rst_n (l : Bool) (s : State) : (s.emit (.RST l)).rst_n = l := rfl
@[simp] theorem State.emit_rst_mode_sel (l : Bool) (s : State) : (s.emit (.RST l)).mode_sel = s.mode_sel := rfl
@[simp] theorem State.emit_rst_lines_oe (l : Bool) (s : State) : (s.emit (.RST l)).lines_oe = s.lines_oe := rfl
@[simp] theorem State.emit_rst_out (l : Bool) (s : State) : (s.emit (.RST l)).out = if l && s.lines_oe && !s.rst_n then s.out.panelReset else s.out := rfl
@[simp] theorem State.emit_cs_high_cs_n (s : State) : (s.emit (.CS true)).cs_n = true := rfl
@[simp] theorem State.emit_cs_high_rst_n (s : State) : (s.emit (.CS true)).rst_n = s.rst_n := rfl
@[simp] theorem State.emit_cs_high_mode_sel (s : State) : (s.emit (.CS true)).mode_sel = s.mode_sel := rfl
@[simp] theorem State.emit_cs_high_lines_oe (s : State) : (s.emit (.CS true)).lines_oe = s.lines_oe := rfl
@[simp] theorem State.emit_cs_high_out (s : State) : (s.emit (.CS true)).out = s.out.closeBurst s.par.BULK_MARKER s.lines_oe := rfl
@[simp] theorem State.emit_cs_low_cs_n (s : State) : (s.emit (.CS false)).cs_n = false := rfl
@[simp] theorem State.emit_cs_low_rst_n (s : State) : (s.emit (.CS false)).rst_n = s.rst_n := rfl
@[simp] theorem State.emit_cs_low_mode_sel (s : State) : (s.emit (.CS false)).mode_sel = s.mode_sel := rfl
@[simp] theorem State.emit_cs_low_lines_oe (s : State) : (s.emit (.CS false)).lines_oe = s.lines_oe := rfl
@[simp] theorem State.emit_cs_low_out (s : State) : (s.emit (.CS false)).out = s.out.openBurst s.lines_oe s.inp.bus_busy := rfl
@[simp] theorem State.emit_byte_cs_n (b : Byte) (s : State) : (s.emit (.BYTE b)).cs_n = s.cs_n := rfl
@[simp] theorem State.emit_byte_rst_n (b : Byte) (s : State) : (s.emit (.BYTE b)).rst_n = s.rst_n := rfl
@[simp] theorem State.emit_byte_mode_sel (b : Byte) (s : State) : (s.emit (.BYTE b)).mode_sel = s.mode_sel := rfl
@[simp] theorem State.emit_byte_lines_oe (b : Byte) (s : State) : (s.emit (.BYTE b)).lines_oe = s.lines_oe := rfl
@[simp] theorem State.emit_byte_out (b : Byte) (s : State) : (s.emit (.BYTE b)).out = s.out.send (byteClear s) [b] := rfl
@[simp] theorem State.emit_bulk_cs_n (bs : Vector Byte 16) (s : State) : (s.emit (.BULK bs)).cs_n = s.cs_n := rfl
@[simp] theorem State.emit_bulk_rst_n (bs : Vector Byte 16) (s : State) : (s.emit (.BULK bs)).rst_n = s.rst_n := rfl
@[simp] theorem State.emit_bulk_mode_sel (bs : Vector Byte 16) (s : State) : (s.emit (.BULK bs)).mode_sel = s.mode_sel := rfl
@[simp] theorem State.emit_bulk_lines_oe (bs : Vector Byte 16) (s : State) : (s.emit (.BULK bs)).lines_oe = s.lines_oe := rfl
@[simp] theorem State.emit_bulk_out (bs : Vector Byte 16) (s : State) : (s.emit (.BULK bs)).out = s.out.send (byteClear s) bs.toList := rfl
@[simp] theorem State.emit_word_cs_n (w : Half) (s : State) : (s.emit (.WORD w)).cs_n = s.cs_n := rfl
@[simp] theorem State.emit_word_rst_n (w : Half) (s : State) : (s.emit (.WORD w)).rst_n = s.rst_n := rfl
@[simp] theorem State.emit_word_mode_sel (w : Half) (s : State) : (s.emit (.WORD w)).mode_sel = s.mode_sel := rfl
@[simp] theorem State.emit_word_lines_oe (w : Half) (s : State) : (s.emit (.WORD w)).lines_oe = s.lines_oe := rfl
@[simp] theorem State.emit_word_out (w : Half) (s : State) : (s.emit (.WORD w)).out = { s.out with fifo := s.out.fifo ++ [w], rx_ok := s.out.rx_ok && wordClear s } := rfl
@[simp] theorem State.emit_width_cs_n (n : BusWidth) (s : State) : (s.emit (.WIDTH n)).cs_n = s.cs_n := rfl
@[simp] theorem State.emit_width_rst_n (n : BusWidth) (s : State) : (s.emit (.WIDTH n)).rst_n = s.rst_n := rfl
@[simp] theorem State.emit_width_mode_sel (n : BusWidth) (s : State) : (s.emit (.WIDTH n)).mode_sel = s.mode_sel := rfl
@[simp] theorem State.emit_width_lines_oe (n : BusWidth) (s : State) : (s.emit (.WIDTH n)).lines_oe = s.lines_oe := rfl
@[simp] theorem State.emit_width_out (n : BusWidth) (s : State) : (s.emit (.WIDTH n)).out = { s.out with bus_width := n, rx_ok := s.out.rx_ok && s.out.fifo.isEmpty } := rfl

/-! ### Completing an event after the wait before it -/

@[simp] theorem State.complete_cmd (c : HostCommand) (s : State) : s.complete (.CMD c) = s.emit (.CMD c) := rfl
@[simp] theorem State.complete_done (s : State) : s.complete .DONE = s.emit .DONE := rfl
@[simp] theorem State.complete_delay (n : Nat) (s : State) : s.complete (.DELAY n) = s.emit (.DELAY n) := rfl
@[simp] theorem State.complete_fbread (c g : Nat) (v : Byte) (s : State) : s.complete (.FBREAD c g v) = s.emit (.FBREAD c g v) := rfl
@[simp] theorem State.complete_cfg (c m r : Bool) (s : State) : s.complete (.CFG c m r) = s.emit (.CFG c m r) := rfl
@[simp] theorem State.complete_rst (l : Bool) (s : State) : s.complete (.RST l) = s.emit (.RST l) := rfl
@[simp] theorem State.complete_cs_high (s : State) : s.complete (.CS true) = s.emit (.CS true) := rfl
@[simp] theorem State.complete_cs_low (s : State) : s.complete (.CS false) = s.emit (.CS false) := rfl
@[simp] theorem State.complete_byte (b : Byte) (s : State) : s.complete (.BYTE b) = s.emit (.BYTE b) := rfl
@[simp] theorem State.complete_bulk (bs : Vector Byte 16) (s : State) : s.complete (.BULK bs) = s.emit (.BULK bs) := rfl
@[simp] theorem State.complete_word (w : Half) (s : State) : s.complete (.WORD w) = s.emit (.WORD w) := rfl
@[simp] theorem State.complete_widen (s : State) : s.complete (.WIDTH .W16) = s.emit (.WIDTH .W16) := rfl
@[simp] theorem State.complete_narrow (s : State) : s.complete (.WIDTH .W8) = { s with out := s.out.drain }.emit (.WIDTH .W8) := rfl
set_option Elab.async false in
@[simp] theorem State.complete_par (e : Event) (s : State) : (s.complete e).par = s.par := by
  cases e with
  | CS l => cases l <;> rfl
  | WIDTH n => cases n <;> rfl
  | _ => rfl
@[simp] theorem State.complete_rom (e : Event) (s : State) : (s.complete e).rom = s.rom := by
  cases e with
  | CS l => cases l <;> rfl
  | WIDTH n => cases n <;> rfl
  | _ => rfl
@[simp] theorem State.complete_fb (e : Event) (s : State) : (s.complete e).fb = s.fb := by
  cases e with
  | CS l => cases l <;> rfl
  | WIDTH n => cases n <;> rfl
  | _ => rfl
@[simp] theorem State.complete_inp (e : Event) (s : State) : (s.complete e).inp = s.inp := by
  cases e with
  | CS l => cases l <;> rfl
  | WIDTH n => cases n <;> rfl
  | _ => rfl
@[simp] theorem State.complete_q_st (e : Event) (s : State) : (s.complete e).q_st = s.q_st := by
  cases e with
  | CS l => cases l <;> rfl
  | WIDTH n => cases n <;> rfl
  | _ => rfl
@[simp] theorem State.complete_pc (e : Event) (s : State) : (s.complete e).pc = s.pc := by
  cases e with
  | CS l => cases l <;> rfl
  | WIDTH n => cases n <;> rfl
  | _ => rfl
@[simp] theorem State.complete_op (e : Event) (s : State) : (s.complete e).op = s.op := by
  cases e with
  | CS l => cases l <;> rfl
  | WIDTH n => cases n <;> rfl
  | _ => rfl
@[simp] theorem State.complete_color (e : Event) (s : State) : (s.complete e).color = s.color := by
  cases e with
  | CS l => cases l <;> rfl
  | WIDTH n => cases n <;> rfl
  | _ => rfl
@[simp] theorem State.complete_fe_st (e : Event) (s : State) : (s.complete e).fe_st = s.fe_st := by
  cases e with
  | CS l => cases l <;> rfl
  | WIDTH n => cases n <;> rfl
  | _ => rfl
@[simp] theorem State.complete_fe_kind (e : Event) (s : State) : (s.complete e).fe_kind = s.fe_kind := by
  cases e with
  | CS l => cases l <;> rfl
  | WIDTH n => cases n <;> rfl
  | _ => rfl
@[simp] theorem State.complete_fe_arg (e : Event) (s : State) : (s.complete e).fe_arg = s.fe_arg := by
  cases e with
  | CS l => cases l <;> rfl
  | WIDTH n => cases n <;> rfl
  | _ => rfl
@[simp] theorem State.complete_fe_bracket (e : Event) (s : State) : (s.complete e).fe_bracket = s.fe_bracket := by
  cases e with
  | CS l => cases l <;> rfl
  | WIDTH n => cases n <;> rfl
  | _ => rfl
@[simp] theorem State.complete_fs_st (e : Event) (s : State) : (s.complete e).fs_st = s.fs_st := by
  cases e with
  | CS l => cases l <;> rfl
  | WIDTH n => cases n <;> rfl
  | _ => rfl
@[simp] theorem State.complete_src (e : Event) (s : State) : (s.complete e).src = s.src := by
  cases e with
  | CS l => cases l <;> rfl
  | WIDTH n => cases n <;> rfl
  | _ => rfl
@[simp] theorem State.complete_fill_color (e : Event) (s : State) : (s.complete e).fill_color = s.fill_color := by
  cases e with
  | CS l => cases l <;> rfl
  | WIDTH n => cases n <;> rfl
  | _ => rfl
@[simp] theorem State.complete_col (e : Event) (s : State) : (s.complete e).col = s.col := by
  cases e with
  | CS l => cases l <;> rfl
  | WIDTH n => cases n <;> rfl
  | _ => rfl
@[simp] theorem State.complete_grp (e : Event) (s : State) : (s.complete e).grp = s.grp := by
  cases e with
  | CS l => cases l <;> rfl
  | WIDTH n => cases n <;> rfl
  | _ => rfl
@[simp] theorem State.complete_bit (e : Event) (s : State) : (s.complete e).bit = s.bit := by
  cases e with
  | CS l => cases l <;> rfl
  | WIDTH n => cases n <;> rfl
  | _ => rfl
@[simp] theorem State.complete_cur (e : Event) (s : State) : (s.complete e).cur = s.cur := by
  cases e with
  | CS l => cases l <;> rfl
  | WIDTH n => cases n <;> rfl
  | _ => rfl
@[simp] theorem State.complete_scratch (e : Event) (s : State) : (s.complete e).scratch = s.scratch := by
  cases e with
  | CS l => cases l <;> rfl
  | WIDTH n => cases n <;> rfl
  | _ => rfl
@[simp] theorem State.complete_busy (e : Event) (s : State) : (s.complete e).busy = s.busy := by
  cases e with
  | CS l => cases l <;> rfl
  | WIDTH n => cases n <;> rfl
  | _ => rfl

@[simp] theorem State.complete_trace (e : Event) (s : State) : (s.complete e).trace = s.trace ++ [e] := by
  cases e with
  | CS l => cases l <;> rfl
  | WIDTH n => cases n <;> rfl
  | _ => rfl

/-! ### Completing a list of events -/

@[simp] theorem State.emits_nil (s : State) : s.emits [] = s := rfl
@[simp] theorem State.emits_cons (e : Event) (es : List Event) (s : State) : s.emits (e :: es) = (s.complete e).emits es := rfl
theorem State.emits_append (es fs : List Event) (s : State) : s.emits (es ++ fs) = (s.emits es).emits fs := by
  simp [State.emits]

set_option Elab.async false in
@[simp] theorem State.emits_par (es : List Event) (s : State) : (s.emits es).par = s.par := by
  induction es generalizing s with
  | nil => rfl
  | cons e es ih => simp [ih]
@[simp] theorem State.emits_rom (es : List Event) (s : State) : (s.emits es).rom = s.rom := by
  induction es generalizing s with
  | nil => rfl
  | cons e es ih => simp [ih]
@[simp] theorem State.emits_fb (es : List Event) (s : State) : (s.emits es).fb = s.fb := by
  induction es generalizing s with
  | nil => rfl
  | cons e es ih => simp [ih]
@[simp] theorem State.emits_inp (es : List Event) (s : State) : (s.emits es).inp = s.inp := by
  induction es generalizing s with
  | nil => rfl
  | cons e es ih => simp [ih]
@[simp] theorem State.emits_q_st (es : List Event) (s : State) : (s.emits es).q_st = s.q_st := by
  induction es generalizing s with
  | nil => rfl
  | cons e es ih => simp [ih]
@[simp] theorem State.emits_pc (es : List Event) (s : State) : (s.emits es).pc = s.pc := by
  induction es generalizing s with
  | nil => rfl
  | cons e es ih => simp [ih]
@[simp] theorem State.emits_op (es : List Event) (s : State) : (s.emits es).op = s.op := by
  induction es generalizing s with
  | nil => rfl
  | cons e es ih => simp [ih]
@[simp] theorem State.emits_color (es : List Event) (s : State) : (s.emits es).color = s.color := by
  induction es generalizing s with
  | nil => rfl
  | cons e es ih => simp [ih]
@[simp] theorem State.emits_fe_st (es : List Event) (s : State) : (s.emits es).fe_st = s.fe_st := by
  induction es generalizing s with
  | nil => rfl
  | cons e es ih => simp [ih]
@[simp] theorem State.emits_fe_kind (es : List Event) (s : State) : (s.emits es).fe_kind = s.fe_kind := by
  induction es generalizing s with
  | nil => rfl
  | cons e es ih => simp [ih]
@[simp] theorem State.emits_fe_arg (es : List Event) (s : State) : (s.emits es).fe_arg = s.fe_arg := by
  induction es generalizing s with
  | nil => rfl
  | cons e es ih => simp [ih]
@[simp] theorem State.emits_fe_bracket (es : List Event) (s : State) : (s.emits es).fe_bracket = s.fe_bracket := by
  induction es generalizing s with
  | nil => rfl
  | cons e es ih => simp [ih]
@[simp] theorem State.emits_fs_st (es : List Event) (s : State) : (s.emits es).fs_st = s.fs_st := by
  induction es generalizing s with
  | nil => rfl
  | cons e es ih => simp [ih]
@[simp] theorem State.emits_src (es : List Event) (s : State) : (s.emits es).src = s.src := by
  induction es generalizing s with
  | nil => rfl
  | cons e es ih => simp [ih]
@[simp] theorem State.emits_fill_color (es : List Event) (s : State) : (s.emits es).fill_color = s.fill_color := by
  induction es generalizing s with
  | nil => rfl
  | cons e es ih => simp [ih]
@[simp] theorem State.emits_col (es : List Event) (s : State) : (s.emits es).col = s.col := by
  induction es generalizing s with
  | nil => rfl
  | cons e es ih => simp [ih]
@[simp] theorem State.emits_grp (es : List Event) (s : State) : (s.emits es).grp = s.grp := by
  induction es generalizing s with
  | nil => rfl
  | cons e es ih => simp [ih]
@[simp] theorem State.emits_bit (es : List Event) (s : State) : (s.emits es).bit = s.bit := by
  induction es generalizing s with
  | nil => rfl
  | cons e es ih => simp [ih]
@[simp] theorem State.emits_cur (es : List Event) (s : State) : (s.emits es).cur = s.cur := by
  induction es generalizing s with
  | nil => rfl
  | cons e es ih => simp [ih]
@[simp] theorem State.emits_scratch (es : List Event) (s : State) : (s.emits es).scratch = s.scratch := by
  induction es generalizing s with
  | nil => rfl
  | cons e es ih => simp [ih]
@[simp] theorem State.emits_busy (es : List Event) (s : State) : (s.emits es).busy = s.busy := by
  induction es generalizing s with
  | nil => rfl
  | cons e es ih => simp [ih]

@[simp] theorem State.emits_trace (es : List Event) (s : State) : (s.emits es).trace = s.trace ++ es := by
  induction es generalizing s with
  | nil => simp
  | cons e es ih => simp [ih]

/-! ### The sequencer moves on -/

set_option Elab.async false in
@[simp] theorem State.move_par (a b : QState) (s : State) : (s.move a b).par = s.par := by
  unfold State.move; split <;> rfl
@[simp] theorem State.move_rom (a b : QState) (s : State) : (s.move a b).rom = s.rom := by
  unfold State.move; split <;> rfl
@[simp] theorem State.move_fb (a b : QState) (s : State) : (s.move a b).fb = s.fb := by
  unfold State.move; split <;> rfl
@[simp] theorem State.move_inp (a b : QState) (s : State) : (s.move a b).inp = s.inp := by
  unfold State.move; split <;> rfl
@[simp] theorem State.move_out (a b : QState) (s : State) : (s.move a b).out = s.out := by
  unfold State.move; split <;> rfl
@[simp] theorem State.move_pc (a b : QState) (s : State) : (s.move a b).pc = s.pc := by
  unfold State.move; split <;> rfl
@[simp] theorem State.move_op (a b : QState) (s : State) : (s.move a b).op = s.op := by
  unfold State.move; split <;> rfl
@[simp] theorem State.move_color (a b : QState) (s : State) : (s.move a b).color = s.color := by
  unfold State.move; split <;> rfl
@[simp] theorem State.move_fe_st (a b : QState) (s : State) : (s.move a b).fe_st = s.fe_st := by
  unfold State.move; split <;> rfl
@[simp] theorem State.move_fe_kind (a b : QState) (s : State) : (s.move a b).fe_kind = s.fe_kind := by
  unfold State.move; split <;> rfl
@[simp] theorem State.move_fe_arg (a b : QState) (s : State) : (s.move a b).fe_arg = s.fe_arg := by
  unfold State.move; split <;> rfl
@[simp] theorem State.move_fe_bracket (a b : QState) (s : State) : (s.move a b).fe_bracket = s.fe_bracket := by
  unfold State.move; split <;> rfl
@[simp] theorem State.move_fs_st (a b : QState) (s : State) : (s.move a b).fs_st = s.fs_st := by
  unfold State.move; split <;> rfl
@[simp] theorem State.move_src (a b : QState) (s : State) : (s.move a b).src = s.src := by
  unfold State.move; split <;> rfl
@[simp] theorem State.move_fill_color (a b : QState) (s : State) : (s.move a b).fill_color = s.fill_color := by
  unfold State.move; split <;> rfl
@[simp] theorem State.move_col (a b : QState) (s : State) : (s.move a b).col = s.col := by
  unfold State.move; split <;> rfl
@[simp] theorem State.move_grp (a b : QState) (s : State) : (s.move a b).grp = s.grp := by
  unfold State.move; split <;> rfl
@[simp] theorem State.move_bit (a b : QState) (s : State) : (s.move a b).bit = s.bit := by
  unfold State.move; split <;> rfl
@[simp] theorem State.move_cur (a b : QState) (s : State) : (s.move a b).cur = s.cur := by
  unfold State.move; split <;> rfl
@[simp] theorem State.move_scratch (a b : QState) (s : State) : (s.move a b).scratch = s.scratch := by
  unfold State.move; split <;> rfl
@[simp] theorem State.move_busy (a b : QState) (s : State) : (s.move a b).busy = s.busy := by
  unfold State.move; split <;> rfl
@[simp] theorem State.move_cs_n (a b : QState) (s : State) : (s.move a b).cs_n = s.cs_n := by
  unfold State.move; split <;> rfl
@[simp] theorem State.move_rst_n (a b : QState) (s : State) : (s.move a b).rst_n = s.rst_n := by
  unfold State.move; split <;> rfl
@[simp] theorem State.move_mode_sel (a b : QState) (s : State) : (s.move a b).mode_sel = s.mode_sel := by
  unfold State.move; split <;> rfl
@[simp] theorem State.move_lines_oe (a b : QState) (s : State) : (s.move a b).lines_oe = s.lines_oe := by
  unfold State.move; split <;> rfl
@[simp] theorem State.move_req (a b : QState) (s : State) : (s.move a b).req = s.req := by
  unfold State.move; split <;> rfl
@[simp] theorem State.move_trace (a b : QState) (s : State) : (s.move a b).trace = s.trace := by
  unfold State.move; split <;> rfl

@[simp] theorem State.move_q_st (a b : QState) (s : State) : (s.move a b).q_st = if s.q_st = a then b else s.q_st := by
  unfold State.move; split <;> rfl

/-! ### The frame encoder is started and hands control back -/

@[simp] theorem State.feStart_par (k : FrameKind) (arg : Half) (br : Bool) (s : State) : (s.feStart k arg br).par = s.par := rfl
@[simp] theorem State.feStart_rom (k : FrameKind) (arg : Half) (br : Bool) (s : State) : (s.feStart k arg br).rom = s.rom := rfl
@[simp] theorem State.feStart_fb (k : FrameKind) (arg : Half) (br : Bool) (s : State) : (s.feStart k arg br).fb = s.fb := rfl
@[simp] theorem State.feStart_inp (k : FrameKind) (arg : Half) (br : Bool) (s : State) : (s.feStart k arg br).inp = s.inp := rfl
@[simp] theorem State.feStart_out (k : FrameKind) (arg : Half) (br : Bool) (s : State) : (s.feStart k arg br).out = s.out := rfl
@[simp] theorem State.feStart_q_st (k : FrameKind) (arg : Half) (br : Bool) (s : State) : (s.feStart k arg br).q_st = s.q_st := rfl
@[simp] theorem State.feStart_pc (k : FrameKind) (arg : Half) (br : Bool) (s : State) : (s.feStart k arg br).pc = s.pc := rfl
@[simp] theorem State.feStart_op (k : FrameKind) (arg : Half) (br : Bool) (s : State) : (s.feStart k arg br).op = s.op := rfl
@[simp] theorem State.feStart_color (k : FrameKind) (arg : Half) (br : Bool) (s : State) : (s.feStart k arg br).color = s.color := rfl
@[simp] theorem State.feStart_fs_st (k : FrameKind) (arg : Half) (br : Bool) (s : State) : (s.feStart k arg br).fs_st = s.fs_st := rfl
@[simp] theorem State.feStart_src (k : FrameKind) (arg : Half) (br : Bool) (s : State) : (s.feStart k arg br).src = s.src := rfl
@[simp] theorem State.feStart_fill_color (k : FrameKind) (arg : Half) (br : Bool) (s : State) : (s.feStart k arg br).fill_color = s.fill_color := rfl
@[simp] theorem State.feStart_col (k : FrameKind) (arg : Half) (br : Bool) (s : State) : (s.feStart k arg br).col = s.col := rfl
@[simp] theorem State.feStart_grp (k : FrameKind) (arg : Half) (br : Bool) (s : State) : (s.feStart k arg br).grp = s.grp := rfl
@[simp] theorem State.feStart_bit (k : FrameKind) (arg : Half) (br : Bool) (s : State) : (s.feStart k arg br).bit = s.bit := rfl
@[simp] theorem State.feStart_cur (k : FrameKind) (arg : Half) (br : Bool) (s : State) : (s.feStart k arg br).cur = s.cur := rfl
@[simp] theorem State.feStart_scratch (k : FrameKind) (arg : Half) (br : Bool) (s : State) : (s.feStart k arg br).scratch = s.scratch := rfl
@[simp] theorem State.feStart_busy (k : FrameKind) (arg : Half) (br : Bool) (s : State) : (s.feStart k arg br).busy = s.busy := rfl
@[simp] theorem State.feStart_cs_n (k : FrameKind) (arg : Half) (br : Bool) (s : State) : (s.feStart k arg br).cs_n = s.cs_n := rfl
@[simp] theorem State.feStart_rst_n (k : FrameKind) (arg : Half) (br : Bool) (s : State) : (s.feStart k arg br).rst_n = s.rst_n := rfl
@[simp] theorem State.feStart_mode_sel (k : FrameKind) (arg : Half) (br : Bool) (s : State) : (s.feStart k arg br).mode_sel = s.mode_sel := rfl
@[simp] theorem State.feStart_lines_oe (k : FrameKind) (arg : Half) (br : Bool) (s : State) : (s.feStart k arg br).lines_oe = s.lines_oe := rfl
@[simp] theorem State.feStart_trace (k : FrameKind) (arg : Half) (br : Bool) (s : State) : (s.feStart k arg br).trace = s.trace := rfl

@[simp] theorem State.feStart_fe_kind (k : FrameKind) (arg : Half) (br : Bool) (s : State) : (s.feStart k arg br).fe_kind = k := rfl
@[simp] theorem State.feStart_fe_arg (k : FrameKind) (arg : Half) (br : Bool) (s : State) : (s.feStart k arg br).fe_arg = arg := rfl
@[simp] theorem State.feStart_fe_bracket (k : FrameKind) (arg : Half) (br : Bool) (s : State) : (s.feStart k arg br).fe_bracket = br := rfl
@[simp] theorem State.feStart_req (k : FrameKind) (arg : Half) (br : Bool) (s : State) : (s.feStart k arg br).req = none := rfl
@[simp] theorem State.feStart_fe_st (k : FrameKind) (arg : Half) (br : Bool) (s : State) : (s.feStart k arg br).fe_st = if br then .F_CS_LO else .F_B0 := rfl

set_option Elab.async false in
@[simp] theorem State.feReturn_par (s : State) : (s.feReturn).par = s.par := by
  unfold State.feReturn; split <;> rfl
@[simp] theorem State.feReturn_rom (s : State) : (s.feReturn).rom = s.rom := by
  unfold State.feReturn; split <;> rfl
@[simp] theorem State.feReturn_fb (s : State) : (s.feReturn).fb = s.fb := by
  unfold State.feReturn; split <;> rfl
@[simp] theorem State.feReturn_inp (s : State) : (s.feReturn).inp = s.inp := by
  unfold State.feReturn; split <;> rfl
@[simp] theorem State.feReturn_out (s : State) : (s.feReturn).out = s.out := by
  unfold State.feReturn; split <;> rfl
@[simp] theorem State.feReturn_pc (s : State) : (s.feReturn).pc = s.pc := by
  unfold State.feReturn; split <;> rfl
@[simp] theorem State.feReturn_op (s : State) : (s.feReturn).op = s.op := by
  unfold State.feReturn; split <;> rfl
@[simp] theorem State.feReturn_color (s : State) : (s.feReturn).color = s.color := by
  unfold State.feReturn; split <;> rfl
@[simp] theorem State.feReturn_fe_kind (s : State) : (s.feReturn).fe_kind = s.fe_kind := by
  unfold State.feReturn; split <;> rfl
@[simp] theorem State.feReturn_fe_arg (s : State) : (s.feReturn).fe_arg = s.fe_arg := by
  unfold State.feReturn; split <;> rfl
@[simp] theorem State.feReturn_fe_bracket (s : State) : (s.feReturn).fe_bracket = s.fe_bracket := by
  unfold State.feReturn; split <;> rfl
@[simp] theorem State.feReturn_src (s : State) : (s.feReturn).src = s.src := by
  unfold State.feReturn; split <;> rfl
@[simp] theorem State.feReturn_fill_color (s : State) : (s.feReturn).fill_color = s.fill_color := by
  unfold State.feReturn; split <;> rfl
@[simp] theorem State.feReturn_col (s : State) : (s.feReturn).col = s.col := by
  unfold State.feReturn; split <;> rfl
@[simp] theorem State.feReturn_grp (s : State) : (s.feReturn).grp = s.grp := by
  unfold State.feReturn; split <;> rfl
@[simp] theorem State.feReturn_bit (s : State) : (s.feReturn).bit = s.bit := by
  unfold State.feReturn; split <;> rfl
@[simp] theorem State.feReturn_cur (s : State) : (s.feReturn).cur = s.cur := by
  unfold State.feReturn; split <;> rfl
@[simp] theorem State.feReturn_scratch (s : State) : (s.feReturn).scratch = s.scratch := by
  unfold State.feReturn; split <;> rfl
@[simp] theorem State.feReturn_busy (s : State) : (s.feReturn).busy = s.busy := by
  unfold State.feReturn; split <;> rfl
@[simp] theorem State.feReturn_cs_n (s : State) : (s.feReturn).cs_n = s.cs_n := by
  unfold State.feReturn; split <;> rfl
@[simp] theorem State.feReturn_rst_n (s : State) : (s.feReturn).rst_n = s.rst_n := by
  unfold State.feReturn; split <;> rfl
@[simp] theorem State.feReturn_mode_sel (s : State) : (s.feReturn).mode_sel = s.mode_sel := by
  unfold State.feReturn; split <;> rfl
@[simp] theorem State.feReturn_lines_oe (s : State) : (s.feReturn).lines_oe = s.lines_oe := by
  unfold State.feReturn; split <;> rfl
@[simp] theorem State.feReturn_req (s : State) : (s.feReturn).req = s.req := by
  unfold State.feReturn; split <;> rfl
@[simp] theorem State.feReturn_trace (s : State) : (s.feReturn).trace = s.trace := by
  unfold State.feReturn; split <;> rfl

@[simp] theorem State.feReturn_fe_st (s : State) : s.feReturn.fe_st = .F_IDLE := by
  unfold State.feReturn; split <;> rfl

/-! ### The sequencer's rows -/

set_option Elab.async false in
@[simp] theorem State.delayReturn_par (s : State) : (s.delayReturn).par = s.par := by
  unfold State.delayReturn; split <;> rfl
@[simp] theorem State.delayReturn_rom (s : State) : (s.delayReturn).rom = s.rom := by
  unfold State.delayReturn; split <;> rfl
@[simp] theorem State.delayReturn_fb (s : State) : (s.delayReturn).fb = s.fb := by
  unfold State.delayReturn; split <;> rfl
@[simp] theorem State.delayReturn_inp (s : State) : (s.delayReturn).inp = s.inp := by
  unfold State.delayReturn; split <;> rfl
@[simp] theorem State.delayReturn_out (s : State) : (s.delayReturn).out = s.out := by
  unfold State.delayReturn; split <;> rfl
@[simp] theorem State.delayReturn_op (s : State) : (s.delayReturn).op = s.op := by
  unfold State.delayReturn; split <;> rfl
@[simp] theorem State.delayReturn_color (s : State) : (s.delayReturn).color = s.color := by
  unfold State.delayReturn; split <;> rfl
@[simp] theorem State.delayReturn_fe_st (s : State) : (s.delayReturn).fe_st = s.fe_st := by
  unfold State.delayReturn; split <;> rfl
@[simp] theorem State.delayReturn_fe_kind (s : State) : (s.delayReturn).fe_kind = s.fe_kind := by
  unfold State.delayReturn; split <;> rfl
@[simp] theorem State.delayReturn_fe_arg (s : State) : (s.delayReturn).fe_arg = s.fe_arg := by
  unfold State.delayReturn; split <;> rfl
@[simp] theorem State.delayReturn_fe_bracket (s : State) : (s.delayReturn).fe_bracket = s.fe_bracket := by
  unfold State.delayReturn; split <;> rfl
@[simp] theorem State.delayReturn_fs_st (s : State) : (s.delayReturn).fs_st = s.fs_st := by
  unfold State.delayReturn; split <;> rfl
@[simp] theorem State.delayReturn_src (s : State) : (s.delayReturn).src = s.src := by
  unfold State.delayReturn; split <;> rfl
@[simp] theorem State.delayReturn_fill_color (s : State) : (s.delayReturn).fill_color = s.fill_color := by
  unfold State.delayReturn; split <;> rfl
@[simp] theorem State.delayReturn_col (s : State) : (s.delayReturn).col = s.col := by
  unfold State.delayReturn; split <;> rfl
@[simp] theorem State.delayReturn_grp (s : State) : (s.delayReturn).grp = s.grp := by
  unfold State.delayReturn; split <;> rfl
@[simp] theorem State.delayReturn_bit (s : State) : (s.delayReturn).bit = s.bit := by
  unfold State.delayReturn; split <;> rfl
@[simp] theorem State.delayReturn_cur (s : State) : (s.delayReturn).cur = s.cur := by
  unfold State.delayReturn; split <;> rfl
@[simp] theorem State.delayReturn_scratch (s : State) : (s.delayReturn).scratch = s.scratch := by
  unfold State.delayReturn; split <;> rfl
@[simp] theorem State.delayReturn_busy (s : State) : (s.delayReturn).busy = s.busy := by
  unfold State.delayReturn; split <;> rfl
@[simp] theorem State.delayReturn_cs_n (s : State) : (s.delayReturn).cs_n = s.cs_n := by
  unfold State.delayReturn; split <;> rfl
@[simp] theorem State.delayReturn_rst_n (s : State) : (s.delayReturn).rst_n = s.rst_n := by
  unfold State.delayReturn; split <;> rfl
@[simp] theorem State.delayReturn_mode_sel (s : State) : (s.delayReturn).mode_sel = s.mode_sel := by
  unfold State.delayReturn; split <;> rfl
@[simp] theorem State.delayReturn_lines_oe (s : State) : (s.delayReturn).lines_oe = s.lines_oe := by
  unfold State.delayReturn; split <;> rfl
@[simp] theorem State.delayReturn_req (s : State) : (s.delayReturn).req = s.req := by
  unfold State.delayReturn; split <;> rfl
@[simp] theorem State.delayReturn_trace (s : State) : (s.delayReturn).trace = s.trace := by
  unfold State.delayReturn; split <;> rfl

set_option Elab.async false in
@[simp] theorem State.stepNext_par (s : State) : (s.stepNext).par = s.par := by
  unfold State.stepNext; dsimp only; split
  · split <;> rfl
  · rfl
@[simp] theorem State.stepNext_rom (s : State) : (s.stepNext).rom = s.rom := by
  unfold State.stepNext; dsimp only; split
  · split <;> rfl
  · rfl
@[simp] theorem State.stepNext_fb (s : State) : (s.stepNext).fb = s.fb := by
  unfold State.stepNext; dsimp only; split
  · split <;> rfl
  · rfl
@[simp] theorem State.stepNext_inp (s : State) : (s.stepNext).inp = s.inp := by
  unfold State.stepNext; dsimp only; split
  · split <;> rfl
  · rfl
@[simp] theorem State.stepNext_out (s : State) : (s.stepNext).out = s.out := by
  unfold State.stepNext; dsimp only; split
  · split <;> rfl
  · rfl
@[simp] theorem State.stepNext_op (s : State) : (s.stepNext).op = s.op := by
  unfold State.stepNext; dsimp only; split
  · split <;> rfl
  · rfl
@[simp] theorem State.stepNext_color (s : State) : (s.stepNext).color = s.color := by
  unfold State.stepNext; dsimp only; split
  · split <;> rfl
  · rfl
@[simp] theorem State.stepNext_fe_st (s : State) : (s.stepNext).fe_st = s.fe_st := by
  unfold State.stepNext; dsimp only; split
  · split <;> rfl
  · rfl
@[simp] theorem State.stepNext_fe_kind (s : State) : (s.stepNext).fe_kind = s.fe_kind := by
  unfold State.stepNext; dsimp only; split
  · split <;> rfl
  · rfl
@[simp] theorem State.stepNext_fe_arg (s : State) : (s.stepNext).fe_arg = s.fe_arg := by
  unfold State.stepNext; dsimp only; split
  · split <;> rfl
  · rfl
@[simp] theorem State.stepNext_fe_bracket (s : State) : (s.stepNext).fe_bracket = s.fe_bracket := by
  unfold State.stepNext; dsimp only; split
  · split <;> rfl
  · rfl
@[simp] theorem State.stepNext_fs_st (s : State) : (s.stepNext).fs_st = s.fs_st := by
  unfold State.stepNext; dsimp only; split
  · split <;> rfl
  · rfl
@[simp] theorem State.stepNext_col (s : State) : (s.stepNext).col = s.col := by
  unfold State.stepNext; dsimp only; split
  · split <;> rfl
  · rfl
@[simp] theorem State.stepNext_grp (s : State) : (s.stepNext).grp = s.grp := by
  unfold State.stepNext; dsimp only; split
  · split <;> rfl
  · rfl
@[simp] theorem State.stepNext_bit (s : State) : (s.stepNext).bit = s.bit := by
  unfold State.stepNext; dsimp only; split
  · split <;> rfl
  · rfl
@[simp] theorem State.stepNext_cur (s : State) : (s.stepNext).cur = s.cur := by
  unfold State.stepNext; dsimp only; split
  · split <;> rfl
  · rfl
@[simp] theorem State.stepNext_scratch (s : State) : (s.stepNext).scratch = s.scratch := by
  unfold State.stepNext; dsimp only; split
  · split <;> rfl
  · rfl
@[simp] theorem State.stepNext_busy (s : State) : (s.stepNext).busy = s.busy := by
  unfold State.stepNext; dsimp only; split
  · split <;> rfl
  · rfl
@[simp] theorem State.stepNext_cs_n (s : State) : (s.stepNext).cs_n = s.cs_n := by
  unfold State.stepNext; dsimp only; split
  · split <;> rfl
  · rfl
@[simp] theorem State.stepNext_rst_n (s : State) : (s.stepNext).rst_n = s.rst_n := by
  unfold State.stepNext; dsimp only; split
  · split <;> rfl
  · rfl
@[simp] theorem State.stepNext_mode_sel (s : State) : (s.stepNext).mode_sel = s.mode_sel := by
  unfold State.stepNext; dsimp only; split
  · split <;> rfl
  · rfl
@[simp] theorem State.stepNext_lines_oe (s : State) : (s.stepNext).lines_oe = s.lines_oe := by
  unfold State.stepNext; dsimp only; split
  · split <;> rfl
  · rfl
@[simp] theorem State.stepNext_req (s : State) : (s.stepNext).req = s.req := by
  unfold State.stepNext; dsimp only; split
  · split <;> rfl
  · rfl
@[simp] theorem State.stepNext_trace (s : State) : (s.stepNext).trace = s.trace := by
  unfold State.stepNext; dsimp only; split
  · split <;> rfl
  · rfl

@[simp] theorem State.stepNext_pc (s : State) : s.stepNext.pc = s.pc + 1 := by
  unfold State.stepNext; dsimp only; split
  · split <;> rfl
  · rfl

/-! ### The streamer's rows -/

@[simp] theorem State.afterMark_par (s : State) : (s.afterMark).par = s.par := rfl
@[simp] theorem State.afterMark_rom (s : State) : (s.afterMark).rom = s.rom := rfl
@[simp] theorem State.afterMark_fb (s : State) : (s.afterMark).fb = s.fb := rfl
@[simp] theorem State.afterMark_inp (s : State) : (s.afterMark).inp = s.inp := rfl
@[simp] theorem State.afterMark_out (s : State) : (s.afterMark).out = s.out := rfl
@[simp] theorem State.afterMark_q_st (s : State) : (s.afterMark).q_st = s.q_st := rfl
@[simp] theorem State.afterMark_pc (s : State) : (s.afterMark).pc = s.pc := rfl
@[simp] theorem State.afterMark_op (s : State) : (s.afterMark).op = s.op := rfl
@[simp] theorem State.afterMark_color (s : State) : (s.afterMark).color = s.color := rfl
@[simp] theorem State.afterMark_fe_st (s : State) : (s.afterMark).fe_st = s.fe_st := rfl
@[simp] theorem State.afterMark_fe_kind (s : State) : (s.afterMark).fe_kind = s.fe_kind := rfl
@[simp] theorem State.afterMark_fe_arg (s : State) : (s.afterMark).fe_arg = s.fe_arg := rfl
@[simp] theorem State.afterMark_fe_bracket (s : State) : (s.afterMark).fe_bracket = s.fe_bracket := rfl
@[simp] theorem State.afterMark_src (s : State) : (s.afterMark).src = s.src := rfl
@[simp] theorem State.afterMark_fill_color (s : State) : (s.afterMark).fill_color = s.fill_color := rfl
@[simp] theorem State.afterMark_bit (s : State) : (s.afterMark).bit = s.bit := rfl
@[simp] theorem State.afterMark_cur (s : State) : (s.afterMark).cur = s.cur := rfl
@[simp] theorem State.afterMark_scratch (s : State) : (s.afterMark).scratch = s.scratch := rfl
@[simp] theorem State.afterMark_busy (s : State) : (s.afterMark).busy = s.busy := rfl
@[simp] theorem State.afterMark_cs_n (s : State) : (s.afterMark).cs_n = s.cs_n := rfl
@[simp] theorem State.afterMark_rst_n (s : State) : (s.afterMark).rst_n = s.rst_n := rfl
@[simp] theorem State.afterMark_mode_sel (s : State) : (s.afterMark).mode_sel = s.mode_sel := rfl
@[simp] theorem State.afterMark_lines_oe (s : State) : (s.afterMark).lines_oe = s.lines_oe := rfl
@[simp] theorem State.afterMark_req (s : State) : (s.afterMark).req = s.req := rfl
@[simp] theorem State.afterMark_trace (s : State) : (s.afterMark).trace = s.trace := rfl

@[simp] theorem State.afterMark_col (s : State) : s.afterMark.col = s.par.W - 1 := rfl
@[simp] theorem State.afterMark_grp (s : State) : s.afterMark.grp = 0 := rfl

set_option Elab.async false in
@[simp] theorem State.afterLoad_par (s : State) : (s.afterLoad).par = s.par := by
  unfold State.afterLoad; split <;> rfl
@[simp] theorem State.afterLoad_rom (s : State) : (s.afterLoad).rom = s.rom := by
  unfold State.afterLoad; split <;> rfl
@[simp] theorem State.afterLoad_fb (s : State) : (s.afterLoad).fb = s.fb := by
  unfold State.afterLoad; split <;> rfl
@[simp] theorem State.afterLoad_inp (s : State) : (s.afterLoad).inp = s.inp := by
  unfold State.afterLoad; split <;> rfl
@[simp] theorem State.afterLoad_out (s : State) : (s.afterLoad).out = s.out := by
  unfold State.afterLoad; split <;> rfl
@[simp] theorem State.afterLoad_q_st (s : State) : (s.afterLoad).q_st = s.q_st := by
  unfold State.afterLoad; split <;> rfl
@[simp] theorem State.afterLoad_pc (s : State) : (s.afterLoad).pc = s.pc := by
  unfold State.afterLoad; split <;> rfl
@[simp] theorem State.afterLoad_op (s : State) : (s.afterLoad).op = s.op := by
  unfold State.afterLoad; split <;> rfl
@[simp] theorem State.afterLoad_color (s : State) : (s.afterLoad).color = s.color := by
  unfold State.afterLoad; split <;> rfl
@[simp] theorem State.afterLoad_fe_st (s : State) : (s.afterLoad).fe_st = s.fe_st := by
  unfold State.afterLoad; split <;> rfl
@[simp] theorem State.afterLoad_fe_kind (s : State) : (s.afterLoad).fe_kind = s.fe_kind := by
  unfold State.afterLoad; split <;> rfl
@[simp] theorem State.afterLoad_fe_arg (s : State) : (s.afterLoad).fe_arg = s.fe_arg := by
  unfold State.afterLoad; split <;> rfl
@[simp] theorem State.afterLoad_fe_bracket (s : State) : (s.afterLoad).fe_bracket = s.fe_bracket := by
  unfold State.afterLoad; split <;> rfl
@[simp] theorem State.afterLoad_src (s : State) : (s.afterLoad).src = s.src := by
  unfold State.afterLoad; split <;> rfl
@[simp] theorem State.afterLoad_fill_color (s : State) : (s.afterLoad).fill_color = s.fill_color := by
  unfold State.afterLoad; split <;> rfl
@[simp] theorem State.afterLoad_col (s : State) : (s.afterLoad).col = s.col := by
  unfold State.afterLoad; split <;> rfl
@[simp] theorem State.afterLoad_grp (s : State) : (s.afterLoad).grp = s.grp := by
  unfold State.afterLoad; split <;> rfl
@[simp] theorem State.afterLoad_cur (s : State) : (s.afterLoad).cur = s.cur := by
  unfold State.afterLoad; split <;> rfl
@[simp] theorem State.afterLoad_scratch (s : State) : (s.afterLoad).scratch = s.scratch := by
  unfold State.afterLoad; split <;> rfl
@[simp] theorem State.afterLoad_busy (s : State) : (s.afterLoad).busy = s.busy := by
  unfold State.afterLoad; split <;> rfl
@[simp] theorem State.afterLoad_cs_n (s : State) : (s.afterLoad).cs_n = s.cs_n := by
  unfold State.afterLoad; split <;> rfl
@[simp] theorem State.afterLoad_rst_n (s : State) : (s.afterLoad).rst_n = s.rst_n := by
  unfold State.afterLoad; split <;> rfl
@[simp] theorem State.afterLoad_mode_sel (s : State) : (s.afterLoad).mode_sel = s.mode_sel := by
  unfold State.afterLoad; split <;> rfl
@[simp] theorem State.afterLoad_lines_oe (s : State) : (s.afterLoad).lines_oe = s.lines_oe := by
  unfold State.afterLoad; split <;> rfl
@[simp] theorem State.afterLoad_req (s : State) : (s.afterLoad).req = s.req := by
  unfold State.afterLoad; split <;> rfl
@[simp] theorem State.afterLoad_trace (s : State) : (s.afterLoad).trace = s.trace := by
  unfold State.afterLoad; split <;> rfl

set_option Elab.async false in
@[simp] theorem State.afterPush_par (s : State) : (s.afterPush).par = s.par := by
  unfold State.afterPush; split <;> rfl
@[simp] theorem State.afterPush_rom (s : State) : (s.afterPush).rom = s.rom := by
  unfold State.afterPush; split <;> rfl
@[simp] theorem State.afterPush_fb (s : State) : (s.afterPush).fb = s.fb := by
  unfold State.afterPush; split <;> rfl
@[simp] theorem State.afterPush_inp (s : State) : (s.afterPush).inp = s.inp := by
  unfold State.afterPush; split <;> rfl
@[simp] theorem State.afterPush_out (s : State) : (s.afterPush).out = s.out := by
  unfold State.afterPush; split <;> rfl
@[simp] theorem State.afterPush_q_st (s : State) : (s.afterPush).q_st = s.q_st := by
  unfold State.afterPush; split <;> rfl
@[simp] theorem State.afterPush_pc (s : State) : (s.afterPush).pc = s.pc := by
  unfold State.afterPush; split <;> rfl
@[simp] theorem State.afterPush_op (s : State) : (s.afterPush).op = s.op := by
  unfold State.afterPush; split <;> rfl
@[simp] theorem State.afterPush_color (s : State) : (s.afterPush).color = s.color := by
  unfold State.afterPush; split <;> rfl
@[simp] theorem State.afterPush_fe_st (s : State) : (s.afterPush).fe_st = s.fe_st := by
  unfold State.afterPush; split <;> rfl
@[simp] theorem State.afterPush_fe_kind (s : State) : (s.afterPush).fe_kind = s.fe_kind := by
  unfold State.afterPush; split <;> rfl
@[simp] theorem State.afterPush_fe_arg (s : State) : (s.afterPush).fe_arg = s.fe_arg := by
  unfold State.afterPush; split <;> rfl
@[simp] theorem State.afterPush_fe_bracket (s : State) : (s.afterPush).fe_bracket = s.fe_bracket := by
  unfold State.afterPush; split <;> rfl
@[simp] theorem State.afterPush_src (s : State) : (s.afterPush).src = s.src := by
  unfold State.afterPush; split <;> rfl
@[simp] theorem State.afterPush_fill_color (s : State) : (s.afterPush).fill_color = s.fill_color := by
  unfold State.afterPush; split <;> rfl
@[simp] theorem State.afterPush_col (s : State) : (s.afterPush).col = s.col := by
  unfold State.afterPush; split <;> rfl
@[simp] theorem State.afterPush_grp (s : State) : (s.afterPush).grp = s.grp := by
  unfold State.afterPush; split <;> rfl
@[simp] theorem State.afterPush_cur (s : State) : (s.afterPush).cur = s.cur := by
  unfold State.afterPush; split <;> rfl
@[simp] theorem State.afterPush_scratch (s : State) : (s.afterPush).scratch = s.scratch := by
  unfold State.afterPush; split <;> rfl
@[simp] theorem State.afterPush_busy (s : State) : (s.afterPush).busy = s.busy := by
  unfold State.afterPush; split <;> rfl
@[simp] theorem State.afterPush_cs_n (s : State) : (s.afterPush).cs_n = s.cs_n := by
  unfold State.afterPush; split <;> rfl
@[simp] theorem State.afterPush_rst_n (s : State) : (s.afterPush).rst_n = s.rst_n := by
  unfold State.afterPush; split <;> rfl
@[simp] theorem State.afterPush_mode_sel (s : State) : (s.afterPush).mode_sel = s.mode_sel := by
  unfold State.afterPush; split <;> rfl
@[simp] theorem State.afterPush_lines_oe (s : State) : (s.afterPush).lines_oe = s.lines_oe := by
  unfold State.afterPush; split <;> rfl
@[simp] theorem State.afterPush_req (s : State) : (s.afterPush).req = s.req := by
  unfold State.afterPush; split <;> rfl
@[simp] theorem State.afterPush_trace (s : State) : (s.afterPush).trace = s.trace := by
  unfold State.afterPush; split <;> rfl

set_option Elab.async false in
@[simp] theorem State.advance_par (s : State) : (s.advance).par = s.par := by
  unfold State.advance; split
  · rfl
  · split <;> rfl
@[simp] theorem State.advance_rom (s : State) : (s.advance).rom = s.rom := by
  unfold State.advance; split
  · rfl
  · split <;> rfl
@[simp] theorem State.advance_fb (s : State) : (s.advance).fb = s.fb := by
  unfold State.advance; split
  · rfl
  · split <;> rfl
@[simp] theorem State.advance_inp (s : State) : (s.advance).inp = s.inp := by
  unfold State.advance; split
  · rfl
  · split <;> rfl
@[simp] theorem State.advance_out (s : State) : (s.advance).out = s.out := by
  unfold State.advance; split
  · rfl
  · split <;> rfl
@[simp] theorem State.advance_q_st (s : State) : (s.advance).q_st = s.q_st := by
  unfold State.advance; split
  · rfl
  · split <;> rfl
@[simp] theorem State.advance_pc (s : State) : (s.advance).pc = s.pc := by
  unfold State.advance; split
  · rfl
  · split <;> rfl
@[simp] theorem State.advance_op (s : State) : (s.advance).op = s.op := by
  unfold State.advance; split
  · rfl
  · split <;> rfl
@[simp] theorem State.advance_color (s : State) : (s.advance).color = s.color := by
  unfold State.advance; split
  · rfl
  · split <;> rfl
@[simp] theorem State.advance_fe_st (s : State) : (s.advance).fe_st = s.fe_st := by
  unfold State.advance; split
  · rfl
  · split <;> rfl
@[simp] theorem State.advance_fe_kind (s : State) : (s.advance).fe_kind = s.fe_kind := by
  unfold State.advance; split
  · rfl
  · split <;> rfl
@[simp] theorem State.advance_fe_arg (s : State) : (s.advance).fe_arg = s.fe_arg := by
  unfold State.advance; split
  · rfl
  · split <;> rfl
@[simp] theorem State.advance_fe_bracket (s : State) : (s.advance).fe_bracket = s.fe_bracket := by
  unfold State.advance; split
  · rfl
  · split <;> rfl
@[simp] theorem State.advance_src (s : State) : (s.advance).src = s.src := by
  unfold State.advance; split
  · rfl
  · split <;> rfl
@[simp] theorem State.advance_fill_color (s : State) : (s.advance).fill_color = s.fill_color := by
  unfold State.advance; split
  · rfl
  · split <;> rfl
@[simp] theorem State.advance_bit (s : State) : (s.advance).bit = s.bit := by
  unfold State.advance; split
  · rfl
  · split <;> rfl
@[simp] theorem State.advance_cur (s : State) : (s.advance).cur = s.cur := by
  unfold State.advance; split
  · rfl
  · split <;> rfl
@[simp] theorem State.advance_scratch (s : State) : (s.advance).scratch = s.scratch := by
  unfold State.advance; split
  · rfl
  · split <;> rfl
@[simp] theorem State.advance_busy (s : State) : (s.advance).busy = s.busy := by
  unfold State.advance; split
  · rfl
  · split <;> rfl
@[simp] theorem State.advance_cs_n (s : State) : (s.advance).cs_n = s.cs_n := by
  unfold State.advance; split
  · rfl
  · split <;> rfl
@[simp] theorem State.advance_rst_n (s : State) : (s.advance).rst_n = s.rst_n := by
  unfold State.advance; split
  · rfl
  · split <;> rfl
@[simp] theorem State.advance_mode_sel (s : State) : (s.advance).mode_sel = s.mode_sel := by
  unfold State.advance; split
  · rfl
  · split <;> rfl
@[simp] theorem State.advance_lines_oe (s : State) : (s.advance).lines_oe = s.lines_oe := by
  unfold State.advance; split
  · rfl
  · split <;> rfl
@[simp] theorem State.advance_req (s : State) : (s.advance).req = s.req := by
  unfold State.advance; split
  · rfl
  · split <;> rfl
@[simp] theorem State.advance_trace (s : State) : (s.advance).trace = s.trace := by
  unfold State.advance; split
  · rfl
  · split <;> rfl

set_option Elab.async false in
@[simp] theorem State.fsReturn_par (s : State) : (s.fsReturn).par = s.par := by
  unfold State.fsReturn; split <;> rfl
@[simp] theorem State.fsReturn_rom (s : State) : (s.fsReturn).rom = s.rom := by
  unfold State.fsReturn; split <;> rfl
@[simp] theorem State.fsReturn_fb (s : State) : (s.fsReturn).fb = s.fb := by
  unfold State.fsReturn; split <;> rfl
@[simp] theorem State.fsReturn_inp (s : State) : (s.fsReturn).inp = s.inp := by
  unfold State.fsReturn; split <;> rfl
@[simp] theorem State.fsReturn_out (s : State) : (s.fsReturn).out = s.out := by
  unfold State.fsReturn; split <;> rfl
@[simp] theorem State.fsReturn_pc (s : State) : (s.fsReturn).pc = s.pc := by
  unfold State.fsReturn; split <;> rfl
@[simp] theorem State.fsReturn_op (s : State) : (s.fsReturn).op = s.op := by
  unfold State.fsReturn; split <;> rfl
@[simp] theorem State.fsReturn_color (s : State) : (s.fsReturn).color = s.color := by
  unfold State.fsReturn; split <;> rfl
@[simp] theorem State.fsReturn_fe_st (s : State) : (s.fsReturn).fe_st = s.fe_st := by
  unfold State.fsReturn; split <;> rfl
@[simp] theorem State.fsReturn_fe_kind (s : State) : (s.fsReturn).fe_kind = s.fe_kind := by
  unfold State.fsReturn; split <;> rfl
@[simp] theorem State.fsReturn_fe_arg (s : State) : (s.fsReturn).fe_arg = s.fe_arg := by
  unfold State.fsReturn; split <;> rfl
@[simp] theorem State.fsReturn_fe_bracket (s : State) : (s.fsReturn).fe_bracket = s.fe_bracket := by
  unfold State.fsReturn; split <;> rfl
@[simp] theorem State.fsReturn_src (s : State) : (s.fsReturn).src = s.src := by
  unfold State.fsReturn; split <;> rfl
@[simp] theorem State.fsReturn_fill_color (s : State) : (s.fsReturn).fill_color = s.fill_color := by
  unfold State.fsReturn; split <;> rfl
@[simp] theorem State.fsReturn_col (s : State) : (s.fsReturn).col = s.col := by
  unfold State.fsReturn; split <;> rfl
@[simp] theorem State.fsReturn_grp (s : State) : (s.fsReturn).grp = s.grp := by
  unfold State.fsReturn; split <;> rfl
@[simp] theorem State.fsReturn_bit (s : State) : (s.fsReturn).bit = s.bit := by
  unfold State.fsReturn; split <;> rfl
@[simp] theorem State.fsReturn_cur (s : State) : (s.fsReturn).cur = s.cur := by
  unfold State.fsReturn; split <;> rfl
@[simp] theorem State.fsReturn_scratch (s : State) : (s.fsReturn).scratch = s.scratch := by
  unfold State.fsReturn; split <;> rfl
@[simp] theorem State.fsReturn_busy (s : State) : (s.fsReturn).busy = s.busy := by
  unfold State.fsReturn; split <;> rfl
@[simp] theorem State.fsReturn_cs_n (s : State) : (s.fsReturn).cs_n = s.cs_n := by
  unfold State.fsReturn; split <;> rfl
@[simp] theorem State.fsReturn_rst_n (s : State) : (s.fsReturn).rst_n = s.rst_n := by
  unfold State.fsReturn; split <;> rfl
@[simp] theorem State.fsReturn_mode_sel (s : State) : (s.fsReturn).mode_sel = s.mode_sel := by
  unfold State.fsReturn; split <;> rfl
@[simp] theorem State.fsReturn_lines_oe (s : State) : (s.fsReturn).lines_oe = s.lines_oe := by
  unfold State.fsReturn; split <;> rfl
@[simp] theorem State.fsReturn_req (s : State) : (s.fsReturn).req = s.req := by
  unfold State.fsReturn; split <;> rfl
@[simp] theorem State.fsReturn_trace (s : State) : (s.fsReturn).trace = s.trace := by
  unfold State.fsReturn; split <;> rfl

@[simp] theorem State.fsReturn_fs_st (s : State) : s.fsReturn.fs_st = .S_IDLE := by
  unfold State.fsReturn; split <;> rfl

@[simp] theorem State.fsStart_par (s : State) : (s.fsStart).par = s.par := rfl
@[simp] theorem State.fsStart_rom (s : State) : (s.fsStart).rom = s.rom := rfl
@[simp] theorem State.fsStart_fb (s : State) : (s.fsStart).fb = s.fb := rfl
@[simp] theorem State.fsStart_inp (s : State) : (s.fsStart).inp = s.inp := rfl
@[simp] theorem State.fsStart_out (s : State) : (s.fsStart).out = s.out := rfl
@[simp] theorem State.fsStart_q_st (s : State) : (s.fsStart).q_st = s.q_st := rfl
@[simp] theorem State.fsStart_pc (s : State) : (s.fsStart).pc = s.pc := rfl
@[simp] theorem State.fsStart_op (s : State) : (s.fsStart).op = s.op := rfl
@[simp] theorem State.fsStart_color (s : State) : (s.fsStart).color = s.color := rfl
@[simp] theorem State.fsStart_fe_st (s : State) : (s.fsStart).fe_st = s.fe_st := rfl
@[simp] theorem State.fsStart_fe_kind (s : State) : (s.fsStart).fe_kind = s.fe_kind := rfl
@[simp] theorem State.fsStart_fe_arg (s : State) : (s.fsStart).fe_arg = s.fe_arg := rfl
@[simp] theorem State.fsStart_fe_bracket (s : State) : (s.fsStart).fe_bracket = s.fe_bracket := rfl
@[simp] theorem State.fsStart_src (s : State) : (s.fsStart).src = s.src := rfl
@[simp] theorem State.fsStart_fill_color (s : State) : (s.fsStart).fill_color = s.fill_color := rfl
@[simp] theorem State.fsStart_col (s : State) : (s.fsStart).col = s.col := rfl
@[simp] theorem State.fsStart_grp (s : State) : (s.fsStart).grp = s.grp := rfl
@[simp] theorem State.fsStart_bit (s : State) : (s.fsStart).bit = s.bit := rfl
@[simp] theorem State.fsStart_cur (s : State) : (s.fsStart).cur = s.cur := rfl
@[simp] theorem State.fsStart_scratch (s : State) : (s.fsStart).scratch = s.scratch := rfl
@[simp] theorem State.fsStart_busy (s : State) : (s.fsStart).busy = s.busy := rfl
@[simp] theorem State.fsStart_cs_n (s : State) : (s.fsStart).cs_n = s.cs_n := rfl
@[simp] theorem State.fsStart_rst_n (s : State) : (s.fsStart).rst_n = s.rst_n := rfl
@[simp] theorem State.fsStart_mode_sel (s : State) : (s.fsStart).mode_sel = s.mode_sel := rfl
@[simp] theorem State.fsStart_lines_oe (s : State) : (s.fsStart).lines_oe = s.lines_oe := rfl
@[simp] theorem State.fsStart_trace (s : State) : (s.fsStart).trace = s.trace := rfl

@[simp] theorem State.fsStart_fs_st (s : State) : s.fsStart.fs_st = .S_CS_LO := rfl
@[simp] theorem State.fsStart_req (s : State) : s.fsStart.req = none := rfl

/-! ### Acceptance and the end of a command -/

@[simp] theorem State.accept_par (c : HostCommand) (k : Half) (s : State) : (s.accept c k).par = s.par := rfl
@[simp] theorem State.accept_rom (c : HostCommand) (k : Half) (s : State) : (s.accept c k).rom = s.rom := rfl
@[simp] theorem State.accept_fb (c : HostCommand) (k : Half) (s : State) : (s.accept c k).fb = s.fb := rfl
@[simp] theorem State.accept_out (c : HostCommand) (k : Half) (s : State) : (s.accept c k).out = s.out := rfl
@[simp] theorem State.accept_q_st (c : HostCommand) (k : Half) (s : State) : (s.accept c k).q_st = s.q_st := rfl
@[simp] theorem State.accept_pc (c : HostCommand) (k : Half) (s : State) : (s.accept c k).pc = s.pc := rfl
@[simp] theorem State.accept_fe_st (c : HostCommand) (k : Half) (s : State) : (s.accept c k).fe_st = s.fe_st := rfl
@[simp] theorem State.accept_fe_kind (c : HostCommand) (k : Half) (s : State) : (s.accept c k).fe_kind = s.fe_kind := rfl
@[simp] theorem State.accept_fe_arg (c : HostCommand) (k : Half) (s : State) : (s.accept c k).fe_arg = s.fe_arg := rfl
@[simp] theorem State.accept_fe_bracket (c : HostCommand) (k : Half) (s : State) : (s.accept c k).fe_bracket = s.fe_bracket := rfl
@[simp] theorem State.accept_fs_st (c : HostCommand) (k : Half) (s : State) : (s.accept c k).fs_st = s.fs_st := rfl
@[simp] theorem State.accept_src (c : HostCommand) (k : Half) (s : State) : (s.accept c k).src = s.src := rfl
@[simp] theorem State.accept_fill_color (c : HostCommand) (k : Half) (s : State) : (s.accept c k).fill_color = s.fill_color := rfl
@[simp] theorem State.accept_col (c : HostCommand) (k : Half) (s : State) : (s.accept c k).col = s.col := rfl
@[simp] theorem State.accept_grp (c : HostCommand) (k : Half) (s : State) : (s.accept c k).grp = s.grp := rfl
@[simp] theorem State.accept_bit (c : HostCommand) (k : Half) (s : State) : (s.accept c k).bit = s.bit := rfl
@[simp] theorem State.accept_cur (c : HostCommand) (k : Half) (s : State) : (s.accept c k).cur = s.cur := rfl
@[simp] theorem State.accept_scratch (c : HostCommand) (k : Half) (s : State) : (s.accept c k).scratch = s.scratch := rfl
@[simp] theorem State.accept_cs_n (c : HostCommand) (k : Half) (s : State) : (s.accept c k).cs_n = s.cs_n := rfl
@[simp] theorem State.accept_rst_n (c : HostCommand) (k : Half) (s : State) : (s.accept c k).rst_n = s.rst_n := rfl
@[simp] theorem State.accept_mode_sel (c : HostCommand) (k : Half) (s : State) : (s.accept c k).mode_sel = s.mode_sel := rfl
@[simp] theorem State.accept_lines_oe (c : HostCommand) (k : Half) (s : State) : (s.accept c k).lines_oe = s.lines_oe := rfl

@[simp] theorem State.accept_op (c : HostCommand) (k : Half) (s : State) : (s.accept c k).op = c.code := rfl
@[simp] theorem State.accept_color (c : HostCommand) (k : Half) (s : State) : (s.accept c k).color = k := rfl
@[simp] theorem State.accept_busy (c : HostCommand) (k : Half) (s : State) : (s.accept c k).busy = true := rfl
@[simp] theorem State.accept_req (c : HostCommand) (k : Half) (s : State) : (s.accept c k).req = none := rfl
@[simp] theorem State.accept_trace (c : HostCommand) (k : Half) (s : State) : (s.accept c k).trace = s.trace ++ [.CMD c] := rfl
@[simp] theorem State.accept_inp (c : HostCommand) (k : Half) (s : State) : (s.accept c k).inp = { s.inp with cmd_valid := false } := rfl

@[simp] theorem State.finish_par (s : State) : (s.finish).par = s.par := rfl
@[simp] theorem State.finish_rom (s : State) : (s.finish).rom = s.rom := rfl
@[simp] theorem State.finish_fb (s : State) : (s.finish).fb = s.fb := rfl
@[simp] theorem State.finish_inp (s : State) : (s.finish).inp = s.inp := rfl
@[simp] theorem State.finish_out (s : State) : (s.finish).out = s.out := rfl
@[simp] theorem State.finish_pc (s : State) : (s.finish).pc = s.pc := rfl
@[simp] theorem State.finish_op (s : State) : (s.finish).op = s.op := rfl
@[simp] theorem State.finish_color (s : State) : (s.finish).color = s.color := rfl
@[simp] theorem State.finish_fe_st (s : State) : (s.finish).fe_st = s.fe_st := rfl
@[simp] theorem State.finish_fe_kind (s : State) : (s.finish).fe_kind = s.fe_kind := rfl
@[simp] theorem State.finish_fe_arg (s : State) : (s.finish).fe_arg = s.fe_arg := rfl
@[simp] theorem State.finish_fe_bracket (s : State) : (s.finish).fe_bracket = s.fe_bracket := rfl
@[simp] theorem State.finish_fs_st (s : State) : (s.finish).fs_st = s.fs_st := rfl
@[simp] theorem State.finish_src (s : State) : (s.finish).src = s.src := rfl
@[simp] theorem State.finish_fill_color (s : State) : (s.finish).fill_color = s.fill_color := rfl
@[simp] theorem State.finish_col (s : State) : (s.finish).col = s.col := rfl
@[simp] theorem State.finish_grp (s : State) : (s.finish).grp = s.grp := rfl
@[simp] theorem State.finish_bit (s : State) : (s.finish).bit = s.bit := rfl
@[simp] theorem State.finish_cur (s : State) : (s.finish).cur = s.cur := rfl
@[simp] theorem State.finish_scratch (s : State) : (s.finish).scratch = s.scratch := rfl
@[simp] theorem State.finish_cs_n (s : State) : (s.finish).cs_n = s.cs_n := rfl
@[simp] theorem State.finish_rst_n (s : State) : (s.finish).rst_n = s.rst_n := rfl
@[simp] theorem State.finish_mode_sel (s : State) : (s.finish).mode_sel = s.mode_sel := rfl
@[simp] theorem State.finish_lines_oe (s : State) : (s.finish).lines_oe = s.lines_oe := rfl

@[simp] theorem State.finish_q_st (s : State) : s.finish.q_st = .Q_IDLE := rfl
@[simp] theorem State.finish_busy (s : State) : s.finish.busy = false := rfl
@[simp] theorem State.finish_req (s : State) : s.finish.req = none := rfl
@[simp] theorem State.finish_trace (s : State) : s.finish.trace = s.trace ++ [.DONE] := rfl

@[simp] theorem State.acceptInitialize_par (s : State) : (s.acceptInitialize).par = s.par := rfl
@[simp] theorem State.acceptInitialize_rom (s : State) : (s.acceptInitialize).rom = s.rom := rfl
@[simp] theorem State.acceptInitialize_fb (s : State) : (s.acceptInitialize).fb = s.fb := rfl
@[simp] theorem State.acceptInitialize_out (s : State) : (s.acceptInitialize).out = s.out := rfl
@[simp] theorem State.acceptInitialize_pc (s : State) : (s.acceptInitialize).pc = s.pc := rfl
@[simp] theorem State.acceptInitialize_fe_st (s : State) : (s.acceptInitialize).fe_st = s.fe_st := rfl
@[simp] theorem State.acceptInitialize_fe_kind (s : State) : (s.acceptInitialize).fe_kind = s.fe_kind := rfl
@[simp] theorem State.acceptInitialize_fe_arg (s : State) : (s.acceptInitialize).fe_arg = s.fe_arg := rfl
@[simp] theorem State.acceptInitialize_fe_bracket (s : State) : (s.acceptInitialize).fe_bracket = s.fe_bracket := rfl
@[simp] theorem State.acceptInitialize_fs_st (s : State) : (s.acceptInitialize).fs_st = s.fs_st := rfl
@[simp] theorem State.acceptInitialize_src (s : State) : (s.acceptInitialize).src = s.src := rfl
@[simp] theorem State.acceptInitialize_fill_color (s : State) : (s.acceptInitialize).fill_color = s.fill_color := rfl
@[simp] theorem State.acceptInitialize_col (s : State) : (s.acceptInitialize).col = s.col := rfl
@[simp] theorem State.acceptInitialize_grp (s : State) : (s.acceptInitialize).grp = s.grp := rfl
@[simp] theorem State.acceptInitialize_bit (s : State) : (s.acceptInitialize).bit = s.bit := rfl
@[simp] theorem State.acceptInitialize_cur (s : State) : (s.acceptInitialize).cur = s.cur := rfl
@[simp] theorem State.acceptInitialize_scratch (s : State) : (s.acceptInitialize).scratch = s.scratch := rfl
@[simp] theorem State.acceptInitialize_cs_n (s : State) : (s.acceptInitialize).cs_n = s.cs_n := rfl
@[simp] theorem State.acceptInitialize_rst_n (s : State) : (s.acceptInitialize).rst_n = s.rst_n := rfl
@[simp] theorem State.acceptInitialize_mode_sel (s : State) : (s.acceptInitialize).mode_sel = s.mode_sel := rfl
@[simp] theorem State.acceptInitialize_lines_oe (s : State) : (s.acceptInitialize).lines_oe = s.lines_oe := rfl

@[simp] theorem State.acceptInitialize_q_st (s : State) : (s.acceptInitialize).q_st = .Q_CFG := rfl
@[simp] theorem State.acceptInitialize_op (s : State) : (s.acceptInitialize).op = HostCommand.INITIALIZE.code := rfl
@[simp] theorem State.acceptInitialize_color (s : State) : (s.acceptInitialize).color = s.inp.cmd_color := rfl
@[simp] theorem State.acceptInitialize_busy (s : State) : (s.acceptInitialize).busy = true := rfl
@[simp] theorem State.acceptInitialize_req (s : State) : (s.acceptInitialize).req = none := rfl
@[simp] theorem State.acceptInitialize_inp (s : State) : (s.acceptInitialize).inp = { s.inp with cmd_valid := false } := rfl
@[simp] theorem State.acceptInitialize_trace (s : State) : (s.acceptInitialize).trace = s.trace ++ [.CMD .INITIALIZE] := rfl

@[simp] theorem State.acceptClear_par (k : Half) (s : State) : (s.acceptClear k).par = s.par := rfl
@[simp] theorem State.acceptClear_rom (k : Half) (s : State) : (s.acceptClear k).rom = s.rom := rfl
@[simp] theorem State.acceptClear_fb (k : Half) (s : State) : (s.acceptClear k).fb = s.fb := rfl
@[simp] theorem State.acceptClear_out (k : Half) (s : State) : (s.acceptClear k).out = s.out := rfl
@[simp] theorem State.acceptClear_pc (k : Half) (s : State) : (s.acceptClear k).pc = s.pc := rfl
@[simp] theorem State.acceptClear_fe_st (k : Half) (s : State) : (s.acceptClear k).fe_st = s.fe_st := rfl
@[simp] theorem State.acceptClear_fe_kind (k : Half) (s : State) : (s.acceptClear k).fe_kind = s.fe_kind := rfl
@[simp] theorem State.acceptClear_fe_arg (k : Half) (s : State) : (s.acceptClear k).fe_arg = s.fe_arg := rfl
@[simp] theorem State.acceptClear_fe_bracket (k : Half) (s : State) : (s.acceptClear k).fe_bracket = s.fe_bracket := rfl
@[simp] theorem State.acceptClear_fs_st (k : Half) (s : State) : (s.acceptClear k).fs_st = s.fs_st := rfl
@[simp] theorem State.acceptClear_col (k : Half) (s : State) : (s.acceptClear k).col = s.col := rfl
@[simp] theorem State.acceptClear_grp (k : Half) (s : State) : (s.acceptClear k).grp = s.grp := rfl
@[simp] theorem State.acceptClear_bit (k : Half) (s : State) : (s.acceptClear k).bit = s.bit := rfl
@[simp] theorem State.acceptClear_cur (k : Half) (s : State) : (s.acceptClear k).cur = s.cur := rfl
@[simp] theorem State.acceptClear_scratch (k : Half) (s : State) : (s.acceptClear k).scratch = s.scratch := rfl
@[simp] theorem State.acceptClear_cs_n (k : Half) (s : State) : (s.acceptClear k).cs_n = s.cs_n := rfl
@[simp] theorem State.acceptClear_rst_n (k : Half) (s : State) : (s.acceptClear k).rst_n = s.rst_n := rfl
@[simp] theorem State.acceptClear_mode_sel (k : Half) (s : State) : (s.acceptClear k).mode_sel = s.mode_sel := rfl
@[simp] theorem State.acceptClear_lines_oe (k : Half) (s : State) : (s.acceptClear k).lines_oe = s.lines_oe := rfl

@[simp] theorem State.acceptClear_q_st (k : Half) (s : State) : (s.acceptClear k).q_st = .Q_FILL := rfl
@[simp] theorem State.acceptClear_op (k : Half) (s : State) : (s.acceptClear k).op = (HostCommand.CLEAR k).code := rfl
@[simp] theorem State.acceptClear_color (k : Half) (s : State) : (s.acceptClear k).color = k := rfl
@[simp] theorem State.acceptClear_src (k : Half) (s : State) : (s.acceptClear k).src = .CONST := rfl
@[simp] theorem State.acceptClear_fill_color (k : Half) (s : State) : (s.acceptClear k).fill_color = k := rfl
@[simp] theorem State.acceptClear_busy (k : Half) (s : State) : (s.acceptClear k).busy = true := rfl
@[simp] theorem State.acceptClear_req (k : Half) (s : State) : (s.acceptClear k).req = none := rfl
@[simp] theorem State.acceptClear_inp (k : Half) (s : State) : (s.acceptClear k).inp = { s.inp with cmd_valid := false } := rfl
@[simp] theorem State.acceptClear_trace (k : Half) (s : State) : (s.acceptClear k).trace = s.trace ++ [.CMD (.CLEAR k)] := rfl

@[simp] theorem State.acceptUpdate_par (s : State) : (s.acceptUpdate).par = s.par := rfl
@[simp] theorem State.acceptUpdate_rom (s : State) : (s.acceptUpdate).rom = s.rom := rfl
@[simp] theorem State.acceptUpdate_fb (s : State) : (s.acceptUpdate).fb = s.fb := rfl
@[simp] theorem State.acceptUpdate_out (s : State) : (s.acceptUpdate).out = s.out := rfl
@[simp] theorem State.acceptUpdate_pc (s : State) : (s.acceptUpdate).pc = s.pc := rfl
@[simp] theorem State.acceptUpdate_fe_st (s : State) : (s.acceptUpdate).fe_st = s.fe_st := rfl
@[simp] theorem State.acceptUpdate_fe_kind (s : State) : (s.acceptUpdate).fe_kind = s.fe_kind := rfl
@[simp] theorem State.acceptUpdate_fe_arg (s : State) : (s.acceptUpdate).fe_arg = s.fe_arg := rfl
@[simp] theorem State.acceptUpdate_fe_bracket (s : State) : (s.acceptUpdate).fe_bracket = s.fe_bracket := rfl
@[simp] theorem State.acceptUpdate_fs_st (s : State) : (s.acceptUpdate).fs_st = s.fs_st := rfl
@[simp] theorem State.acceptUpdate_fill_color (s : State) : (s.acceptUpdate).fill_color = s.fill_color := rfl
@[simp] theorem State.acceptUpdate_col (s : State) : (s.acceptUpdate).col = s.col := rfl
@[simp] theorem State.acceptUpdate_grp (s : State) : (s.acceptUpdate).grp = s.grp := rfl
@[simp] theorem State.acceptUpdate_bit (s : State) : (s.acceptUpdate).bit = s.bit := rfl
@[simp] theorem State.acceptUpdate_cur (s : State) : (s.acceptUpdate).cur = s.cur := rfl
@[simp] theorem State.acceptUpdate_scratch (s : State) : (s.acceptUpdate).scratch = s.scratch := rfl
@[simp] theorem State.acceptUpdate_cs_n (s : State) : (s.acceptUpdate).cs_n = s.cs_n := rfl
@[simp] theorem State.acceptUpdate_rst_n (s : State) : (s.acceptUpdate).rst_n = s.rst_n := rfl
@[simp] theorem State.acceptUpdate_mode_sel (s : State) : (s.acceptUpdate).mode_sel = s.mode_sel := rfl
@[simp] theorem State.acceptUpdate_lines_oe (s : State) : (s.acceptUpdate).lines_oe = s.lines_oe := rfl

@[simp] theorem State.acceptUpdate_q_st (s : State) : (s.acceptUpdate).q_st = .Q_UPD := rfl
@[simp] theorem State.acceptUpdate_op (s : State) : (s.acceptUpdate).op = HostCommand.UPDATE.code := rfl
@[simp] theorem State.acceptUpdate_color (s : State) : (s.acceptUpdate).color = s.inp.cmd_color := rfl
@[simp] theorem State.acceptUpdate_src (s : State) : (s.acceptUpdate).src = .FB := rfl
@[simp] theorem State.acceptUpdate_busy (s : State) : (s.acceptUpdate).busy = true := rfl
@[simp] theorem State.acceptUpdate_req (s : State) : (s.acceptUpdate).req = none := rfl
@[simp] theorem State.acceptUpdate_inp (s : State) : (s.acceptUpdate).inp = { s.inp with cmd_valid := false } := rfl
@[simp] theorem State.acceptUpdate_trace (s : State) : (s.acceptUpdate).trace = s.trace ++ [.CMD .UPDATE] := rfl

/-! ### The block's reset -/

@[simp] theorem State.blockReset_par (s : State) : s.blockReset.par = s.par := rfl
@[simp] theorem State.blockReset_rom (s : State) : s.blockReset.rom = s.rom := rfl
@[simp] theorem State.blockReset_fb (s : State) : s.blockReset.fb = s.fb := rfl
@[simp] theorem State.blockReset_inp (s : State) : s.blockReset.inp = s.inp := rfl
@[simp] theorem State.blockReset_trace (s : State) : s.blockReset.trace = s.trace := rfl
@[simp] theorem State.blockReset_q_st (s : State) : s.blockReset.q_st = .Q_IDLE := rfl
@[simp] theorem State.blockReset_fe_st (s : State) : s.blockReset.fe_st = .F_IDLE := rfl
@[simp] theorem State.blockReset_fs_st (s : State) : s.blockReset.fs_st = .S_IDLE := rfl
@[simp] theorem State.blockReset_busy (s : State) : s.blockReset.busy = false := rfl
@[simp] theorem State.blockReset_lines_oe (s : State) : s.blockReset.lines_oe = false := rfl
@[simp] theorem State.blockReset_cs_n (s : State) : s.blockReset.cs_n = true := rfl
@[simp] theorem State.blockReset_rst_n (s : State) : s.blockReset.rst_n = true := rfl
@[simp] theorem State.blockReset_mode_sel (s : State) : s.blockReset.mode_sel = s.par.MODE_INIT := rfl
@[simp] theorem State.blockReset_req (s : State) : s.blockReset.req = none := rfl

end Sys2Proof.Machine
end

