-- ==== Sys2Proof/Laws/Produced.lean ====
section
/-! SUPPORT. The relation `Produced`: it composes along events, and whatever leaves trace, lines and outside alone keeps it. -/

namespace Sys2Proof.Machine

/-- What an event does outside the registers depends on nothing but parameters, inputs, lines and outside. -/
theorem State.emit_congr {s t : State} (e : Event) (hp : t.par = s.par)
    (hi : t.inp.otherThanRequest = s.inp.otherThanRequest) (ho : t.out = s.out) (hc : t.cs_n = s.cs_n)
    (hr : t.rst_n = s.rst_n) (hm : t.mode_sel = s.mode_sel) (hl : t.lines_oe = s.lines_oe) :
    (t.emit e).out = (s.emit e).out ∧ (t.emit e).cs_n = (s.emit e).cs_n ∧ (t.emit e).rst_n = (s.emit e).rst_n ∧
      (t.emit e).mode_sel = (s.emit e).mode_sel ∧ (t.emit e).lines_oe = (s.emit e).lines_oe := by
  have hd : t.inp.tx_delivers = s.inp.tx_delivers := by
    have h := congrArg Inputs.tx_delivers hi; exact h
  have hb : t.inp.bus_busy = s.inp.bus_busy := by
    have h := congrArg Inputs.bus_busy hi; exact h
  cases e with
  | CS l => cases l <;> simp [hp, ho, hb, hr, hm, hl]
  | _ => simp [byteClear, wordClear, hd, ho, hc, hr, hm, hl]

/-- The same with the wait before the event. -/
theorem State.complete_congr {s t : State} (e : Event) (hp : t.par = s.par)
    (hi : t.inp.otherThanRequest = s.inp.otherThanRequest) (ho : t.out = s.out) (hc : t.cs_n = s.cs_n)
    (hr : t.rst_n = s.rst_n) (hm : t.mode_sel = s.mode_sel) (hl : t.lines_oe = s.lines_oe) :
    (t.complete e).out = (s.complete e).out ∧ (t.complete e).cs_n = (s.complete e).cs_n ∧
      (t.complete e).rst_n = (s.complete e).rst_n ∧ (t.complete e).mode_sel = (s.complete e).mode_sel ∧
      (t.complete e).lines_oe = (s.complete e).lines_oe := by
  unfold State.complete
  split
  · exact State.emit_congr _ hp hi (by simp [ho]) hc hr hm hl
  · exact State.emit_congr _ hp hi ho hc hr hm hl

theorem Produced.refl (s : State) : Produced [] s s := by
  constructor <;> simp

/-- Nothing of trace, lines and outside has changed. -/
theorem Produced.of_same {s t : State} (hp : t.par = s.par) (hrom : t.rom = s.rom) (hfb : t.fb = s.fb)
    (hi : t.inp.otherThanRequest = s.inp.otherThanRequest) (ht : t.trace = s.trace) (ho : t.out = s.out)
    (hc : t.cs_n = s.cs_n) (hr : t.rst_n = s.rst_n) (hm : t.mode_sel = s.mode_sel) (hl : t.lines_oe = s.lines_oe) :
    Produced [] s t := by
  constructor <;> simpa

/-- `Produced` compares the events' effect from any state that agrees on what they read. -/
theorem State.emits_congr {s t : State} (es : List Event) (hp : t.par = s.par)
    (hi : t.inp.otherThanRequest = s.inp.otherThanRequest) (ho : t.out = s.out) (hc : t.cs_n = s.cs_n)
    (hr : t.rst_n = s.rst_n) (hm : t.mode_sel = s.mode_sel) (hl : t.lines_oe = s.lines_oe) :
    (t.emits es).out = (s.emits es).out ∧ (t.emits es).cs_n = (s.emits es).cs_n ∧
      (t.emits es).rst_n = (s.emits es).rst_n ∧ (t.emits es).mode_sel = (s.emits es).mode_sel ∧
      (t.emits es).lines_oe = (s.emits es).lines_oe := by
  induction es generalizing s t with
  | nil => exact ⟨ho, hc, hr, hm, hl⟩
  | cons e es ih =>
    obtain ⟨ho', hc', hr', hm', hl'⟩ := State.complete_congr e hp hi ho hc hr hm hl
    exact ih (by simpa using hp) (by simpa using hi) ho' hc' hr' hm' hl'

theorem Produced.trans {es fs : List Event} {s t u : State} (h : Produced es s t) (k : Produced fs t u) :
    Produced (es ++ fs) s u := by
  have hc := State.emits_congr (s := s.emits es) (t := t) fs (by simpa using h.par) (by simpa using h.inp) h.out h.cs_n
    h.rst_n h.mode_sel h.lines_oe
  constructor
  · rw [k.par, h.par]
  · rw [k.rom, h.rom]
  · rw [k.fb, h.fb]
  · rw [k.inp, h.inp]
  · rw [k.trace, h.trace, List.append_assoc]
  · rw [k.out, hc.1, State.emits_append]
  · rw [k.cs_n, hc.2.1, State.emits_append]
  · rw [k.rst_n, hc.2.2.1, State.emits_append]
  · rw [k.mode_sel, hc.2.2.2.1, State.emits_append]
  · rw [k.lines_oe, hc.2.2.2.2, State.emits_append]

/-- Completing a list of events produces it. -/
theorem Produced.emits (es : List Event) (s : State) : Produced es s (s.emits es) := by
  constructor <;> simp

/-- Completing one event produces it, unless a wait comes before it. -/
theorem Produced.emit (e : Event) (s : State) (h : e ≠ .WIDTH .W8) : Produced [e] s (s.emit e) := by
  have k : s.complete e = s.emit e := by
    unfold State.complete
    split
    · contradiction
    · rfl
  simpa [k] using Produced.emits [e] s

/-- The control lines after a list of events. -/
theorem State.emits_lines (es : List Event) (s : State) : (s.emits es).lines = es.foldl Lines.after s.lines := by
  induction es generalizing s with
  | nil => rfl
  | cons e es ih =>
    rw [State.emits_cons, ih, List.foldl_cons]
    congr 1
    cases e <;> try rfl
    case CS l => cases l <;> rfl
    case WIDTH n => cases n <;> rfl

/-- The control lines after a piece of work are those its events leave. -/
theorem Produced.lines {es : List Event} {s t : State} (h : Produced es s t) : t.lines = es.foldl Lines.after s.lines := by
  rw [← State.emits_lines, State.lines, State.lines, h.cs_n, h.rst_n, h.mode_sel, h.lines_oe]

/-- What a piece of work leaves of parameters, ROM and framebuffer. -/
theorem Produced.store {es : List Event} {s t : State} (h : Produced es s t) : SameStore s t :=
  ⟨h.par, h.rom, fun a => by rw [h.fb]⟩

end Sys2Proof.Machine
end

