-- ==== Sys2Proof/Laws/Word.lean ====
section
/-! SUPPORT. The byte and 16-bit arithmetic of R98 and R109: splitting and joining are inverse to each other. -/

namespace Sys2Proof

theorem join_getLsbD (h l : Byte) (i : Nat) :
    (join h l).getLsbD i = if i < 8 then l.getLsbD i else h.getLsbD (i - 8) := by
  change BitVec.getLsbD (w := 8 + 8) (h ++ l) i = _
  rw [BitVec.getLsbD_append]

@[simp] theorem lo_join (h l : Byte) : lo (join h l) = l := by
  simp only [lo]; ext i hi; simp [join_getLsbD, hi]

@[simp] theorem hi_join (h l : Byte) : hi (join h l) = h := by
  simp only [Sys2Proof.hi]; ext i hi; simp [join_getLsbD, hi]

@[simp] theorem join_hi_lo (v : Half) : join (hi v) (lo v) = v := by
  apply BitVec.eq_of_getLsbD_eq
  intro i _
  rw [join_getLsbD]
  by_cases h : i < 8
  · simp [lo, h]
  · have e : 8 + (i - 8) = i := by omega
    have k : i - 8 < 8 := by omega
    simp [Sys2Proof.hi, h, e, k]

@[simp] theorem lo_setLo (v : Half) (b : Byte) : lo (setLo v b) = b := lo_join _ _

@[simp] theorem hi_setLo (v : Half) (b : Byte) : hi (setLo v b) = hi v := hi_join _ _

end Sys2Proof
end

