-- ==== Sys2Proof/Laws/Frames.lean ====
section
/-! SUPPORT. What the frame encoder's and the sequencer's operations do when the transport and the delay primitive complete at once: one
equation for each operation, giving the whole state it ends in. -/

namespace Sys2Proof.Machine

/-- An event toward a collaborator that completes it. -/
theorem State.ask_ready {ready : Bool} (h : ready = true) (e : Event) (s : State) : s.ask ready e = .done (s.emit e) := by
  simp [State.ask, h]

/-- An event toward a collaborator that does not complete it: the block holds it out and stays where it is (R224). -/
theorem State.ask_wait {ready : Bool} (h : ready = false) (e : Event) (s : State) :
    s.ask ready e = .wait { s with req := some e } := by
  simp [State.ask, h]

@[simp] theorem Run.bind_done (s : State) (f : State → Run) : (Run.done s).bind f = f s := rfl
@[simp] theorem Run.bind_wait (s : State) (f : State → Run) : (Run.wait s).bind f = .wait s := rfl
@[simp] theorem Run.state_done (s : State) : (Run.done s).state = s := rfl
@[simp] theorem Run.state_wait (s : State) : (Run.wait s).state = s := rfl

theorem Run.bind_assoc (r : Run) (f g : State → Run) : (r.bind f).bind g = r.bind fun s => (f s).bind g := by
  cases r <;> rfl

/-- Nothing is left to do for an idle frame encoder. -/
theorem feRun_idle (n : Nat) (s : State) (h : s.fe_st = .F_IDLE) : feRun n s = .done s := by
  cases n <;> simp [feRun, h]

/-- A frame that has been started runs through its events and hands control back (R128, R129). -/
theorem feRun_ready (k : FrameKind) (arg : Half) (br : Bool) (s : State) (h : s.inp.tx_byte_ack = true) :
    feRun 5 (s.feStart k arg br) =
      .done (({ s with fe_kind := k, fe_arg := arg, fe_bracket := br } : State).emits
        (frameTrace br [frameByte0 k, frameByte1 k arg, frameByte2 arg])).feReturn := by
  obtain ⟨_, _, _, ⟨_, _, _, _, _, _, _, _, _, _, _⟩, _⟩ := s
  dsimp only at h
  subst h
  cases br with
  | true => rfl
  | false => exact feRun_idle 2 _ (by exact State.feReturn_fe_st _)

/-- SEND_INDEX in either form, with a transport that completes (R122). -/
theorem sendIndexOp_ready (r : Byte) (s : State) (h : s.inp.tx_byte_ack = true) :
    sendIndexOp r s =
      .done (({ s with fe_kind := .IDX, fe_arg := setLo s.fe_arg r } : State).emits (indexTrace s.fe_bracket r)).feReturn := by
  have e := feRun_ready .IDX (setLo s.fe_arg r) s.fe_bracket s h
  simp only [frameByte0, frameByte1, frameByte2, lo_setLo] at e
  exact e

/-- SEND_DATA with a transport that completes (R123). -/
theorem sendDataOp_ready (v : Half) (s : State) (h : s.inp.tx_byte_ack = true) :
    sendDataOp v s =
      .done (({ s with fe_kind := .DAT, fe_arg := v, fe_bracket := true } : State).emits (dataTrace v)).feReturn :=
  feRun_ready .DAT v true s h

/-! ### What the operations leave alone, and where they leave the starter -/

theorem Produced.emits_from {s t : State} (es : List Event) (h : Produced [] s t) : Produced es s (t.emits es) := by
  simpa using h.trans (Produced.emits es t)

theorem Produced.then_same {es : List Event} {s t u : State} (h : Produced es s t) (k : Produced [] t u) : Produced es s u := by
  simpa using h.trans k

/-- Handing control back shows outside as nothing. -/
theorem State.feReturn_produced (s : State) : Produced [] s s.feReturn :=
  Produced.of_same (by simp) (by simp) (by simp) (by simp) (by simp) (by simp) (by simp) (by simp) (by simp) (by simp)

/-- Where control goes back to depends on the starters' states alone. -/
theorem State.feReturn_congr {s t : State} (hf : t.fs_st = s.fs_st) (hq : t.q_st = s.q_st) :
    t.feReturn.fs_st = s.feReturn.fs_st ∧ t.feReturn.q_st = s.feReturn.q_st := by
  unfold State.feReturn
  rw [hf, hq]
  constructor <;> cases s.fs_st <;> cases s.q_st <;> rfl

/-- Where the starter of a frame stands when the frame is over (R160, R188). -/
theorem State.feReturn_moves (s : State) :
    (s.fs_st = .S_IDLE → s.feReturn.fs_st = .S_IDLE ∧
      s.feReturn.q_st = match s.q_st with
        | .Q_STEP_IDX => .Q_STEP_DAT
        | .Q_STEP_DAT => .Q_STEP_DLY
        | q => q) ∧
    (s.fs_st = .S_INDEX → s.feReturn.fs_st = .S_MARK ∧ s.feReturn.q_st = s.q_st) := by
  constructor
  · intro h
    unfold State.feReturn
    rw [h]
    cases s.q_st <;> simp
  · intro h
    unfold State.feReturn
    rw [h]
    exact ⟨rfl, rfl⟩

/-- SEND_INDEX leaves everything alone but FE's registers and its starter's state (R122). -/
theorem sendIndexOp_done (r : Byte) (s : State) (h : s.inp.tx_byte_ack = true) :
    ∃ t, sendIndexOp r s = .done t ∧ Produced (indexTrace s.fe_bracket r) s t ∧ SameCommand s t ∧ SameCounters s t ∧
      SameSource s t ∧ t.pc = s.pc ∧ t.req = none ∧ t.fe_st = .F_IDLE ∧ t.fe_kind = .IDX ∧
      t.fe_arg = setLo s.fe_arg r ∧ t.fe_bracket = s.fe_bracket ∧ t.fs_st = s.feReturn.fs_st ∧ t.q_st = s.feReturn.q_st := by
  refine ⟨_, sendIndexOp_ready r s h, ?_, by simp [SameCommand], by simp [SameCounters], by simp [SameSource], by simp,
    by cases s.fe_bracket <;> simp [indexTrace, frameTrace, indexFrame], by simp, by simp, by simp, by simp, ?_⟩
  · refine Produced.then_same (Produced.emits_from _ ?_) (State.feReturn_produced _)
    exact Produced.of_same rfl rfl rfl rfl rfl rfl rfl rfl rfl rfl
  · exact State.feReturn_congr (by simp) (by simp)

/-- SEND_DATA leaves everything alone but FE's registers and its starter's state (R123). -/
theorem sendDataOp_done (v : Half) (s : State) (h : s.inp.tx_byte_ack = true) :
    ∃ t, sendDataOp v s = .done t ∧ Produced (dataTrace v) s t ∧ SameCommand s t ∧ SameCounters s t ∧
      SameSource s t ∧ t.pc = s.pc ∧ t.req = none ∧ t.fe_st = .F_IDLE ∧ t.fe_kind = .DAT ∧
      t.fe_arg = v ∧ t.fe_bracket = true ∧ t.fs_st = s.feReturn.fs_st ∧ t.q_st = s.feReturn.q_st := by
  refine ⟨_, sendDataOp_ready v s h, ?_, by simp [SameCommand], by simp [SameCounters], by simp [SameSource], by simp,
    by simp [dataTrace, frameTrace, dataFrame], by simp, by simp, by simp, by simp, ?_⟩
  · refine Produced.then_same (Produced.emits_from _ ?_) (State.feReturn_produced _)
    exact Produced.of_same rfl rfl rfl rfl rfl rfl rfl rfl rfl rfl
  · exact State.feReturn_congr (by simp) (by simp)

/-- WRITE_REGISTER: the ten events, then FE holds the Data Frame's leftovers and the starter has been handed control twice (R124). -/
theorem writeRegisterOp_done (r : Byte) (v : Half) (s : State) (h : s.inp.tx_byte_ack = true) :
    ∃ t, writeRegisterOp r v s = .done t ∧ Produced (writeTrace r v) s t ∧ SameCommand s t ∧ SameCounters s t ∧
      SameSource s t ∧ t.pc = s.pc ∧ t.req = none ∧ t.fe_st = .F_IDLE ∧ t.fe_kind = .DAT ∧
      t.fe_arg = v ∧ t.fe_bracket = true ∧ t.fs_st = s.feReturn.feReturn.fs_st ∧ t.q_st = s.feReturn.feReturn.q_st := by
  obtain ⟨t, ht, hp, hc, hn, hs, hpc, hreq, hst, hk, ha, hb, hfs, hq⟩ :=
    sendIndexOp_done r { s with fe_bracket := true } h
  have hack : t.inp.tx_byte_ack = true := by rw [hc.2.2.2]; exact h
  obtain ⟨u, hu, kp, kc, kn, ks, kpc, kreq, kst, kk, ka, kb, kfs, kq⟩ := sendDataOp_done v t hack
  have e := State.feReturn_congr (s := s) (t := { s with fe_bracket := true }) rfl rfl
  have e' := State.feReturn_congr (s := s.feReturn) (t := t) (by rw [hfs, e.1]) (by rw [hq, e.2])
  refine ⟨u, ?_, ?_, ?_, ?_, ?_, ?_, kreq, kst, kk, ka, kb, ?_, ?_⟩
  · rw [writeRegisterOp, ht]; exact hu
  · have k0 : Produced [] s { s with fe_bracket := true } :=
      Produced.of_same rfl rfl rfl rfl rfl rfl rfl rfl rfl rfl
    simpa [writeTrace] using (k0.trans hp).trans kp
  · simp_all [SameCommand]
  · simp_all [SameCounters]
  · simp_all [SameSource]
  · rw [kpc, hpc]
  · rw [kfs, e'.1]
  · rw [kq, e'.2]

end Sys2Proof.Machine
end

