-- ==== Sys2Proof/Laws/Sequencer.lean ====
section
/-! SUPPORT. What the sequencer's operations do when the transport and the delay primitive complete at once: DELAY, RESET_PULSE,
POWER_ON_STEP and the walk over the ROM. -/

namespace Sys2Proof.Machine

theorem State.delayReturn_produced (s : State) : Produced [] s s.delayReturn :=
  Produced.of_same (by simp) (by simp) (by simp) (by simp) (by simp) (by simp) (by simp) (by simp) (by simp) (by simp)

theorem State.stepNext_produced (s : State) : Produced [] s s.stepNext :=
  Produced.of_same (by simp) (by simp) (by simp) (by simp) (by simp) (by simp) (by simp) (by simp) (by simp) (by simp)

theorem State.move_produced (a b : QState) (s : State) : Produced [] s (s.move a b) :=
  Produced.of_same (by simp) (by simp) (by simp) (by simp) (by simp) (by simp) (by simp) (by simp) (by simp) (by simp)

/-- Where the end of a wait takes the sequencer depends on its state alone (R160). -/
theorem State.delayReturn_congr {s t : State} (hq : t.q_st = s.q_st) (hp : t.pc = s.pc) :
    t.delayReturn.q_st = s.delayReturn.q_st ∧ t.delayReturn.pc = s.delayReturn.pc := by
  unfold State.delayReturn
  rw [hq]
  cases h : s.q_st <;> simp [hq, hp, h]

/-- DELAY: one event, or none for 0, and the sequencer moves on (R143). -/
theorem delayOp_done (n : Nat) (s : State) (h : s.inp.dly_done = true) :
    ∃ t, delayOp n s = .done t ∧ Produced (delayTrace n) s t ∧ SameCommand s t ∧ SameCounters s t ∧ SameSource s t ∧
      SameFrame s t ∧ t.fs_st = s.fs_st ∧ t.q_st = s.delayReturn.q_st ∧ t.pc = s.delayReturn.pc ∧
      t.req = if n = 0 then s.req else none := by
  by_cases hn : n = 0
  · refine ⟨s.delayReturn, by simp [delayOp, hn], ?_, by simp [SameCommand], by simp [SameCounters], by simp [SameSource],
      by simp [SameFrame], by simp, rfl, rfl, by simp [hn]⟩
    simpa [delayTrace, hn] using State.delayReturn_produced s
  · refine ⟨(s.emit (.DELAY n)).delayReturn, by simp [delayOp, hn, State.ask_ready h], ?_, by simp [SameCommand],
      by simp [SameCounters], by simp [SameSource], by simp [SameFrame], by simp, ?_, ?_, by simp [hn]⟩
    · simpa [delayTrace, hn] using (Produced.emit (.DELAY n) s (by simp)).then_same (State.delayReturn_produced _)
    · exact (State.delayReturn_congr (by simp) (by simp)).1
    · exact (State.delayReturn_congr (by simp) (by simp)).2

/-- RESET_PULSE, run by the sequencer from `Q_RST_LO` or from outside its rows (R142, R160). -/
theorem resetPulseOp_done (s : State) (h : s.inp.dly_done = true) :
    ∃ t, resetPulseOp s = .done t ∧ Produced (resetTrace s.par.toParams) s t ∧ SameCommand s t ∧ SameCounters s t ∧
      SameSource s t ∧ SameFrame s t ∧ t.fs_st = s.fs_st ∧
      (s.q_st = .Q_RST_LO → t.q_st = .Q_STEP_IDX ∧ t.pc = 0) ∧ (s.q_st = .Q_IDLE → t.q_st = .Q_IDLE ∧ t.pc = s.pc) := by
  have p0 := (Produced.emit (.RST false) s (by simp)).then_same (State.move_produced .Q_RST_LO .Q_RST_HOLD _)
  obtain ⟨a, ha, pa, ca, na, sa, fa, ia, qa, ka, -⟩ :=
    delayOp_done s.par.T_RST_HOLD ((s.emit (.RST false)).move .Q_RST_LO .Q_RST_HOLD) (by simpa using h)
  have hack : a.inp.dly_done = true := by rw [ca.2.2.2]; simpa using h
  have pb := (Produced.emit (.RST true) a (by simp)).then_same (State.move_produced .Q_RST_HI .Q_RST_WAIT _)
  obtain ⟨c, hc, pc, cc, nc, sc, fc, ic, qc, kc, -⟩ :=
    delayOp_done s.par.T_RST_WAIT ((a.emit (.RST true)).move .Q_RST_HI .Q_RST_WAIT) (by simpa using hack)
  have b1 : s.par.T_RST_HOLD ≠ 0 := by have := s.par.delays; omega
  have b2 : s.par.T_RST_WAIT ≠ 0 := by have := s.par.delays; omega
  refine ⟨c, ?_, ?_, ?_, ?_, ?_, ?_, ?_, ?_, ?_⟩
  · simp [resetPulseOp, resetLow, resetHigh, ha, hc]
  · simpa [resetTrace, delayTrace, b1, b2] using ((p0.trans pa).trans pb).trans pc
  · simp_all [SameCommand]
  · simp_all [SameCounters]
  · simp_all [SameSource]
  · simp_all [SameFrame]
  · simp_all
  · intro hq
    rw [qc, kc]
    simp [State.delayReturn, State.move, qa, hq]
  · intro hq
    rw [qc, kc]
    simp [State.delayReturn, State.move, qa, ka, hq]

/-- POWER_ON_STEP, run by the sequencer from `Q_STEP_IDX` (R147, R160). -/
theorem powerOnStepOp_done (reg : Byte) (val : Half) (dly : Nat) (s : State) (h : s.inp.tx_byte_ack = true)
    (hd : s.inp.dly_done = true) (hf : s.fs_st = .S_IDLE) (hq : s.q_st = .Q_STEP_IDX) :
    ∃ t, powerOnStepOp reg val dly s = .done t ∧ Produced (stepTrace ⟨reg, val, dly⟩) s t ∧ SameCommand s t ∧
      SameCounters s t ∧ t.fe_st = .F_IDLE ∧ t.fs_st = .S_IDLE ∧ t.pc = s.pc + 1 ∧
      (s.pc + 1 = s.romLength →
        t.q_st = .Q_FILL ∧ t.src = .CONST ∧ t.fill_color = s.par.INIT_CLEAR_COLOR) ∧
      (s.pc + 1 ≠ s.romLength → t.q_st = .Q_STEP_IDX ∧ SameSource s t) := by
  obtain ⟨a, ha, pa, ca, na, sa, ka, ra, fa, -, -, -, ia, qa⟩ := writeRegisterOp_done reg val s h
  have m1 := (State.feReturn_moves s).1 hf
  have m2 := (State.feReturn_moves s.feReturn).1 m1.1
  have ia' : a.fs_st = .S_IDLE := by rw [ia, m2.1]
  have qa' : a.q_st = .Q_STEP_DLY := by rw [qa, m2.2, m1.2, hq]
  obtain ⟨b, hb, pb, cb, nb, sb, fb, ib, qb, kb, -⟩ :=
    delayOp_done dly a (by rw [ca.2.2.2]; exact hd)
  have qb' : b.q_st = .Q_STEP_NEXT := by rw [qb]; simp [State.delayReturn, qa']
  have kb' : b.pc = s.pc := by rw [kb]; simp [State.delayReturn, qa', ka]
  have hlen : b.romLength = s.romLength := by simp [State.romLength, pb.rom, pa.rom]
  refine ⟨b.stepNext, ?_, ?_, ?_, ?_, ?_, ?_, ?_, ?_, ?_⟩
  · simp [powerOnStepOp, ha, hb]
  · simpa [stepTrace] using ((pa.trans pb).then_same (State.stepNext_produced b))
  · simp_all [SameCommand]
  · simp_all [SameCounters]
  · simp [fb.1, fa]
  · simp [ib, ia']
  · simp [kb']
  · intro he
    unfold State.stepNext
    simp only [qb', kb', hlen, he, if_true]
    exact ⟨trivial, trivial, by rw [pb.par, pa.par]⟩
  · intro he
    unfold State.stepNext
    simp only [qb', kb', hlen, he, if_true, if_false]
    simp_all [SameSource]

theorem romTrace_drop (rom : List RomStep) (i : Nat) (h : i < rom.length) :
    romTrace (rom.drop i) = stepTrace rom[i] ++ romTrace (rom.drop (i + 1)) := by
  rw [List.drop_eq_getElem_cons h]
  rfl

/-- The walk over the rest of the ROM ends in `Q_FILL` with the initial clear's operands written (R157, R158, R161). -/
theorem romWalk_done (n : Nat) (s : State) (h : s.inp.tx_byte_ack = true) (hd : s.inp.dly_done = true)
    (hf : s.fs_st = .S_IDLE) (hq : s.q_st = .Q_STEP_IDX) (hn : s.pc + (n + 1) = s.romLength) :
    ∃ t, romWalk (n + 1) s = .done t ∧ Produced (romTrace (s.rom.drop s.pc)) s t ∧ SameCommand s t ∧ SameCounters s t ∧
      t.fe_st = .F_IDLE ∧ t.fs_st = .S_IDLE ∧ t.pc = s.romLength ∧ t.q_st = .Q_FILL ∧ t.src = .CONST ∧
      t.fill_color = s.par.INIT_CLEAR_COLOR := by
  induction n generalizing s with
  | zero =>
    have hlt : s.pc < s.rom.length := by unfold State.romLength at hn; omega
    have hent : s.romEntry? = some s.rom[s.pc] := by simp [State.romEntry?, hlt]
    obtain ⟨a, ha, pa, ca, na, fa, ia, ka, last, -⟩ :=
      powerOnStepOp_done s.rom[s.pc].reg s.rom[s.pc].val s.rom[s.pc].dly s h hd hf hq
    obtain ⟨lq, ls, lc⟩ := last hn
    refine ⟨a, by simp [romWalk, hent, ha], ?_, ca, na, fa, ia, by rw [ka]; exact hn, lq, ls, lc⟩
    have hend : s.rom.drop (s.pc + 1) = [] := by
      apply List.drop_eq_nil_of_le; unfold State.romLength at hn; omega
    rw [romTrace_drop _ _ hlt, hend]
    simpa [romTrace] using pa
  | succ n ih =>
    have hlt : s.pc < s.rom.length := by unfold State.romLength at hn; omega
    have hent : s.romEntry? = some s.rom[s.pc] := by simp [State.romEntry?, hlt]
    obtain ⟨a, ha, pa, ca, na, fa, ia, ka, -, more⟩ :=
      powerOnStepOp_done s.rom[s.pc].reg s.rom[s.pc].val s.rom[s.pc].dly s h hd hf hq
    obtain ⟨mq, ms⟩ := more (by omega)
    have hlen : a.romLength = s.romLength := by simp [State.romLength, pa.rom]
    obtain ⟨t, ht, pt, ct, nt, ft, it, kt, tq, ts, tc⟩ :=
      ih a (by rw [ca.2.2.2]; exact h) (by rw [ca.2.2.2]; exact hd) ia mq (by rw [ka, hlen]; omega)
    refine ⟨t, ?_, ?_, ?_, ?_, ft, it, by rw [kt, hlen], tq, ts, by rw [tc, pa.par]⟩
    · rw [romWalk, hent]; simp only [ha, Run.bind_done]; exact ht
    · rw [pa.rom, ka] at pt
      rw [romTrace_drop _ _ hlt]
      exact pa.trans pt
    · simp_all [SameCommand]
    · simp_all [SameCounters]

end Sys2Proof.Machine
end

