-- ==== Sys2Proof/Laws/Streamer.lean ====
section
/-! SUPPORT. What a stream does when every collaborator completes at once: the relation `Hop` composes rows, one lemma for each part of a
stream (header, byte-group, loops, trailer), and the whole stream from them. -/

namespace Sys2Proof.Machine

/-- `n` rows of a stream take `s` to `t`, produce `es`, and change no register but those of FS. -/
structure Hop (n : Nat) (es : List Event) (s t : State) : Prop where
  run : ∀ m, streamRun (n + m) s = streamRun m t
  produced : Produced es s t
  command : SameCommand s t
  source : SameSource s t
  frame : SameFrame s t
  q_st : t.q_st = s.q_st
  pc : t.pc = s.pc

theorem Hop.trans {n m : Nat} {es fs : List Event} {s t u : State} (h : Hop n es s t) (k : Hop m fs t u) :
    Hop (n + m) (es ++ fs) s u := by
  constructor
  · intro i
    rw [Nat.add_assoc, h.run, k.run]
  · exact h.produced.trans k.produced
  · have a := h.command; have b := k.command; simp_all [SameCommand]
  · have a := h.source; have b := k.source; simp_all [SameSource]
  · have a := h.frame; have b := k.frame; simp_all [SameFrame]
  · rw [k.q_st, h.q_st]
  · rw [k.pc, h.pc]

/-- One row of FS is a hop. -/
theorem Hop.row {es : List Event} {s t : State} (hf : s.fe_st = .F_IDLE) (hs : s.fs_st ≠ .S_IDLE) (hr : fsRow s = .done t)
    (hp : Produced es s t) (hc : SameCommand s t) (hsrc : SameSource s t) (hfr : SameFrame s t) (hq : t.q_st = s.q_st)
    (hpc : t.pc = s.pc) : Hop 1 es s t :=
  { run := by intro m; simp [Nat.add_comm 1 m, streamRun, streamRow, hf, hs, hr]
    produced := hp, command := hc, source := hsrc, frame := hfr, q_st := hq, pc := hpc }

/-- A row that changes nothing but FS's own registers. -/
theorem Hop.silent {s : State} {c g : Nat} {b : Fin 8} {v : Byte} {x : Vector Byte 16} {f : FsState} (hf : s.fe_st = .F_IDLE)
    (hs : s.fs_st ≠ .S_IDLE)
    (hr : fsRow s = .done { s with col := c, grp := g, bit := b, cur := v, scratch := x, fs_st := f }) :
    Hop 1 [] s { s with col := c, grp := g, bit := b, cur := v, scratch := x, fs_st := f } :=
  Hop.row hf hs hr (Produced.of_same rfl rfl rfl rfl rfl rfl rfl rfl rfl rfl) ⟨rfl, rfl, rfl, rfl⟩ ⟨rfl, rfl⟩
    ⟨rfl, rfl, rfl, rfl⟩ rfl rfl

/-- A row that completes one event and else changes nothing but FS's own registers. -/
theorem Hop.event {s : State} {e : Event} {c g : Nat} {b : Fin 8} {v : Byte} {x : Vector Byte 16} {f : FsState}
    (hf : s.fe_st = .F_IDLE) (hs : s.fs_st ≠ .S_IDLE) (he : e ≠ .WIDTH .W8)
    (hr : fsRow s = .done { s.emit e with col := c, grp := g, bit := b, cur := v, scratch := x, fs_st := f }) :
    Hop 1 [e] s { s.emit e with col := c, grp := g, bit := b, cur := v, scratch := x, fs_st := f } :=
  Hop.row hf hs hr
    ((Produced.emit e s he).then_same (Produced.of_same rfl rfl rfl rfl rfl rfl rfl rfl rfl rfl))
    (by simp [SameCommand]) (by simp [SameSource]) (by simp [SameFrame]) (by simp) (by simp)

/-- What `collaboratorsReady` says, flag by flag. -/
theorem State.ready_flags {s : State} (h : s.collaboratorsReady = true) :
    s.inp.tx_byte_ack = true ∧ s.inp.tx_bulk_ack = true ∧ s.inp.dly_done = true ∧ s.inp.fb_ack = true ∧
      s.inp.fifo_full = false ∧ s.inp.bus_busy = false := by
  simpa [State.collaboratorsReady, and_assoc] using h

/-- The framebuffer byte of a position depends on the framebuffer and the geometry alone. -/
theorem fbByte_congr {s t : State} (hp : t.par = s.par) (hf : t.fb = s.fb) : fbByte t = fbByte s := by
  funext c g; simp [fbByte, hp, hf]

/-- `S_LOAD`: the byte of the present position, if the framebuffer is the source (R182). -/
theorem hop_load {s : State} (h : s.collaboratorsReady = true) (hf : s.fe_st = .F_IDLE) (hs : s.fs_st = .S_LOAD) :
    ∃ t, Hop 1 (readTrace s.src (fbByte s) s.col s.grp) s t ∧ t.col = s.col ∧ t.grp = s.grp ∧ t.scratch = s.scratch ∧
      t.cur = (match s.src with | .FB => fbByte s s.col s.grp | .CONST => s.cur) ∧
      t.fs_st = (match s.par.STRATEGY with | .BURST => .S_PUSH | .BUFFERED => .S_EXPAND) ∧
      t.bit = (match s.par.STRATEGY with | .BURST => 0 | .BUFFERED => s.bit) := by
  have hi : s.fs_st ≠ .S_IDLE := by simp [hs]
  have hack := (State.ready_flags h).2.2.2.1
  cases hsrc : s.src <;> cases hst : s.par.STRATEGY
  · refine ⟨_, Hop.event (e := .FBREAD s.col s.grp (fbByte s s.col s.grp)) (c := s.col) (g := s.grp) (b := s.bit)
      (v := fbByte s s.col s.grp) (x := s.scratch) (f := .S_EXPAND) hf hi (by simp) ?_, ?_⟩
    · simp [fsRow, hs, hsrc, loadByte, State.ask_ready hack, State.afterLoad, hst, fbByte]
    · simp
  · refine ⟨_, Hop.event (e := .FBREAD s.col s.grp (fbByte s s.col s.grp)) (c := s.col) (g := s.grp) (b := 0)
      (v := fbByte s s.col s.grp) (x := s.scratch) (f := .S_PUSH) hf hi (by simp) ?_, ?_⟩
    · simp [fsRow, hs, hsrc, loadByte, State.ask_ready hack, State.afterLoad, hst, fbByte]
    · simp
  · refine ⟨_, Hop.silent (c := s.col) (g := s.grp) (b := s.bit) (v := s.cur) (x := s.scratch) (f := .S_EXPAND) hf hi ?_, ?_⟩
    · simp [fsRow, hs, hsrc, State.afterLoad, hst]
    · simp
  · refine ⟨_, Hop.silent (c := s.col) (g := s.grp) (b := 0) (v := s.cur) (x := s.scratch) (f := .S_PUSH) hf hi ?_, ?_⟩
    · simp [fsRow, hs, hsrc, State.afterLoad, hst]
    · simp

/-- The pixel of a position depends on the parameters, the operands and the group's byte alone. -/
theorem px_eq (s : State) (b : Byte) (hb : s.src = .FB → s.cur = b) : s.px = pixel s.par.toParams s.src s.fill_color b := by
  funext k
  cases h : s.src with
  | FB => simp [State.px, pixel, h, hb h]
  | CONST => simp [State.px, pixel, h]

/-- `S_EXPAND` and `S_BULK`: one group in the buffered strategy (R100, R183). -/
theorem hop_bulk {s : State} (h : s.collaboratorsReady = true) (hf : s.fe_st = .F_IDLE) (hs : s.fs_st = .S_EXPAND) :
    ∃ t, Hop 2 [.BULK (expand s.px)] s t ∧ t.col = s.col ∧ t.grp = s.grp ∧ t.bit = s.bit ∧ t.cur = s.cur ∧
      t.scratch = expand s.px ∧ t.fs_st = .S_ADV := by
  have hack := (State.ready_flags h).2.1
  have a : Hop 1 [] s { s with col := s.col, grp := s.grp, bit := s.bit, cur := s.cur, scratch := expand s.px, fs_st := .S_BULK } :=
    Hop.silent hf (by simp [hs]) (by simp [fsRow, hs])
  refine ⟨_, a.trans (Hop.event (c := s.col) (g := s.grp) (b := s.bit) (v := s.cur) (x := expand s.px) (f := .S_ADV)
    hf (by simp) (by simp) ?_), by simp⟩
  simp [fsRow, State.ask_ready hack]

/-- `S_PUSH`: one pixel in the burst strategy (R184). -/
theorem hop_push {s : State} (h : s.collaboratorsReady = true) (hf : s.fe_st = .F_IDLE) (hs : s.fs_st = .S_PUSH) :
    ∃ t, Hop 1 [.WORD (s.px s.bit)] s t ∧ t.col = s.col ∧ t.grp = s.grp ∧ t.cur = s.cur ∧ t.scratch = s.scratch ∧
      (s.bit ≠ 7 → t.bit = s.bit + 1 ∧ t.fs_st = .S_PUSH) ∧ (s.bit = 7 → t.bit = 7 ∧ t.fs_st = .S_ADV) := by
  have hack := (State.ready_flags h).2.2.2.2.1
  by_cases hb : s.bit = 7
  · refine ⟨_, Hop.event (e := .WORD (s.px s.bit)) (c := s.col) (g := s.grp) (b := s.bit) (v := s.cur) (x := s.scratch)
      (f := .S_ADV) hf (by simp [hs]) (by simp) ?_, by simp [hb]⟩
    simp [fsRow, hs, State.waitFifo, hack, State.afterPush, hb]
  · refine ⟨_, Hop.event (e := .WORD (s.px s.bit)) (c := s.col) (g := s.grp) (b := s.bit + 1) (v := s.cur) (x := s.scratch)
      (f := .S_PUSH) hf (by simp [hs]) (by simp) ?_, by simp [hb]⟩
    simp [fsRow, hs, State.waitFifo, hack, State.afterPush, hb]

theorem State.ready_congr {s t : State} (h : SameCommand s t) (k : s.collaboratorsReady = true) :
    t.collaboratorsReady = true := by
  simpa [State.collaboratorsReady, h.2.2.2] using k

/-- The pixel of a position is the same in a state with the same byte and operands. -/
theorem px_congr {s t : State} (hp : t.par = s.par) (hs : SameSource s t) (hc : t.cur = s.cur) : t.px = s.px := by
  funext k; simp [State.px, hp, hs.1, hs.2, hc]

/-- The pixels from position `8 - n` on, one word each (R176, R184). -/
theorem hop_pushes (n : Nat) {s : State} (h : s.collaboratorsReady = true) (hf : s.fe_st = .F_IDLE) (hs : s.fs_st = .S_PUSH)
    (hn : s.bit.val + n = 7) :
    ∃ t, Hop (n + 1) ((positions.drop s.bit.val).map fun k => .WORD (s.px k)) s t ∧ t.col = s.col ∧ t.grp = s.grp ∧
      t.cur = s.cur ∧ t.scratch = s.scratch ∧ t.bit = 7 ∧ t.fs_st = .S_ADV := by
  induction n generalizing s with
  | zero =>
    obtain ⟨t, a, hc, hg, hu, hx, -, last⟩ := hop_push h hf hs
    have hb : s.bit = 7 := Fin.ext (by simpa using hn)
    refine ⟨t, ?_, hc, hg, hu, hx, (last hb).1, (last hb).2⟩
    simpa [positions, hb] using a
  | succ n ih =>
    obtain ⟨t, a, hc, hg, hu, hx, more, -⟩ := hop_push h hf hs
    have hb : s.bit ≠ 7 := by intro e; rw [e] at hn; simp at hn
    obtain ⟨mb, mf⟩ := more hb
    have hv : t.bit.val = s.bit.val + 1 := by
      rw [mb, Fin.val_add_one_of_lt]; exact lt_of_le_of_ne (Fin.le_last _) hb
    obtain ⟨u, b, kc, kg, ku, kx, kb, kf⟩ :=
      ih (State.ready_congr a.command h) (by rw [a.frame.1]; exact hf) mf (by rw [hv]; omega)
    refine ⟨u, ?_, by rw [kc, hc], by rw [kg, hg], by rw [ku, hu], by rw [kx, hx], kb, kf⟩
    have e : (positions.drop s.bit.val).map (fun k => Event.WORD (s.px k)) =
        [.WORD (s.px s.bit)] ++ (positions.drop t.bit.val).map fun k => Event.WORD (t.px k) := by
      rw [px_congr a.produced.par a.source hu, hv]
      rcases s.bit with ⟨i, hi⟩
      simp only at hn ⊢
      interval_cases i <;> rfl
    rw [e, Nat.add_comm (n + 1) 1]
    exact a.trans b

/-- One byte-group: read, expanded and sent (R182 to R184). -/
theorem hop_group {s : State} (h : s.collaboratorsReady = true) (hf : s.fe_st = .F_IDLE) (hs : s.fs_st = .S_LOAD) :
    ∃ n t, n ≤ 9 ∧ Hop n (groupTrace s.par.toParams s.src s.fill_color (fbByte s) s.col s.grp) s t ∧ t.col = s.col ∧
      t.grp = s.grp ∧ t.fs_st = .S_ADV ∧
      t.cur = (match s.src with | .FB => fbByte s s.col s.grp | .CONST => s.cur) ∧
      t.scratch = (match s.par.STRATEGY with
        | .BURST => s.scratch
        | .BUFFERED => expand (pixel s.par.toParams s.src s.fill_color (fbByte s s.col s.grp))) ∧
      t.bit = (match s.par.STRATEGY with | .BURST => 7 | .BUFFERED => s.bit) := by
  obtain ⟨t, a, hc, hg, hx, hu, hst, hb⟩ := hop_load h hf hs
  have ht : t.px = pixel s.par.toParams s.src s.fill_color (fbByte s s.col s.grp) := by
    rw [px_eq t (fbByte s s.col s.grp), a.produced.par, a.source.1, a.source.2]
    intro e; rw [a.source.1] at e; simpa [e] using hu
  have hft : t.fe_st = .F_IDLE := by rw [a.frame.1]; exact hf
  cases hs : s.par.STRATEGY
  · simp only [hs] at hst hb
    obtain ⟨u, b, kc, kg, kb, ku, kx, kf⟩ := hop_bulk (State.ready_congr a.command h) hft hst
    refine ⟨3, u, by omega, ?_, by rw [kc, hc], by rw [kg, hg], kf, by rw [ku, hu], by rw [kx, ht], by rw [kb, hb]⟩
    have k := a.trans b
    rw [ht] at k
    simpa [groupTrace, pixelTrace, hs] using k
  · simp only [hs] at hst hb
    obtain ⟨u, b, kc, kg, ku, kx, kb, kf⟩ :=
      hop_pushes 7 (State.ready_congr a.command h) hft hst (by rw [hb]; rfl)
    refine ⟨9, u, by omega, ?_, by rw [kc, hc], by rw [kg, hg], kf, by rw [ku, hu], by rw [kx, hx], kb⟩
    have k := a.trans b
    rw [ht, hb] at k
    simpa [groupTrace, pixelTrace, hs] using k

/-- `S_ADV`: the next group, the next column or the end (R187). -/
theorem hop_advance {s : State} (hf : s.fe_st = .F_IDLE) (hs : s.fs_st = .S_ADV) :
    ∃ t, Hop 1 [] s t ∧ t.cur = s.cur ∧ t.scratch = s.scratch ∧ t.bit = s.bit ∧
      (s.grp ≠ s.par.G - 1 → t.col = s.col ∧ t.grp = s.grp + 1 ∧ t.fs_st = .S_LOAD) ∧
      (s.grp = s.par.G - 1 → s.col ≠ 0 → t.col = s.col - 1 ∧ t.grp = 0 ∧ t.fs_st = .S_LOAD) ∧
      (s.grp = s.par.G - 1 → s.col = 0 → t.col = 0 ∧ t.grp = s.grp ∧
        t.fs_st = (match s.par.STRATEGY with | .BURST => .S_DRAIN | .BUFFERED => .S_CS_HI)) := by
  have hi : s.fs_st ≠ .S_IDLE := by simp [hs]
  by_cases hg : s.grp = s.par.G - 1
  · by_cases hc : s.col = 0
    · refine ⟨_, Hop.silent (c := s.col) (g := s.grp) (b := s.bit) (v := s.cur) (x := s.scratch)
        (f := match s.par.STRATEGY with | .BURST => .S_DRAIN | .BUFFERED => .S_CS_HI) hf hi ?_, by simp [hg, hc]⟩
      simp [fsRow, hs, State.advance, hg, hc] <;> rfl
    · refine ⟨_, Hop.silent (c := s.col - 1) (g := 0) (b := s.bit) (v := s.cur) (x := s.scratch) (f := .S_LOAD) hf hi ?_,
        by simp [hg, hc]⟩
      simp [fsRow, hs, State.advance, hg, hc]
  · refine ⟨_, Hop.silent (c := s.col) (g := s.grp + 1) (b := s.bit) (v := s.cur) (x := s.scratch) (f := .S_LOAD) hf hi ?_,
      by simp [hg]⟩
    simp [fsRow, hs, State.advance, hg]

/-- What the streamer's group registers hold after the group `(c, g)` of a stream that began in `s`. -/
def State.groupDone (s t : State) (c g : Nat) : Prop :=
  t.cur = (match s.src with | .FB => fbByte s c g | .CONST => s.cur) ∧
  t.scratch = (match s.par.STRATEGY with
    | .BURST => s.scratch
    | .BUFFERED => expand (pixel s.par.toParams s.src s.fill_color (fbByte s c g))) ∧
  t.bit = (match s.par.STRATEGY with | .BURST => 7 | .BUFFERED => s.bit)

/-- The group registers after a later group do not depend on an earlier one. -/
theorem State.groupDone_later {s a t : State} {c g c' g' : Nat} (hp : a.par = s.par) (hfb : a.fb = s.fb) (hs : SameSource s a)
    (h : s.groupDone a c g) (k : a.groupDone t c' g') : s.groupDone t c' g' := by
  unfold State.groupDone at *
  rw [fbByte_congr hp hfb, hp, hs.1, hs.2] at k
  refine ⟨?_, ?_, ?_⟩
  · rw [k.1]; cases hq : s.src <;> simp_all
  · rw [k.2.1]; cases hq : s.par.STRATEGY <;> simp_all
  · rw [k.2.2]; cases hq : s.par.STRATEGY <;> simp_all

/-- The groups of one column from the present one on, ascending (R176, R187). -/
theorem hop_column (n : Nat) {s : State} (h : s.collaboratorsReady = true) (hf : s.fe_st = .F_IDLE) (hs : s.fs_st = .S_LOAD)
    (hn : s.grp + (n + 1) = s.par.G) :
    ∃ k t, k ≤ 10 * n + 9 ∧
      Hop k ((List.range' s.grp (n + 1)).flatMap fun g => groupTrace s.par.toParams s.src s.fill_color (fbByte s) s.col g) s t ∧
      t.col = s.col ∧ t.grp = s.par.G - 1 ∧ t.fs_st = .S_ADV ∧ s.groupDone t s.col (s.par.G - 1) := by
  induction n generalizing s with
  | zero =>
    obtain ⟨k, t, hk, a, hc, hg, hst, hd⟩ := hop_group h hf hs
    have e : s.grp = s.par.G - 1 := by omega
    refine ⟨k, t, by omega, by simpa using a, hc, by omega, hst, ?_⟩
    rw [← e]; exact hd
  | succ n ih =>
    obtain ⟨k, t, hk, a, hc, hg, hst, hd⟩ := hop_group h hf hs
    have hft : t.fe_st = .F_IDLE := by rw [a.frame.1]; exact hf
    obtain ⟨u, b, bu, bx, bb, more, -, -⟩ := hop_advance hft hst
    obtain ⟨uc, ug, us⟩ := more (by rw [a.produced.par, hg]; omega)
    have ab := a.trans b
    obtain ⟨j, v, hj, c, vc, vg, vs, vd⟩ :=
      ih (State.ready_congr ab.command h) (by rw [ab.frame.1]; exact hf) us (by rw [ab.produced.par, ug, hg]; omega)
    refine ⟨k + 1 + j, v, by omega, ?_, by rw [vc, uc, hc], by rw [vg, ab.produced.par], vs, ?_⟩
    · have e := ab.trans c
      rw [fbByte_congr ab.produced.par ab.produced.fb, ab.produced.par, ab.source.1, ab.source.2, uc, hc, ug, hg] at e
      rw [List.range'_succ, List.flatMap_cons]
      simpa using e
    · have hd' : s.groupDone u s.col s.grp := by
        obtain ⟨h1, h2, h3⟩ := hd
        exact ⟨by rw [bu, h1], by rw [bx, h2], by rw [bb, h3]⟩
      have := State.groupDone_later ab.produced.par ab.produced.fb ab.source hd' vd
      rw [uc, hc, ab.produced.par] at this
      exact this

theorem columns_succ (c : Nat) : columns (c + 1) = c :: columns c := by
  simp [columns, List.range_succ]

/-- All groups of the columns from the present one down to 0 (R176, R187). -/
theorem hop_columns (c : Nat) {s : State} (h : s.collaboratorsReady = true) (hf : s.fe_st = .F_IDLE) (hs : s.fs_st = .S_LOAD)
    (hc : s.col = c) (hg : s.grp = 0) (hG : 0 < s.par.G) :
    ∃ k t, k ≤ 10 * ((c + 1) * s.par.G) ∧
      Hop k ((columns (c + 1)).flatMap fun c => (List.range s.par.G).flatMap fun g =>
        groupTrace s.par.toParams s.src s.fill_color (fbByte s) c g) s t ∧
      t.col = 0 ∧ t.grp = s.par.G - 1 ∧
      t.fs_st = (match s.par.STRATEGY with | .BURST => .S_DRAIN | .BUFFERED => .S_CS_HI) ∧
      s.groupDone t 0 (s.par.G - 1) := by
  induction c generalizing s with
  | zero =>
    obtain ⟨k, t, hk, a, tc, tg, ts, td⟩ := hop_column (s.par.G - 1) h hf hs (by omega)
    obtain ⟨u, b, bu, bx, bb, -, -, last⟩ := hop_advance (by rw [a.frame.1]; exact hf) ts
    obtain ⟨uc, ug, us⟩ := last (by rw [a.produced.par, tg]) (by rw [tc, hc])
    refine ⟨k + 1, u, by omega, ?_, uc, by rw [ug, tg], by rw [us, a.produced.par], ?_⟩
    · have e := a.trans b
      rw [hg, show s.par.G - 1 + 1 = s.par.G by omega, hc, ← List.range_eq_range'] at e
      simpa [columns] using e
    · obtain ⟨h1, h2, h3⟩ := td
      rw [hc] at h1 h2
      exact ⟨by rw [bu, h1], by rw [bx, h2], by rw [bb, h3]⟩
  | succ c ih =>
    obtain ⟨k, t, hk, a, tc, tg, ts, td⟩ := hop_column (s.par.G - 1) h hf hs (by omega)
    obtain ⟨u, b, bu, bx, bb, -, more, -⟩ := hop_advance (by rw [a.frame.1]; exact hf) ts
    obtain ⟨uc, ug, us⟩ := more (by rw [a.produced.par, tg]) (by rw [tc, hc]; omega)
    have ab := a.trans b
    obtain ⟨j, v, hj, e, vc, vg, vs, vd⟩ :=
      ih (State.ready_congr ab.command h) (by rw [ab.frame.1]; exact hf) us (by rw [uc, tc, hc]; rfl) ug
        (by rw [ab.produced.par]; exact hG)
    refine ⟨k + 1 + j, v, ?_, ?_, vc, by rw [vg, ab.produced.par], by rw [vs, ab.produced.par], ?_⟩
    · rw [ab.produced.par] at hj
      rw [Nat.add_mul (c + 1) 1]; omega
    · have f := ab.trans e
      rw [fbByte_congr ab.produced.par ab.produced.fb, ab.produced.par, ab.source.1, ab.source.2, hg,
        show s.par.G - 1 + 1 = s.par.G by omega, hc, ← List.range_eq_range'] at f
      rw [columns_succ, List.flatMap_cons]
      simpa using f
    · have hd' : s.groupDone u s.col (s.par.G - 1) := by
        obtain ⟨h1, h2, h3⟩ := td
        exact ⟨by rw [bu, h1], by rw [bx, h2], by rw [bb, h3]⟩
      have := State.groupDone_later ab.produced.par ab.produced.fb ab.source hd' vd
      rw [ab.produced.par] at this
      exact this

/-- `S_INDEX`: the Index Frame of a bulk burst, sent by FE without a bracket of its own (R180). -/
theorem index_rows {s : State} (h : s.inp.tx_byte_ack = true) (hf : s.fe_st = .F_IDLE) (hs : s.fs_st = .S_INDEX) (m : Nat) :
    streamRun (m + 4) s = streamRun m
      { ({ s with fe_kind := .IDX, fe_arg := setLo s.fe_arg Config.REG_MEMORY_WRITE, fe_bracket := false } : State).emits
          (indexTrace false Config.REG_MEMORY_WRITE) with
        fe_st := .F_IDLE, fs_st := .S_MARK } := by
  have e : indexTrace false Config.REG_MEMORY_WRITE =
      [.BYTE Config.MARK_INDEX, .BYTE Config.INDEX_PAD, .BYTE (lo (setLo s.fe_arg Config.REG_MEMORY_WRITE))] := by
    rw [lo_setLo]; rfl
  rw [e]
  obtain ⟨_, _, _, ⟨_, _, _, _, _, _, _, _, _, _, _⟩, _⟩ := s
  dsimp only at h hf hs
  subst h hf hs
  rfl

/-- A `Hop` of no rows. -/
theorem Hop.refl (s : State) : Hop 0 [] s s :=
  { run := by simp, produced := Produced.refl s, command := ⟨rfl, rfl, rfl, rfl⟩, source := ⟨rfl, rfl⟩
    frame := ⟨rfl, rfl, rfl, rfl⟩, q_st := rfl, pc := rfl }

/-- The streamer's group registers are the same. -/
def SameGroup (s t : State) : Prop := t.bit = s.bit ∧ t.cur = s.cur ∧ t.scratch = s.scratch

/-- `S_CS_LO`: the bracket opens (R180). -/
theorem hop_open {s : State} (hf : s.fe_st = .F_IDLE) (hs : s.fs_st = .S_CS_LO) :
    ∃ t, Hop 1 [.CS false] s t ∧ t.fs_st = .S_INDEX ∧ SameGroup s t :=
  ⟨_, Hop.event (c := s.col) (g := s.grp) (b := s.bit) (v := s.cur) (x := s.scratch) (f := .S_INDEX) hf (by simp [hs]) (by simp)
    (by simp [fsRow, hs]), rfl, rfl, rfl, rfl⟩

/-- `S_INDEX`, as a change of the whole state (R180). -/
theorem stream_index {s : State} (h : s.inp.tx_byte_ack = true) (hf : s.fe_st = .F_IDLE) (hs : s.fs_st = .S_INDEX) :
    ∃ t, (∀ m, streamRun (4 + m) s = streamRun m t) ∧ Produced (indexTrace false Config.REG_MEMORY_WRITE) s t ∧
      SameCommand s t ∧ SameSource s t ∧ SameGroup s t ∧ t.q_st = s.q_st ∧ t.pc = s.pc ∧ t.fe_st = .F_IDLE ∧
      t.fe_kind = .IDX ∧ t.fe_arg = setLo s.fe_arg Config.REG_MEMORY_WRITE ∧ t.fe_bracket = false ∧ t.fs_st = .S_MARK := by
  refine ⟨_, fun m => by rw [Nat.add_comm]; exact index_rows h hf hs m, ?_, by simp [SameCommand], by simp [SameSource],
    by simp [SameGroup], by simp, by simp, rfl, by simp, by simp, by simp, rfl⟩
  have k : Produced [] s { s with fe_kind := .IDX, fe_arg := setLo s.fe_arg Config.REG_MEMORY_WRITE, fe_bracket := false } :=
    Produced.of_same rfl rfl rfl rfl rfl rfl rfl rfl rfl rfl
  exact (Produced.emits_from (indexTrace false Config.REG_MEMORY_WRITE) k).then_same
    (Produced.of_same rfl rfl rfl rfl rfl rfl rfl rfl rfl rfl)

/-- `S_MARK`: the data marker, where the block has it, and the counters (R180). -/
theorem hop_mark {s : State} (h : s.inp.tx_byte_ack = true) (hf : s.fe_st = .F_IDLE) (hs : s.fs_st = .S_MARK) :
    ∃ t, Hop 1 (markerTrace s.par.toParams) s t ∧ SameGroup s t ∧ t.col = s.par.W - 1 ∧ t.grp = 0 ∧
      t.fs_st = (match s.par.STRATEGY with | .BURST => .S_WIDE | .BUFFERED => .S_LOAD) := by
  have hi : s.fs_st ≠ .S_IDLE := by simp [hs]
  cases hm : s.par.BULK_MARKER
  · refine ⟨{ s with
        col := s.par.W - 1, grp := 0, bit := s.bit, cur := s.cur, scratch := s.scratch
        fs_st := match s.par.STRATEGY with | .BURST => .S_WIDE | .BUFFERED => .S_LOAD }, ?_, ?_⟩
    · simp only [markerTrace, hm, if_false, Bool.false_eq_true]
      exact Hop.silent hf hi
        (by simp [fsRow, hs, hm, State.afterMark] <;> rfl)
    · exact ⟨⟨rfl, rfl, rfl⟩, rfl, rfl, rfl⟩
  · refine ⟨{ s.emit (.BYTE Config.MARK_DATA) with
        col := s.par.W - 1, grp := 0, bit := s.bit, cur := s.cur, scratch := s.scratch
        fs_st := match s.par.STRATEGY with | .BURST => .S_WIDE | .BUFFERED => .S_LOAD }, ?_, ?_⟩
    · simp only [markerTrace, hm, if_true]
      exact Hop.event hf hi (by simp)
        (by simp [fsRow, hs, hm, State.afterMark, State.ask_ready h] <;> rfl)
    · exact ⟨⟨rfl, rfl, rfl⟩, rfl, rfl, rfl⟩

/-- `S_WIDE`, in the burst strategy (R181). -/
theorem hop_widen {s : State} (hf : s.fe_st = .F_IDLE)
    (hs : s.fs_st = (match s.par.STRATEGY with | .BURST => .S_WIDE | .BUFFERED => .S_LOAD)) :
    ∃ n t, n ≤ 1 ∧ Hop n (widenTrace s.par.toParams) s t ∧ SameGroup s t ∧ t.col = s.col ∧ t.grp = s.grp ∧ t.fs_st = .S_LOAD := by
  cases hst : s.par.STRATEGY <;> simp only [hst] at hs
  · refine ⟨0, s, by omega, ?_, ⟨rfl, rfl, rfl⟩, rfl, rfl, hs⟩
    simpa [widenTrace, hst] using Hop.refl s
  · refine ⟨1, { s.emit (.WIDTH .W16) with
        col := s.col, grp := s.grp, bit := s.bit, cur := s.cur, scratch := s.scratch, fs_st := .S_LOAD }, by omega, ?_, ?_⟩
    · simp only [widenTrace, hst]
      exact Hop.event hf (by simp [hs])
        (by simp) (by simp [fsRow, hs])
    · exact ⟨⟨rfl, rfl, rfl⟩, rfl, rfl, rfl⟩

/-- The head of a stream: bracket, Index Frame, marker, counters and word size (R180, R181). -/
theorem stream_head {s : State} (h : s.inp.tx_byte_ack = true) (hf : s.fe_st = .F_IDLE) (hs : s.fs_st = .S_CS_LO) :
    ∃ k t, k ≤ 7 ∧ (∀ m, streamRun (k + m) s = streamRun m t) ∧ Produced (headTrace s.par.toParams) s t ∧ SameCommand s t ∧
      SameSource s t ∧ SameGroup s t ∧ t.q_st = s.q_st ∧ t.pc = s.pc ∧ t.fe_st = .F_IDLE ∧ t.fe_kind = .IDX ∧
      t.fe_arg = setLo s.fe_arg Config.REG_MEMORY_WRITE ∧ t.fe_bracket = false ∧ t.fs_st = .S_LOAD ∧
      t.col = s.par.W - 1 ∧ t.grp = 0 := by
  obtain ⟨u, a, ui, ug⟩ := hop_open hf hs
  obtain ⟨v, b, vp, vcmd, vsrc, vg, vq, vpc, vf, vk, va, vb, vi⟩ :=
    stream_index (by rw [a.command.2.2.2]; exact h) (by rw [a.frame.1]; exact hf) ui
  have vpar : v.par = s.par := by rw [vp.par, a.produced.par]
  obtain ⟨w, c, wg, wc, wr, wi⟩ := hop_mark (by rw [vcmd.2.2.2, a.command.2.2.2]; exact h) vf vi
  have wpar : w.par = s.par := by rw [c.produced.par, vpar]
  obtain ⟨n, x, hn, d, xg, xc, xr, xi⟩ := hop_widen (s := w) (by rw [c.frame.1]; exact vf) (by rw [wpar, ← vpar]; exact wi)
  have hq := a.q_st; have hpc := a.pc; have cq := c.q_st; have cpc := c.pc; have dq := d.q_st; have dpc := d.pc
  obtain ⟨f1, f2, f3, f4⟩ := a.frame
  obtain ⟨g1, g2, g3, g4⟩ := c.frame
  obtain ⟨h1, h2, h3, h4⟩ := d.frame
  refine ⟨1 + 4 + 1 + n, x, by omega, ?_, ?_, ?_, ?_, ?_, by rw [dq, cq, vq, hq], by rw [dpc, cpc, vpc, hpc],
    by rw [h1, g1, vf], by rw [h2, g2, vk], by rw [h3, g3, va, f3], by rw [h4, g4, vb], xi, by rw [xc, wc, vpar],
    by rw [xr, wr]⟩
  · intro m
    rw [Nat.add_assoc, Nat.add_assoc, Nat.add_assoc, a.run, b, c.run, d.run]
  · have e := ((a.produced.trans vp).trans c.produced).trans d.produced
    rw [wpar, vpar] at e
    simpa [headTrace] using e
  · have h1 := a.command; have h2 := c.command; have h3 := d.command
    simp only [SameCommand] at *; grind
  · have h1 := a.source; have h2 := c.source; have h3 := d.source
    simp only [SameSource] at *; grind
  · simp only [SameGroup] at *; grind

/-- The registers a stream's end leaves alone. -/
structure TailKeeps (s t : State) : Prop where
  command : SameCommand s t
  source : SameSource s t
  frame : SameFrame s t
  counters : SameCounters s t
  pc : t.pc = s.pc

/-- `S_CS_HI`: the bracket closes and SEQ is handed control back (R186, R206). -/
theorem stream_close {s : State} (hf : s.fe_st = .F_IDLE) (hs : s.fs_st = .S_CS_HI) (m : Nat) :
    streamRun (m + 1) s = .done (s.emit (.CS true)).fsReturn := by
  have e : streamRun (m + 1) s = streamRun m (s.emit (.CS true)).fsReturn := by simp [streamRun, streamRow, fsRow, hf, hs]
  rw [e]
  cases m <;> simp [streamRun]

/-- Where the end of a stream takes SEQ (R206). -/
theorem State.fsReturn_q_st (s : State) :
    s.fsReturn.q_st = (match s.q_st with | .Q_FILL => .Q_DONE | .Q_UPD => .Q_DONE | q => q) := by
  unfold State.fsReturn
  cases s.q_st <;> simp

theorem stream_close_done {s : State} (hf : s.fe_st = .F_IDLE) (hs : s.fs_st = .S_CS_HI) :
    ∃ t, (∀ m, streamRun (m + 1) s = .done t) ∧ Produced [.CS true] s t ∧ TailKeeps s t ∧ t.fs_st = .S_IDLE ∧
      t.q_st = s.fsReturn.q_st ∧ t.req = none := by
  refine ⟨_, stream_close hf hs, ?_, ?_, by simp, by rw [State.fsReturn_q_st, State.fsReturn_q_st, State.emit_q_st], by simp⟩
  · exact (Produced.emit (.CS true) s (by simp)).then_same (Produced.of_same (by simp) (by simp) (by simp) (by simp) (by simp)
      (by simp) (by simp) (by simp) (by simp) (by simp))
  · constructor <;> simp [SameCommand, SameSource, SameFrame, SameCounters]

/-- The end of a stream (R185, R186). -/
theorem stream_tail {s : State} (h : s.inp.bus_busy = false) (hf : s.fe_st = .F_IDLE)
    (hs : s.fs_st = (match s.par.STRATEGY with | .BURST => .S_DRAIN | .BUFFERED => .S_CS_HI)) :
    ∃ t, (∀ m, streamRun (m + 3) s = .done t) ∧ Produced (tailTrace s.par.toParams) s t ∧ TailKeeps s t ∧ t.fs_st = .S_IDLE ∧
      t.q_st = s.fsReturn.q_st ∧ t.req = none := by
  cases hst : s.par.STRATEGY <;> simp only [hst] at hs
  · obtain ⟨t, a, b, c⟩ := stream_close_done hf hs
    exact ⟨t, fun m => a (m + 2), by simpa [tailTrace, narrowTrace, hst] using b, c⟩
  · have a : ∀ m, streamRun (m + 2) s = streamRun m { s.emits [.WIDTH .W8] with fs_st := .S_CS_HI } := by
      intro m
      simp [streamRun, streamRow, fsRow, hf, hs, State.waitDrain, h]
    have b : Produced [.WIDTH .W8] s { s.emits [.WIDTH .W8] with fs_st := .S_CS_HI } :=
      (Produced.emits [.WIDTH .W8] s).then_same (Produced.of_same rfl rfl rfl rfl rfl rfl rfl rfl rfl rfl)
    obtain ⟨t, c, d, e, ei, eq, er⟩ := stream_close_done (s := { s.emits [.WIDTH .W8] with fs_st := .S_CS_HI }) (by simpa using hf) rfl
    refine ⟨t, fun m => by rw [Nat.add_right_comm m 1 2, a, c], ?_, ?_, ei, ?_, er⟩
    · simpa [tailTrace, narrowTrace, hst] using b.trans d
    · constructor
      · have := e.command; simpa [SameCommand] using this
      · have := e.source; simpa [SameSource] using this
      · have := e.frame; simpa [SameFrame] using this
      · have := e.counters; simpa [SameCounters] using this
      · have := e.pc; simpa using this
    · rw [eq, State.fsReturn_q_st, State.fsReturn_q_st]; simp

/-- STREAM: the events of R172 and R173, and what is left in the streamer's registers (R189, R206). -/
theorem streamOp_done (s : State) (h : s.collaboratorsReady = true) (hf : s.fe_st = .F_IDLE) :
    ∃ t, streamOp s = .done t ∧ Produced (streamTrace s.par.toParams s.src s.fill_color (fbByte s)) s t ∧ SameCommand s t ∧
      SameSource s t ∧ t.pc = s.pc ∧ t.fe_st = .F_IDLE ∧ t.fe_kind = .IDX ∧
      t.fe_arg = setLo s.fe_arg Config.REG_MEMORY_WRITE ∧ t.fe_bracket = false ∧ t.fs_st = .S_IDLE ∧
      t.q_st = s.fsReturn.q_st ∧ t.col = 0 ∧ t.grp = s.par.G - 1 ∧ s.groupDone t 0 (s.par.G - 1) ∧ t.req = none := by
  obtain ⟨hW, -, -, hG, -⟩ := s.par.geometry
  have k0 : Produced [] s s.fsStart := Produced.of_same rfl rfl rfl rfl rfl rfl rfl rfl rfl rfl
  obtain ⟨k, a, hk, ra, pa, ca, sa, ga, qa, pca, fa, ka, aa, ba, ia, cola, grpa⟩ :=
    stream_head (s := s.fsStart) (by simpa using (State.ready_flags h).1) (by simpa using hf) rfl
  have apar : a.par = s.par := pa.par
  have ainp : a.inp = s.inp := ca.2.2.2
  have acol : a.col = s.par.W - 1 := cola
  have aready : a.collaboratorsReady = true := State.ready_congr ca h
  obtain ⟨j, b, hj, lb, colb, grpb, stb, db⟩ :=
    hop_columns (s.par.W - 1) aready fa ia acol grpa (by rw [apar]; exact hG)
  have bpar : b.par = s.par := by rw [lb.produced.par, apar]
  have bready := State.ready_congr lb.command aready
  obtain ⟨t, rt, pt, kt, it, qt, rqt⟩ :=
    stream_tail (s := b) (State.ready_flags bready).2.2.2.2.2 (by rw [lb.frame.1]; exact fa) (by rw [bpar, ← apar]; exact stb)
  have e1 : s.par.W - 1 + 1 = s.par.W := by omega
  have asrc : a.src = s.src := sa.1
  have afill : a.fill_color = s.fill_color := sa.2
  have afb : fbByte a = fbByte s := fbByte_congr apar pa.fb
  refine ⟨t, ?_, ?_, ?_, ?_, ?_, ?_, ?_, ?_, ?_, it, ?_, ?_, ?_, ?_, rqt⟩
  · unfold streamOp streamRows
    rw [e1, apar] at hj
    obtain ⟨m, hm⟩ : ∃ m, 10 + 10 * (s.par.W * s.par.G) = k + (j + (m + 3)) :=
      ⟨10 + 10 * (s.par.W * s.par.G) - k - j - 3, by omega⟩
    rw [hm, ra, lb.run, rt]
  · have e := ((k0.trans pa).trans lb.produced).trans pt
    rw [apar, asrc, afill, afb, e1, bpar] at e
    simpa [streamTrace, groupsTrace] using e
  · have h1 := lb.command; have h2 := kt.command; simp_all [SameCommand]
  · have h1 := lb.source; have h2 := kt.source; simp_all [SameSource]
  · rw [kt.pc, lb.pc, pca]; rfl
  · rw [kt.frame.1, lb.frame.1, fa]
  · rw [kt.frame.2.1, lb.frame.2.1, ka]
  · rw [kt.frame.2.2.1, lb.frame.2.2.1, aa]; rfl
  · rw [kt.frame.2.2.2, lb.frame.2.2.2, ba]
  · rw [qt, State.fsReturn_q_st, State.fsReturn_q_st, lb.q_st, qa]; rfl
  · rw [kt.counters.1, colb]
  · rw [kt.counters.2.1, grpb, apar]
  · rw [apar] at db
    obtain ⟨d1, d2, d3⟩ := db
    have g1 : a.cur = s.cur := ga.2.1
    have g2 : a.scratch = s.scratch := ga.2.2
    have g3 : a.bit = s.bit := ga.1
    rw [afb, asrc, g1] at d1
    rw [afb, asrc, g2, apar, afill] at d2
    rw [apar, g3] at d3
    exact ⟨by rw [kt.counters.2.2.2.1, d1], by rw [kt.counters.2.2.2.2, d2], by rw [kt.counters.2.2.1, d3]⟩

end Sys2Proof.Machine
end

