-- ==== Sys2Proof/Laws/Commands.lean ====
section
/-! SUPPORT. What the three host commands do when every collaborator completes at once (R201 to R203). -/

namespace Sys2Proof.Machine

/-- The input levels after acceptance: the request is taken down (log entry 6). -/
def Inputs.taken (i : Inputs) : Inputs := { i with cmd_valid := false }

/-- Acceptance is the event `CMD` (R200). -/
theorem State.accept_produced (c : HostCommand) (color : Half) (s : State) : Produced [.CMD c] s (s.accept c color) :=
  Produced.trans (es := [.CMD c]) (fs := []) (Produced.emit (.CMD c) s (by simp))
    (Produced.of_same rfl rfl rfl rfl rfl rfl rfl rfl rfl rfl)

/-- The end of a command is the event `DONE` (R206). -/
theorem State.finish_produced (s : State) : Produced [.DONE] s s.finish := by
  have a : Produced [] s { s with busy := false } := Produced.of_same rfl rfl rfl rfl rfl rfl rfl rfl rfl rfl
  have b := Produced.emit .DONE { s with busy := false } (by simp)
  have c : Produced [] (({ s with busy := false } : State).emit .DONE) s.finish :=
    Produced.of_same rfl rfl rfl rfl rfl rfl rfl rfl rfl rfl
  simpa using (a.trans b).trans c

/-- What a command leaves in the block's registers: idle, not busy, the streamer's registers as its stream left them. -/
structure CommandDone (c : HostCommand) (color : Half) (src : PixelSource) (fill : Half) (s t : State) : Prop where
  q_st : t.q_st = .Q_IDLE
  fe_st : t.fe_st = .F_IDLE
  fs_st : t.fs_st = .S_IDLE
  busy : t.busy = false
  op : t.op = c.code
  color : t.color = color
  inp : t.inp = s.inp.taken
  src : t.src = src
  fill_color : t.fill_color = fill
  fe_kind : t.fe_kind = .IDX
  fe_bracket : t.fe_bracket = false
  col : t.col = 0
  grp : t.grp = s.par.G - 1
  req : t.req = none

/-- The body of a command that only streams, from acceptance to `DONE` (R202, R203). -/
theorem streamCommand_done (c : HostCommand) (color : Half) (src : PixelSource) (fill : Half) (q : QState) (s : State)
    (hq : q = .Q_FILL ∨ q = .Q_UPD) (h : s.collaboratorsReady = true) (hf : s.fe_st = .F_IDLE) :
    ∃ t, (streamOp { s.accept c color with src := src, fill_color := fill, q_st := q }).bind finishOp = .done t ∧
      Produced (.CMD c :: streamTrace s.par.toParams src fill (fbByte s) ++ [.DONE]) s t ∧
      CommandDone c color src fill s t ∧ t.pc = s.pc ∧ t.fe_arg = setLo s.fe_arg Config.REG_MEMORY_WRITE := by
  have a := State.accept_produced c color s
  have b : Produced [] (s.accept c color) { s.accept c color with src := src, fill_color := fill, q_st := q } :=
    Produced.of_same rfl rfl rfl rfl rfl rfl rfl rfl rfl rfl
  obtain ⟨t, ht, pt, ct, st, pct, ft, kt, at', bt, it, qt, colt, grpt, -, rt⟩ :=
    streamOp_done { s.accept c color with src := src, fill_color := fill, q_st := q } h hf
  have d := State.finish_produced t
  have hqt : t.q_st = .Q_DONE := by rw [qt, State.fsReturn_q_st]; rcases hq with rfl | rfl <;> rfl
  refine ⟨t.finish, by rw [ht]; rfl, ?_, ?_, ?_, ?_⟩
  · have e : Produced ([.CMD c] ++ [] ++ streamTrace s.par.toParams src fill (fbByte s) ++ [.DONE]) s t.finish :=
      ((a.trans b).trans pt).trans d
    simpa using e
  · constructor
    · rfl
    · exact ft
    · exact it
    · rfl
    · exact ct.1
    · exact ct.2.1
    · exact ct.2.2.2
    · exact st.1
    · exact st.2
    · exact kt
    · exact bt
    · exact colt
    · exact grpt
    · rfl
  · exact pct
  · exact at'

/-- CLEAR (R203). -/
theorem clearOp_done (color : Half) (s : State) (h : s.collaboratorsReady = true) (hf : s.fe_st = .F_IDLE) :
    ∃ t, clearOp color s = .done t ∧
      Produced (.CMD (.CLEAR color) :: streamTrace s.par.toParams .CONST color (fbByte s) ++ [.DONE]) s t ∧
      CommandDone (.CLEAR color) color .CONST color s t ∧ t.pc = s.pc ∧ t.fe_arg = setLo s.fe_arg Config.REG_MEMORY_WRITE :=
  streamCommand_done (.CLEAR color) color .CONST color .Q_FILL s (.inl rfl) h hf

/-- UPDATE (R202). -/
theorem updateOp_done (s : State) (h : s.collaboratorsReady = true) (hf : s.fe_st = .F_IDLE) :
    ∃ t, updateOp s = .done t ∧
      Produced (.CMD .UPDATE :: streamTrace s.par.toParams .FB s.fill_color (fbByte s) ++ [.DONE]) s t ∧
      CommandDone .UPDATE s.inp.cmd_color .FB s.fill_color s t ∧ t.pc = s.pc ∧
      t.fe_arg = setLo s.fe_arg Config.REG_MEMORY_WRITE :=
  streamCommand_done .UPDATE s.inp.cmd_color .FB s.fill_color .Q_UPD s (.inr rfl) h hf

/-- CONFIG_LINES (R141). -/
theorem configLinesOp_done (s : State) :
    ∃ t, configLinesOp s = .done t ∧ Produced (configTrace s.par.toParams) s t ∧ SameCommand s t ∧ SameCounters s t ∧
      SameSource s t ∧ SameFrame s t ∧ t.fs_st = s.fs_st ∧ t.pc = s.pc ∧
      t.q_st = if s.q_st = .Q_CFG then .Q_RST_LO else s.q_st := by
  refine ⟨_, rfl, (Produced.emit (.CFG true s.par.MODE_INIT true) s (by simp)).then_same (State.move_produced _ _ _),
    by simp [SameCommand], by simp [SameCounters], by simp [SameSource], by simp [SameFrame], by simp, by simp, by simp⟩

/-- The pixels of a constant stream do not depend on the framebuffer (R99, R102). -/
theorem streamTrace_const (p : Params) (fill : Half) (fb fb' : Nat → Nat → Byte) :
    streamTrace p .CONST fill fb = streamTrace p .CONST fill fb' := by
  have e : ∀ c g, groupTrace p .CONST fill fb c g = groupTrace p .CONST fill fb' c g := by
    intro c g
    have : pixel p .CONST fill (fb c g) = pixel p .CONST fill (fb' c g) := rfl
    simp [groupTrace, readTrace, pixelTrace, this]
  simp [streamTrace, groupsTrace, e]

/-- INITIALIZE (R158, R201). -/
theorem initializeOp_done (s : State) (h : s.collaboratorsReady = true) (hi : s.fs_st = .S_IDLE)
    (hrom : 0 < s.rom.length) :
    ∃ t, initializeOp s = .done t ∧
      Produced (.CMD .INITIALIZE :: initializeTrace s.par.toParams s.rom ++ [.DONE]) s t ∧
      CommandDone .INITIALIZE s.inp.cmd_color .CONST s.par.INIT_CLEAR_COLOR s t ∧ t.pc = s.rom.length := by
  have a0 := State.accept_produced .INITIALIZE s.inp.cmd_color s
  have a1 : Produced [] (s.accept .INITIALIZE s.inp.cmd_color) s.acceptInitialize :=
    Produced.of_same rfl rfl rfl rfl rfl rfl rfl rfl rfl rfl
  obtain ⟨b, hb, pb, cb, nb, sb, fb, ib, kb, qb⟩ := configLinesOp_done s.acceptInitialize
  have hd : s.inp.dly_done = true := (State.ready_flags h).2.2.1
  have hack : s.inp.tx_byte_ack = true := (State.ready_flags h).1
  have qb' : b.q_st = .Q_RST_LO := by rw [qb]; rfl
  have binp : b.inp = s.inp.taken := cb.2.2.2
  obtain ⟨c, hc, pc, cc, nc, sc, fc, ic, qc, -⟩ := resetPulseOp_done b (by rw [binp]; exact hd)
  obtain ⟨qc1, qc2⟩ := qc qb'
  have cinp : c.inp = s.inp.taken := by rw [cc.2.2.2, binp]
  have crom : c.rom = s.rom := by rw [pc.rom, pb.rom]; rfl
  have cpar : c.par = s.par := by rw [pc.par, pb.par]; rfl
  have bpar : b.par = s.par := by rw [pb.par]; rfl
  have ifs : c.fs_st = .S_IDLE := by rw [ic, ib]; exact hi
  obtain ⟨n, hn⟩ : ∃ n, s.rom.length = n + 1 := ⟨s.rom.length - 1, by omega⟩
  obtain ⟨d, hd', pd, cd, nd, fd, id, kd, qd, sd, cld⟩ :=
    romWalk_done n c (by rw [cinp]; exact hack) (by rw [cinp]; exact hd) ifs qc1
      (by rw [qc2]; unfold State.romLength; rw [crom]; omega)
  have dpar : d.par = s.par := by rw [pd.par, cpar]
  have dinp : d.inp = s.inp.taken := by rw [cd.2.2.2, cinp]
  have dready : d.collaboratorsReady = true := by
    simpa [State.collaboratorsReady, dinp, Inputs.taken] using h
  obtain ⟨t, ht, pt, ct, st, pct, ft, kt, -, bt, it, qt, colt, grpt, -, rt⟩ := streamOp_done d dready fd
  refine ⟨t.finish, ?_, ?_, ?_, ?_⟩
  · unfold initializeOp State.romLength
    rw [hb, Run.bind_done, hc, Run.bind_done, hn, hd', Run.bind_done, ht]
    rfl
  · have e := ((((((a0.trans a1).trans pb).trans pc).trans pd).trans pt).trans (State.finish_produced t))
    rw [dpar, sd, cld, cpar, bpar, qc2, crom, streamTrace_const _ _ _ (fun _ _ => 0)] at e
    simpa [initializeTrace] using e
  · have hop : d.op = HostCommand.INITIALIZE.code := by rw [cd.1, cc.1, cb.1]; rfl
    have hcol : d.color = s.inp.cmd_color := by rw [cd.2.1, cc.2.1, cb.2.1]; rfl
    constructor
    · rfl
    · exact ft
    · exact it
    · rfl
    · exact ct.1.trans hop
    · exact ct.2.1.trans hcol
    · exact ct.2.2.2.trans dinp
    · exact st.1.trans sd
    · exact st.2.trans (by rw [cld, cpar])
    · exact kt
    · exact bt
    · exact colt
    · exact grpt.trans (by rw [dpar])
    · rfl
  · change t.pc = _
    rw [pct, kd]; unfold State.romLength; rw [crom]

end Sys2Proof.Machine
end

