-- ==== Sys2Proof/Laws/Memory.lean ====
section
/-! SUPPORT. Lists of address and value: reading after writing, and the canonical form, which every operation keeps. -/

namespace Sys2Proof.Machine

section Cells

variable {α : Type}

theorem cellsAbove_iff (a : Nat) (m : List (Nat × α)) : cellsAbove a m = true ↔ ∀ kv ∈ m, a < kv.1 := by
  simp [cellsAbove]

theorem cellsRising_cons (k : Nat) (v : α) (m : List (Nat × α)) :
    cellsRising ((k, v) :: m) = true ↔ (∀ kv ∈ m, k < kv.1) ∧ cellsRising m = true := by
  simp [cellsRising, cellsAbove_iff]

/-- An address below every listed one is not listed. -/
theorem cellsFind_above (a : Nat) (m : List (Nat × α)) (h : ∀ kv ∈ m, a < kv.1) : cellsFind m a = none := by
  induction m with
  | nil => rfl
  | cons kv m ih =>
    obtain ⟨k, v⟩ := kv
    have hk : a < k := h (k, v) (by simp)
    simp only [cellsFind, if_neg (Nat.ne_of_gt hk)]
    exact ih fun x hx => h x (by simp [hx])

theorem cellsPut_mem (m : List (Nat × α)) (a : Nat) (v : α) (x : Nat × α) (h : x ∈ cellsPut m a v) : x = (a, v) ∨ x ∈ m := by
  induction m with
  | nil => simpa [cellsPut] using h
  | cons kv m ih =>
    obtain ⟨k, w⟩ := kv
    simp only [cellsPut] at h
    split at h
    · simpa using h
    · split at h
      · simp only [List.mem_cons] at h ⊢; tauto
      · simp only [List.mem_cons] at h ⊢
        rcases h with h | h
        · tauto
        · rcases ih h with h | h <;> tauto

theorem cellsDrop_mem (m : List (Nat × α)) (a : Nat) (x : Nat × α) (h : x ∈ cellsDrop m a) : x ∈ m := by
  induction m with
  | nil => simp [cellsDrop] at h
  | cons kv m ih =>
    obtain ⟨k, w⟩ := kv
    simp only [cellsDrop] at h
    split at h
    · simp [h]
    · simp only [List.mem_cons] at h ⊢
      rcases h with h | h
      · exact .inl h
      · exact .inr (ih h)

/-- Writing keeps the addresses rising. -/
theorem cellsPut_rising (m : List (Nat × α)) (a : Nat) (v : α) (h : cellsRising m = true) : cellsRising (cellsPut m a v) = true := by
  induction m with
  | nil => simp [cellsPut, cellsRising, cellsAbove]
  | cons kv m ih =>
    obtain ⟨k, w⟩ := kv
    obtain ⟨hk, hm⟩ := (cellsRising_cons k w m).1 h
    simp only [cellsPut]
    split
    · rename_i hlt
      refine (cellsRising_cons _ _ _).2 ⟨?_, h⟩
      intro x hx
      rcases List.mem_cons.1 hx with rfl | hx
      · exact hlt
      · exact Nat.lt_trans hlt (hk x hx)
    · split
      · rename_i he
        subst he
        exact (cellsRising_cons _ _ _).2 ⟨hk, hm⟩
      · refine (cellsRising_cons _ _ _).2 ⟨?_, ih hm⟩
        intro x hx
        rcases cellsPut_mem m a v x hx with rfl | hx
        · simp only; omega
        · exact hk x hx

/-- Removing keeps the addresses rising. -/
theorem cellsDrop_rising (m : List (Nat × α)) (a : Nat) (h : cellsRising m = true) : cellsRising (cellsDrop m a) = true := by
  induction m with
  | nil => rfl
  | cons kv m ih =>
    obtain ⟨k, w⟩ := kv
    obtain ⟨hk, hm⟩ := (cellsRising_cons k w m).1 h
    simp only [cellsDrop]
    split
    · exact hm
    · exact (cellsRising_cons _ _ _).2 ⟨fun x hx => hk x (cellsDrop_mem m a x hx), ih hm⟩

/-- A read after a write to the same address gives what was written. -/
theorem cellsFind_put (m : List (Nat × α)) (a : Nat) (v : α) : cellsFind (cellsPut m a v) a = some v := by
  induction m with
  | nil => simp [cellsPut, cellsFind]
  | cons kv m ih =>
    obtain ⟨k, w⟩ := kv
    simp only [cellsPut]
    split
    · simp [cellsFind]
    · split
      · simp [cellsFind]
      · rename_i hk; simp [cellsFind, hk, ih]

/-- A write leaves every other address alone. -/
theorem cellsFind_put_ne (m : List (Nat × α)) (a b : Nat) (v : α) (h : b ≠ a) : cellsFind (cellsPut m a v) b = cellsFind m b := by
  induction m with
  | nil => simp [cellsPut, cellsFind, h.symm]
  | cons kv m ih =>
    obtain ⟨k, w⟩ := kv
    simp only [cellsPut]
    split
    · simp [cellsFind, h.symm]
    · split
      · rename_i hk; simp [cellsFind, hk, h.symm]
      · simp [cellsFind, ih]

/-- Removing leaves every other address alone. -/
theorem cellsFind_drop_ne (m : List (Nat × α)) (a b : Nat) (h : b ≠ a) : cellsFind (cellsDrop m a) b = cellsFind m b := by
  induction m with
  | nil => rfl
  | cons kv m ih =>
    obtain ⟨k, w⟩ := kv
    simp only [cellsDrop]
    split
    · rename_i hk; simp [cellsFind, hk, h.symm]
    · simp [cellsFind, ih]

/-- After removing an address from a rising list it is not listed. -/
theorem cellsFind_drop (m : List (Nat × α)) (a : Nat) (h : cellsRising m = true) : cellsFind (cellsDrop m a) a = none := by
  induction m with
  | nil => rfl
  | cons kv m ih =>
    obtain ⟨k, w⟩ := kv
    obtain ⟨hk, hm⟩ := (cellsRising_cons k w m).1 h
    simp only [cellsDrop]
    split
    · rename_i he; subst he; exact cellsFind_above k m hk
    · rename_i he; simp [cellsFind, he, ih hm]

end Cells

/-! ### The framebuffer -/

theorem Memory.wf_iff (m : Memory) : Memory.wf m = true ↔ cellsRising m = true ∧ ∀ kv ∈ m, kv.2 ≠ Memory.unlisted := by
  simp [Memory.wf]

/-- The one operation that writes memory keeps its canonical form. -/
theorem Memory.write_wf (m : Memory) (a : Nat) (b : Byte) (h : Memory.wf m = true) : Memory.wf (Memory.write m a b) = true := by
  obtain ⟨hr, hv⟩ := (Memory.wf_iff m).1 h
  unfold Memory.write
  split
  · exact (Memory.wf_iff _).2 ⟨cellsDrop_rising m a hr, fun x hx => hv x (cellsDrop_mem m a x hx)⟩
  · rename_i hb
    refine (Memory.wf_iff _).2 ⟨cellsPut_rising m a b hr, fun x hx => ?_⟩
    rcases cellsPut_mem m a b x hx with rfl | hx
    · exact hb
    · exact hv x hx

/-- A read after a write to the same address gives the byte written. -/
theorem Memory.read_write (m : Memory) (a : Nat) (b : Byte) (h : Memory.wf m = true) : Memory.read (Memory.write m a b) a = b := by
  unfold Memory.write Memory.read
  split
  · rename_i hb; rw [cellsFind_drop m a ((Memory.wf_iff m).1 h).1, hb]; rfl
  · rw [cellsFind_put]; rfl

/-- A write leaves every other byte alone. -/
theorem Memory.read_write_ne (m : Memory) (a c : Nat) (b : Byte) (h : c ≠ a) :
    Memory.read (Memory.write m a b) c = Memory.read m c := by
  unfold Memory.write Memory.read
  split
  · rw [cellsFind_drop_ne m a c h]
  · rw [cellsFind_put_ne m a c b h]

/-- Memory right after reset is in canonical form. -/
theorem reset_memory_wf (p : Build) : Memory.wf (State.resetOf p).fb = true := rfl

/-- Two positions of a framebuffer have two addresses (R64). -/
theorem fbAddr_inj (groups c g c' g' : Nat) (h : g < groups) (h' : g' < groups) (e : fbAddr groups c g = fbAddr groups c' g') :
    c = c' ∧ g = g' := by
  have h0 : 0 < groups := by omega
  unfold fbAddr at e
  rw [Nat.mul_comm c, Nat.mul_comm c'] at e
  have d := congrArg (· / groups) e
  have m := congrArg (· % groups) e
  simp only [Nat.mul_add_div h0, Nat.div_eq_of_lt h, Nat.div_eq_of_lt h', Nat.add_zero] at d
  simp only [Nat.mul_add_mod, Nat.mod_eq_of_lt h, Nat.mod_eq_of_lt h'] at m
  exact ⟨d, m⟩

end Sys2Proof.Machine
end

