-- ==== Sys2Proof/Laws/Receiver.lean ====
section
/-! SUPPORT. The receiver's registers stay listed by rising address, whatever a burst holds (R76 to R79). -/

namespace Sys2Proof.Machine

/-- The registers of a panel are listed by rising address. -/
def Panel.rising (p : Panel) : Bool := cellsRising p.pr

theorem Panel.setReg_rising (p : Panel) (r : Byte) (v : Half) (h : p.rising = true) : (p.setReg r v).rising = true :=
  cellsPut_rising _ _ _ h

theorem Panel.bulkWrite_rising (r : Byte) (p : Panel) (v : Half) (h : p.rising = true) : (Panel.bulkWrite r p v).rising = true := by
  unfold Panel.bulkWrite
  split
  · exact h
  · exact p.setReg_rising r v h

theorem Panel.bulkWrites_rising (r : Byte) (vs : List Half) (p : Panel) (h : p.rising = true) :
    (vs.foldl (Panel.bulkWrite r) p).rising = true := by
  induction vs generalizing p with
  | nil => exact h
  | cons v vs ih => exact ih _ (p.bulkWrite_rising r v h)

theorem Panel.bulk?_rising {p q : Panel} {r : Byte} {bs : List Byte} (h : p.rising = true) (hq : p.bulk? r bs = some q) :
    q.rising = true := by
  simp only [Panel.bulk?, Option.map_eq_some_iff] at hq
  obtain ⟨vs, -, rfl⟩ := hq
  exact Panel.bulkWrites_rising r vs _ h

theorem Panel.data?_rising {p q : Panel} {v : Half} (h : p.rising = true) (hq : p.data? v = some q) : q.rising = true := by
  simp only [Panel.data?, Option.map_eq_some_iff] at hq
  obtain ⟨r, -, rfl⟩ := hq
  exact p.setReg_rising r v h

theorem Panel.frame?_rising {p q : Panel} {m a b : Byte} (h : p.rising = true) (hq : p.frame? m a b = some q) : q.rising = true := by
  unfold Panel.frame? at hq
  split at hq
  · cases hq; exact h
  · split at hq
    · exact Panel.data?_rising h hq
    · cases hq

theorem Panel.afterIndex?_rising {marker : Bool} {p q : Panel} {r d : Byte} {bs : List Byte} (h : p.rising = true)
    (hq : p.afterIndex? marker r d bs = some q) : q.rising = true := by
  unfold Panel.afterIndex? at hq
  split at hq
  · split at hq
    · exact Panel.bulk?_rising h hq
    · cases hq
  · exact Panel.bulk?_rising h hq

/-- Whatever the receiver makes of a burst, its registers stay in order. -/
theorem Panel.receive?_rising {marker : Bool} {p q : Panel} {bs : List Byte} (h : p.rising = true)
    (hq : p.receive? marker bs = some q) : q.rising = true := by
  unfold Panel.receive? at hq
  split at hq
  · exact Panel.frame?_rising h hq
  · split at hq
    · exact Panel.afterIndex?_rising h hq
    · cases hq
  · cases hq

theorem Panel.free_rising (n : Nat) : (Panel.free n).rising = true := by
  have : ∀ (l : List (Byte × Half)) (m : List (Nat × Half)), cellsRising m = true →
      cellsRising (l.foldl (fun m rv => cellsPut m rv.1.toNat rv.2) m) = true := by
    intro l
    induction l with
    | nil => exact fun m h => h
    | cons x l ih => exact fun m h => ih _ (cellsPut_rising m _ _ h)
  exact this _ [] rfl

theorem Outside.losePanel_rising (o : Outside) : cellsRising o.losePanel.pr = true := Panel.free_rising _

theorem Outside.closeBurst_rising (o : Outside) (marker listening : Bool) (h : cellsRising o.pr = true) :
    cellsRising (o.closeBurst marker listening).pr = true := by
  simp only [Outside.closeBurst]
  split
  · split
    · rename_i p hp
      exact Panel.receive?_rising (p := o.panel) h hp
    · exact Outside.losePanel_rising _
  · exact Outside.losePanel_rising _

/-- No event takes the receiver's registers out of order. -/
theorem State.emit_rising (e : Event) (s : State) (h : cellsRising s.out.pr = true) : cellsRising (s.emit e).out.pr = true := by
  cases e with
  | CS l =>
    cases l
    · exact h
    · exact Outside.closeBurst_rising _ _ _ h
  | RST l =>
    rw [State.emit_rst_out]
    split
    · exact h
    · exact h
  | _ => exact h

end Sys2Proof.Machine
end

