-- ==== Sys2Proof/Laws/Widths.lean ====
section
/-! SUPPORT. The widths of the counters (R20): what the least number of bits holds, and what keeps the counters within it. -/

namespace Sys2Proof

/-- It holds `n`. -/
theorem lt_leastBits (n : Nat) : n < 2 ^ leastBits n := Nat.lt_log2_self

/-- It is at least 1. -/
theorem leastBits_pos (n : Nat) : 1 ≤ leastBits n := Nat.le_add_left 1 _

/-- No smaller number of bits holds `n`. -/
theorem leastBits_le {n w : Nat} (hw : 1 ≤ w) (h : n < 2 ^ w) : leastBits n ≤ w := by
  by_cases h0 : n = 0
  · subst h0; exact hw
  · exact (Nat.log2_lt h0).2 h

namespace Machine

/-- What leaves the counters alone keeps them within their widths, where it comes to `Q_FILL` from `Q_FILL` only. -/
theorem CountersFit.keep {s t : State} (h : CountersFit s) (par : t.par = s.par) (pc : t.pc = s.pc) (col : t.col = s.col) (grp : t.grp = s.grp)
    (fill : t.q_st = .Q_FILL → s.q_st = .Q_FILL ∧ t.op = s.op) : CountersFit t :=
  ⟨by rw [par, pc]; exact h.pc, by rw [par, col]; exact h.col, by rw [par, grp]; exact h.grp,
    fun q o => by rw [par, pc]; exact h.atEnd (fill q).1 (by rw [← (fill q).2]; exact o)⟩

/-- `pc <- 0` or `pc + 1` (R22), with FS's counters left alone. -/
theorem CountersFit.setPc {s t : State} (h : CountersFit s) (par : t.par = s.par) (pc : t.pc ≤ s.par.N_ROM) (col : t.col = s.col)
    (grp : t.grp = s.grp) (atEnd : t.q_st = .Q_FILL → t.pc = s.par.N_ROM) : CountersFit t :=
  ⟨by rw [par]; exact pc, by rw [par, col]; exact h.col, by rw [par, grp]; exact h.grp, fun q _ => by rw [par]; exact atEnd q⟩

/-- At reset every counter is 0 (R50; log entry 10: DESIGN CHOICE, unsafe). -/
theorem CountersFit.resetOf (p : Build) : CountersFit (State.resetOf p) :=
  ⟨Nat.zero_le _, Nat.two_pow_pos _, Nat.two_pow_pos _, fun k => by cases k⟩

end Machine
end Sys2Proof
end

