-- ==== Sys2Proof/Laws/Rows.lean ====
section
/-! SUPPORT. Every row of the transition tables keeps the invariant, and from a state that meets it no row faults or refuses. -/

namespace Sys2Proof.Machine

/-- The invariant does not speak of what is asked for. -/
theorem Inv.req {s : State} (h : Inv s) (r : Option Event) : Inv { s with req := r } := by
  obtain ⟨a1, a2, a3, a4, a5, a6, a7, a8, a9, a10, a11, a12, a13, a14, a15⟩ := h
  exact ⟨a1, a2, a3, a4, a5, a6, a7, a8, a9, a10, a11, a12, a13, a14, a15.keep rfl rfl rfl rfl fun k => ⟨k, rfl⟩⟩

/-- A row that asks a collaborator keeps the invariant if it does once the event is complete. -/
theorem Inv.ask {s : State} (h : Inv s) (ready : Bool) (e : Event) (f : State → Run) (k : Inv (f (s.emit e)).state) :
    Inv ((s.ask ready e).bind f).state := by
  cases ready
  · exact h.req _
  · exact k

/-- Every row of R128 keeps the invariant. -/
theorem feRow_inv {s : State} (h : Inv s) (hf : s.fe_st ≠ .F_IDLE) : Inv (feRow s).state := by
  have pr := fun e => s.emit_rising e h.prForm
  have own := h.feOwner hf
  unfold feRow
  cases hst : s.fe_st
  · contradiction
  · obtain ⟨a1, a2, a3, a4, a5, a6, a7, a8, a9, a10, a11, a12, a13, a14, a15⟩ := h
    rcases own with ⟨o1, o2, o3⟩ | ⟨o1, o2, o3, o4, o5, o6⟩
    · constructor
      case prForm => exact pr _
      case counters => exact a15.keep (by simp) (by simp) (by simp) (by simp) (by simp)
      all_goals simp_all [State.frameOfStep, State.inFrameBracket, FsState.inBracket, State.romLength]
    · contradiction
  · refine h.ask _ _ _ ?_
    obtain ⟨a1, a2, a3, a4, a5, a6, a7, a8, a9, a10, a11, a12, a13, a14, a15⟩ := h
    rcases own with ⟨o1, o2, o3⟩ | ⟨o1, o2, o3, o4, o5, o6⟩
    all_goals
      constructor
      case prForm => exact pr _
      case counters => exact a15.keep (by simp) (by simp) (by simp) (by simp) (by simp)
      all_goals simp_all [State.frameOfStep, State.frameOfStream, State.inFrameBracket, FsState.inBracket, State.romLength]
  · refine h.ask _ _ _ ?_
    obtain ⟨a1, a2, a3, a4, a5, a6, a7, a8, a9, a10, a11, a12, a13, a14, a15⟩ := h
    rcases own with ⟨o1, o2, o3⟩ | ⟨o1, o2, o3, o4, o5, o6⟩
    all_goals
      constructor
      case prForm => exact pr _
      case counters => exact a15.keep (by simp) (by simp) (by simp) (by simp) (by simp)
      all_goals simp_all [State.frameOfStep, State.frameOfStream, State.inFrameBracket, FsState.inBracket, State.romLength]
  · refine h.ask _ _ _ ?_
    obtain ⟨a1, a2, a3, a4, a5, a6, a7, a8, a9, a10, a11, a12, a13, a14, a15⟩ := h
    rcases own with ⟨o1, o2, o3⟩ | ⟨o1, o2, o3, o4, o5, o6⟩
    · simp only [Run.state_done, State.emit_fe_bracket, o2, if_true]
      constructor
      case prForm => exact pr _
      case counters => exact a15.keep (by simp) (by simp) (by simp) (by simp) (by simp)
      all_goals simp_all [State.frameOfStep, State.inFrameBracket, FsState.inBracket, State.romLength]
    · simp only [Run.state_done, State.emit_fe_bracket, o2, if_false, Bool.false_eq_true]
      constructor
      case prForm => simpa using pr (.BYTE (frameByte2 s.fe_arg))
      case counters => exact a15.keep (by simp) (by simp) (by simp) (by simp) (by simp [State.feReturn, o1])
      all_goals simp_all [State.feReturn, State.inFrameBracket, FsState.inBracket, FsState.inLoop, fsPresent, State.romLength]
  · obtain ⟨a1, a2, a3, a4, a5, a6, a7, a8, a9, a10, a11, a12, a13, a14, a15⟩ := h
    rcases own with ⟨o1, o2, o3⟩ | ⟨o1, o2, o3, o4, o5, o6⟩
    · rcases o3 with ⟨q, k⟩ | ⟨q, k⟩
      all_goals
        constructor
        case prForm => simpa using pr (.CS true)
        case counters => exact a15.keep (by simp) (by simp) (by simp) (by simp) (by simp [State.feReturn, o1, q])
        all_goals simp_all [State.feReturn, State.inFrameBracket, FsState.inBracket, QState.inStep, QState.linesConfigured, State.romLength]
    · contradiction

/-- A row of FS that changes FS's own registers, and completes at most one event. -/
theorem Inv.fsMove {s t : State} (h : Inv s) (hs : s.fs_st ≠ .S_IDLE)
    (par : t.par = s.par) (rom : t.rom = s.rom) (fb : t.fb = s.fb) (pr : cellsRising t.out.pr = true) (q : t.q_st = s.q_st)
    (busy : t.busy = s.busy) (src : t.src = s.src) (pc : t.pc = s.pc) (rst : t.rst_n = s.rst_n) (mode : t.mode_sel = s.mode_sel)
    (oe : t.lines_oe = s.lines_oe) (fe : t.fe_st = .F_IDLE)
    (op : t.op = s.op) (col : t.col < 2 ^ s.par.CW) (grp : t.grp < 2 ^ s.par.GW)
    (built : fsPresent s.par.STRATEGY t.fs_st = true) (range : t.fs_st.inLoop = true → t.col < s.par.W ∧ t.grp < s.par.G)
    (cs : t.cs_n = !t.fs_st.inBracket) : Inv t := by
  have own := h.fsOwner hs
  obtain ⟨a1, a2, a3, a4, a5, a6, a7, a8, a9, a10, a11, a12, a13, a14, a15⟩ := h
  refine ⟨by rw [rom, par, a1], by rw [fb, a2], pr, by rw [busy, q, a4], fun k => absurd fe k, fun _ => by rw [q]; exact own,
    by rw [par]; exact built, by rw [q, src]; exact a8, ?_, by rw [par]; exact range, ?_, by rw [rst, q]; exact a12,
    by rw [q, oe]; exact a13, by rw [mode, par, a14],
    ⟨by rw [par, pc]; exact a15.pc, by rw [par]; exact col, by rw [par]; exact grp, by rw [par, q, op, pc]; exact a15.atEnd⟩⟩
  · rw [q, pc, show t.romLength = s.romLength by simp [State.romLength, rom]]; exact a9
  · rw [cs]; simp [State.inFrameBracket, fe]

/-- Every row of R188 keeps the invariant. -/
theorem fsRow_inv {s : State} (h : Inv s) (hf : s.fe_st = .F_IDLE) (hs : s.fs_st ≠ .S_IDLE) : Inv (fsRow s).state := by
  have pr := fun e => s.emit_rising e h.prForm
  have geo := s.par.geometry
  have built := h.fsBuilt
  have range := h.countersInRange
  have cs := h.chipSelect
  simp only [State.inFrameBracket, hf] at cs
  unfold fsRow
  cases hst : s.fs_st
  · contradiction
  case S_CS_LO =>
    refine h.fsMove hs rfl rfl rfl (pr (.CS false)) rfl rfl rfl rfl rfl rfl rfl hf rfl h.counters.col h.counters.grp rfl ?_ rfl
    simp [FsState.inLoop]
  case S_INDEX =>
    have own := h.fsOwner hs
    obtain ⟨a1, a2, a3, a4, a5, a6, a7, a8, a9, a10, a11, a12, a13, a14, a15⟩ := h
    refine ⟨a1, a2, a3, a4, fun _ => .inr ?_, fun _ => own, a7, a8, a9, ?_, ?_, a12, a13, a14, a15.keep rfl rfl rfl rfl fun k => ⟨k, rfl⟩⟩
    · simp [State.frameOfStream, hst, State.feStartIndex]
    · intro k; exact a10 k
    · simp [hst, State.feStartIndex, State.inFrameBracket, FsState.inBracket, cs]
  case S_MARK =>
    have k : ∀ u : State, u.par = s.par → u.fe_st = .F_IDLE → Inv u → u.fs_st = .S_MARK → Inv u.afterMark := by
      intro u hp hu h hst
      have cs := h.chipSelect
      simp only [State.inFrameBracket, hu] at cs
      refine h.fsMove (by simp [hst]) rfl rfl rfl h.prForm rfl rfl rfl rfl rfl rfl rfl hu rfl (lt_leastBits _) (Nat.two_pow_pos _) ?_ ?_ ?_
      · unfold State.afterMark; cases u.par.STRATEGY <;> rfl
      · intro _; simp [hp]; omega
      · simp [cs, hst, FsState.inBracket]; unfold State.afterMark; cases u.par.STRATEGY <;> simp
    dsimp only
    split
    · refine h.ask _ _ _ (k _ ?_ ?_ ?_ ?_)
      · simp
      · simpa using hf
      · refine h.fsMove hs (by simp) (by simp) (by simp) (pr _) (by simp) (by simp) (by simp) (by simp) (by simp) (by simp)
          (by simp) (by simpa using hf) (by simp) (by simpa using h.counters.col) (by simpa using h.counters.grp) (by simpa using built) (by simpa using range) ?_
        simp [cs]
      · simpa using hst
    · exact k _ rfl hf h hst
  case S_WIDE =>
    refine h.fsMove hs rfl rfl rfl (pr (.WIDTH .W16)) rfl rfl rfl rfl rfl rfl rfl hf rfl h.counters.col h.counters.grp ?_ ?_ ?_
    · cases hx : s.par.STRATEGY <;> simp_all [fsPresent]
    · intro _; simpa using range (by rw [hst]; rfl)
    · simp [cs, hst, FsState.inBracket]
  case S_LOAD =>
    have k : ∀ u : State, u.fe_st = .F_IDLE → Inv u → u.fs_st = .S_LOAD → Inv u.afterLoad := by
      intro u hu h hst
      have cs := h.chipSelect
      have range := h.countersInRange (by rw [hst]; rfl)
      simp only [State.inFrameBracket, hu] at cs
      unfold State.afterLoad
      cases hx : u.par.STRATEGY
      · refine h.fsMove (by simp [hst]) rfl rfl rfl h.prForm rfl rfl rfl rfl rfl rfl rfl hu rfl h.counters.col h.counters.grp (by rw [hx]; rfl) (fun _ => range) ?_
        simp [cs, hst, FsState.inBracket]
      · refine h.fsMove (by simp [hst]) rfl rfl rfl h.prForm rfl rfl rfl rfl rfl rfl rfl hu rfl h.counters.col h.counters.grp (by rw [hx]; rfl) (fun _ => range) ?_
        simp [cs, hst, FsState.inBracket]
    dsimp only
    split
    · unfold loadByte
      rw [Run.bind_assoc]
      refine h.ask _ _ _ (k _ ?_ ?_ ?_)
      · simpa using hf
      · refine h.fsMove hs (by simp) (by simp) (by simp) (pr (.FBREAD _ _ _)) (by simp) (by simp) (by simp) (by simp) (by simp) (by simp)
          (by simp) (by simpa using hf) (by simp) (by simpa using h.counters.col) (by simpa using h.counters.grp) (by simpa using built) (by simpa using range) ?_
        simp [cs]
      · simpa using hst
    · exact k _ hf h hst
  case S_EXPAND =>
    refine h.fsMove hs rfl rfl rfl h.prForm rfl rfl rfl rfl rfl rfl rfl hf rfl h.counters.col h.counters.grp ?_ ?_ ?_
    · cases hx : s.par.STRATEGY <;> simp_all [fsPresent]
    · intro _; exact range (by rw [hst]; rfl)
    · simp [cs, hst, FsState.inBracket]
  case S_BULK =>
    refine h.ask _ _ _ ?_
    refine h.fsMove hs (by simp) (by simp) (by simp) (pr (.BULK s.scratch)) (by simp) (by simp) (by simp) (by simp) (by simp) (by simp)
          (by simp) (by simpa using hf) (by simp) (by simpa using h.counters.col) (by simpa using h.counters.grp) rfl (fun _ => by simpa using range (by rw [hst]; rfl)) ?_
    simp [cs, hst, FsState.inBracket]
  case S_PUSH =>
    dsimp only
    unfold State.waitFifo
    split
    · exact h
    · have key : ∀ b f, fsPresent s.par.STRATEGY f = true → f.inBracket = true → f.inLoop = true →
          Inv { s.emit (.WORD (s.px s.bit)) with bit := b, fs_st := f } := by
        intro b f h1 h2 h3
        refine h.fsMove hs rfl rfl rfl (pr (.WORD _)) rfl rfl rfl rfl rfl rfl rfl hf rfl h.counters.col h.counters.grp h1 (fun _ => range (by rw [hst]; rfl)) ?_
        change _ = !f.inBracket
        rw [h2]
        simp [cs, hst, FsState.inBracket]
      simp only [Run.bind_done, Run.state_done]
      unfold State.afterPush
      split
      · exact key s.bit .S_ADV rfl rfl rfl
      · have e := key (s.bit + 1) s.fs_st built (by rw [hst]; rfl) (by rw [hst]; rfl)
        exact e
  case S_ADV =>
    obtain ⟨r1, r2⟩ := range (by rw [hst]; rfl)
    simp only [Run.state_done]
    unfold State.advance
    split
    · refine h.fsMove hs rfl rfl rfl h.prForm rfl rfl rfl rfl rfl rfl rfl hf rfl h.counters.col
        (Nat.lt_of_le_of_lt (show s.grp + 1 ≤ s.par.G - 1 by omega) (lt_leastBits _)) rfl (fun _ => ?_) ?_
      · simp only; omega
      · simp [cs, hst, FsState.inBracket]
    · split
      · refine h.fsMove hs rfl rfl rfl h.prForm rfl rfl rfl rfl rfl rfl rfl hf rfl
          (Nat.lt_of_le_of_lt (Nat.sub_le s.col 1) h.counters.col) (Nat.two_pow_pos _) rfl (fun _ => ?_) ?_
        · simp only; omega
        · simp [cs, hst, FsState.inBracket]
      · cases hx : s.par.STRATEGY
        · refine h.fsMove hs rfl rfl rfl h.prForm rfl rfl rfl rfl rfl rfl rfl hf rfl h.counters.col h.counters.grp rfl (fun _ => ⟨r1, r2⟩) ?_
          simp [cs, hst, FsState.inBracket]
        · refine h.fsMove hs rfl rfl rfl h.prForm rfl rfl rfl rfl rfl rfl rfl hf rfl h.counters.col h.counters.grp (by rw [hx]; rfl) (fun _ => ⟨r1, r2⟩) ?_
          simp [cs, hst, FsState.inBracket]
  case S_DRAIN =>
    dsimp only
    unfold State.waitDrain
    split
    · exact h
    · refine h.fsMove hs rfl rfl rfl h.prForm rfl rfl rfl rfl rfl rfl rfl hf rfl h.counters.col h.counters.grp ?_ ?_ ?_
      · cases hx : s.par.STRATEGY <;> simp_all [fsPresent]
      · simp [FsState.inLoop]
      · simp [cs, hst, FsState.inBracket]
  case S_NARROW =>
    refine h.fsMove hs rfl rfl rfl (pr (.WIDTH .W8)) rfl rfl rfl rfl rfl rfl rfl hf rfl h.counters.col h.counters.grp rfl ?_ ?_
    · simp [FsState.inLoop]
    · simp [cs, hst, FsState.inBracket]
  case S_CS_HI =>
    have own := h.fsOwner hs
    have p := pr (.CS true)
    obtain ⟨a1, a2, a3, a4, a5, a6, a7, a8, a9, a10, a11, a12, a13, a14, a15⟩ := h
    simp only [Run.state_done]
    rcases own with q | q
    all_goals
      have qd : (s.emit (.CS true)).fsReturn.q_st = .Q_DONE := by rw [State.fsReturn_q_st]; simp [q]
      refine ⟨by simpa using a1, by simpa using a2, by simpa using p, by simp [qd, a4, q], fun k => absurd hf (by simpa using k), by simp,
        by simp [fsPresent], by simp [qd], by simp [qd, QState.inStep], by simp [FsState.inLoop], by simp [State.inFrameBracket, hf, FsState.inBracket],
        ?_, by simp [qd, QState.linesConfigured], by simpa using a14,
        a15.keep (by simp) (by simp) (by simp) (by simp) (by simp [qd])⟩
      intro k; have := a12 (by simpa using k); simp [q] at this

/-- A row of SEQ with FE and FS at rest. -/
theorem Inv.seqMove {s t : State} (h : Inv s)
    (par : t.par = s.par) (rom : t.rom = s.rom) (fb : t.fb = s.fb) (pr : cellsRising t.out.pr = true)
    (fe : t.fe_st = .F_IDLE) (fs : t.fs_st = .S_IDLE) (mode : t.mode_sel = s.par.MODE_INIT) (cs : t.cs_n = true)
    (busy : t.busy = decide (t.q_st ≠ .Q_IDLE))
    (src : (t.q_st = .Q_FILL → t.src = .CONST) ∧ (t.q_st = .Q_UPD → t.src = .FB))
    (pc : t.q_st.inStep = true → t.pc < s.romLength)
    (rst : t.rst_n = false → t.q_st = .Q_RST_HOLD ∨ t.q_st = .Q_RST_HI)
    (oe : t.q_st.linesConfigured = true → t.lines_oe = true) (counters : CountersFit t) : Inv t := by
  obtain ⟨a1, a2, a3, a4, a5, a6, a7, a8, a9, a10, a11, a12, a13, a14, a15⟩ := h
  refine ⟨by rw [rom, par, a1], by rw [fb, a2], pr, busy, fun k => absurd fe k, fun k => absurd fs k,
    by rw [fs]; rfl, src, ?_, by rw [fs]; simp [FsState.inLoop], ?_, rst, oe, by rw [mode, par], counters⟩
  · rw [show t.romLength = s.romLength by simp [State.romLength, rom]]; exact pc
  · rw [cs]; simp [State.inFrameBracket, fe, fs, FsState.inBracket]

/-- Acceptance keeps the invariant (R200, R206). -/
theorem Inv.accept {s : State} (h : Inv s) (hf : s.fe_st = .F_IDLE) (hs : s.fs_st = .S_IDLE) (hq : s.q_st = .Q_IDLE)
    (c : HostCommand) (color fill : Half) (src : PixelSource) (q : QState)
    (ok : q = .Q_CFG ∨ (q = .Q_FILL ∧ src = .CONST ∧ c.code ≠ HostCommand.INITIALIZE.code) ∨ (q = .Q_UPD ∧ src = .FB)) :
    Inv { s.accept c color with src := src, fill_color := fill, q_st := q } := by
  have cs := h.chipSelect
  have rst := h.resetLine
  have mode := h.modeLine
  simp only [State.inFrameBracket, hf, hs, FsState.inBracket, hq] at cs rst
  have fit : CountersFit { s.accept c color with src := src, fill_color := fill, q_st := q } := by
    obtain ⟨a, b, d, -⟩ := h.counters
    refine ⟨a, b, d, fun k o => ?_⟩
    rcases ok with e | ⟨-, -, e⟩ | ⟨e, -⟩
    · cases e; cases k
    · exact absurd o e
    · cases e; cases k
  refine h.seqMove rfl rfl rfl h.prForm hf hs mode ?_ ?_ ?_ ?_ ?_ ?_ fit
  · simpa using cs
  · rcases ok with rfl | ⟨rfl, -⟩ | ⟨rfl, -⟩ <;> rfl
  · rcases ok with rfl | ⟨rfl, rfl, -⟩ | ⟨rfl, rfl⟩ <;> simp
  · rcases ok with rfl | ⟨rfl, -⟩ | ⟨rfl, -⟩ <;> simp [QState.inStep]
  · intro k; exact absurd (rst k) (by simp)
  · rcases ok with rfl | ⟨rfl, -⟩ | ⟨rfl, -⟩ <;> simp [QState.linesConfigured]

theorem acceptRow_inv {s : State} (h : Inv s) (hf : s.fe_st = .F_IDLE) (hs : s.fs_st = .S_IDLE) (hq : s.q_st = .Q_IDLE) :
    Inv (acceptRow s) := by
  unfold acceptRow
  by_cases ha : s.canAccept = true
  · rw [if_pos ha]
    generalize portCommand s = o
    rcases o with _ | i
    · exact h
    · cases i with
      | hostInitialize => exact h.accept hf hs hq .INITIALIZE s.inp.cmd_color s.fill_color s.src .Q_CFG (.inl rfl)
      | hostClear color => exact h.accept hf hs hq (.CLEAR color) color color .CONST .Q_FILL (.inr (.inl ⟨rfl, rfl, by simp [HostCommand.code]⟩))
      | hostUpdate => exact h.accept hf hs hq .UPDATE s.inp.cmd_color s.fill_color .FB .Q_UPD (.inr (.inr ⟨rfl, rfl⟩))
      | _ => exact h
  · rw [if_neg ha]; exact h

/-- Every row of R160 and R206 keeps the invariant. -/
theorem seqTick_inv {s t : State} (h : Inv s) (hf : s.fe_st = .F_IDLE) (hs : s.fs_st = .S_IDLE) (ht : seqTick s = .next t) : Inv t := by
  have pr := fun e => s.emit_rising e h.prForm
  have cs : s.cs_n = true := by have := h.chipSelect; simpa [State.inFrameBracket, hf, hs, FsState.inBracket] using this
  have rst := h.resetLine
  have mode := h.modeLine
  have oe := h.linesDriven
  have pcr := h.pcInRom
  have busy := h.busyIff
  have fit := fun t => h.counters.keep (t := t)
  have len := s.par.rom_length
  have hN : s.romLength = s.par.N_ROM := by simp [State.romLength, h.romConstant]
  unfold seqTick at ht
  cases hq : s.q_st <;> simp only [hq] at ht rst oe pcr busy <;> simp only [QState.inStep, QState.linesConfigured] at oe pcr
  case Q_IDLE => cases ht; exact acceptRow_inv h hf hs hq
  case Q_CFG =>
    cases ht
    simp only [configLinesOp, Run.state_done]
    refine h.seqMove (by simp) (by simp) (by simp) (by simpa using pr (.CFG true s.par.MODE_INIT true)) (by simpa using hf) (by simpa using hs) (by simp) (by simp)
      ?_ ?_ ?_ ?_ ?_ (fit _ (by simp) (by simp) (by simp) (by simp) (by simp [hq])) <;> simp [hq, busy, QState.inStep, QState.linesConfigured]
  case Q_RST_LO =>
    cases ht
    simp only [resetLow, Run.state_done]
    refine h.seqMove (by simp) (by simp) (by simp) (by simpa using pr (.RST false)) (by simpa using hf) (by simpa using hs) (by simpa using mode) (by simpa using cs)
      ?_ ?_ ?_ ?_ ?_ (fit _ (by simp) (by simp) (by simp) (by simp) (by simp [hq])) <;> simp [hq, busy, QState.inStep, QState.linesConfigured, oe]
  case Q_RST_HI =>
    cases ht
    simp only [resetHigh, Run.state_done]
    refine h.seqMove (by simp) (by simp) (by simp) ?_ (by simpa using hf) (by simpa using hs) (by simpa using mode) (by simpa using cs)
      ?_ ?_ ?_ ?_ ?_ (fit _ (by simp) (by simp) (by simp) (by simp) (by simp [hq]))
    · have := pr (.RST true); simpa using this
    all_goals simp [hq, busy, QState.inStep, QState.linesConfigured, oe]
  case Q_RST_HOLD =>
    cases ht
    have dp := s.par.delays
    unfold delayOp
    rw [if_neg (by omega)]
    refine h.ask _ _ _ ?_
    refine h.seqMove (by simp) (by simp) (by simp) (by simpa using pr (.DELAY s.par.T_RST_HOLD)) (by simpa using hf) (by simpa using hs) (by simpa using mode) (by simpa using cs)
      ?_ ?_ ?_ ?_ ?_ (fit _ (by simp) (by simp [State.delayReturn, hq]) (by simp) (by simp) (by simp [State.delayReturn, hq])) <;> simp [State.delayReturn, hq, busy, QState.inStep, QState.linesConfigured, oe]
  case Q_RST_WAIT =>
    cases ht
    have dp := s.par.delays
    unfold delayOp
    rw [if_neg (by omega)]
    refine h.ask _ _ _ ?_
    refine h.seqMove (by simp) (by simp) (by simp) (by simpa using pr (.DELAY s.par.T_RST_WAIT)) (by simpa using hf) (by simpa using hs) (by simpa using mode) (by simpa using cs)
      ?_ ?_ ?_ ?_ ?_ (h.counters.setPc (by simp) (by simp [State.delayReturn, hq]) (by simp) (by simp) (by simp [State.delayReturn, hq])) <;> simp [State.delayReturn, hq, busy, QState.inStep, QState.linesConfigured, oe]
    · simp [hN, Params.N_ROM]
    · cases hr : s.rst_n <;> simp_all
  case Q_STEP_IDX =>
    unfold withRomEntry at ht
    cases he : s.romEntry? with
    | none => simp [he] at ht
    | some e =>
      simp only [he] at ht
      cases ht
      obtain ⟨a1, a2, a3, a4, a5, a6, a7, a8, a9, a10, a11, a12, a13, a14, a15⟩ := h
      refine ⟨a1, a2, a3, a4, fun _ => .inl ⟨hs, rfl, .inl ⟨hq, rfl⟩⟩, a6, a7, a8, a9, a10, ?_, a12, a13, a14, a15.keep rfl rfl rfl rfl fun k => ⟨k, rfl⟩⟩
      simp [State.inFrameBracket, State.feStartIndex, hs, FsState.inBracket, cs]
  case Q_STEP_DAT =>
    unfold withRomEntry at ht
    cases he : s.romEntry? with
    | none => simp [he] at ht
    | some e =>
      simp only [he] at ht
      cases ht
      obtain ⟨a1, a2, a3, a4, a5, a6, a7, a8, a9, a10, a11, a12, a13, a14, a15⟩ := h
      refine ⟨a1, a2, a3, a4, fun _ => .inl ⟨hs, rfl, .inr ⟨hq, rfl⟩⟩, a6, a7, a8, a9, a10, ?_, a12, a13, a14, a15.keep rfl rfl rfl rfl fun k => ⟨k, rfl⟩⟩
      simp [State.inFrameBracket, hs, FsState.inBracket, cs]
  case Q_STEP_DLY =>
    unfold withRomEntry at ht
    cases he : s.romEntry? with
    | none => simp [he] at ht
    | some e =>
      simp only [he] at ht
      cases ht
      have key : ∀ u : State, Inv u → u.fe_st = .F_IDLE → u.fs_st = .S_IDLE → u.q_st = .Q_STEP_DLY → u.romLength = s.romLength →
          u.pc = s.pc → u.lines_oe = s.lines_oe → u.rst_n = s.rst_n → u.busy = s.busy → Inv u.delayReturn := by
        intro u k f g q l p o r b
        have cs : u.cs_n = true := by have := k.chipSelect; simpa [State.inFrameBracket, f, g, FsState.inBracket] using this
        refine k.seqMove (by simp) (by simp) (by simp) (by simpa using k.prForm) (by simpa using f) (by simpa using g) (by simpa using k.modeLine)
          (by simpa using cs) ?_ ?_ ?_ ?_ ?_ (k.counters.keep (by simp) (by simp [State.delayReturn, q]) (by simp) (by simp) (by simp [State.delayReturn, q])) <;> simp [State.delayReturn, q, QState.inStep, QState.linesConfigured, l, p, o, r, b, oe, busy, pcr]
        cases hr : s.rst_n <;> simp_all
      unfold delayOp
      split
      · exact key s h hf hs hq rfl rfl rfl rfl rfl
      · refine h.ask _ _ _ (key _ ?_ (by simpa using hf) (by simpa using hs) (by simpa using hq) (by simp [State.romLength]) (by simp) (by simp) (by simp) (by simp))
        refine h.seqMove (by simp) (by simp) (by simp) (pr (.DELAY e.dly)) (by simpa using hf) (by simpa using hs) (by simpa using mode) (by simpa using cs)
          ?_ ?_ ?_ ?_ ?_ (fit _ (by simp) (by simp) (by simp) (by simp) (by simp [hq])) <;> simp [hq, QState.inStep, QState.linesConfigured, oe, busy, pcr]
        cases hr : s.rst_n <;> simp_all
  case Q_STEP_NEXT =>
    cases ht
    have r : s.rst_n = true := by cases hr : s.rst_n <;> simp_all
    have o := oe trivial
    have p := pcr trivial
    unfold State.stepNext
    simp only [hq, if_true]
    split
    · exact h.seqMove rfl rfl rfl h.prForm hf hs mode cs (by simp [busy]) (by simp) (by simp [QState.inStep]) (by simp [r]) (by simp [QState.linesConfigured])
        (h.counters.setPc rfl (Nat.le_of_eq (by rw [← hN]; assumption)) rfl rfl fun _ => by rw [← hN]; assumption)
    · refine h.seqMove rfl rfl rfl h.prForm hf hs mode cs (by simp [busy]) (by simp) ?_ (by simp [r]) (fun _ => o)
        (h.counters.setPc rfl (by rw [← hN]; exact p) rfl rfl fun k => by cases k)
      intro _; simp only; omega
  case Q_FILL =>
    cases ht
    obtain ⟨a1, a2, a3, a4, a5, a6, a7, a8, a9, a10, a11, a12, a13, a14, a15⟩ := h
    refine ⟨a1, a2, a3, a4, fun k => absurd hf k, fun _ => .inl hq, rfl, a8, a9, by simp [State.fsStart, FsState.inLoop], ?_, a12, a13, a14, a15.keep rfl rfl rfl rfl fun k => ⟨k, rfl⟩⟩
    simp [State.fsStart, State.inFrameBracket, hf, FsState.inBracket, cs]
  case Q_UPD =>
    cases ht
    obtain ⟨a1, a2, a3, a4, a5, a6, a7, a8, a9, a10, a11, a12, a13, a14, a15⟩ := h
    refine ⟨a1, a2, a3, a4, fun k => absurd hf k, fun _ => .inr hq, rfl, a8, a9, by simp [State.fsStart, FsState.inLoop], ?_, a12, a13, a14, a15.keep rfl rfl rfl rfl fun k => ⟨k, rfl⟩⟩
    simp [State.fsStart, State.inFrameBracket, hf, FsState.inBracket, cs]
  case Q_DONE =>
    cases ht
    have r : s.rst_n = true := by cases hr : s.rst_n <;> simp_all
    exact h.seqMove rfl rfl rfl h.prForm hf hs mode cs rfl (by simp [State.finish]) (by simp [State.finish, QState.inStep]) (by simp [State.finish, r])
      (by simp [State.finish, QState.linesConfigured]) (fit _ rfl rfl rfl rfl fun k => by cases k)

/-- One row keeps the invariant, and from a state that meets it a row always answers a next state. -/
theorem tick_inv {s : State} (h : Inv s) : ∃ t, tick s = .next t ∧ Inv t := by
  unfold tick
  by_cases hf : s.fe_st = .F_IDLE
  · rw [if_neg (by simp [hf])]
    by_cases hs : s.fs_st = .S_IDLE
    · rw [if_neg (by simp [hs])]
      suffices k : ∃ t, seqTick s = .next t by
        obtain ⟨t, ht⟩ := k; exact ⟨t, ht, seqTick_inv h hf hs ht⟩
      have pcr := h.pcInRom
      unfold seqTick withRomEntry State.romEntry?
      unfold State.romLength at pcr
      cases hq : s.q_st <;> simp only [hq, QState.inStep, forall_const] at pcr ⊢ <;> simp_all
    · rw [if_pos (by simp [hs])]
      refine ⟨(fsRow s).state, ?_, fsRow_inv h hf hs⟩
      unfold fsTick
      rw [if_neg (by simp [h.fsBuilt]), if_neg]
      rintro ⟨hl, -, hr⟩
      have := h.countersInRange (by rw [hl]; rfl)
      simp [fbInRange, this] at hr
  · rw [if_pos (by simp [hf])]
    exact ⟨_, rfl, feRow_inv h hf⟩
end Sys2Proof.Machine
end

