-- ==== Sys2Proof/Laws/Runs.lean ====
section
/-! SUPPORT. Every piece of work that a step runs keeps the invariant, from the rows it is made of; and a stream has no more rows than it is given. -/

namespace Sys2Proof.Machine

/-- Work followed by work. -/
theorem Run.bind_inv {r : Run} {f : State → Run} (h : Inv r.state) (k : ∀ t, r = .done t → Inv t → Inv (f t).state) :
    Inv (r.bind f).state := by
  cases r with
  | done t => exact k t rfl h
  | wait t => exact h

/-- A frame keeps the invariant. -/
theorem feRun_inv (n : Nat) {s : State} (h : Inv s) : Inv (feRun n s).state := by
  induction n generalizing s with
  | zero => exact h
  | succ n ih =>
    unfold feRun
    split
    · exact h
    · rename_i hf
      exact Run.bind_inv (feRow_inv h hf) fun t _ k => ih k

/-- A stream keeps the invariant. -/
theorem streamRow_inv {s : State} (h : Inv s) (hs : s.fs_st ≠ .S_IDLE) : Inv (streamRow s).state := by
  unfold streamRow
  split
  · rename_i hf; exact fsRow_inv h hf hs
  · rename_i hf; exact feRow_inv h hf

theorem streamRun_inv (n : Nat) {s : State} (h : Inv s) : Inv (streamRun n s).state := by
  induction n generalizing s with
  | zero => exact h
  | succ n ih =>
    unfold streamRun
    split
    · exact h
    · rename_i hs
      exact Run.bind_inv (streamRow_inv h hs) fun t _ k => ih k

/-! ### The number of rows a stream has left -/

/-- Byte-groups after the present one. -/
def groupsLeft (s : State) : Nat := s.col * s.par.G + (s.par.G - 1 - s.grp)

/-- Byte-groups after the first. -/
def groupsAfterFirst (s : State) : Nat := (s.par.W - 1) * s.par.G + (s.par.G - 1)

/-- A bound on the rows a stream has left. -/
def rowsLeft (s : State) : Nat :=
  match s.fs_st with
  | .S_IDLE => 0
  | .S_CS_HI => 1
  | .S_NARROW => 2
  | .S_DRAIN => 3
  | .S_ADV => 4 + 10 * groupsLeft s
  | .S_BULK => 5 + 10 * groupsLeft s
  | .S_EXPAND => 6 + 10 * groupsLeft s
  | .S_PUSH => 5 + (7 - s.bit.val) + 10 * groupsLeft s
  | .S_LOAD => 13 + 10 * groupsLeft s
  | .S_WIDE => 14 + 10 * groupsLeft s
  | .S_MARK => 15 + 10 * groupsAfterFirst s
  | .S_INDEX =>
    (match s.fe_st with
      | .F_IDLE => 19
      | .F_CS_LO => 19
      | .F_B0 => 18
      | .F_B1 => 17
      | .F_B2 => 16
      | .F_CS_HI => 16) + 10 * groupsAfterFirst s
  | .S_CS_LO => 20 + 10 * groupsAfterFirst s

theorem groupsAfterFirst_eq (s : State) : 10 * groupsAfterFirst s + 10 = 10 * (s.par.W * s.par.G) := by
  obtain ⟨hW, -, -, hG, -⟩ := s.par.geometry
  unfold groupsAfterFirst
  obtain ⟨w, hw⟩ : ∃ w, s.par.W = w + 1 := ⟨s.par.W - 1, by omega⟩
  rw [hw, Nat.add_mul, Nat.add_sub_cancel]
  omega

/-- A row that asks and completes is the row after the event. -/
theorem ask_done {ready : Bool} {e : Event} {s t : State} {f : State → Run} (h : (s.ask ready e).bind f = .done t) :
    f (s.emit e) = .done t := by
  cases ready
  · simp [State.ask] at h
  · exact h

/-- Every completed row of a stream leaves fewer. -/
theorem streamRow_left {s t : State} (h : Inv s) (hs : s.fs_st ≠ .S_IDLE) (ht : streamRow s = .done t) : rowsLeft t < rowsLeft s := by
  obtain ⟨hW, -, -, hG, -⟩ := s.par.geometry
  by_cases hf : s.fe_st = .F_IDLE
  · simp only [streamRow, hf, if_true] at ht
    unfold fsRow at ht
    cases hst : s.fs_st <;> simp only [hst] at ht
    · contradiction
    · cases ht; simp [rowsLeft, hst, hf, groupsAfterFirst]
    · cases ht; simp [rowsLeft, hst, hf, groupsAfterFirst, State.feStartIndex]
    · have k : ∀ u : State, u.par = s.par → u.fs_st = .S_MARK → rowsLeft u.afterMark < rowsLeft s := by
        intro u hp _
        have e : groupsLeft u.afterMark = groupsAfterFirst s := by simp [groupsLeft, groupsAfterFirst, hp]
        unfold rowsLeft
        rw [e, hst]
        unfold State.afterMark
        cases u.par.STRATEGY <;> simp
      split at ht
      · have := ask_done ht; cases this; exact k _ (by simp) (by simpa using hst)
      · cases ht; exact k _ rfl hst
    · cases ht; simp [rowsLeft, hst, groupsLeft]
    · have k : ∀ u : State, u.par = s.par → u.col = s.col → u.grp = s.grp → rowsLeft u.afterLoad < rowsLeft s := by
        intro u hp hc hg
        have e : groupsLeft u.afterLoad = groupsLeft s := by simp [groupsLeft, hp, hc, hg]
        unfold rowsLeft
        rw [e, hst]
        unfold State.afterLoad
        cases u.par.STRATEGY <;> simp
      split at ht
      · unfold loadByte at ht
        rw [Run.bind_assoc] at ht
        have := ask_done ht; cases this; exact k _ (by simp) (by simp) (by simp)
      · cases ht; exact k _ rfl rfl rfl
    · cases ht; simp [rowsLeft, hst, groupsLeft]
    · have := ask_done ht; cases this; simp [rowsLeft, hst, groupsLeft]
    · unfold State.waitFifo at ht
      split at ht
      · simp at ht
      · simp only [Run.bind_done, Run.done.injEq] at ht
        subst ht
        unfold State.afterPush
        split
        · rename_i hb; simp at hb; simp [rowsLeft, hst, groupsLeft, hb]
        · rename_i hb
          simp only [State.emit_bit] at hb
          have hv : (s.bit + 1).val = s.bit.val + 1 := by
            rw [Fin.val_add_one_of_lt]; exact lt_of_le_of_ne (Fin.le_last _) hb
          have hlt : s.bit.val < 7 := by
            have := s.bit.isLt
            have hne : s.bit.val ≠ 7 := fun e => hb (Fin.ext e)
            omega
          simp [rowsLeft, hst, groupsLeft, hv]; omega
    · cases ht
      obtain ⟨r1, r2⟩ := h.countersInRange (by rw [hst]; rfl)
      unfold State.advance
      split
      · simp [rowsLeft, hst, groupsLeft]; omega
      · rename_i hg
        split
        · rename_i hc
          obtain ⟨c, hc'⟩ : ∃ c, s.col = c + 1 := ⟨s.col - 1, by omega⟩
          simp [rowsLeft, hst, groupsLeft, hc', Nat.add_mul]; omega
        · unfold rowsLeft; simp only [hst]; cases s.par.STRATEGY <;> simp <;> omega
    · unfold State.waitDrain at ht
      split at ht
      · simp at ht
      · simp only [Run.bind_done, Run.done.injEq] at ht
        subst ht; simp [rowsLeft, hst]
    · cases ht; simp [rowsLeft, hst]
    · cases ht; simp [rowsLeft, hst]
  · simp only [streamRow, hf, if_false] at ht
    rcases h.feOwner hf with ⟨o1, -⟩ | ⟨o1, o2, o3, -, o5, o6⟩
    · contradiction
    · unfold feRow at ht
      cases hst : s.fe_st <;> simp only [hst] at ht
      · contradiction
      · contradiction
      · have := ask_done ht; cases this; simp [rowsLeft, o1, hst, groupsAfterFirst]
      · have := ask_done ht; cases this; simp [rowsLeft, o1, hst, groupsAfterFirst]
      · have := ask_done ht
        simp only [State.emit_fe_bracket, o2, if_false, Bool.false_eq_true, Run.done.injEq] at this
        subst this
        have e : ((s.emit (.BYTE (frameByte2 s.fe_arg))).feReturn).fs_st = .S_MARK := by
          unfold State.feReturn; simp [o1]
        simp [rowsLeft, o1, hst, groupsAfterFirst, e]
      · contradiction

/-- A stream whose rows suffice ends at rest or waits. -/
theorem streamRun_end (n : Nat) {s t : State} (h : Inv s) (hn : rowsLeft s ≤ n) (ht : streamRun n s = .done t) : t.fs_st = .S_IDLE := by
  have zero : ∀ u : State, rowsLeft u = 0 → u.fs_st = .S_IDLE := by
    intro u hu
    unfold rowsLeft at hu
    cases hst : u.fs_st <;> simp only [hst] at hu <;>
      first | rfl | omega | (cases hfe : u.fe_st <;> simp only [hfe] at hu <;> omega)
  induction n generalizing s with
  | zero =>
    simp only [streamRun, Run.done.injEq] at ht
    subst ht
    exact zero _ (Nat.le_zero.mp hn)
  | succ n ih =>
    unfold streamRun at ht
    split at ht
    · cases ht; assumption
    · rename_i hs
      cases hr : streamRow s with
      | wait u => simp [hr] at ht
      | done u =>
        simp only [hr, Run.bind_done] at ht
        have k : Inv u := by have := streamRow_inv h hs; rwa [hr] at this
        have := streamRow_left h hs hr
        exact ih k (by omega) ht

/-- The row that brings a stream to rest hands control to SEQ (R206). -/
theorem streamRow_last {s t : State} (h : Inv s) (hs : s.fs_st ≠ .S_IDLE) (ht : streamRow s = .done t) (he : t.fs_st = .S_IDLE) :
    t.q_st = .Q_DONE := by
  have own := h.fsOwner hs
  unfold streamRow at ht
  split at ht
  · unfold fsRow at ht
    cases hst : s.fs_st <;> simp only [hst] at ht
    · contradiction
    · cases ht; simp at he
    · cases ht; simp [State.feStartIndex, hst] at he
    · have k : ∀ u : State, u.afterMark.fs_st ≠ .S_IDLE := by
        intro u; unfold State.afterMark; cases u.par.STRATEGY <;> simp
      split at ht
      · have := ask_done ht; cases this; exact absurd he (k _)
      · cases ht; exact absurd he (k _)
    · cases ht; simp at he
    · have k : ∀ u : State, u.afterLoad.fs_st ≠ .S_IDLE := by
        intro u; unfold State.afterLoad; cases u.par.STRATEGY <;> simp
      split at ht
      · unfold loadByte at ht
        rw [Run.bind_assoc] at ht
        have := ask_done ht; cases this; exact absurd he (k _)
      · cases ht; exact absurd he (k _)
    · cases ht; simp at he
    · have := ask_done ht; cases this; simp at he
    · unfold State.waitFifo at ht
      split at ht
      · simp at ht
      · simp only [Run.bind_done, Run.done.injEq] at ht
        subst ht
        unfold State.afterPush at he
        split at he <;> simp [hst] at he
    · cases ht
      unfold State.advance at he
      split at he
      · simp at he
      · split at he
        · simp at he
        · cases hx : s.par.STRATEGY <;> simp [hx] at he
    · unfold State.waitDrain at ht
      split at ht
      · simp at ht
      · simp only [Run.bind_done, Run.done.injEq] at ht
        subst ht; simp at he
    · cases ht; simp at he
    · cases ht; rw [State.fsReturn_q_st]; rcases own with q | q <;> simp [q]
  · rename_i hf
    unfold feRow at ht
    rcases h.feOwner hf with ⟨o1, -⟩ | ⟨o1, -⟩
    · contradiction
    · have k : ∀ u : State, u.fs_st = .S_INDEX → u.feReturn.fs_st ≠ .S_IDLE := by
        intro u hu; unfold State.feReturn; simp [hu]
      cases hst : s.fe_st <;> simp only [hst] at ht
      · contradiction
      · cases ht; simp [o1] at he
      · have := ask_done ht; cases this; simp [o1] at he
      · have := ask_done ht; cases this; simp [o1] at he
      · have := ask_done ht
        simp only [Run.done.injEq] at this
        subst this
        split at he
        · simp [o1] at he
        · exact absurd he (k _ (by simpa using o1))
      · cases ht; exact absurd he (k _ (by simpa using o1))

/-- A stream that ends leaves SEQ in `Q_DONE` (R206). -/
theorem streamRun_q (n : Nat) {s t : State} (h : Inv s) (hs : s.fs_st ≠ .S_IDLE) (ht : streamRun n s = .done t)
    (he : t.fs_st = .S_IDLE) : t.q_st = .Q_DONE := by
  induction n generalizing s with
  | zero => cases ht; contradiction
  | succ n ih =>
    rw [streamRun, if_neg hs] at ht
    cases hr : streamRow s with
    | wait u => simp [hr] at ht
    | done u =>
      simp only [hr, Run.bind_done] at ht
      have k : Inv u := by have := streamRow_inv h hs; rwa [hr] at this
      by_cases hu : u.fs_st = .S_IDLE
      · have e : streamRun n u = .done u := by cases n <;> simp [streamRun, hu]
        rw [e] at ht
        cases ht
        exact streamRow_last h hs hr hu
      · exact ih k hu ht

/-! ### The operations -/

/-- Starting FS keeps the invariant (R188, R206). -/
theorem fsStart_inv {s : State} (h : Inv s) (hf : s.fe_st = .F_IDLE) (hs : s.fs_st = .S_IDLE) (hq : s.q_st = .Q_FILL ∨ s.q_st = .Q_UPD) :
    Inv s.fsStart := by
  rcases hq with q | q
  · exact seqTick_inv h hf hs (by simp [seqTick, q])
  · exact seqTick_inv h hf hs (by simp [seqTick, q])

/-- STREAM keeps the invariant, and where it ends SEQ is in `Q_DONE` and everything else at rest. -/
theorem streamOp_inv {s : State} (h : Inv s) (hf : s.fe_st = .F_IDLE) (hs : s.fs_st = .S_IDLE) (hq : s.q_st = .Q_FILL ∨ s.q_st = .Q_UPD) :
    Inv (streamOp s).state ∧ ∀ t, streamOp s = .done t → t.fs_st = .S_IDLE ∧ t.fe_st = .F_IDLE ∧ t.q_st = .Q_DONE := by
  have k := fsStart_inv h hf hs hq
  refine ⟨streamRun_inv _ k, fun t ht => ?_⟩
  have hle : rowsLeft s.fsStart ≤ streamRows s.par.toParams := by
    have := groupsAfterFirst_eq s
    have e : groupsAfterFirst s.fsStart = groupsAfterFirst s := rfl
    have d : rowsLeft s.fsStart = 20 + 10 * groupsAfterFirst s.fsStart := rfl
    rw [d, e]; unfold streamRows; omega
  have e := streamRun_end _ k hle ht
  have q := streamRun_q _ k (by simp [State.fsStart]) ht e
  have it : Inv t := by have := streamRun_inv (streamRows s.par.toParams) k; unfold streamOp at ht; rwa [ht] at this
  refine ⟨e, ?_, q⟩
  by_contra hne
  rcases it.feOwner hne with ⟨-, -, o | o⟩ | ⟨o, -⟩
  · rw [q] at o; exact absurd o.1 (by simp)
  · rw [q] at o; exact absurd o.1 (by simp)
  · rw [e] at o; exact absurd o (by simp)

/-- The end of a command keeps the invariant (R206). -/
theorem finish_inv {s : State} (h : Inv s) (hf : s.fe_st = .F_IDLE) (hs : s.fs_st = .S_IDLE) (hq : s.q_st = .Q_DONE) : Inv s.finish :=
  seqTick_inv h hf hs (by simp [seqTick, hq])

/-- A frame that SEQ or FS starts keeps the invariant. -/
theorem startIndex_inv {s : State} (h : Inv s) (hs : s.fs_st = .S_IDLE) (hq : s.q_st = .Q_STEP_IDX) (r : Byte) (hc : s.cs_n = true) :
    Inv (s.feStartIndex r true) := by
  obtain ⟨a1, a2, a3, a4, a5, a6, a7, a8, a9, a10, a11, a12, a13, a14, a15⟩ := h
  refine ⟨a1, a2, a3, a4, fun _ => .inl ⟨hs, rfl, .inl ⟨hq, rfl⟩⟩, a6, a7, a8, a9, a10, ?_, a12, a13, a14, a15.keep rfl rfl rfl rfl fun k => ⟨k, rfl⟩⟩
  simp [State.inFrameBracket, State.feStartIndex, hs, FsState.inBracket, hc]

theorem startData_inv {s : State} (h : Inv s) (hs : s.fs_st = .S_IDLE) (hq : s.q_st = .Q_STEP_DAT) (v : Half) (hc : s.cs_n = true) :
    Inv (s.feStart .DAT v true) := by
  obtain ⟨a1, a2, a3, a4, a5, a6, a7, a8, a9, a10, a11, a12, a13, a14, a15⟩ := h
  refine ⟨a1, a2, a3, a4, fun _ => .inl ⟨hs, rfl, .inr ⟨hq, rfl⟩⟩, a6, a7, a8, a9, a10, ?_, a12, a13, a14, a15.keep rfl rfl rfl rfl fun k => ⟨k, rfl⟩⟩
  simp [State.inFrameBracket, hs, FsState.inBracket, hc]

/-- A frame that the transport holds up does not complete (R224). -/
theorem feRun_held (k : FrameKind) (arg : Half) (br : Bool) (s : State) (h : s.inp.tx_byte_ack = false) :
    ∃ t, feRun 5 (s.feStart k arg br) = .wait t := by
  obtain ⟨_, _, _, ⟨_, _, _, _, _, _, _, _, _, _, _⟩, _⟩ := s
  dsimp only at h
  subst h
  cases br <;> exact ⟨_, rfl⟩

/-- WRITE_REGISTER by SEQ keeps the invariant, and where it ends SEQ is in `Q_STEP_DLY` and the frame encoder at rest (R160). -/
theorem writeRegisterOp_inv {s : State} (h : Inv s) (hs : s.fs_st = .S_IDLE) (hq : s.q_st = .Q_STEP_IDX) (hc : s.cs_n = true)
    (r : Byte) (v : Half) :
    Inv (writeRegisterOp r v s).state ∧ ∀ t, writeRegisterOp r v s = .done t →
      t.fs_st = .S_IDLE ∧ t.fe_st = .F_IDLE ∧ t.q_st = .Q_STEP_DLY ∧ t.pc = s.pc ∧ t.rom = s.rom ∧ t.inp = s.inp := by
  have k : Inv ({ s with fe_bracket := true }.feStartIndex r true) := startIndex_inv h hs hq r hc
  have ki : Inv (sendIndexOp r { s with fe_bracket := true }).state := feRun_inv 5 k
  cases hack : s.inp.tx_byte_ack
  · obtain ⟨u, hu⟩ := feRun_held .IDX (setLo s.fe_arg r) true { s with fe_bracket := true } hack
    have e : sendIndexOp r { s with fe_bracket := true } = .wait u := hu
    rw [e] at ki
    simp only [writeRegisterOp, e, Run.bind_wait]
    exact ⟨ki, by simp⟩
  · obtain ⟨u, hu, pu, cu, -, -, pcu, -, fu, -, -, -, iu, qu⟩ := sendIndexOp_done r { s with fe_bracket := true } hack
    have m := (State.feReturn_moves { s with fe_bracket := true }).1 hs
    have iu' : u.fs_st = .S_IDLE := by rw [iu, m.1]
    have qu' : u.q_st = .Q_STEP_DAT := by rw [qu, m.2]; simp [hq]
    rw [hu] at ki
    have uc : u.cs_n = true := by
      have := ki.chipSelect
      simpa [State.inFrameBracket, fu, iu', FsState.inBracket] using this
    have ks : Inv (sendDataOp v u).state := feRun_inv 5 (startData_inv ki iu' qu' v uc)
    obtain ⟨t, ht, pt, ct, -, -, pct, -, ft, -, -, -, it, qt⟩ := sendDataOp_done v u (by rw [cu.2.2.2]; exact hack)
    have m' := (State.feReturn_moves u).1 iu'
    rw [ht] at ks
    simp only [writeRegisterOp, hu, Run.bind_done, ht]
    refine ⟨ks, fun t' e => ?_⟩
    cases e
    exact ⟨by rw [it, m'.1], ft, by rw [qt, m'.2, qu'], by rw [pct, pcu], by rw [pt.rom, pu.rom], by rw [ct.2.2.2, cu.2.2.2]⟩

/-- A delay by SEQ keeps the invariant; where it ends SEQ has moved (R160). -/
theorem delayOp_end {n : Nat} {s t : State} (h : delayOp n s = .done t) :
    t.q_st = s.delayReturn.q_st ∧ t.pc = s.delayReturn.pc ∧ t.fe_st = s.fe_st ∧ t.fs_st = s.fs_st ∧ t.rom = s.rom ∧ t.inp = s.inp := by
  unfold delayOp at h
  split at h
  · cases h; simp
  · have := ask_done h
    cases this
    have e := State.delayReturn_congr (s := s) (t := s.emit (.DELAY n)) (by simp) (by simp)
    exact ⟨e.1, e.2, by simp, by simp, by simp, by simp⟩

/-- POWER_ON_STEP by SEQ keeps the invariant (R147, R160). -/
theorem powerOnStepOp_inv {s : State} (h : Inv s) (hf : s.fe_st = .F_IDLE) (hs : s.fs_st = .S_IDLE) (hq : s.q_st = .Q_STEP_IDX)
    {e : RomStep} (he : s.romEntry? = some e) :
    Inv (powerOnStepOp e.reg e.val e.dly s).state ∧ ∀ t, powerOnStepOp e.reg e.val e.dly s = .done t →
      t.fs_st = .S_IDLE ∧ t.fe_st = .F_IDLE ∧ t.pc = s.pc + 1 ∧ t.rom = s.rom ∧
        t.q_st = if s.pc + 1 = s.romLength then .Q_FILL else .Q_STEP_IDX := by
  have hc : s.cs_n = true := by have := h.chipSelect; simpa [State.inFrameBracket, hf, hs, FsState.inBracket] using this
  obtain ⟨k, ke⟩ := writeRegisterOp_inv h hs hq hc e.reg e.val
  unfold powerOnStepOp
  cases hw : writeRegisterOp e.reg e.val s with
  | wait u => rw [hw] at k; exact ⟨k, by simp⟩
  | done u =>
    rw [hw] at k
    obtain ⟨u1, u2, u3, u4, u5, u6⟩ := ke u hw
    have hue : u.romEntry? = some e := by simpa [State.romEntry?, u4, u5] using he
    have ku : Inv u := k
    have kd : Inv (delayOp e.dly u).state := seqTick_inv ku u2 u1 (by simp [seqTick, u3, withRomEntry, hue])
    simp only [Run.bind_done]
    cases hd : delayOp e.dly u with
    | wait v => rw [hd] at kd; exact ⟨kd, by simp⟩
    | done v =>
      rw [hd] at kd
      obtain ⟨v1, v2, v3, v4, v5, v6⟩ := delayOp_end hd
      have vq : v.q_st = .Q_STEP_NEXT := by rw [v1]; simp [State.delayReturn, u3]
      have vp : v.pc = s.pc := by rw [v2]; simp [State.delayReturn, u3, u4]
      have kv : Inv v := kd
      have kn : Inv v.stepNext := seqTick_inv kv (by rw [v3, u2]) (by rw [v4, u1]) (by simp [seqTick, vq])
      simp only [Run.bind_done]
      refine ⟨kn, fun t ht => ?_⟩
      cases ht
      have hl : v.romLength = s.romLength := by simp [State.romLength, v5, u5]
      refine ⟨by simp [v4, u1], by simp [v3, u2], by simp [vp], by simp [v5, u5], ?_⟩
      unfold State.stepNext
      simp only [vq, vp, hl, if_true]
      split <;> rfl

/-- The walk over the ROM keeps the invariant and ends in `Q_FILL` or waits (R158, R161). -/
theorem romWalk_inv (n : Nat) {s : State} (h : Inv s) (hf : s.fe_st = .F_IDLE) (hs : s.fs_st = .S_IDLE) (hq : s.q_st = .Q_STEP_IDX)
    (hn : s.pc + n = s.romLength) (h0 : 0 < n) :
    Inv (romWalk n s).state ∧ ∀ t, romWalk n s = .done t → t.fs_st = .S_IDLE ∧ t.fe_st = .F_IDLE ∧ t.q_st = .Q_FILL := by
  induction n generalizing s with
  | zero => omega
  | succ n ih =>
    obtain ⟨e, he⟩ : ∃ e, s.romEntry? = some e := by
      have : s.pc < s.rom.length := by unfold State.romLength at hn; omega
      exact ⟨s.rom[s.pc], by simp [State.romEntry?, this]⟩
    obtain ⟨k, ke⟩ := powerOnStepOp_inv h hf hs hq he
    rw [romWalk, he]
    simp only
    cases hp : powerOnStepOp e.reg e.val e.dly s with
    | wait u => rw [hp] at k; exact ⟨k, by simp⟩
    | done u =>
      rw [hp] at k
      obtain ⟨u1, u2, u3, u4, u5⟩ := ke u hp
      have hl : u.romLength = s.romLength := by simp [State.romLength, u4]
      simp only [Run.bind_done]
      rcases n with _ | n
      · rw [if_pos hn] at u5
        exact ⟨k, fun t ht => by cases ht; exact ⟨u1, u2, u5⟩⟩
      · rw [if_neg (by omega)] at u5
        exact ih k u2 u1 u5 (by omega) (by omega)

/-- RESET_PULSE by SEQ keeps the invariant (R142, R160). -/
theorem resetPulseOp_inv {s : State} (h : Inv s) (hf : s.fe_st = .F_IDLE) (hs : s.fs_st = .S_IDLE) (hq : s.q_st = .Q_RST_LO) :
    Inv (resetPulseOp s).state ∧ ∀ t, resetPulseOp s = .done t →
      t.fs_st = .S_IDLE ∧ t.fe_st = .F_IDLE ∧ t.q_st = .Q_STEP_IDX ∧ t.pc = 0 ∧ t.rom = s.rom := by
  obtain ⟨a, ha⟩ : ∃ a, resetLow s = .done a := ⟨_, rfl⟩
  have a' : a = (s.emit (.RST false)).move .Q_RST_LO .Q_RST_HOLD := by unfold resetLow at ha; simpa using ha.symm
  have af : a.fe_st = .F_IDLE := by simp [a', hf]
  have as : a.fs_st = .S_IDLE := by simp [a', hs]
  have aq : a.q_st = .Q_RST_HOLD := by simp [a', hq]
  have apar : a.par = s.par := by simp [a']
  have ka : Inv a := seqTick_inv h hf hs (by simp [seqTick, hq, ha])
  have kb : Inv (delayOp s.par.T_RST_HOLD a).state := seqTick_inv ka af as (by simp [seqTick, aq, apar])
  unfold resetPulseOp
  rw [ha, Run.bind_done]
  cases hb : delayOp s.par.T_RST_HOLD a with
  | wait b => rw [hb] at kb; exact ⟨kb, by simp⟩
  | done b =>
    rw [hb] at kb
    have kb' : Inv b := kb
    obtain ⟨b1, b2, b3, b4, b5, b6⟩ := delayOp_end hb
    have bq : b.q_st = .Q_RST_HI := by rw [b1]; simp [State.delayReturn, aq]
    obtain ⟨c, hc⟩ : ∃ c, resetHigh b = .done c := ⟨_, rfl⟩
    have c' : c = (b.emit (.RST true)).move .Q_RST_HI .Q_RST_WAIT := by unfold resetHigh at hc; simpa using hc.symm
    have cf : c.fe_st = .F_IDLE := by simp [c', b3, af]
    have cs : c.fs_st = .S_IDLE := by simp [c', b4, as]
    have cq : c.q_st = .Q_RST_WAIT := by simp [c', bq]
    have kc : Inv c := seqTick_inv kb' (by rw [b3, af]) (by rw [b4, as]) (by simp [seqTick, bq, hc])
    have crom : c.rom = s.rom := by simp [c', b5, a']
    have cpar : c.par = s.par := by
      have hbp : b.par = a.par := by
        unfold delayOp at hb
        split at hb
        · cases hb; simp
        · have := ask_done hb; cases this; simp
      simp [c', hbp, apar]
    have kd : Inv (delayOp s.par.T_RST_WAIT c).state := seqTick_inv kc cf cs (by simp [seqTick, cq, cpar])
    rw [Run.bind_done, hc, Run.bind_done]
    refine ⟨kd, fun t ht => ?_⟩
    obtain ⟨d1, d2, d3, d4, d5, d6⟩ := delayOp_end ht
    exact ⟨by rw [d4, cs], by rw [d3, cf], by rw [d1]; simp [State.delayReturn, cq], by rw [d2]; simp [State.delayReturn, cq], by rw [d5, crom]⟩

/-- A command that only streams keeps the invariant. -/
theorem streamCommand_inv {s : State} (h : Inv s) (hf : s.fe_st = .F_IDLE) (hs : s.fs_st = .S_IDLE) (hq : s.q_st = .Q_FILL ∨ s.q_st = .Q_UPD) :
    Inv ((streamOp s).bind finishOp).state := by
  obtain ⟨k, ke⟩ := streamOp_inv h hf hs hq
  refine Run.bind_inv k fun t ht kt => ?_
  obtain ⟨e1, e2, e3⟩ := ke t ht
  exact finish_inv kt e2 e1 e3

/-- INITIALIZE keeps the invariant (R158, R201). -/
theorem initializeOp_inv {s : State} (h : Inv s) (hf : s.fe_st = .F_IDLE) (hs : s.fs_st = .S_IDLE) (hq : s.q_st = .Q_IDLE) :
    Inv (initializeOp s).state := by
  have ka : Inv s.acceptInitialize := h.accept hf hs hq .INITIALIZE s.inp.cmd_color s.fill_color s.src .Q_CFG (.inl rfl)
  obtain ⟨b, hb⟩ : ∃ b, configLinesOp s.acceptInitialize = .done b := ⟨_, rfl⟩
  have b' : b = (s.acceptInitialize.emit (.CFG true s.acceptInitialize.par.MODE_INIT true)).move .Q_CFG .Q_RST_LO := by
    unfold configLinesOp at hb; simpa using hb.symm
  have kb : Inv b := seqTick_inv ka hf hs (by rw [seqTick]; simp only [State.acceptInitialize]; exact congrArg _ (congrArg Run.state hb))
  have bf : b.fe_st = .F_IDLE := by rw [b']; simpa using hf
  have bs : b.fs_st = .S_IDLE := by rw [b']; simpa using hs
  have bq : b.q_st = .Q_RST_LO := by rw [b']; rfl
  have brom : b.rom = s.rom := by rw [b']; rfl
  unfold initializeOp
  rw [hb, Run.bind_done]
  obtain ⟨kc, kce⟩ := resetPulseOp_inv kb bf bs bq
  cases hc : resetPulseOp b with
  | wait c => rw [hc] at kc; exact kc
  | done c =>
    rw [hc] at kc
    have kc' : Inv c := kc
    obtain ⟨c1, c2, c3, c4, c5⟩ := kce c hc
    have hlen : c.romLength = s.romLength := by simp [State.romLength, c5, brom]
    have hpos : 0 < s.romLength := by
      simp [State.romLength, h.romConstant, Params.N_ROM]
    obtain ⟨kd, kde⟩ := romWalk_inv s.romLength kc' c2 c1 c3 (by rw [c4, hlen]; omega) hpos
    rw [Run.bind_done, Run.bind_assoc]
    refine Run.bind_inv kd fun t ht kt => ?_
    obtain ⟨d1, d2, d3⟩ := kde t ht
    exact streamCommand_inv kt d2 d1 (.inl d3)

/-- The block's reset keeps the invariant (R50, R251). -/
theorem blockReset_inv {s : State} (h : Inv s) : Inv s.blockReset := by
  have pr : cellsRising s.blockReset.out.pr = true := by
    simp only [State.blockReset]
    split
    · exact Outside.losePanel_rising _
    · exact h.prForm
  refine ⟨by simpa using h.romConstant, by simpa using h.fbForm, pr, by simp, by simp, by simp, by simp [fsPresent], by simp,
    by simp [QState.inStep], by simp [FsState.inLoop], by simp [State.inFrameBracket, FsState.inBracket], by simp, by simp [QState.linesConfigured], by simp,
    (CountersFit.resetOf s.par).keep rfl rfl rfl rfl fun k => ⟨k, rfl⟩⟩


/-! ### The step -/

/-- A host command keeps the invariant, accepted or not (R201 to R203, R205). -/
theorem command_inv {s : State} (h : Inv s) (hf : s.fe_st = .F_IDLE) (hs : s.fs_st = .S_IDLE) (hq : s.q_st = .Q_IDLE) :
    Inv (initializeOp s).state ∧ (∀ color, Inv (clearOp color s).state) ∧ Inv (updateOp s).state := by
  refine ⟨initializeOp_inv h hf hs hq, fun color => ?_, ?_⟩
  · have k := h.accept hf hs hq (.CLEAR color) color color .CONST .Q_FILL (.inr (.inl ⟨rfl, rfl, by simp [HostCommand.code]⟩))
    exact streamCommand_inv k hf hs (.inl rfl)
  · have k := h.accept hf hs hq .UPDATE s.inp.cmd_color s.fill_color .FB .Q_UPD (.inr (.inr ⟨rfl, rfl⟩))
    exact streamCommand_inv k hf hs (.inr rfl)

/-- The operation that a frame in progress stands for keeps the invariant. -/
theorem frameFetch_inv {s : State} {i : Instr} (h : Inv s) (hb : s.frameBegins = true) (hi : frameFetch s = some i) :
    ∃ t, exec i s = .next t ∧ Inv t := by
  have hfe : s.fe_st ≠ .F_IDLE := by
    intro e; simp [State.frameBegins, e] at hb
  unfold frameFetch at hi
  rcases h.feOwner hfe with ⟨o1, o2, o3⟩ | ⟨o1, o2, o3, o4, -⟩
  · have hst : s.fe_st = .F_CS_LO := by
      simpa [State.frameBegins, o2] using hb
    have hc : s.cs_n = true := by
      have := h.chipSelect
      simpa [State.inFrameBracket, hst, o1, FsState.inBracket] using this
    rcases o3 with ⟨q, k⟩ | ⟨q, k⟩
    · rw [if_pos ⟨o1, q, k, o2⟩] at hi
      simp only [Option.map_eq_some_iff] at hi
      obtain ⟨e, -, rfl⟩ := hi
      exact ⟨_, rfl, (writeRegisterOp_inv h o1 q hc _ _).1⟩
    · rw [if_neg (by simp [k])] at hi
      have e : (decode s.par.STRATEGY .wire s.frame).instr? = some (.sendData s.fe_arg) := by
        simp [State.frame, k, frameByte0, frameByte1, frameByte2, decode, decodeFrame, Config.MARK_DATA, Config.MARK_INDEX, Decoded.instr?]
      rw [e] at hi
      cases hi
      exact ⟨_, rfl, feRun_inv 5 (startData_inv h o1 q _ hc)⟩
  · rw [if_neg (by simp [o1])] at hi
    have e : (decode s.par.STRATEGY .wire s.frame).instr? = some (.sendIndex (lo s.fe_arg)) := by
      simp [State.frame, o3, frameByte0, frameByte1, frameByte2, decode, decodeFrame, Config.INDEX_PAD, Decoded.instr?]
    rw [e] at hi
    cases hi
    have hc := h.chipSelect
    have k : Inv (s.feStartIndex (lo s.fe_arg) s.fe_bracket) := by
      obtain ⟨a1, a2, a3, a4, a5, a6, a7, a8, a9, a10, a11, a12, a13, a14, a15⟩ := h
      refine ⟨a1, a2, a3, a4, fun _ => .inr ?_, a6, a7, a8, a9, a10, ?_, a12, a13, a14, a15.keep rfl rfl rfl rfl fun k => ⟨k, rfl⟩⟩
      · simp [State.frameOfStream, State.feStartIndex, o1, o2, o4]
      · simpa [State.inFrameBracket, State.feStartIndex, o2] using hc
    exact ⟨_, rfl, feRun_inv 5 k⟩

/-- The operation that SEQ's state selects keeps the invariant. -/
theorem seqFetch_inv {s : State} {i : Instr} (h : Inv s) (hf : s.fe_st = .F_IDLE) (hs : s.fs_st = .S_IDLE) (hi : seqFetch s = some i) :
    ∃ t, exec i s = .next t ∧ Inv t := by
  have hc : s.cs_n = true := by have := h.chipSelect; simpa [State.inFrameBracket, hf, hs, FsState.inBracket] using this
  have stream : s.q_st = .Q_FILL ∨ s.q_st = .Q_UPD → ∃ t, exec (streamOf s.par.STRATEGY) s = .next t ∧ Inv t := by
    intro hq
    have k := (streamOp_inv h hf hs hq).1
    cases hst : s.par.STRATEGY
    · exact ⟨(streamOp s).state, by simp [streamOf, exec, execStreamBuffered, hst], k⟩
    · exact ⟨(streamOp s).state, by simp [streamOf, exec, execStreamBurst, hst], k⟩
  have row : ∀ t, seqTick s = .next t → Inv t := fun t ht => seqTick_inv h hf hs ht
  unfold seqFetch at hi
  cases hq : s.q_st <;> simp only [hq] at hi
  case Q_IDLE =>
    split at hi
    · rename_i ha
      obtain ⟨k1, k2, k3⟩ := command_inv h hf hs hq
      unfold portCommand at hi
      split at hi
      · simp only [Inputs.commandBytes, decode, decodeCommand] at hi
        split at hi <;> simp only [Decoded.instr?, Option.some.injEq, reduceCtorEq] at hi
        · subst hi; exact ⟨_, by simp [exec, execHostInitialize, ha], k1⟩
        · subst hi; exact ⟨_, by simp [exec, execHostClear, ha], k2 s.inp.cmd_color⟩
        · subst hi; exact ⟨_, by simp [exec, execHostUpdate, ha], k3⟩
      · cases hi
    · cases hi
  case Q_CFG =>
    have e : (decode s.par.STRATEGY .seq [QState.Q_CFG.code]).instr? = some .configLines := rfl
    rw [e] at hi; cases hi
    exact ⟨_, rfl, row _ (by simp [seqTick, hq])⟩
  case Q_RST_LO =>
    have e : (decode s.par.STRATEGY .seq [QState.Q_RST_LO.code]).instr? = some .resetPulse := rfl
    rw [e] at hi; cases hi
    exact ⟨_, rfl, (resetPulseOp_inv h hf hs hq).1⟩
  case Q_RST_HOLD => cases hi; exact ⟨_, rfl, row _ (by simp [seqTick, hq])⟩
  case Q_RST_WAIT => cases hi; exact ⟨_, rfl, row _ (by simp [seqTick, hq])⟩
  case Q_STEP_IDX =>
    simp only [Option.map_eq_some_iff] at hi
    obtain ⟨e, he, rfl⟩ := hi
    exact ⟨_, rfl, (powerOnStepOp_inv h hf hs hq he).1⟩
  case Q_STEP_DAT =>
    simp only [Option.map_eq_some_iff] at hi
    obtain ⟨e, he, rfl⟩ := hi
    exact ⟨_, rfl, feRun_inv 5 (startData_inv h hs hq _ hc)⟩
  case Q_STEP_DLY =>
    simp only [Option.map_eq_some_iff] at hi
    obtain ⟨e, he, rfl⟩ := hi
    exact ⟨_, rfl, row _ (by simp [seqTick, hq, withRomEntry, he])⟩
  case Q_FILL => cases hi; exact stream (.inl hq)
  case Q_UPD => cases hi; exact stream (.inr hq)
  all_goals cases hi

end Sys2Proof.Machine
end

