-- ==== Sys2Proof/Laws/Agree.lean ====
section
/-! SUPPORT. The work a step runs is a number of rows of the transition tables (R129, R189). -/

namespace Sys2Proof.Machine

/-- Some number of rows takes `s` to `t`. -/
def Rows (s t : State) : Prop := ∃ n, ticks n s = .next t

theorem Rows.refl (s : State) : Rows s s := ⟨0, rfl⟩

theorem ticks_add (n m : Nat) {s t : State} (h : ticks n s = .next t) : ticks (n + m) s = ticks m t := by
  induction n generalizing s with
  | zero => cases h; simp
  | succ n ih =>
    rw [Nat.add_right_comm, ticks]
    rw [ticks] at h
    cases ht : tick s with
    | next u => rw [ht] at h; simp only at h ⊢; exact ih h
    | fault f => rw [ht] at h; cases h
    | refused r => rw [ht] at h; cases h

theorem Rows.trans {s t u : State} (h : Rows s t) (k : Rows t u) : Rows s u := by
  obtain ⟨n, hn⟩ := h
  obtain ⟨m, hm⟩ := k
  exact ⟨n + m, by rw [ticks_add n m hn, hm]⟩

theorem Rows.row {s t : State} (h : tick s = .next t) : Rows s t := ⟨1, by simp [ticks, h]⟩

/-- At least one row takes `s` to `t`. -/
def SomeRows (s t : State) : Prop := ∃ n, ticks (n + 1) s = .next t

theorem SomeRows.rows {s t : State} (h : SomeRows s t) : Rows s t := by
  obtain ⟨n, h⟩ := h; exact ⟨n + 1, h⟩

theorem SomeRows.row {s t : State} (h : tick s = .next t) : SomeRows s t := ⟨0, by simp [ticks, h]⟩

theorem SomeRows.trans {s t u : State} (h : SomeRows s t) (k : Rows t u) : SomeRows s u := by
  obtain ⟨n, hn⟩ := h
  obtain ⟨m, hm⟩ := k
  exact ⟨n + m, by rw [Nat.add_right_comm, ticks_add (n + 1) m hn, hm]⟩

/-- Work followed by work. -/
theorem SomeRows.bind {s : State} {r : Run} {f : State → Run} (h : SomeRows s r.state) (k : ∀ t, r = .done t → Rows t (f t).state) :
    SomeRows s (r.bind f).state := by
  cases r with
  | done t => exact h.trans (k t rfl)
  | wait t => exact h

/-- Work followed by work. -/
theorem Rows.bind {s : State} {r : Run} {f : State → Run} (h : Rows s r.state) (k : ∀ t, r = .done t → Rows t (f t).state) :
    Rows s (r.bind f).state := by
  cases r with
  | done t => exact h.trans (k t rfl)
  | wait t => exact h

theorem feRow_rows {s : State} (hf : s.fe_st ≠ .F_IDLE) : Rows s (feRow s).state := Rows.row (by simp [tick, hf])

theorem feRun_rows (n : Nat) (s : State) : Rows s (feRun n s).state := by
  induction n generalizing s with
  | zero => exact Rows.refl s
  | succ n ih =>
    unfold feRun
    split
    · exact Rows.refl s
    · rename_i hf; exact Rows.bind (feRow_rows hf) fun t _ => ih t

theorem streamRow_rows {s : State} (h : Inv s) (hs : s.fs_st ≠ .S_IDLE) : Rows s (streamRow s).state := by
  unfold streamRow
  split
  · rename_i hf
    obtain ⟨t, ht, -⟩ := tick_inv h
    have e : tick s = fsTick s := by simp [tick, hf, hs]
    refine Rows.row ?_
    rw [e] at ht ⊢
    unfold fsTick at ht ⊢
    split
    · rename_i hx; rw [if_pos hx] at ht; cases ht
    · rename_i hx
      rw [if_neg hx] at ht
      split
      · rename_i hy; rw [if_pos hy] at ht; cases ht
      · rfl
  · rename_i hf; exact feRow_rows hf

theorem streamRun_rows (n : Nat) {s : State} (h : Inv s) : Rows s (streamRun n s).state := by
  induction n generalizing s with
  | zero => exact Rows.refl s
  | succ n ih =>
    unfold streamRun
    split
    · exact Rows.refl s
    · rename_i hs
      refine Rows.bind (streamRow_rows h hs) fun t ht => ih ?_
      have := streamRow_inv h hs; rwa [ht] at this

/-- A frame in progress goes on with at least one row. -/
theorem feRun_someRows (n : Nat) {s : State} (hf : s.fe_st ≠ .F_IDLE) : SomeRows s (feRun (n + 1) s).state := by
  rw [feRun, if_neg hf]
  exact SomeRows.bind (SomeRows.row (by simp [tick, hf])) fun t _ => feRun_rows n t

/-- A row of SEQ. -/
theorem SomeRows.seq {s t : State} (hf : s.fe_st = .F_IDLE) (hs : s.fs_st = .S_IDLE) (h : seqTick s = .next t) : SomeRows s t :=
  SomeRows.row (by simp [tick, hf, hs, h])

/-- A row of SEQ. -/
theorem Rows.seq {s t : State} (hf : s.fe_st = .F_IDLE) (hs : s.fs_st = .S_IDLE) (h : seqTick s = .next t) : Rows s t :=
  Rows.row (by simp [tick, hf, hs, h])

theorem streamOp_rows {s : State} (h : Inv s) (hf : s.fe_st = .F_IDLE) (hs : s.fs_st = .S_IDLE) (hq : s.q_st = .Q_FILL ∨ s.q_st = .Q_UPD) :
    SomeRows s (streamOp s).state :=
  (SomeRows.seq hf hs (by rcases hq with q | q <;> simp [seqTick, q])).trans (streamRun_rows _ (fsStart_inv h hf hs hq))

theorem streamCommand_rows {s : State} (h : Inv s) (hf : s.fe_st = .F_IDLE) (hs : s.fs_st = .S_IDLE)
    (hq : s.q_st = .Q_FILL ∨ s.q_st = .Q_UPD) : Rows s ((streamOp s).bind finishOp).state := by
  refine Rows.bind (streamOp_rows h hf hs hq).rows fun t ht => ?_
  obtain ⟨e1, e2, e3⟩ := (streamOp_inv h hf hs hq).2 t ht
  exact Rows.seq e2 e1 (by simp [seqTick, e3, finishOp])

/-- A frame that SEQ starts with its second half: the Data Frame. -/
theorem sendDataOp_rows {s : State} (hf : s.fe_st = .F_IDLE) (hs : s.fs_st = .S_IDLE) (hq : s.q_st = .Q_STEP_DAT) {e : RomStep}
    (he : s.romEntry? = some e) : SomeRows s (sendDataOp e.val s).state :=
  (SomeRows.seq hf hs (by simp [seqTick, hq, withRomEntry, he])).trans (feRun_rows 5 _)

/-- The second half of WRITE_REGISTER, once the Index Frame is out. -/
theorem writeRegister_rest {s t : State} (hs : s.fs_st = .S_IDLE) (hq : s.q_st = .Q_STEP_IDX) (r : Byte) {e : RomStep}
    (he : s.romEntry? = some e) (ht : sendIndexOp r { s with fe_bracket := true } = .done t) : Rows t (sendDataOp e.val t).state := by
  cases hack : s.inp.tx_byte_ack
  · obtain ⟨u, hu⟩ := feRun_held .IDX (setLo s.fe_arg r) true { s with fe_bracket := true } hack
    have e : sendIndexOp r { s with fe_bracket := true } = .wait u := hu
    rw [e] at ht; cases ht
  · obtain ⟨u, hu, pu, cu, -, -, pcu, -, fu, -, -, -, iu, qu⟩ := sendIndexOp_done r { s with fe_bracket := true } hack
    have m := (State.feReturn_moves { s with fe_bracket := true }).1 hs
    rw [hu] at ht; cases ht
    exact (sendDataOp_rows fu (by rw [iu, m.1]) (by rw [qu, m.2]; simp [hq]) (by
      simpa [State.romEntry?, pu.rom, pcu] using he)).rows

/-- WRITE_REGISTER from the started Index Frame on. -/
theorem writeRegister_rows {s : State} (hs : s.fs_st = .S_IDLE) (hq : s.q_st = .Q_STEP_IDX)
    (r : Byte) {e : RomStep} (he : s.romEntry? = some e) :
    Rows ({ s with fe_bracket := true }.feStartIndex r true) (writeRegisterOp r e.val s).state :=
  Rows.bind (feRun_rows 5 _) fun _ ht => writeRegister_rest hs hq r he ht

theorem powerOnStepOp_rows {s : State} (h : Inv s) (hf : s.fe_st = .F_IDLE) (hs : s.fs_st = .S_IDLE) (hq : s.q_st = .Q_STEP_IDX)
    {e : RomStep} (he : s.romEntry? = some e) : SomeRows s (powerOnStepOp e.reg e.val e.dly s).state := by
  have hc : s.cs_n = true := by have := h.chipSelect; simpa [State.inFrameBracket, hf, hs, FsState.inBracket] using this
  have start : SomeRows s ({ s with fe_bracket := true }.feStartIndex e.reg true) :=
    SomeRows.seq hf hs (by
      have e0 : ({ s with fe_bracket := true } : State).feStartIndex e.reg true = s.feStartIndex e.reg true := rfl
      rw [e0]; simp [seqTick, hq, withRomEntry, he])
  unfold powerOnStepOp
  rw [Run.bind_assoc]
  refine SomeRows.bind (start.trans (writeRegister_rows hs hq e.reg he)) fun t ht => ?_
  obtain ⟨t1, t2, t3, t4, t5, t6⟩ := (writeRegisterOp_inv h hs hq hc e.reg e.val).2 t ht
  have hte : t.romEntry? = some e := by simpa [State.romEntry?, t4, t5] using he
  refine Rows.bind (Rows.seq t2 t1 (by simp [seqTick, t3, withRomEntry, hte])) fun u hu => ?_
  obtain ⟨u1, u2, u3, u4, u5, u6⟩ := delayOp_end hu
  have uq : u.q_st = .Q_STEP_NEXT := by rw [u1]; simp [State.delayReturn, t3]
  exact Rows.seq (by rw [u3, t2]) (by rw [u4, t1]) (by simp [seqTick, uq])

theorem romWalk_rows (n : Nat) {s : State} (h : Inv s) (hf : s.fe_st = .F_IDLE) (hs : s.fs_st = .S_IDLE) (hq : s.q_st = .Q_STEP_IDX)
    (hn : s.pc + n = s.romLength) : Rows s (romWalk n s).state := by
  induction n generalizing s with
  | zero => exact Rows.refl s
  | succ n ih =>
    obtain ⟨e, he⟩ : ∃ e, s.romEntry? = some e := by
      have : s.pc < s.rom.length := by unfold State.romLength at hn; omega
      exact ⟨s.rom[s.pc], by simp [State.romEntry?, this]⟩
    obtain ⟨k, ke⟩ := powerOnStepOp_inv h hf hs hq he
    rw [romWalk, he]
    refine Rows.bind (powerOnStepOp_rows h hf hs hq he).rows fun t ht => ?_
    rw [ht] at k
    obtain ⟨u1, u2, u3, u4, u5⟩ := ke t ht
    have hl : t.romLength = s.romLength := by simp [State.romLength, u4]
    rcases n with _ | n
    · exact Rows.refl t
    · rw [if_neg (by omega)] at u5
      exact ih k u2 u1 u5 (by omega)

theorem resetPulseOp_rows {s : State} (hf : s.fe_st = .F_IDLE) (hs : s.fs_st = .S_IDLE) (hq : s.q_st = .Q_RST_LO) :
    SomeRows s (resetPulseOp s).state := by
  unfold resetPulseOp
  rw [Run.bind_assoc, Run.bind_assoc]
  refine SomeRows.bind (SomeRows.seq hf hs (by simp [seqTick, hq])) fun a ha => ?_
  have a' : a = (s.emit (.RST false)).move .Q_RST_LO .Q_RST_HOLD := by unfold resetLow at ha; simpa using ha.symm
  have af : a.fe_st = .F_IDLE := by simp [a', hf]
  have as : a.fs_st = .S_IDLE := by simp [a', hs]
  have aq : a.q_st = .Q_RST_HOLD := by simp [a', hq]
  have apar : a.par = s.par := by simp [a']
  refine Rows.bind (Rows.seq af as (by simp [seqTick, aq, apar])) fun b hb => ?_
  obtain ⟨b1, b2, b3, b4, b5, b6⟩ := delayOp_end hb
  have bpar : b.par = s.par := by
    unfold delayOp at hb
    split at hb
    · cases hb; simpa using apar
    · have := ask_done hb; cases this; simpa using apar
  have bq : b.q_st = .Q_RST_HI := by rw [b1]; simp [State.delayReturn, aq]
  refine Rows.bind (Rows.seq (by rw [b3, af]) (by rw [b4, as]) (by simp [seqTick, bq])) fun c hc => ?_
  have c' : c = (b.emit (.RST true)).move .Q_RST_HI .Q_RST_WAIT := by unfold resetHigh at hc; simpa using hc.symm
  have cpar : c.par = s.par := by simp [c', bpar]
  exact Rows.seq (by simp [c', b3, af]) (by simp [c', b4, as]) (by simp [seqTick, c', bq, bpar])

/-- Acceptance is one row (R206). -/
theorem accept_rows {s : State} (hf : s.fe_st = .F_IDLE) (hs : s.fs_st = .S_IDLE) (hq : s.q_st = .Q_IDLE) :
    SomeRows s (acceptRow s) := SomeRows.seq hf hs (by simp [seqTick, hq])

/-- What INITIALIZE does after its acceptance. -/
theorem initialize_rest {s : State} (h : Inv s) (hf : s.fe_st = .F_IDLE) (hs : s.fs_st = .S_IDLE) (hq : s.q_st = .Q_IDLE) :
    
    Rows s.acceptInitialize (initializeOp s).state := by
  have ka : Inv s.acceptInitialize := h.accept hf hs hq .INITIALIZE s.inp.cmd_color s.fill_color s.src .Q_CFG (.inl rfl)
  obtain ⟨b, hb⟩ : ∃ b, configLinesOp s.acceptInitialize = .done b := ⟨_, rfl⟩
  have hrow : seqTick s.acceptInitialize = .next b := by
    rw [seqTick]; simp only [State.acceptInitialize]; exact congrArg _ (congrArg Run.state hb)
  have kb : Inv b := seqTick_inv ka hf hs hrow
  have b' : b = (s.acceptInitialize.emit (.CFG true s.acceptInitialize.par.MODE_INIT true)).move .Q_CFG .Q_RST_LO := by
    unfold configLinesOp at hb; simpa using hb.symm
  have bf : b.fe_st = .F_IDLE := by rw [b']; simpa using hf
  have bs : b.fs_st = .S_IDLE := by rw [b']; simpa using hs
  have bq : b.q_st = .Q_RST_LO := by rw [b']; rfl
  have brom : b.rom = s.rom := by rw [b']; rfl
  unfold initializeOp
  rw [hb, Run.bind_done, Run.bind_assoc, Run.bind_assoc]
  obtain ⟨kc, kce⟩ := resetPulseOp_inv kb bf bs bq
  refine Rows.bind ((Rows.seq (s := s.acceptInitialize) hf hs hrow).trans (resetPulseOp_rows bf bs bq).rows) fun c hc => ?_
  rw [hc] at kc
  have kc' : Inv c := kc
  obtain ⟨c1, c2, c3, c4, c5⟩ := kce c hc
  have hlen : c.romLength = s.romLength := by simp [State.romLength, c5, brom]
  have hpos : 0 < s.romLength := by simp [State.romLength, h.romConstant, Params.N_ROM]
  obtain ⟨kd, kde⟩ := romWalk_inv s.romLength kc' c2 c1 c3 (by rw [c4, hlen]; omega) hpos
  refine Rows.bind (romWalk_rows s.romLength kc' c2 c1 c3 (by rw [c4, hlen]; omega)) fun d hd => ?_
  rw [hd] at kd
  obtain ⟨d1, d2, d3⟩ := kde d hd
  exact streamCommand_rows kd d2 d1 (.inl d3)

/-- A row of FE does not look at what is asked for. -/
theorem feRow_req (s : State) (r : Option Event) (hf : s.fe_st ≠ .F_IDLE) : feRow { s with req := r } = feRow s := by
  have a : ∀ e, ({ s with req := r } : State).emit e = s.emit e := by
    intro e; cases e with
    | CS l => cases l <;> rfl
    | _ => rfl
  have b : ∀ x e, ({ s with req := r } : State).ask x e = s.ask x e := by
    intro x e; cases x
    · rfl
    · simp only [State.ask, if_true, a]
  simp only [feRow, a, b]
  cases hst : s.fe_st
  · exact absurd hst hf
  all_goals rfl

theorem feRun_req (n : Nat) (s : State) (r : Option Event) (hf : s.fe_st ≠ .F_IDLE) :
    feRun (n + 1) { s with req := r } = feRun (n + 1) s := by
  simp only [feRun]
  rw [if_neg (show ({ s with req := r } : State).fe_st ≠ .F_IDLE from hf), if_neg hf, feRow_req s r hf]

theorem setLo_lo (v : Half) : setLo v (lo v) = v := join_hi_lo v

theorem frameFetch_rows {s : State} {i : Instr} (h : Inv s) (hb : s.frameBegins = true) (hi : frameFetch s = some i) :
    ∃ t, exec i s = .next t ∧ SomeRows s t := by
  have hfe : s.fe_st ≠ .F_IDLE := by
    intro e; simp [State.frameBegins, e] at hb
  have again : ∀ s' : State, s' = { s with req := none } → SomeRows s (feRun 5 s').state := by
    rintro _ rfl
    rw [feRun_req 4 s none hfe]
    exact feRun_someRows 4 hfe
  unfold frameFetch at hi
  rcases h.feOwner hfe with ⟨o1, o2, o3⟩ | ⟨o1, o2, o3, o4, o5, -⟩
  · have hst : s.fe_st = .F_CS_LO := by simpa [State.frameBegins, o2] using hb
    rcases o3 with ⟨q, k⟩ | ⟨q, k⟩
    · rw [if_pos ⟨o1, q, k, o2⟩] at hi
      simp only [Option.map_eq_some_iff] at hi
      obtain ⟨e, he, rfl⟩ := hi
      refine ⟨_, rfl, SomeRows.bind (again _ ?_) fun t ht => writeRegister_rest o1 q (frameByte2 s.fe_arg) he ht⟩
      simp only [State.feStartIndex, State.feStart, frameByte2, setLo_lo, if_true]
      rw [← k, ← o2, ← hst]
    · rw [if_neg (by simp [k])] at hi
      have e : (decode s.par.STRATEGY .wire s.frame).instr? = some (.sendData s.fe_arg) := by
        simp [State.frame, k, frameByte0, frameByte1, frameByte2, decode, decodeFrame, Config.MARK_DATA, Config.MARK_INDEX, Decoded.instr?]
      rw [e] at hi
      cases hi
      refine ⟨_, rfl, again _ ?_⟩
      simp only [State.feStart, if_true]
      rw [← k, ← o2, ← hst]
  · rw [if_neg (by simp [o1])] at hi
    have e : (decode s.par.STRATEGY .wire s.frame).instr? = some (.sendIndex (lo s.fe_arg)) := by
      simp [State.frame, o3, frameByte0, frameByte1, frameByte2, decode, decodeFrame, Config.INDEX_PAD, Decoded.instr?]
    rw [e] at hi
    cases hi
    have hst : s.fe_st = .F_B0 := by
      have k : s.fe_st = .F_B0 ∧ s.req = none := by simpa [State.frameBegins, o2, o3, o5] using hb
      exact k.1
    refine ⟨_, rfl, again _ ?_⟩
    simp only [State.feStartIndex, State.feStart, setLo_lo, o2, if_false, Bool.false_eq_true]
    rw [← o3, ← o2, ← hst]

/-- The work of the operation that SEQ's state selects is a number of rows. -/
theorem seqFetch_rows {s : State} {i : Instr} (h : Inv s) (hf : s.fe_st = .F_IDLE) (hs : s.fs_st = .S_IDLE) (hi : seqFetch s = some i) :
    ∃ t, exec i s = .next t ∧ SomeRows s t := by
  have stream : s.q_st = .Q_FILL ∨ s.q_st = .Q_UPD → ∃ t, exec (streamOf s.par.STRATEGY) s = .next t ∧ SomeRows s t := by
    intro hq
    have k := streamOp_rows h hf hs hq
    cases hst : s.par.STRATEGY
    · exact ⟨(streamOp s).state, by simp [streamOf, exec, execStreamBuffered, hst], k⟩
    · exact ⟨(streamOp s).state, by simp [streamOf, exec, execStreamBurst, hst], k⟩
  have row : ∀ t, seqTick s = .next t → SomeRows s t := fun t ht => SomeRows.seq hf hs ht
  unfold seqFetch at hi
  cases hq : s.q_st <;> simp only [hq] at hi
  case Q_IDLE =>
    split at hi
    · rename_i ha
      have hp := hi
      have acc := accept_rows hf hs hq
      rw [acceptRow, if_pos ha, hp] at acc
      unfold portCommand at hi
      split at hi
      · simp only [Inputs.commandBytes, decode, decodeCommand] at hi
        split at hi <;> simp only [Decoded.instr?, Option.some.injEq, reduceCtorEq] at hi
        · subst hi
          exact ⟨_, by simp [exec, execHostInitialize, ha], acc.trans (initialize_rest h hf hs hq)⟩
        · subst hi
          rw [join_hi_lo] at acc ⊢
          refine ⟨(clearOp s.inp.cmd_color s).state, by simp [exec, execHostClear, ha], acc.trans ?_⟩
          exact streamCommand_rows (h.accept hf hs hq _ _ _ .CONST .Q_FILL (.inr (.inl ⟨rfl, rfl, by simp [HostCommand.code]⟩))) hf hs (.inl rfl)
        · subst hi
          refine ⟨(updateOp s).state, by simp [exec, execHostUpdate, ha], acc.trans ?_⟩
          exact streamCommand_rows (h.accept hf hs hq _ _ _ .FB .Q_UPD (.inr (.inr ⟨rfl, rfl⟩))) hf hs (.inr rfl)
      · cases hi
    · cases hi
  case Q_CFG =>
    have e : (decode s.par.STRATEGY .seq [QState.Q_CFG.code]).instr? = some .configLines := rfl
    rw [e] at hi; cases hi
    exact ⟨_, rfl, row _ (by simp [seqTick, hq])⟩
  case Q_RST_LO =>
    have e : (decode s.par.STRATEGY .seq [QState.Q_RST_LO.code]).instr? = some .resetPulse := rfl
    rw [e] at hi; cases hi
    exact ⟨_, rfl, resetPulseOp_rows hf hs hq⟩
  case Q_RST_HOLD => cases hi; exact ⟨_, rfl, row _ (by simp [seqTick, hq])⟩
  case Q_RST_WAIT => cases hi; exact ⟨_, rfl, row _ (by simp [seqTick, hq])⟩
  case Q_STEP_IDX =>
    simp only [Option.map_eq_some_iff] at hi
    obtain ⟨e, he, rfl⟩ := hi
    exact ⟨_, rfl, powerOnStepOp_rows h hf hs hq he⟩
  case Q_STEP_DAT =>
    simp only [Option.map_eq_some_iff] at hi
    obtain ⟨e, he, rfl⟩ := hi
    exact ⟨_, rfl, sendDataOp_rows hf hs hq he⟩
  case Q_STEP_DLY =>
    simp only [Option.map_eq_some_iff] at hi
    obtain ⟨e, he, rfl⟩ := hi
    exact ⟨_, rfl, row _ (by simp [seqTick, hq, withRomEntry, he])⟩
  case Q_FILL => cases hi; exact stream (.inl hq)
  case Q_UPD => cases hi; exact stream (.inr hq)
  all_goals cases hi

end Sys2Proof.Machine
end

