-- ==== Sys2Proof/Laws/Extends.lean ====
section
/-! SUPPORT. What any piece of work does, whether it comes to its end or to a wait: `Extends` for every operation, from every state. -/

namespace Sys2Proof.Machine

theorem Extends.of_same {s t : State} (hp : t.par = s.par) (hr : t.rom = s.rom) (hf : t.fb = s.fb)
    (hi : t.inp.otherThanRequest = s.inp.otherThanRequest) (ht : t.trace = s.trace) (hl : t.lines = s.lines)
    (hw : t.out.bus_width = s.out.bus_width) : Extends [] s t :=
  ⟨hp, hr, hf, hi, by simp [ht], hl, hw, rfl⟩

theorem Extends.refl (s : State) : Extends [] s s := Extends.of_same rfl rfl rfl rfl rfl rfl rfl

/-- The levels an event asks its collaborator for are the same after any piece of work. -/
theorem Event.permitted_congr {s t : State} (hp : t.par = s.par) (hf : t.fb = s.fb)
    (hi : t.inp.otherThanRequest = s.inp.otherThanRequest) (e : Event) : e.permitted t = e.permitted s := by
  have hb : fbByte t = fbByte s := by funext c g; rw [fbByte, fbByte, hp, hf]
  have f1 : t.inp.tx_byte_ack = s.inp.tx_byte_ack := (congrArg Inputs.tx_byte_ack hi : t.inp.otherThanRequest.tx_byte_ack = s.inp.otherThanRequest.tx_byte_ack)
  have f2 : t.inp.tx_bulk_ack = s.inp.tx_bulk_ack := (congrArg Inputs.tx_bulk_ack hi : t.inp.otherThanRequest.tx_bulk_ack = s.inp.otherThanRequest.tx_bulk_ack)
  have f3 : t.inp.fifo_full = s.inp.fifo_full := (congrArg Inputs.fifo_full hi : t.inp.otherThanRequest.fifo_full = s.inp.otherThanRequest.fifo_full)
  have f4 : t.inp.dly_done = s.inp.dly_done := (congrArg Inputs.dly_done hi : t.inp.otherThanRequest.dly_done = s.inp.otherThanRequest.dly_done)
  have f5 : t.inp.fb_ack = s.inp.fb_ack := (congrArg Inputs.fb_ack hi : t.inp.otherThanRequest.fb_ack = s.inp.otherThanRequest.fb_ack)
  cases e <;> simp [Event.permitted, f1, f2, f3, f4, f5, hb]

theorem Extends.trans {es fs : List Event} {s t u : State} (h : Extends es s t) (k : Extends fs t u) : Extends (es ++ fs) s u := by
  have e : Event.permitted t = Event.permitted s := funext (Event.permitted_congr h.par h.fb h.inp)
  refine ⟨k.par.trans h.par, k.rom.trans h.rom, k.fb.trans h.fb, k.inp.trans h.inp, ?_, ?_, ?_, ?_⟩
  · rw [k.trace, h.trace, List.append_assoc]
  · rw [k.lines, h.lines, List.foldl_append]
  · rw [k.width, h.width, List.foldl_append]
  · rw [List.all_append, h.permitted, ← e, k.permitted]; rfl

/-- Completing an event its collaborator is ready for. -/
theorem Extends.emit {s : State} {e : Event} (h : e.permitted s = true) : Extends [e] s (s.emit e) := by
  refine ⟨by simp, by simp, by simp, by simp, by simp, ?_, ?_, by simp [h]⟩
  · cases e with
    | CS l => cases l <;> rfl
    | _ => rfl
  · cases e with
    | CS l =>
      cases l
      · rfl
      · simp only [State.emit, State.act, Outside.closeBurst, List.foldl_cons, List.foldl_nil, widthAfter]
        split
        · split <;> rfl
        · rfl
    | RST l => simp only [State.emit, State.act, List.foldl_cons, List.foldl_nil, widthAfter]; split <;> rfl
    | _ => rfl

/-- Some events lead from `s` to where the work `r` has come. -/
def Reaches (s : State) (r : Run) : Prop := ∃ es, Extends es s r.state

theorem Reaches.refl (s : State) : Reaches s (.done s) := ⟨_, Extends.refl s⟩

theorem Reaches.done {es : List Event} {s t : State} (h : Extends es s t) : Reaches s (.done t) := ⟨es, h⟩

/-- Work after work. -/
theorem Reaches.bind {s : State} {r : Run} {f : State → Run} (h : Reaches s r) (k : ∀ t, r = .done t → Reaches t (f t)) :
    Reaches s (r.bind f) := by
  obtain ⟨es, h⟩ := h
  cases r with
  | wait t => exact ⟨es, h⟩
  | done t =>
    obtain ⟨fs, k⟩ := k t rfl
    exact ⟨es ++ fs, h.trans k⟩

/-- Work that starts from a state with the same outside. -/
theorem Reaches.from_same {s t : State} {r : Run} (h : Extends [] s t) (k : Reaches t r) : Reaches s r := by
  obtain ⟨es, k⟩ := k
  exact ⟨[] ++ es, h.trans k⟩

/-- An event toward a collaborator, completed or held out (R224). -/
theorem ask_reaches {s : State} {x : Bool} {e : Event} (h : x = true → e.permitted s = true) : Reaches s (s.ask x e) := by
  cases x
  · exact ⟨[], Extends.of_same rfl rfl rfl rfl rfl rfl rfl⟩
  · exact ⟨[e], Extends.emit (h rfl)⟩

/-- A change of registers that nothing outside sees. -/
theorem Reaches.quiet {s t : State} (hp : t.par = s.par) (hr : t.rom = s.rom) (hf : t.fb = s.fb)
    (hi : t.inp.otherThanRequest = s.inp.otherThanRequest) (ht : t.trace = s.trace) (hl : t.lines = s.lines)
    (hw : t.out.bus_width = s.out.bus_width) : Reaches s (.done t) := ⟨[], Extends.of_same hp hr hf hi ht hl hw⟩

/-- An event and then such a change. -/
theorem Reaches.event {s t : State} {e : Event} (h : e.permitted s = true) (k : Reaches (s.emit e) (.done t)) : Reaches s (.done t) := by
  obtain ⟨es, k⟩ := k
  exact ⟨[e] ++ es, (Extends.emit h).trans k⟩

/-! ### The frame encoder -/

theorem feReturn_reaches (s : State) : Reaches s (.done s.feReturn) := by
  unfold State.feReturn
  split <;> exact Reaches.quiet rfl rfl rfl rfl rfl rfl rfl

theorem feRow_reaches (s : State) : Reaches s (feRow s) := by
  unfold feRow
  split
  · exact Reaches.refl s
  · exact Reaches.event (e := .CS false) rfl (Reaches.quiet rfl rfl rfl rfl rfl rfl rfl)
  · exact Reaches.bind (ask_reaches (by exact fun h => h)) fun t _ => Reaches.quiet rfl rfl rfl rfl rfl rfl rfl
  · exact Reaches.bind (ask_reaches (by exact fun h => h)) fun t _ => Reaches.quiet rfl rfl rfl rfl rfl rfl rfl
  · refine Reaches.bind (ask_reaches (by exact fun h => h)) fun t _ => ?_
    split
    · exact Reaches.quiet rfl rfl rfl rfl rfl rfl rfl
    · exact feReturn_reaches t
  · exact Reaches.event (e := .CS true) rfl (feReturn_reaches _)

theorem feRun_reaches (n : Nat) (s : State) : Reaches s (feRun n s) := by
  induction n generalizing s with
  | zero => exact Reaches.refl s
  | succ n ih =>
    unfold feRun
    split
    · exact Reaches.refl s
    · exact (feRow_reaches s).bind fun t _ => ih t

/-- SEND_INDEX and SEND_DATA, and FE started in any other way. -/
theorem frame_reaches (k : FrameKind) (arg : Half) (br : Bool) (s : State) : Reaches s (feRun 5 (s.feStart k arg br)) :=
  Reaches.from_same (Extends.of_same rfl rfl rfl rfl rfl rfl rfl : Extends [] s (s.feStart k arg br)) (feRun_reaches 5 _)

theorem writeRegisterOp_reaches (r : Byte) (v : Half) (s : State) : Reaches s (writeRegisterOp r v s) :=
  (Reaches.from_same (Extends.of_same rfl rfl rfl rfl rfl rfl rfl : Extends [] s { s with fe_bracket := true })
    (frame_reaches .IDX (setLo s.fe_arg r) true _)).bind fun t _ => frame_reaches .DAT v true t

/-! ### The sequencer -/

theorem delayReturn_reaches (s : State) : Reaches s (.done s.delayReturn) := by
  unfold State.delayReturn
  split <;> exact Reaches.quiet rfl rfl rfl rfl rfl rfl rfl

theorem delayOp_reaches (n : Nat) (s : State) : Reaches s (delayOp n s) := by
  unfold delayOp
  split
  · exact delayReturn_reaches s
  · rename_i h
    exact Reaches.bind (ask_reaches (by intro k; simp [Event.permitted, k, h])) fun t _ => delayReturn_reaches t

theorem move_reaches (a b : QState) (s : State) : Reaches s (.done (s.move a b)) := by
  unfold State.move
  split
  · exact Reaches.quiet rfl rfl rfl rfl rfl rfl rfl
  · exact Reaches.refl s

theorem configLinesOp_reaches (s : State) : Reaches s (configLinesOp s) := Reaches.event rfl (move_reaches _ _ _)

theorem resetPulseOp_reaches (s : State) : Reaches s (resetPulseOp s) := by
  unfold resetPulseOp
  refine Reaches.bind (Reaches.bind (Reaches.bind ?_ fun t _ => delayOp_reaches _ t) fun t _ => ?_) fun t _ => delayOp_reaches _ t
  · exact Reaches.event rfl (move_reaches _ _ _)
  · exact Reaches.event rfl (move_reaches _ _ _)

theorem stepNext_reaches (s : State) : Reaches s (.done s.stepNext) := by
  unfold State.stepNext
  simp only
  split
  · split <;> exact Reaches.quiet rfl rfl rfl rfl rfl rfl rfl
  · exact Reaches.quiet rfl rfl rfl rfl rfl rfl rfl

theorem powerOnStepOp_reaches (reg : Byte) (val : Half) (dly : Nat) (s : State) : Reaches s (powerOnStepOp reg val dly s) :=
  ((writeRegisterOp_reaches reg val s).bind fun t _ => delayOp_reaches dly t).bind fun t _ => stepNext_reaches t

theorem romWalk_reaches (n : Nat) (s : State) : Reaches s (romWalk n s) := by
  induction n generalizing s with
  | zero => exact Reaches.refl s
  | succ n ih =>
    unfold romWalk
    split
    · exact (powerOnStepOp_reaches _ _ _ s).bind fun t _ => ih t
    · exact Reaches.refl s

/-! ### The streamer -/

theorem fsReturn_reaches (s : State) : Reaches s (.done s.fsReturn) := by
  unfold State.fsReturn
  split <;> exact Reaches.quiet rfl rfl rfl rfl rfl rfl rfl

theorem afterLoad_reaches (s : State) : Reaches s (.done s.afterLoad) := by
  unfold State.afterLoad
  split <;> exact Reaches.quiet rfl rfl rfl rfl rfl rfl rfl

theorem afterPush_reaches (s : State) : Reaches s (.done s.afterPush) := by
  unfold State.afterPush
  split <;> exact Reaches.quiet rfl rfl rfl rfl rfl rfl rfl

theorem advance_reaches (s : State) : Reaches s (.done s.advance) := by
  unfold State.advance
  split
  · exact Reaches.quiet rfl rfl rfl rfl rfl rfl rfl
  · split <;> exact Reaches.quiet rfl rfl rfl rfl rfl rfl rfl

theorem fsRow_reaches (s : State) : Reaches s (fsRow s) := by
  unfold fsRow
  split
  · exact Reaches.refl s
  · exact Reaches.event (e := .CS false) rfl (Reaches.quiet rfl rfl rfl rfl rfl rfl rfl)
  · exact Reaches.quiet rfl rfl rfl rfl rfl rfl rfl
  · split
    · exact Reaches.bind (ask_reaches (by exact fun h => h)) fun t _ => Reaches.quiet rfl rfl rfl rfl rfl rfl rfl
    · exact Reaches.quiet rfl rfl rfl rfl rfl rfl rfl
  · exact Reaches.event (e := .WIDTH .W16) rfl (Reaches.quiet rfl rfl rfl rfl rfl rfl rfl)
  · split
    · refine Reaches.bind ?_ fun t _ => afterLoad_reaches t
      exact Reaches.bind (ask_reaches (by intro h; simp [Event.permitted, h])) fun t _ => Reaches.quiet rfl rfl rfl rfl rfl rfl rfl
    · exact afterLoad_reaches s
  · exact Reaches.quiet rfl rfl rfl rfl rfl rfl rfl
  · exact Reaches.bind (ask_reaches (by exact fun h => h)) fun t _ => Reaches.quiet rfl rfl rfl rfl rfl rfl rfl
  · unfold State.waitFifo
    split
    · exact ⟨[], Extends.refl s⟩
    · rename_i h
      exact Reaches.event (e := .WORD (s.px s.bit)) (by simp [Event.permitted, h]) (afterPush_reaches _)
  · exact advance_reaches s
  · unfold State.waitDrain
    split
    · exact ⟨[], Extends.refl s⟩
    · exact Reaches.quiet rfl rfl rfl rfl rfl rfl rfl
  · exact Reaches.event (e := .WIDTH .W8) rfl (Reaches.quiet rfl rfl rfl rfl rfl rfl rfl)
  · exact Reaches.event (e := .CS true) rfl (fsReturn_reaches _)

theorem streamRow_reaches (s : State) : Reaches s (streamRow s) := by
  unfold streamRow
  split
  · exact fsRow_reaches s
  · exact feRow_reaches s

theorem streamRun_reaches (n : Nat) (s : State) : Reaches s (streamRun n s) := by
  induction n generalizing s with
  | zero => exact Reaches.refl s
  | succ n ih =>
    unfold streamRun
    split
    · exact Reaches.refl s
    · exact (streamRow_reaches s).bind fun t _ => ih t

theorem streamOp_reaches (s : State) : Reaches s (streamOp s) :=
  Reaches.from_same (Extends.of_same rfl rfl rfl rfl rfl rfl rfl : Extends [] s s.fsStart) (streamRun_reaches _ _)

/-! ### The host commands -/

theorem finishOp_reaches (s : State) : Reaches s (finishOp s) :=
  Reaches.from_same (Extends.of_same rfl rfl rfl rfl rfl rfl rfl : Extends [] s { s with busy := false })
    (Reaches.event (e := .DONE) rfl (Reaches.quiet rfl rfl rfl rfl rfl rfl rfl))

/-- Acceptance, with whatever it writes to the streamer's operands (R200, R206). -/
theorem accept_extends (c : HostCommand) (color fill : Half) (src : PixelSource) (q : QState) (s : State) :
    Extends [.CMD c] s { s.accept c color with src := src, fill_color := fill, q_st := q } := by
  have h := Extends.emit (s := s) (e := .CMD c) rfl
  exact ⟨h.par, h.rom, h.fb, rfl, h.trace, h.lines, h.width, h.permitted⟩

theorem initializeOp_reaches (s : State) : Reaches s (initializeOp s) := by
  obtain ⟨es, k⟩ : Reaches s.acceptInitialize (initializeOp s) := by
    unfold initializeOp
    exact ((((configLinesOp_reaches _).bind fun t _ => resetPulseOp_reaches t).bind fun t _ => romWalk_reaches _ t).bind fun t _ =>
      streamOp_reaches t).bind fun t _ => finishOp_reaches t
  exact ⟨_, (accept_extends .INITIALIZE s.inp.cmd_color s.fill_color s.src .Q_CFG s).trans k⟩

theorem clearOp_reaches (color : Half) (s : State) : Reaches s (clearOp color s) := by
  obtain ⟨es, k⟩ : Reaches (s.acceptClear color) (clearOp color s) := (streamOp_reaches _).bind fun t _ => finishOp_reaches t
  exact ⟨_, (accept_extends (.CLEAR color) color color .CONST .Q_FILL s).trans k⟩

theorem updateOp_reaches (s : State) : Reaches s (updateOp s) := by
  obtain ⟨es, k⟩ : Reaches s.acceptUpdate (updateOp s) := (streamOp_reaches _).bind fun t _ => finishOp_reaches t
  exact ⟨_, (accept_extends .UPDATE s.inp.cmd_color s.fill_color .FB .Q_UPD s).trans k⟩

end Sys2Proof.Machine
end

