-- ==== Sys2Proof/Laws/Masks.lean ====
section
/-! SUPPORT. What each piece of work leaves alone, whether it comes to its end or to a wait: the state with the fields the work may write
blanked out is the same before and after. -/

namespace Sys2Proof.Machine

/-- What a view of the state says is kept by work after work. -/
theorem Run.keeps_bind {β : Type} (m : State → β) {x : β} {r : Run} {f : State → Run} (h : m r.state = x)
    (k : ∀ t, m t = x → m (f t).state = x) : m (r.bind f).state = x := by
  cases r with
  | done t => exact k t h
  | wait t => exact h

/-- Without what a frame may write: FE's registers, its starter's state, chip-select, what is outside, the request and the trace. -/
def State.frameMask (s : State) : State :=
  { s with
    out := Outside.quiet, q_st := .Q_IDLE, fe_st := .F_IDLE, fe_kind := .IDX, fe_arg := 0, fe_bracket := false
    fs_st := .S_IDLE, cs_n := true, req := none, trace := [] }

/-- Without what a stream may write: in addition FS's counters and buffers. -/
def State.streamMask (s : State) : State :=
  { s.frameMask with col := 0, grp := 0, bit := 0, cur := 0, scratch := Vector.replicate 16 0 }

/-- Without what a wait may write: SEQ's state, `pc`, the request and the trace. -/
def State.delayMask (s : State) : State := { s with q_st := .Q_IDLE, pc := 0, req := none, trace := [] }

/-- Without what a reset pulse may write: in addition the reset line and what is outside. -/
def State.resetMask (s : State) : State := { s.delayMask with rst_n := true, out := Outside.quiet }

/-- Without what a Power-On Step may write: in addition to a frame's fields `pc` and the streamer's operands. -/
def State.stepMask (s : State) : State := { s.frameMask with pc := 0, src := .FB, fill_color := 0 }

/-! ### The frame encoder -/

theorem emit_frameMask (s : State) (e : Event) (h : (∃ l, e = .CS l) ∨ ∃ b, e = .BYTE b) : (s.emit e).frameMask = s.frameMask := by
  rcases h with ⟨l, rfl⟩ | ⟨b, rfl⟩
  · cases l <;> rfl
  · rfl

theorem feReturn_frameMask (s : State) : s.feReturn.frameMask = s.frameMask := by
  unfold State.feReturn
  split <;> rfl

theorem feRow_frameMask (s : State) : (feRow s).state.frameMask = s.frameMask := by
  unfold feRow
  split
  · rfl
  · rfl
  · cases s.inp.tx_byte_ack <;> rfl
  · cases s.inp.tx_byte_ack <;> rfl
  · cases s.inp.tx_byte_ack
    · rfl
    · simp only [State.ask, if_true, Run.bind_done, Run.state_done]
      split
      · rfl
      · rw [feReturn_frameMask]; rfl
  · simp only [Run.state_done]; rw [feReturn_frameMask]; rfl

theorem feRun_frameMask (n : Nat) (s : State) : (feRun n s).state.frameMask = s.frameMask := by
  induction n generalizing s with
  | zero => rfl
  | succ n ih =>
    unfold feRun
    split
    · rfl
    · exact Run.keeps_bind _ (feRow_frameMask s) fun t ht => by rw [ih, ht]

/-- FE's operands are constant while it runs (R24). -/
theorem feRow_operands (s : State) : ((feRow s).state.fe_kind, (feRow s).state.fe_arg, (feRow s).state.fe_bracket) =
    (s.fe_kind, s.fe_arg, s.fe_bracket) := by
  have ret : ∀ u : State, (u.feReturn.fe_kind, u.feReturn.fe_arg, u.feReturn.fe_bracket) = (u.fe_kind, u.fe_arg, u.fe_bracket) := by
    intro u; unfold State.feReturn; split <;> rfl
  unfold feRow
  split
  · rfl
  · rfl
  · cases s.inp.tx_byte_ack <;> rfl
  · cases s.inp.tx_byte_ack <;> rfl
  · cases s.inp.tx_byte_ack
    · rfl
    · simp only [State.ask, if_true, Run.bind_done, Run.state_done]
      split
      · rfl
      · exact ret _
  · exact ret _

theorem feRun_operands (n : Nat) (s : State) : ((feRun n s).state.fe_kind, (feRun n s).state.fe_arg, (feRun n s).state.fe_bracket) =
    (s.fe_kind, s.fe_arg, s.fe_bracket) := by
  induction n generalizing s with
  | zero => rfl
  | succ n ih =>
    unfold feRun
    split
    · rfl
    · exact Run.keeps_bind (fun t => (t.fe_kind, t.fe_arg, t.fe_bracket)) (feRow_operands s) fun t ht => (ih t).trans ht

theorem writeRegisterOp_frameMask (r : Byte) (v : Half) (s : State) : (writeRegisterOp r v s).state.frameMask = s.frameMask :=
  Run.keeps_bind _ (by rw [sendIndexOp, feRun_frameMask]; rfl) fun t ht => by rw [sendDataOp, feRun_frameMask, ← ht]; rfl

/-! ### The sequencer -/

theorem delayReturn_delayMask (s : State) : s.delayReturn.delayMask = s.delayMask := by
  unfold State.delayReturn
  split <;> rfl

theorem delayOp_delayMask (n : Nat) (s : State) : (delayOp n s).state.delayMask = s.delayMask := by
  unfold delayOp
  split
  · exact delayReturn_delayMask s
  · cases s.inp.dly_done
    · rfl
    · simp only [State.ask, if_true, Run.bind_done, Run.state_done]
      rw [delayReturn_delayMask]; rfl

theorem move_delayMask (a b : QState) (s : State) : (s.move a b).delayMask = s.delayMask := by
  unfold State.move
  split <;> rfl

theorem delayMask_resetMask {s t : State} (h : s.delayMask = t.delayMask) : s.resetMask = t.resetMask := by
  unfold State.resetMask; rw [h]

theorem resetPulseOp_resetMask (s : State) : (resetPulseOp s).state.resetMask = s.resetMask := by
  unfold resetPulseOp
  refine Run.keeps_bind _ (Run.keeps_bind _ (Run.keeps_bind _ ?_ ?_) ?_) ?_
  · exact (delayMask_resetMask (move_delayMask _ _ _)).trans rfl
  · intro t ht; rw [delayMask_resetMask (delayOp_delayMask _ t), ht]
  · intro t ht; rw [← ht]; exact (delayMask_resetMask (move_delayMask _ _ _)).trans rfl
  · intro t ht; rw [delayMask_resetMask (delayOp_delayMask _ t), ht]

theorem frameMask_stepMask {s t : State} (h : s.frameMask = t.frameMask) : s.stepMask = t.stepMask := by
  unfold State.stepMask; rw [h]

theorem delayMask_stepMask {s t : State} (h : s.delayMask = t.delayMask) : s.stepMask = t.stepMask := by
  have : ∀ u : State, u.stepMask = u.delayMask.stepMask := fun _ => rfl
  rw [this s, this t, h]

theorem stepNext_stepMask (s : State) : s.stepNext.stepMask = s.stepMask := by
  unfold State.stepNext
  simp only
  split
  · split <;> rfl
  · rfl

theorem powerOnStepOp_stepMask (reg : Byte) (val : Half) (dly : Nat) (s : State) :
    (powerOnStepOp reg val dly s).state.stepMask = s.stepMask := by
  unfold powerOnStepOp
  refine Run.keeps_bind _ (Run.keeps_bind _ (frameMask_stepMask (writeRegisterOp_frameMask reg val s)) ?_) ?_
  · intro t ht; rw [delayMask_stepMask (delayOp_delayMask dly t), ht]
  · intro t ht; rw [← ht]; exact stepNext_stepMask t

/-! ### The streamer -/

theorem frameMask_streamMask {s t : State} (h : s.frameMask = t.frameMask) : s.streamMask = t.streamMask := by
  unfold State.streamMask; rw [h]

theorem fsReturn_streamMask (s : State) : s.fsReturn.streamMask = s.streamMask := by
  unfold State.fsReturn
  split <;> rfl

theorem afterLoad_streamMask (s : State) : s.afterLoad.streamMask = s.streamMask := by
  unfold State.afterLoad
  split <;> rfl

theorem fsRow_streamMask (s : State) : (fsRow s).state.streamMask = s.streamMask := by
  unfold fsRow
  split
  · rfl
  · rfl
  · rfl
  · split
    · cases s.inp.tx_byte_ack <;> rfl
    · rfl
  · rfl
  · split
    · refine Run.keeps_bind _ ?_ fun t ht => by rw [← ht]; exact afterLoad_streamMask t
      unfold loadByte
      cases s.inp.fb_ack <;> rfl
    · exact afterLoad_streamMask s
  · rfl
  · cases s.inp.tx_bulk_ack <;> rfl
  · unfold State.waitFifo
    split
    · rfl
    · simp only [Run.bind_done, Run.state_done, State.afterPush]
      split <;> rfl
  · simp only [Run.state_done, State.advance]
    split
    · rfl
    · split <;> rfl
  · unfold State.waitDrain
    split <;> rfl
  · rfl
  · simp only [Run.state_done]; rw [fsReturn_streamMask]; rfl

theorem streamRow_streamMask (s : State) : (streamRow s).state.streamMask = s.streamMask := by
  unfold streamRow
  split
  · exact fsRow_streamMask s
  · exact frameMask_streamMask (feRow_frameMask s)

theorem streamRun_streamMask (n : Nat) (s : State) : (streamRun n s).state.streamMask = s.streamMask := by
  induction n generalizing s with
  | zero => rfl
  | succ n ih =>
    unfold streamRun
    split
    · rfl
    · exact Run.keeps_bind _ (streamRow_streamMask s) fun t ht => by rw [ih, ht]

theorem streamOp_streamMask (s : State) : (streamOp s).state.streamMask = s.streamMask := by
  rw [streamOp, streamRun_streamMask]; rfl

/-! ### The host commands -/

/-- Without what CLEAR and UPDATE may write after their acceptance: a stream's fields and `busy`. -/
def State.commandMask (s : State) : State := { s.streamMask with busy := false }

theorem streamCommand_commandMask (s : State) : ((streamOp s).bind finishOp).state.commandMask = s.commandMask := by
  refine Run.keeps_bind _ ?_ fun t ht => ?_
  · unfold State.commandMask; rw [streamOp_streamMask]
  · rw [← ht]; rfl

end Sys2Proof.Machine
end

