-- ==== Sys2Proof/Laws/Progress.lean ====
section
/-! SUPPORT. With collaborators that complete, every row of a command brings it nearer to its end (R161, R192, R209). -/

namespace Sys2Proof.Machine

/-- Rows FE has left in a frame with its own bracket; six before it is started. -/
def frameLeft (f : FeState) : Nat :=
  match f with
  | .F_IDLE => 6
  | .F_CS_LO => 5
  | .F_B0 => 4
  | .F_B1 => 3
  | .F_B2 => 2
  | .F_CS_HI => 1

/-- More than any stream has left. -/
def streamBound (s : State) : Nat := 24 + 10 * groupsAfterFirst s

/-- A bound on the rows the command in progress has left. -/
def workLeft (s : State) : Nat :=
  let r := s.romLength - s.pc - 1
  match s.q_st with
  | .Q_IDLE => 0
  | .Q_DONE => 1
  | .Q_FILL => 2 + (if s.fs_st = .S_IDLE then streamBound s - 3 else rowsLeft s)
  | .Q_UPD => 2 + (if s.fs_st = .S_IDLE then streamBound s - 3 else rowsLeft s)
  | .Q_STEP_NEXT => streamBound s + 30 * r + 1
  | .Q_STEP_DLY => streamBound s + 30 * r + 2
  | .Q_STEP_DAT => streamBound s + 30 * r + 3 + frameLeft s.fe_st
  | .Q_STEP_IDX => streamBound s + 30 * r + 10 + frameLeft s.fe_st
  | .Q_RST_WAIT => streamBound s + 30 * s.romLength + 1
  | .Q_RST_HI => streamBound s + 30 * s.romLength + 2
  | .Q_RST_HOLD => streamBound s + 30 * s.romLength + 3
  | .Q_RST_LO => streamBound s + 30 * s.romLength + 4
  | .Q_CFG => streamBound s + 30 * s.romLength + 5

/-- The block waits for no collaborator: none has been asked in vain, and no flag is up that it looks at. -/
def State.goesOn (s : State) : Prop := s.heldEvent = none ∧ s.heldByFlag = false

/-- Ready collaborators hold nothing up. -/
theorem State.goesOn_of_ready {s : State} (h : s.collaboratorsReady = true) : s.goesOn := by
  obtain ⟨h1, h2, h3, h4, h5, h6⟩ := State.ready_flags h
  refine ⟨?_, by simp [State.heldByFlag, h5, h6]⟩
  unfold State.heldEvent
  cases s.fe_st <;> cases s.fs_st <;> cases s.q_st <;> simp [h1, h2, h3, h4]

/-- A row of FE that nothing holds up is completed. -/
theorem feRow_goesOn {s : State} (h : s.goesOn) : ∃ t, feRow s = .done t := by
  have h := h.1
  unfold State.heldEvent at h
  unfold feRow
  cases hf : s.fe_st <;> simp only [hf] at h <;> simp [State.ask] <;> simp at h <;> simp [h]

/-- A row of a stream that nothing holds up is completed. -/
theorem streamRow_goesOn {s : State} (h : s.goesOn) : ∃ t, streamRow s = .done t := by
  unfold streamRow
  split
  · rename_i hf
    obtain ⟨h, g⟩ := h
    unfold State.heldEvent at h
    unfold State.heldByFlag at g
    unfold fsRow
    cases hs : s.fs_st <;> simp only [hf, hs] at h g <;> simp [State.ask, State.waitFifo, State.waitDrain] <;> simp at h g
    · cases hm : s.par.BULK_MARKER <;> simp [hm] at h <;> simp [h]
    · cases hc : s.src <;> simp [hc] at h <;> simp [loadByte, State.ask, h]
    · simp [h]
    · simp [g]
    · simp [g]
  · exact feRow_goesOn h

theorem romLength_eq {s t : State} (h : t.rom = s.rom) : t.romLength = s.romLength := by simp [State.romLength, h]

/-- Inside a stream. -/
theorem stream_left {s t : State} (h : Inv s) (hs : s.fs_st ≠ .S_IDLE) (ht : streamRow s = .done t) : workLeft t < workLeft s := by
  have kt : Inv t := by have := streamRow_inv h hs; rwa [ht] at this
  have l := streamRow_left h hs ht
  have ws : workLeft s = 2 + rowsLeft s := by
    rcases h.fsOwner hs with q | q <;> simp [workLeft, q, hs]
  by_cases he : t.fs_st = .S_IDLE
  · have q := streamRow_last h hs ht he
    have w : workLeft t = 1 := by simp [workLeft, q]
    omega
  · have wt : workLeft t = 2 + rowsLeft t := by
      rcases kt.fsOwner he with q | q <;> simp [workLeft, q, he]
    omega

/-- Inside a register write. -/
theorem frame_left {s t : State} (h : Inv s) (hf : s.fe_st ≠ .F_IDLE) (hs : s.fs_st = .S_IDLE) (ht : feRow s = .done t) :
    workLeft t < workLeft s := by
  rcases h.feOwner hf with ⟨o1, o2, o3⟩ | ⟨o1, -⟩
  swap
  · rw [hs] at o1; cases o1
  have mv := State.feReturn_moves
  unfold feRow at ht
  have fin : ∀ u : State, u.par = s.par → u.rom = s.rom → u.pc = s.pc → u.q_st = s.q_st → u.fs_st = .S_IDLE → s.fe_st = .F_CS_HI →
      workLeft u.feReturn < workLeft s := by
    intro u hp hr hc hq hi hst
    have e : streamBound u.feReturn = streamBound s := by simp [streamBound, groupsAfterFirst, hp]
    have e2 : u.feReturn.romLength = s.romLength := romLength_eq (by simp [hr])
    have e3 : u.feReturn.pc = s.pc := by simp [hc]
    have e4 := ((mv u).1 hi).2
    unfold workLeft
    simp only [e, e2, e3, e4, hq, hst]
    rcases o3 with ⟨q, -⟩ | ⟨q, -⟩ <;> simp [q, frameLeft]
  have same : ∀ u : State, u.par = s.par → u.rom = s.rom → u.pc = s.pc → u.q_st = s.q_st → frameLeft u.fe_st < frameLeft s.fe_st →
      workLeft u < workLeft s := by
    intro u hp hr hc hq hl
    have e1 : streamBound u = streamBound s := by simp [streamBound, groupsAfterFirst, hp]
    have e2 : u.romLength = s.romLength := romLength_eq hr
    unfold workLeft
    simp only [e1, e2, hc, hq]
    rcases o3 with ⟨q, -⟩ | ⟨q, -⟩ <;> simp only [q] <;> omega
  cases hst : s.fe_st <;> simp only [hst] at ht
  · contradiction
  · cases ht; exact same _ (by simp) (by simp) (by simp) (by simp) (by simp [hst, frameLeft])
  · have := ask_done ht; cases this; exact same _ (by simp) (by simp) (by simp) (by simp) (by simp [hst, frameLeft])
  · have := ask_done ht; cases this; exact same _ (by simp) (by simp) (by simp) (by simp) (by simp [hst, frameLeft])
  · have := ask_done ht
    simp only [State.emit_fe_bracket, o2, if_true, Run.done.injEq] at this
    subst this; exact same _ (by simp) (by simp) (by simp) (by simp) (by simp [hst, frameLeft])
  · cases ht; exact fin _ (by simp) (by simp) (by simp) (by simp) (by simpa using hs) hst

/-- A wait that nothing holds up is over. -/
theorem delayOp_over (n : Nat) (s : State) (h : n ≠ 0 → s.inp.dly_done = true) :
    ∃ t, delayOp n s = .done t ∧ t.par = s.par ∧ t.rom = s.rom ∧ t.fe_st = s.fe_st ∧ t.q_st = s.delayReturn.q_st ∧
      t.pc = s.delayReturn.pc := by
  by_cases hn : n = 0
  · exact ⟨s.delayReturn, by simp [delayOp, hn], by simp, by simp, by simp, rfl, rfl⟩
  · obtain ⟨t, ht, p, -, -, -, f, -, q, k, -⟩ := delayOp_done n s (h hn)
    exact ⟨t, ht, p.par, p.rom, f.1, q, k⟩

/-- A row of SEQ with everything else at rest. -/
theorem seq_left {s t : State} (h : Inv s) (hg : s.goesOn) (hf : s.fe_st = .F_IDLE) (hs : s.fs_st = .S_IDLE)
    (hq : s.q_st ≠ .Q_IDLE) (ht : seqTick s = .next t) : workLeft t < workLeft s := by
  have hh := hg.1
  unfold State.heldEvent at hh
  simp only [hf, hs] at hh
  have hlen : s.q_st.inStep = true → s.pc < s.romLength := h.pcInRom
  have key : ∀ u : State, u.par = s.par → u.rom = s.rom → streamBound u = streamBound s ∧ u.romLength = s.romLength :=
    fun u hp hr => ⟨by simp [streamBound, groupsAfterFirst, hp], romLength_eq hr⟩
  have hpos : 24 ≤ streamBound s := by simp [streamBound]
  unfold seqTick at ht
  cases q : s.q_st <;> simp only [q] at ht hh
  case Q_IDLE => contradiction
  case Q_CFG =>
    cases ht
    obtain ⟨k1, k2⟩ := key (configLinesOp s).state (by simp [configLinesOp]) (by simp [configLinesOp])
    have k3 : (configLinesOp s).state.q_st = .Q_RST_LO := by simp [configLinesOp, State.move, q]
    unfold workLeft; simp only [k1, k2, k3, q]; omega
  case Q_RST_LO =>
    cases ht
    obtain ⟨k1, k2⟩ := key (resetLow s).state (by simp [resetLow]) (by simp [resetLow])
    have k3 : (resetLow s).state.q_st = .Q_RST_HOLD := by simp [resetLow, State.move, q]
    unfold workLeft; simp only [k1, k2, k3, q]; omega
  case Q_RST_HI =>
    cases ht
    obtain ⟨k1, k2⟩ := key (resetHigh s).state (by simp [resetHigh]) (by simp [resetHigh])
    have k3 : (resetHigh s).state.q_st = .Q_RST_WAIT := by simp [resetHigh, State.move, q]
    unfold workLeft; simp only [k1, k2, k3, q]; omega
  case Q_STEP_NEXT =>
    cases ht
    have hp := hlen (by simp [q, QState.inStep])
    obtain ⟨k1, k2⟩ := key s.stepNext (by simp) (by simp)
    have k3 : s.stepNext.pc = s.pc + 1 := by simp
    have k4 : s.stepNext.fs_st = .S_IDLE := by simp [hs]
    have k5 : s.stepNext.fe_st = .F_IDLE := by simp [hf]
    have k6 : s.stepNext.q_st = if s.pc + 1 = s.romLength then .Q_FILL else .Q_STEP_IDX := by
      unfold State.stepNext; simp only [q, if_true]; split <;> rfl
    by_cases hc : s.pc + 1 = s.romLength
    · rw [if_pos hc] at k6
      unfold workLeft; simp only [k1, k4, k6, q, if_true]; omega
    · rw [if_neg hc] at k6
      unfold workLeft; simp only [k1, k2, k3, k5, k6, q, frameLeft]; omega
  case Q_RST_HOLD =>
    obtain ⟨u, hu, pu, pr, -, uq, -⟩ := delayOp_over s.par.T_RST_HOLD s (by simpa using hh)
    rw [hu] at ht; cases ht
    obtain ⟨k1, k2⟩ := key u pu pr
    have k3 : u.q_st = .Q_RST_HI := by rw [uq]; simp [State.delayReturn, q]
    show workLeft u < _
    unfold workLeft; simp only [k1, k2, k3, q]; omega
  case Q_RST_WAIT =>
    obtain ⟨u, hu, pu, pr, uf, uq, up⟩ := delayOp_over s.par.T_RST_WAIT s (by simpa using hh)
    rw [hu] at ht; cases ht
    obtain ⟨k1, k2⟩ := key u pu pr
    have k3 : u.q_st = .Q_STEP_IDX := by rw [uq]; simp [State.delayReturn, q]
    have k4 : u.pc = 0 := by rw [up]; simp [State.delayReturn, q]
    have k5 : u.fe_st = .F_IDLE := uf.trans hf
    have k6 : 0 < s.romLength := by simp [State.romLength, h.romConstant, Params.N_ROM]
    show workLeft u < _
    unfold workLeft; simp only [k1, k2, k3, k4, k5, q, frameLeft]; omega
  case Q_STEP_DLY =>
    have hp := hlen (by simp [q, QState.inStep])
    unfold withRomEntry at ht
    split at ht
    · rename_i e he
      obtain ⟨u, hu, pu, pr, -, uq, up⟩ := delayOp_over e.dly s (by simpa [he] using hh)
      have ht : Host.Outcome.next (delayOp e.dly s).state = .next t := ht
      rw [hu] at ht; cases ht
      obtain ⟨k1, k2⟩ := key u pu pr
      have k3 : u.q_st = .Q_STEP_NEXT := by rw [uq]; simp [State.delayReturn, q]
      have k4 : u.pc = s.pc := by rw [up]; simp [State.delayReturn, q]
      show workLeft u < _
      unfold workLeft; simp only [k1, k2, k3, k4, q]; omega
    · cases ht
  case Q_STEP_IDX =>
    unfold withRomEntry at ht
    split at ht
    · rename_i e he
      cases ht
      obtain ⟨k1, k2⟩ := key (s.feStartIndex e.reg true) rfl rfl
      have k3 : (s.feStartIndex e.reg true).q_st = .Q_STEP_IDX := q
      have k4 : (s.feStartIndex e.reg true).pc = s.pc := rfl
      have k5 : (s.feStartIndex e.reg true).fe_st = .F_CS_LO := rfl
      unfold workLeft; simp only [k1, k2, k3, k4, k5, q, hf, frameLeft]; omega
    · cases ht
  case Q_STEP_DAT =>
    unfold withRomEntry at ht
    split at ht
    · rename_i e he
      cases ht
      obtain ⟨k1, k2⟩ := key (s.feStart .DAT e.val true) rfl rfl
      have k3 : (s.feStart .DAT e.val true).q_st = .Q_STEP_DAT := q
      have k4 : (s.feStart .DAT e.val true).pc = s.pc := rfl
      have k5 : (s.feStart .DAT e.val true).fe_st = .F_CS_LO := rfl
      unfold workLeft; simp only [k1, k2, k3, k4, k5, q, hf, frameLeft]; omega
    · cases ht
  case Q_FILL =>
    cases ht
    have k1 : rowsLeft s.fsStart = 20 + 10 * groupsAfterFirst s := rfl
    have k3 : s.fsStart.q_st = .Q_FILL := q
    have k4 : s.fsStart.fs_st = .S_CS_LO := rfl
    unfold workLeft; simp only [k1, k3, k4, q, hs, streamBound, if_true, reduceCtorEq, if_false]; omega
  case Q_UPD =>
    cases ht
    have k1 : rowsLeft s.fsStart = 20 + 10 * groupsAfterFirst s := rfl
    have k3 : s.fsStart.q_st = .Q_UPD := q
    have k4 : s.fsStart.fs_st = .S_CS_LO := rfl
    unfold workLeft; simp only [k1, k3, k4, q, hs, streamBound, if_true, reduceCtorEq, if_false]; omega
  case Q_DONE => cases ht; unfold workLeft; simp [q, State.finish]

/-- Every row of a command that nothing holds up brings it nearer to its end. -/
theorem tick_left {s t : State} (h : Inv s) (hg : s.goesOn) (hq : s.q_st ≠ .Q_IDLE) (ht : tick s = .next t) :
    workLeft t < workLeft s := by
  by_cases hs : s.fs_st = .S_IDLE
  · by_cases hf : s.fe_st = .F_IDLE
    · exact seq_left h hg hf hs hq (by simpa [tick, hf, hs] using ht)
    · obtain ⟨u, hu⟩ := feRow_goesOn hg
      have : t = u := by simpa [tick, hf, hu] using ht.symm
      subst this; exact frame_left h hf hs hu
  · obtain ⟨u, hu⟩ := streamRow_goesOn hg
    have : t = u := by
      by_cases hf : s.fe_st = .F_IDLE
      · have e : tick s = fsTick s := by simp [tick, hf, hs]
        rw [e] at ht
        unfold fsTick at ht
        split at ht
        · cases ht
        · split at ht
          · cases ht
          · simp only [streamRow, hf, if_true] at hu
            rw [hu] at ht; cases ht; rfl
      · simp only [streamRow, hf, if_false] at hu
        simpa [tick, hf, hu] using ht.symm
    subst this; exact stream_left h hs hu

/-- A row that a collaborator or a flag holds up leaves everything as it is, but that the block holds its request out (R130, R191, R224). -/
theorem tick_held {s : State} (h : Inv s) :
    (∀ e, s.heldEvent = some e → tick s = .next { s with req := some e }) ∧ (s.heldByFlag = true → tick s = .next s) := by
  have built := h.fsBuilt
  have inLoop := h.countersInRange
  have byte : ∀ b e, (if s.inp.tx_byte_ack = true then none else some (Event.BYTE b)) = some e →
      s.inp.tx_byte_ack = false ∧ e = .BYTE b := by
    intro b e he
    split at he
    · cases he
    · rename_i x; cases he; exact ⟨by simpa using x, rfl⟩
  refine ⟨fun e he => ?_, fun he => ?_⟩
  · unfold State.heldEvent at he
    by_cases ff : s.fe_st = .F_IDLE
    · by_cases fs : s.fs_st = .S_IDLE
      · simp only [ff, fs] at he
        have delay : ∀ n, (if n = 0 ∨ s.inp.dly_done = true then none else some (Event.DELAY n)) = some e →
            (delayOp n s).state = { s with req := some e } := by
          intro n he
          split at he
          · cases he
          · rename_i x; simp only [not_or, Bool.not_eq_true] at x; cases he
            simp [delayOp, x, State.ask]
        simp only [tick, ff, fs, ne_eq, not_true, if_false]
        cases hq : s.q_st <;> simp only [hq, reduceCtorEq] at he
        · simp only [seqTick, hq]; exact congrArg _ ((delay _ he).trans (by simp [hq, ff, fs]))
        · simp only [seqTick, hq]; exact congrArg _ ((delay _ he).trans (by simp [hq, ff, fs]))
        · cases hr : s.romEntry? with
          | none => simp [hr] at he
          | some r =>
            simp only [hr, Option.bind_some] at he
            simp only [seqTick, hq, withRomEntry, hr]; exact congrArg _ ((delay _ he).trans (by simp [hq, ff, fs]))
      · simp only [tick, ff, fs, ne_eq, not_true, not_false_eq_true, if_true, if_false]
        simp only [ff] at he
        cases hs : s.fs_st <;> simp only [hs, reduceCtorEq] at he built fs inLoop
        · exact absurd trivial fs
        · split at he
          · rename_i marker
            obtain ⟨hack, rfl⟩ := byte _ _ he
            simp [fsTick, hs, built, fsRow, marker, hack, State.ask, ff]
          · cases he
        · split at he
          · rename_i x; cases he
            simp [fsTick, hs, built, x.1, fbInRange, inLoop rfl, fsRow, loadByte, State.ask, x.2, ff]
          · cases he
        · split at he
          · cases he
          · rename_i x; cases he
            simp [fsTick, hs, built, fsRow, x, State.ask, ff]
    · simp only [tick, ff, ne_eq, not_false_eq_true, if_true]
      cases hf : s.fe_st <;> simp only [hf, reduceCtorEq] at he
      · exact absurd hf ff
      all_goals (obtain ⟨hack, rfl⟩ := byte _ _ he; simp [feRow, hf, State.ask, hack])
  · simp only [State.heldByFlag, Bool.and_eq_true, decide_eq_true_eq, Bool.or_eq_true] at he
    obtain ⟨ff, ⟨fs, up⟩ | ⟨fs, up⟩⟩ := he <;> rw [fs] at built
    · simp [tick, ff, fs, fsTick, built, fsRow, State.waitFifo, up]
    · simp [tick, ff, fs, fsTick, built, fsRow, State.waitDrain, up]

/-- One row of a command in progress leaves the inputs alone and adds to the trace; the row that ends the command produces `DONE`. -/
theorem tick_trace {s t : State} (h : Inv s) (hq : s.q_st ≠ .Q_IDLE) (ht : tick s = .next t) :
    t.inp = s.inp ∧ (∃ es, t.trace = s.trace ++ es) ∧ (t.q_st = .Q_IDLE → t.trace = s.trace ++ [.DONE]) := by
  have kt : Inv t := by obtain ⟨u, hu, k⟩ := tick_inv h; rw [hu] at ht; cases ht; exact k
  have go : t.inp = s.inp → t.busy = s.busy → (∃ es, t.trace = s.trace ++ es) →
      t.inp = s.inp ∧ (∃ es, t.trace = s.trace ++ es) ∧ (t.q_st = .Q_IDLE → t.trace = s.trace ++ [.DONE]) := by
    intro i b e
    refine ⟨i, e, fun q => ?_⟩
    have b1 := kt.busyIff
    rw [b, h.busyIff, q] at b1
    simp [hq] at b1
  have frame : ∀ r : Run, Reaches s r → r.state.streamMask = s.streamMask → t = r.state →
      t.inp = s.inp ∧ (∃ es, t.trace = s.trace ++ es) ∧ (t.q_st = .Q_IDLE → t.trace = s.trace ++ [.DONE]) := by
    rintro r ⟨es, k⟩ m rfl
    exact go (congrArg State.inp m : r.state.streamMask.inp = s.streamMask.inp) (congrArg State.busy m : r.state.streamMask.busy = s.streamMask.busy)
      ⟨es, k.trace⟩
  unfold tick at ht
  split at ht
  · cases ht; exact frame (feRow s) (feRow_reaches s) (frameMask_streamMask (feRow_frameMask s)) rfl
  · split at ht
    · unfold fsTick at ht
      split at ht
      · cases ht
      · split at ht
        · cases ht
        · cases ht; exact frame (fsRow s) (fsRow_reaches s) (fsRow_streamMask s) rfl
    · have delay : ∀ n, t = (delayOp n s).state →
          t.inp = s.inp ∧ (∃ es, t.trace = s.trace ++ es) ∧ (t.q_st = .Q_IDLE → t.trace = s.trace ++ [.DONE]) := by
        rintro n rfl
        have m := delayOp_delayMask n s
        obtain ⟨es, k⟩ := delayOp_reaches n s
        exact go (congrArg State.inp m : (delayOp n s).state.delayMask.inp = s.delayMask.inp)
          (congrArg State.busy m : (delayOp n s).state.delayMask.busy = s.delayMask.busy) ⟨es, k.trace⟩
      unfold seqTick withRomEntry at ht
      cases q : s.q_st <;> simp only [q] at ht
      case Q_IDLE => contradiction
      case Q_CFG => cases ht; exact go (by simp [configLinesOp]) (by simp [configLinesOp]) ⟨[.CFG true s.par.MODE_INIT true], by simp [configLinesOp]⟩
      case Q_RST_LO => cases ht; exact go (by simp [resetLow]) (by simp [resetLow]) ⟨[.RST false], by simp [resetLow]⟩
      case Q_RST_HOLD => cases ht; exact delay _ rfl
      case Q_RST_HI => cases ht; exact go (by simp [resetHigh]) (by simp [resetHigh]) ⟨[.RST true], by simp [resetHigh]⟩
      case Q_RST_WAIT => cases ht; exact delay _ rfl
      case Q_STEP_IDX =>
        split at ht
        · cases ht; exact go rfl rfl ⟨[], by simp [State.feStartIndex, State.feStart]⟩
        · cases ht
      case Q_STEP_DAT =>
        split at ht
        · cases ht; exact go rfl rfl ⟨[], by simp [State.feStart]⟩
        · cases ht
      case Q_STEP_DLY =>
        split at ht
        · cases ht; exact delay _ rfl
        · cases ht
      case Q_STEP_NEXT => cases ht; exact go (by simp) (by simp) ⟨[], by simp⟩
      case Q_FILL => cases ht; exact go rfl rfl ⟨[], by simp [State.fsStart]⟩
      case Q_UPD => cases ht; exact go rfl rfl ⟨[], by simp [State.fsStart]⟩
      case Q_DONE => cases ht; exact ⟨rfl, ⟨[.DONE], rfl⟩, fun _ => rfl⟩

/-- Nothing is asked of an idle machine: it stays as it is (R252). -/
theorem tick_idle {s : State} (h : Inv s) (hq : s.q_st = .Q_IDLE) (hc : s.inp.cmd_valid = false) : tick s = .next s := by
  have hf : s.fe_st = .F_IDLE := by
    by_contra hf
    rcases h.feOwner hf with ⟨-, -, ⟨q, -⟩ | ⟨q, -⟩⟩ | ⟨o1, -⟩
    · rw [hq] at q; cases q
    · rw [hq] at q; cases q
    · rcases h.fsOwner (by simp [o1]) with q | q <;> · rw [hq] at q; cases q
  have hs : s.fs_st = .S_IDLE := by
    by_contra hs
    rcases h.fsOwner hs with q | q <;> · rw [hq] at q; cases q
  simp [tick, hf, hs, seqTick, hq, acceptRow, portCommand, hc]

/-- Any number of rows with ready collaborators and no new request: less is left, or nothing was. -/
theorem ticks_left (n : Nat) {s t : State} (h : Inv s) (hr : s.collaboratorsReady = true) (hc : s.inp.cmd_valid = false)
    (ht : ticks n s = .next t) :
    Inv t ∧ t.inp = s.inp ∧ (∃ es, t.trace = s.trace ++ es) ∧
      (s.q_st ≠ .Q_IDLE → t.q_st = .Q_IDLE → ∃ es, t.trace = s.trace ++ es ++ [.DONE]) ∧
      (s.q_st = .Q_IDLE → t = s) ∧ workLeft t + (if s.q_st = .Q_IDLE then 0 else min n 1) ≤ workLeft s := by
  induction n generalizing s with
  | zero =>
    cases ht
    exact ⟨h, rfl, ⟨[], by simp⟩, fun a b => absurd b a, fun _ => rfl, by simp⟩
  | succ n ih =>
    rw [ticks] at ht
    obtain ⟨u, hu, ku⟩ := tick_inv h
    rw [hu] at ht
    simp only at ht
    by_cases hq : s.q_st = .Q_IDLE
    · rw [tick_idle h hq hc] at hu
      cases hu
      obtain ⟨a1, a2, a3, a4, a5, a6⟩ := ih h hr hc ht
      refine ⟨a1, a2, a3, a4, a5, ?_⟩
      simpa [hq] using a6
    · obtain ⟨b1, ⟨es, b2⟩, b3⟩ := tick_trace h hq hu
      have bl := tick_left h (State.goesOn_of_ready hr) hq hu
      obtain ⟨a1, a2, ⟨fs, a3⟩, a4, a5, a6⟩ := ih ku (by rw [State.collaboratorsReady, b1]; exact hr) (by rw [b1]; exact hc) ht
      refine ⟨a1, a2.trans b1, ⟨es ++ fs, by rw [a3, b2, List.append_assoc]⟩, fun _ ht' => ?_, fun e => absurd e hq, ?_⟩
      · by_cases hu' : u.q_st = .Q_IDLE
        · have := a5 hu'; subst this
          exact ⟨[], by rw [b3 hu']; simp⟩
        · obtain ⟨gs, a4⟩ := a4 hu' ht'
          exact ⟨es ++ gs, by rw [a4, b2]; simp⟩
      · rw [if_neg hq]
        have : min (n + 1) 1 = 1 := by omega
        omega

end Sys2Proof.Machine
end

