-- ==== Sys2Proof/Laws/Fair.lean ====
section
/-! SUPPORT. What any number of rows, and one operation, does to a command in progress, whatever the environment's levels are: for runs in fair
environments (`P_FAIR` of R256). -/

namespace Sys2Proof.Machine

/-- A row of a command in progress, held up or not. -/
theorem tick_work {s t : State} (h : Inv s) (hq : s.q_st ≠ .Q_IDLE) (ht : tick s = .next t) :
    workLeft t ≤ workLeft s ∧ (s.goesOn → workLeft t < workLeft s) := by
  have strict : s.goesOn → workLeft t < workLeft s := fun hg => tick_left h hg hq ht
  refine ⟨?_, strict⟩
  obtain ⟨k1, k2⟩ := tick_held h
  cases he : s.heldEvent with
  | some e => rw [k1 e he] at ht; cases ht; exact Nat.le_refl _
  | none =>
    cases hf : s.heldByFlag with
    | true => rw [k2 hf] at ht; cases ht; exact Nat.le_refl _
    | false => exact Nat.le_of_lt (strict ⟨he, hf⟩)

/-- A row of an idle block: nothing, or a command is accepted and its request taken down. -/
theorem tick_accept {s t : State} (h : Inv s) (hq : s.q_st = .Q_IDLE) (ht : tick s = .next t) :
    t = s ∨ (s.inp.cmd_valid = true ∧ t.inp = { s.inp with cmd_valid := false }) := by
  have hf : s.fe_st = .F_IDLE := by
    by_contra hf
    rcases h.feOwner hf with ⟨-, -, ⟨q, -⟩ | ⟨q, -⟩⟩ | ⟨o1, -⟩
    · rw [hq] at q; cases q
    · rw [hq] at q; cases q
    · rcases h.fsOwner (by simp [o1]) with q | q <;> · rw [hq] at q; cases q
  have hs : s.fs_st = .S_IDLE := by
    by_contra hs
    rcases h.fsOwner hs with q | q <;> · rw [hq] at q; cases q
  have e : t = acceptRow s := by simpa [tick, hf, hs, seqTick, hq] using ht.symm
  subst e
  unfold acceptRow
  split
  · cases hv : s.inp.cmd_valid
    · left; simp [portCommand, hv]
    · generalize portCommand s = c
      cases c with
      | none => exact .inl rfl
      | some i => cases i <;> first | exact .inl rfl | exact .inr ⟨rfl, rfl⟩
  · exact .inl rfl

/-- Rows leave the inputs alone, but that a request may be taken down. -/
theorem ticks_inp (n : Nat) {s t : State} (h : Inv s) (ht : ticks n s = .next t) :
    t.inp = s.inp ∨ t.inp = { s.inp with cmd_valid := false } := by
  induction n generalizing s with
  | zero => cases ht; exact .inl rfl
  | succ n ih =>
    rw [ticks] at ht
    obtain ⟨u, hu, ku⟩ := tick_inv h
    rw [hu] at ht
    have k := ih ku ht
    by_cases hq : s.q_st = .Q_IDLE
    · rcases tick_accept h hq hu with rfl | ⟨-, e⟩
      · exact k
      · rw [e] at k; exact .inr (by simpa using k)
    · rw [(tick_trace h hq hu).1] at k; exact k

/-- Rows from an idle block that take no request down change nothing. -/
theorem ticks_idle (n : Nat) {s t : State} (h : Inv s) (hq : s.q_st = .Q_IDLE) (ht : ticks n s = .next t) (hi : t.inp = s.inp) : t = s := by
  induction n with
  | zero => cases ht; rfl
  | succ n ih =>
    rw [ticks] at ht
    obtain ⟨u, hu, ku⟩ := tick_inv h
    rw [hu] at ht
    rcases tick_accept h hq hu with rfl | ⟨hv, e⟩
    · exact ih ht
    · have k := ticks_inp n ku ht
      rw [e] at k
      have : t.inp.cmd_valid = false := by rcases k with k | k <;> rw [k]
      rw [hi, hv] at this; cases this

/-- Rows that leave the block busy with its command and its inputs alone bring it no further from the command's end, and nearer where nothing holds
up the first of them. -/
theorem ticks_work (n : Nat) {s t : State} (h : Inv s) (hq : s.q_st ≠ .Q_IDLE) (ht : ticks n s = .next t) (hb : t.busy = true)
    (hi : t.inp = s.inp) :
    Inv t ∧ t.q_st ≠ .Q_IDLE ∧ (∃ es, t.trace = s.trace ++ es) ∧ workLeft t ≤ workLeft s ∧ (0 < n → s.goesOn → workLeft t < workLeft s) := by
  induction n generalizing s with
  | zero => cases ht; exact ⟨h, hq, ⟨[], by simp⟩, Nat.le_refl _, fun k => absurd k (Nat.lt_irrefl 0)⟩
  | succ n ih =>
    rw [ticks] at ht
    obtain ⟨u, hu, ku⟩ := tick_inv h
    rw [hu] at ht
    obtain ⟨i, ⟨es, e⟩, -⟩ := tick_trace h hq hu
    obtain ⟨w1, w2⟩ := tick_work h hq hu
    by_cases hq' : u.q_st = .Q_IDLE
    · have : t = u := ticks_idle n ku hq' ht (hi.trans i.symm)
      subst this
      have := ku.busyIff
      rw [hb, hq'] at this; simp at this
    · obtain ⟨a1, a2, ⟨fs, a3⟩, a4, -⟩ := ih ku hq' ht (hi.trans i.symm)
      exact ⟨a1, a2, ⟨es ++ fs, by rw [a3, e, List.append_assoc]⟩, Nat.le_trans a4 w1, fun _ g => Nat.lt_of_le_of_lt a4 (w2 g)⟩

/-- Every operation run in a busy block leaves it busy, and the inputs alone. -/
theorem exec_busy {i : Instr} {s t : State} (hb : s.busy = true) (ht : exec i s = .next t) : t.busy = true ∧ t.inp = s.inp := by
  have done : ∀ {r : Run}, r.state.busy = s.busy → r.state.inp = s.inp → (.next r.state : Host.Outcome State Fault Refusal) = .next t →
      t.busy = true ∧ t.inp = s.inp := by
    intro r b i e; cases e; exact ⟨b.trans hb, i⟩
  have frame : ∀ {r : Run}, r.state.frameMask = s.frameMask → (.next r.state : Host.Outcome State Fault Refusal) = .next t →
      t.busy = true ∧ t.inp = s.inp := fun m =>
    done (congrArg State.busy m : _) (congrArg State.inp m : _)
  have stream : ∀ {r : Run}, r.state.streamMask = s.streamMask → (.next r.state : Host.Outcome State Fault Refusal) = .next t →
      t.busy = true ∧ t.inp = s.inp := fun m => done (congrArg State.busy m : _) (congrArg State.inp m : _)
  have no : s.canAccept = false := by simp [State.canAccept, hb]
  have same : (.next s : Host.Outcome State Fault Refusal) = .next t → t.busy = true ∧ t.inp = s.inp := by
    intro e; cases e; exact ⟨hb, rfl⟩
  cases i <;> simp only [exec] at ht
  case sendIndex r => exact frame (r := sendIndexOp r s) ((feRun_frameMask 5 _).trans rfl) ht
  case sendData v => exact frame (r := sendDataOp v s) ((feRun_frameMask 5 _).trans rfl) ht
  case writeRegister r v => exact frame (writeRegisterOp_frameMask r v s) ht
  case powerOnStep reg val dly =>
    have m := powerOnStepOp_stepMask reg val dly s
    exact done (congrArg State.busy m : (powerOnStepOp reg val dly s).state.stepMask.busy = s.stepMask.busy)
      (congrArg State.inp m : (powerOnStepOp reg val dly s).state.stepMask.inp = s.stepMask.inp) ht
  case delay n =>
    have m := delayOp_delayMask n s
    exact done (congrArg State.busy m : (delayOp n s).state.delayMask.busy = s.delayMask.busy)
      (congrArg State.inp m : (delayOp n s).state.delayMask.inp = s.delayMask.inp) ht
  case configLines => exact done (r := configLinesOp s) (by simp [configLinesOp]) (by simp [configLinesOp]) ht
  case resetPulse =>
    have m := resetPulseOp_resetMask s
    exact done (congrArg State.busy m : (resetPulseOp s).state.resetMask.busy = s.resetMask.busy)
      (congrArg State.inp m : (resetPulseOp s).state.resetMask.inp = s.resetMask.inp) ht
  case streamBuffered =>
    unfold execStreamBuffered at ht
    split at ht
    · exact stream (streamOp_streamMask s) ht
    · cases ht
  case streamBurst =>
    unfold execStreamBurst at ht
    split at ht
    · exact stream (streamOp_streamMask s) ht
    · cases ht
  case hostInitialize => exact same (by simpa [execHostInitialize, no] using ht)
  case hostClear color => exact same (by simpa [execHostClear, no] using ht)
  case hostUpdate => exact same (by simpa [execHostUpdate, no] using ht)

end Sys2Proof.Machine
end

