-- ==== Sys2Proof/Laws/Pixels.lean ====
section
/-! SUPPORT. The pixels of a stream: the nested loops of R176 list the `W * H` pixels of R171 in its order, and both strategies carry the same bytes. -/

namespace Sys2Proof.Machine

theorem range_mul_flatMap (a b : Nat) : List.range (a * b) = (List.range a).flatMap fun i => (List.range b).map (i * b + ·) := by
  induction a with
  | zero => simp
  | succ a ih => rw [Nat.add_mul, Nat.one_mul, List.range_add, ih, List.range_succ]; simp

theorem columns_eq (w : Nat) : columns w = (List.range w).map (w - 1 - ·) := by
  apply List.ext_getElem
  · simp [columns]
  · intro i h1 h2
    simp [columns]

/-- The pixel words of a stream in the order of its loops (R176). -/
def loopPixels (p : Params) (src : PixelSource) (fill : Half) (fb : Nat → Nat → Byte) : List Half :=
  (columns p.W).flatMap fun c => (List.range p.G).flatMap fun g => positions.map fun k => pixel p src fill (fb c g) k

/-- R171 and R176 give the same pixels in the same order. -/
theorem loopPixels_eq (p : Params) (src : PixelSource) (fill : Half) (fb : Nat → Nat → Byte) (hG : 0 < p.G) (hH : p.G * 8 = p.H) :
    loopPixels p src fill fb = streamPixels p src fill fb := by
  have hH0 : 0 < p.H := by omega
  unfold loopPixels streamPixels
  rw [range_mul_flatMap, columns_eq, List.flatMap_map, List.map_flatMap]
  congr 1
  funext i
  rw [List.map_map]
  conv_rhs => rw [← hH, range_mul_flatMap, List.map_flatMap]
  apply List.flatMap_congr
  intro g hg
  have hg' : g < p.G := List.mem_range.1 hg
  have hp : positions = (List.range 8).map fun n => Fin.ofNat 8 n := by decide
  rw [hp, List.map_map, List.map_map]
  apply List.map_congr_left
  intro k hk
  have hk' : k < 8 := List.mem_range.1 hk
  have hlt : g * 8 + k < p.H := by omega
  simp only [Function.comp_apply, streamPixel]
  have e1 : (i * (p.G * 8) + (g * 8 + k)) / p.H = i := by
    rw [hH, Nat.mul_comm, Nat.mul_add_div hH0, Nat.div_eq_of_lt hlt]; rfl
  have e2 : (i * (p.G * 8) + (g * 8 + k)) % p.H / 8 = g := by
    rw [hH, Nat.mul_comm, Nat.mul_add_mod, Nat.mod_eq_of_lt hlt]; omega
  have e3 : Fin.ofNat 8 (i * (p.G * 8) + (g * 8 + k)) = Fin.ofNat 8 k := by
    apply Fin.ext
    change (i * (p.G * 8) + (g * 8 + k)) % 8 = k % 8
    rw [show i * (p.G * 8) + (g * 8 + k) = 8 * (i * p.G + g) + k by ring, Nat.mul_add_mod]
  rw [e1, e2, e3]

/-- The scratch layout carries the eight pixels, high byte first (R100, R101). -/
theorem expand_toList (px : Fin 8 → Half) : (expand px).toList = (positions.map px).flatMap wordBytes := rfl

/-- The bytes of one group are the same in both strategies (R174). -/
theorem groupTrace_bytes (p : Params) (src : PixelSource) (fill : Half) (fb : Nat → Nat → Byte) (c g : Nat) :
    (groupTrace p src fill fb c g).flatMap eventBytes = (positions.map (pixel p src fill (fb c g))).flatMap wordBytes := by
  have hr : (readTrace src fb c g).flatMap eventBytes = [] := by cases src <;> rfl
  rw [groupTrace, List.flatMap_append, hr, List.nil_append]
  unfold pixelTrace
  cases p.STRATEGY <;> rfl

/-- The bytes of all groups of a stream (R171). -/
theorem groupsTrace_bytes (p : Params) (src : PixelSource) (fill : Half) (fb : Nat → Nat → Byte) (hG : 0 < p.G) (hH : p.G * 8 = p.H) :
    (groupsTrace p src fill fb).flatMap eventBytes = (streamPixels p src fill fb).flatMap wordBytes := by
  rw [← loopPixels_eq p src fill fb hG hH]
  simp only [groupsTrace, loopPixels, List.flatMap_assoc, groupTrace_bytes]

/-- The values a list of words carries come back from its bytes (R67, R101). -/
theorem pairs?_words (vs : List Half) : pairs? (vs.flatMap wordBytes) = some vs := by
  induction vs with
  | nil => rfl
  | cons v vs ih => simp [wordBytes, pairs?, ih]

end Sys2Proof.Machine
end

