-- ==== Sys2Proof/Laws/Panel.lean ====
section
/-! SUPPORT. What the receiver makes of the block's bursts (R77 to R79): of a frame, and of a whole stream. -/

namespace Sys2Proof.Machine

/-! ### Events inside a burst -/

/-- An event that hands bytes over at the narrow width, or none. -/
def Event.isNarrow (e : Event) : Bool :=
  match e with
  | .BYTE _ => true
  | .BULK _ => true
  | .FBREAD _ _ _ => true
  | .CMD _ => false
  | .DONE => false
  | .CFG _ _ _ => false
  | .CS _ => false
  | .RST _ => false
  | .WIDTH _ => false
  | .WORD _ => false
  | .DELAY _ => false

/-- An event that hands a word over at the wide width, or none. -/
def Event.isWide (e : Event) : Bool :=
  match e with
  | .WORD _ => true
  | .FBREAD _ _ _ => true
  | .BYTE _ => false
  | .BULK _ => false
  | .CMD _ => false
  | .DONE => false
  | .CFG _ _ _ => false
  | .CS _ => false
  | .RST _ => false
  | .WIDTH _ => false
  | .DELAY _ => false

/-- The words an event puts into the FIFO. -/
def eventWords (e : Event) : List Half :=
  match e with
  | .WORD w => [w]
  | _ => []

/-- Narrow events add their bytes to the burst. -/
theorem emits_narrow (es : List Event) (s : State) (h : es.all Event.isNarrow = true) (hd : s.inp.tx_delivers = true)
    (hw : s.out.bus_width = .W8) (hf : s.out.fifo = []) :
    (s.emits es).out = { s.out with rx := s.out.rx ++ es.flatMap eventBytes } ∧ (s.emits es).lines_oe = s.lines_oe := by
  induction es generalizing s with
  | nil => simp
  | cons e es ih =>
    simp only [List.all_cons, Bool.and_eq_true] at h
    have step : (s.complete e).out = { s.out with rx := s.out.rx ++ eventBytes e } ∧ (s.complete e).lines_oe = s.lines_oe ∧
        (s.complete e).inp = s.inp := by
      have hc : byteClear s = true := by simp [byteClear, hd, hw, hf]
      have hk := h.1
      cases e <;> simp [Event.isNarrow] at hk <;> simp [Outside.send_empty hf, hc, eventBytes]
    obtain ⟨h1, h2, h3⟩ := step
    have k := ih (s.complete e) h.2 (by rw [h3]; exact hd) (by rw [h1]; exact hw) (by rw [h1]; exact hf)
    rw [State.emits_cons]
    refine ⟨?_, by rw [k.2, h2]⟩
    rw [k.1, h1]
    simp [List.append_assoc]

/-- Wide events add their words to the FIFO. -/
theorem emits_wide (es : List Event) (s : State) (h : es.all Event.isWide = true) (hd : s.inp.tx_delivers = true)
    (hw : s.out.bus_width = .W16) :
    (s.emits es).out = { s.out with fifo := s.out.fifo ++ es.flatMap eventWords } ∧ (s.emits es).lines_oe = s.lines_oe := by
  induction es generalizing s with
  | nil => simp
  | cons e es ih =>
    simp only [List.all_cons, Bool.and_eq_true] at h
    have step : (s.complete e).out = { s.out with fifo := s.out.fifo ++ eventWords e } ∧ (s.complete e).lines_oe = s.lines_oe ∧
        (s.complete e).inp = s.inp := by
      have hc : wordClear s = true := by simp [wordClear, hd, hw]
      have hk := h.1
      cases e <;> simp [Event.isWide] at hk <;> simp [hc, eventWords]
    obtain ⟨h1, h2, h3⟩ := step
    have k := ih (s.complete e) h.2 (by rw [h3]; exact hd) (by rw [h1]; exact hw)
    rw [State.emits_cons]
    refine ⟨?_, by rw [k.2, h2]⟩
    rw [k.1, h1]
    simp [List.append_assoc]

/-- The bytes of wide events are those of their words. -/
theorem wide_bytes (es : List Event) (h : es.all Event.isWide = true) :
    es.flatMap eventBytes = (es.flatMap eventWords).flatMap wordBytes := by
  induction es with
  | nil => rfl
  | cons e es ih =>
    simp only [List.all_cons, Bool.and_eq_true] at h
    rw [List.flatMap_cons, List.flatMap_cons, List.flatMap_append, ih h.2]
    congr 1
    cases e <;> simp_all [Event.isWide, eventBytes, eventWords]

/-! ### A whole burst -/

/-- The receiver has taken the burst: the panel is what R77 to R79 make of it; everything else outside is as before the burst. -/
def Outside.took (o : Outside) (p : Panel) : Outside := { o with rx := [], rx_ok := false }.withPanel p

theorem Outside.closeBurst_took (o : Outside) (marker : Bool) (p : Panel) (hok : o.rx_ok = true) (hf : o.fifo = [])
    (hk : o.panel_lost = false) (hp : o.panel.receive? marker o.rx = some p) : o.closeBurst marker true = o.took p := by
  simp [Outside.closeBurst, hok, hf, hk, hp, Outside.took]

/-- What `panelListens` says, part by part. -/
theorem State.listens_parts {s : State} (h : s.panelListens = true) :
    s.inp.tx_delivers = true ∧ s.out.bus_width = .W8 ∧ s.out.fifo = [] ∧ s.lines_oe = true ∧ s.out.panel_lost = false := by
  simpa [State.panelListens, State.wireClear, and_assoc] using h

/-- A bracketed frame reaches the receiver as one burst. -/
theorem frame_out (s : State) (h : s.panelListens = true) (bs : List Byte) (p : Panel)
    (hp : s.out.panel.receive? s.par.BULK_MARKER bs = some p) :
    (s.emits (frameTrace true bs)).out = s.out.took p ∧ (s.emits (frameTrace true bs)).lines_oe = true := by
  obtain ⟨hd, hw, hf, hl, hk⟩ := State.listens_parts h
  have hn : (bs.map Event.BYTE).all Event.isNarrow = true := by simp [Event.isNarrow]
  have hb : (bs.map Event.BYTE).flatMap eventBytes = bs := by
    rw [List.flatMap_map]; simp [eventBytes]
  obtain ⟨k1, k2⟩ := emits_narrow (bs.map Event.BYTE) (s.emit (.CS false)) hn (by simpa using hd) (by simpa [Outside.openBurst_empty hf] using hw)
    (by simp [Outside.openBurst_empty hf, hf])
  have e : frameTrace true bs = [.CS false] ++ bs.map Event.BYTE ++ [.CS true] := by simp [frameTrace]
  rw [e, State.emits_append, State.emits_append]
  simp only [State.emits_cons, State.emits_nil, State.complete_cs_high, State.complete_cs_low, State.emit_cs_high_out,
    State.emit_cs_high_lines_oe, k1, k2, State.emit_cs_low_lines_oe, hl, hb, State.emits_par, State.emit_par, and_true]
  have a : ({ (s.emit (.CS false)).out with rx := (s.emit (.CS false)).out.rx ++ bs } : Outside) =
      { s.out with rx := bs, rx_ok := true } := by simp [Outside.openBurst_empty hf, hl]
  rw [a, Outside.closeBurst_took { s.out with rx := bs, rx_ok := true } _ p rfl hf hk hp]
  rfl

/-- An Index burst selects a register (R77). -/
theorem receive_index (marker : Bool) (p : Panel) (r : Byte) : p.receive? marker (indexFrame r) = some { p with ir := some r } := rfl

/-- A Data burst writes the selected register (R78). -/
theorem receive_data (marker : Bool) (p : Panel) (v : Half) : p.receive? marker (dataFrame v) = p.data? v := by
  simp [dataFrame, Panel.receive?, Panel.frame?, Config.MARK_DATA, Config.MARK_INDEX]

/-- A list of bulk writes to the memory-write register adds to the pixels and to nothing else (R79). -/
theorem bulkWrite_pixels (vs : List Half) (p : Panel) :
    vs.foldl (Panel.bulkWrite Config.REG_MEMORY_WRITE) p = { p with pix := p.pix ++ vs } := by
  induction vs generalizing p with
  | nil => simp
  | cons v vs ih => simp [ih, Panel.bulkWrite]

/-- The burst of a stream adds its pixels to the panel's (R79, R171). -/
theorem receive_stream (p : Params) (panel : Panel) (src : PixelSource) (fill : Half) (fb : Nat → Nat → Byte) (hp : 0 < p.W * p.H) :
    panel.receive? p.BULK_MARKER (streamBurst p src fill fb) =
      some { panel with ir := some Config.REG_MEMORY_WRITE, pix := panel.pix ++ streamPixels p src fill fb } := by
  have hlen : (streamPixels p src fill fb).length = p.W * p.H := by simp [streamPixels]
  have hk : ∀ vs : List Half, panel.bulk? Config.REG_MEMORY_WRITE (vs.flatMap wordBytes) =
      some { panel with ir := some Config.REG_MEMORY_WRITE, pix := panel.pix ++ vs } := by
    intro vs
    simp [Panel.bulk?, pairs?_words, bulkWrite_pixels]
  unfold streamBurst
  rcases hv : streamPixels p src fill fb with _ | ⟨v, vs⟩
  · rw [hv] at hlen; rw [← hlen] at hp; exact absurd hp (by simp)
  · have k := hk (v :: vs)
    cases hm : p.BULK_MARKER
    · simpa [indexFrame, Panel.receive?, Panel.afterIndex?, wordBytes] using k
    · simpa [indexFrame, Panel.receive?, Panel.afterIndex?, wordBytes] using k

/-- The events of the groups, by strategy. -/
theorem groupsTrace_narrow (p : Params) (src : PixelSource) (fill : Half) (fb : Nat → Nat → Byte) (h : p.STRATEGY = .BUFFERED) :
    (groupsTrace p src fill fb).all Event.isNarrow = true := by
  simp only [groupsTrace, List.all_flatMap, List.all_eq_true]
  intro c _ g _ e he
  simp only [groupTrace, pixelTrace, h, List.mem_append, List.mem_singleton] at he
  rcases he with he | rfl
  · cases src <;> simp only [readTrace, List.mem_singleton, List.not_mem_nil] at he
    subst he; rfl
  · rfl

theorem groupsTrace_wide (p : Params) (src : PixelSource) (fill : Half) (fb : Nat → Nat → Byte) (h : p.STRATEGY = .BURST) :
    (groupsTrace p src fill fb).all Event.isWide = true := by
  simp only [groupsTrace, List.all_flatMap, List.all_eq_true]
  intro c _ g _ e he
  simp only [groupTrace, pixelTrace, h, List.mem_append, List.mem_map] at he
  rcases he with he | ⟨k, -, rfl⟩
  · cases src <;> simp only [readTrace, List.mem_singleton, List.not_mem_nil] at he
    subst he; rfl
  · rfl

/-- A stream reaches the receiver as one burst, in either strategy (R79, R171, R174). -/
theorem stream_out (s : State) (h : s.panelListens = true) (src : PixelSource) (fill : Half) (fb : Nat → Nat → Byte) :
    (s.emits (streamTrace s.par.toParams src fill fb)).out = s.out.took
      { s.out.panel with
        ir := some Config.REG_MEMORY_WRITE
        pix := s.out.pix ++ streamPixels s.par.toParams src fill fb } := by
  obtain ⟨hd, hw, hf, hl, hk⟩ := State.listens_parts h
  obtain ⟨hW, hH, -, hG, hGH⟩ := s.par.geometry
  have hrec := receive_stream s.par.toParams s.out.panel src fill fb (Nat.mul_pos (by omega) (by omega))
  have hbytes := groupsTrace_bytes s.par.toParams src fill fb hG hGH
  generalize hes : groupsTrace s.par.toParams src fill fb = es at hbytes
  -- the head
  let head : List Event := indexTrace false Config.REG_MEMORY_WRITE ++ markerTrace s.par.toParams
  have hhead : head.all Event.isNarrow = true := by
    simp only [head, markerTrace]; cases s.par.BULK_MARKER <;> decide
  have hheadb : head.flatMap eventBytes =
      indexFrame Config.REG_MEMORY_WRITE ++ (if s.par.BULK_MARKER then [Config.MARK_DATA] else []) := by
    simp only [head, markerTrace]; cases s.par.BULK_MARKER <;> rfl
  obtain ⟨a1, a2⟩ := emits_narrow head (s.emit (.CS false)) hhead (by simpa using hd) (by simpa [Outside.openBurst_empty hf] using hw)
    (by simp [Outside.openBurst_empty hf, hf])
  have a1' : ((s.emit (.CS false)).emits head).out = { s.out with rx := head.flatMap eventBytes, rx_ok := true } := by
    rw [a1]; simp [Outside.openBurst_empty hf, hl]
  have a2' : ((s.emit (.CS false)).emits head).lines_oe = true := by rw [a2]; simpa using hl
  have hinp : ((s.emit (.CS false)).emits head).inp = s.inp := by simp
  have hpar : ((s.emit (.CS false)).emits head).par = s.par := by simp
  generalize hu : (s.emit (.CS false)).emits head = u at a1' a2' hinp hpar
  have close : ∀ v : State, v.par = s.par → v.lines_oe = true → v.out = { s.out with
      rx := streamBurst s.par.toParams src fill fb, rx_ok := true } → (v.emit (.CS true)).out = s.out.took
        { s.out.panel with
          ir := some Config.REG_MEMORY_WRITE
          pix := s.out.pix ++ streamPixels s.par.toParams src fill fb } := by
    intro v vp vl vo
    rw [State.emit_cs_high_out, vp, vl, vo, Outside.closeBurst_took
      { s.out with rx := streamBurst s.par.toParams src fill fb, rx_ok := true } _ _ rfl hf hk hrec]
    rfl
  cases hst : s.par.STRATEGY
  · have e : streamTrace s.par.toParams src fill fb = [.CS false] ++ head ++ es ++ [.CS true] := by
      simp [streamTrace, headTrace, tailTrace, widenTrace, narrowTrace, hst, hes, head]
    rw [e, State.emits_append, State.emits_append, State.emits_append]
    simp only [State.emits_cons, State.emits_nil, State.complete_cs_high, State.complete_cs_low]
    rw [hu]
    obtain ⟨b1, b2⟩ := emits_narrow es u (by rw [← hes]; exact groupsTrace_narrow _ _ _ _ hst) (by rw [hinp]; exact hd)
      (by rw [a1']; exact hw) (by rw [a1']; exact hf)
    refine close _ (by simpa using hpar) (by rw [b2, a2']) ?_
    rw [b1, a1', hbytes, hheadb]
    simp [streamBurst]
  · have e : streamTrace s.par.toParams src fill fb = [.CS false] ++ head ++ [.WIDTH .W16] ++ es ++ [.WIDTH .W8] ++ [.CS true] := by
      simp [streamTrace, headTrace, tailTrace, widenTrace, narrowTrace, hst, hes, head]
    rw [e, State.emits_append, State.emits_append, State.emits_append, State.emits_append, State.emits_append]
    simp only [State.emits_cons, State.emits_nil, State.complete_cs_high, State.complete_cs_low, State.complete_widen,
      State.complete_narrow]
    rw [hu]
    have hwide : es.all Event.isWide = true := by rw [← hes]; exact groupsTrace_wide _ _ _ _ hst
    obtain ⟨b1, b2⟩ := emits_wide es (u.emit (.WIDTH .W16)) hwide (by simpa [hinp] using hd) (by simp)
    refine close _ (by simpa using hpar) (by simp [b2, a2']) ?_
    rw [State.emit_width_out, b1, State.emit_width_out, a1']
    have hwb : (es.flatMap eventWords).flatMap wordBytes = (streamPixels s.par.toParams src fill fb).flatMap wordBytes := by
      rw [← wide_bytes es hwide, hbytes]
    simp [Outside.drain, streamBurst, hf, hw, hheadb, hwb]

/-- A burst that the receiver gives no result for leaves its state undefined (R78, R79, R222). -/
theorem State.emit_high_lost (s : State) (h : s.out.panel.receive? s.par.BULK_MARKER s.out.rx = none) :
    (s.emit (.CS true)).out.panel = Panel.free s.out.panel_free ∧ (s.emit (.CS true)).out.panel_lost = true := by
  show (s.out.closeBurst _ _).panel = _ ∧ (s.out.closeBurst _ _).panel_lost = _
  simp only [Outside.closeBurst, h]
  split <;> exact ⟨rfl, rfl⟩

end Sys2Proof.Machine
end

