-- ==== Sys2Proof/Laws/PerInstr.lean ====
section
/-! SUPPORT. Statements about every operation as syntax, one lemma per constructor: the length of its encoding (R90 to R94, R103 to R105). -/

namespace Sys2Proof.Laws

/-- How many bytes an operation's encoding has in the place it stands in. -/
def EncodedLength.bytes (i : Instr) : Nat :=
  match formatOf i with
  | .wire =>
    match i with
    | .writeRegister _ _ => 6
    | .streamBuffered => 4
    | .streamBurst => 4
    | _ => 3
  | .rom => 4
  | .cmd => 3
  | .seq => 1
  | .dly => 1

/-- The encoding has the length the table gives the operation's row: 24 bits for a frame or a command, 48 for a register write, 32 for a ROM
word or the head of a bulk burst, one byte for the sequencer's code and for a delay. -/
def EncodedLength.Statement (i : Instr) : Prop := (encode i).length = EncodedLength.bytes i

theorem EncodedLength.sendIndex (r : Byte) : EncodedLength.Statement (.sendIndex r) := rfl
theorem EncodedLength.sendData (v : Half) : EncodedLength.Statement (.sendData v) := rfl
theorem EncodedLength.writeRegister (r : Byte) (v : Half) : EncodedLength.Statement (.writeRegister r v) := rfl
theorem EncodedLength.powerOnStep (reg : Byte) (val : Half) (dly : Nat) : EncodedLength.Statement (.powerOnStep reg val dly) := rfl
theorem EncodedLength.delay (n : Nat) : EncodedLength.Statement (.delay n) := rfl
theorem EncodedLength.configLines : EncodedLength.Statement .configLines := rfl
theorem EncodedLength.resetPulse : EncodedLength.Statement .resetPulse := rfl
theorem EncodedLength.streamBuffered : EncodedLength.Statement .streamBuffered := rfl
theorem EncodedLength.streamBurst : EncodedLength.Statement .streamBurst := rfl
theorem EncodedLength.hostInitialize : EncodedLength.Statement .hostInitialize := rfl
theorem EncodedLength.hostClear (color : Half) : EncodedLength.Statement (.hostClear color) := rfl
theorem EncodedLength.hostUpdate : EncodedLength.Statement .hostUpdate := rfl

end Sys2Proof.Laws
end

