-- ==== Sys2Proof/Laws/Traces.lean ====
section
/-! SUPPORT. The projections of a trace (R11): the bursts and the timed events are those of `observe`, each alone. -/

namespace Sys2Proof.Machine

/-- The bytes of an observed burst. -/
def Observed.burst? (o : Observed) : Option (List Byte) :=
  match o with
  | .burst bs => some bs
  | .timed _ => none

/-- The event of an observed timed event. -/
def Observed.timed? (o : Observed) : Option Event :=
  match o with
  | .burst _ => none
  | .timed e => some e

/-- The bursts of `observe` are those of `wire`, whatever burst is open at the start. -/
theorem observeFrom_wire (es : List Event) (burst : Option (List Byte)) :
    (observeFrom burst es).filterMap Observed.burst? = wireFrom burst es := by
  induction es generalizing burst with
  | nil => cases burst <;> rfl
  | cons e es ih =>
    cases e <;> try (cases burst <;> exact ih _)
    rename_i l
    cases l
    · cases burst <;> exact ih _
    · cases burst
      · exact ih _
      · exact congrArg (List.cons _) (ih _)

/-- The timed events of `observe` are those of `timing`. -/
theorem observeFrom_timing (es : List Event) (burst : Option (List Byte)) :
    (observeFrom burst es).filterMap Observed.timed? = timing es := by
  induction es generalizing burst with
  | nil => cases burst <;> rfl
  | cons e es ih =>
    cases e <;> try (cases burst <;> first | exact ih _ | exact congrArg (List.cons _) (ih _))
    rename_i l
    cases l <;> cases burst <;> exact ih _

theorem observe_wire (es : List Event) : (observe es).filterMap Observed.burst? = wire es := observeFrom_wire es none

theorem observe_timing (es : List Event) : (observe es).filterMap Observed.timed? = timing es := observeFrom_timing es none

end Sys2Proof.Machine
end

