-- ==== Sys2Proof/Laws/Unspecified.lean ====
section
/-! SUPPORT. Two runs that differ only in registers whose reset value is unspecified (R50): every such register is written before it is
read (R51), so the two runs stay equal in everything else. -/

namespace Sys2Proof.Machine

/-- What the state holds in the registers R50 leaves unspecified. -/
def State.unspecified (s : State) : Unspecified :=
  { pc := s.pc, op := s.op, color := s.color, fe_kind := s.fe_kind, fe_arg := s.fe_arg, fe_bracket := s.fe_bracket, src := s.src,
    fill_color := s.fill_color, col := s.col, grp := s.grp, bit := s.bit, cur := s.cur, scratch := s.scratch }

/-- The registers that will be read before they are written, in states `q`, `fe`, `fs` of the three machines, hold the same in `v` and `u`. -/
structure AgreeOn (q : QState) (fe : FeState) (fs : FsState) (v u : Unspecified) : Prop where
  pc : q.inStep = true → u.pc = v.pc
  src : (q = .Q_FILL ∨ q = .Q_UPD) ∨ fs ≠ .S_IDLE → u.src = v.src ∧ (v.src = .CONST → u.fill_color = v.fill_color)
  frame : fe ≠ .F_IDLE → u.fe_kind = v.fe_kind ∧ u.fe_bracket = v.fe_bracket ∧ lo u.fe_arg = lo v.fe_arg ∧
    (v.fe_kind = .DAT → u.fe_arg = v.fe_arg)
  counters : fs.inLoop = true → u.col = v.col ∧ u.grp = v.grp
  cur : fs = .S_EXPAND ∨ fs = .S_PUSH → v.src = .FB → u.cur = v.cur
  bit : fs = .S_PUSH → u.bit = v.bit
  scratch : fs = .S_BULK → u.scratch = v.scratch

/-- Fewer registers are still to be read. -/
theorem AgreeOn.mono {q q' : QState} {fe fe' : FeState} {fs fs' : FsState} {v u : Unspecified} (h : AgreeOn q fe fs v u)
    (c1 : q'.inStep = true → q.inStep = true)
    (c2 : (q' = .Q_FILL ∨ q' = .Q_UPD) ∨ fs' ≠ .S_IDLE → (q = .Q_FILL ∨ q = .Q_UPD) ∨ fs ≠ .S_IDLE)
    (c3 : fe' ≠ .F_IDLE → fe ≠ .F_IDLE) (c4 : fs'.inLoop = true → fs.inLoop = true)
    (c5 : fs' = .S_EXPAND ∨ fs' = .S_PUSH → fs = .S_EXPAND ∨ fs = .S_PUSH) (c6 : fs' = .S_PUSH → fs = .S_PUSH)
    (c7 : fs' = .S_BULK → fs = .S_BULK) : AgreeOn q' fe' fs' v u :=
  ⟨fun k => h.pc (c1 k), fun k => h.src (c2 k), fun k => h.frame (c3 k), fun k => h.counters (c4 k), fun k => h.cur (c5 k),
    fun k => h.bit (c6 k), fun k => h.scratch (c7 k)⟩

/-- `s` and `s.withUnspecified u` agree on what will be read. -/
def Agree (s : State) (u : Unspecified) : Prop := AgreeOn s.q_st s.fe_st s.fs_st s.unspecified u

/-- Where the work came to, with other values in the unspecified registers. -/
def Run.withUnspecified (u : Unspecified) (r : Run) : Run :=
  match r with
  | .done s => .done (s.withUnspecified u)
  | .wait s => .wait (s.withUnspecified u)

/-- The two pieces of work came equally far, to states that agree. -/
def RunAgree (r r' : Run) : Prop := ∃ u, Agree r.state u ∧ r' = r.withUnspecified u

theorem RunAgree.bind {r r' : Run} {f f' : State → Run} (h : RunAgree r r')
    (k : ∀ t u, r = .done t → Agree t u → RunAgree (f t) (f' (t.withUnspecified u))) : RunAgree (r.bind f) (r'.bind f') := by
  obtain ⟨u, ha, rfl⟩ := h
  cases r with
  | done t => exact k t u rfl ha
  | wait t => exact ⟨u, ha, rfl⟩

theorem RunAgree.done {s : State} {u : Unspecified} (h : Agree s u) : RunAgree (.done s) (.done (s.withUnspecified u)) := ⟨u, h, rfl⟩

theorem emit_unspecified (s : State) (u : Unspecified) (e : Event) : (s.withUnspecified u).emit e = (s.emit e).withUnspecified u := by
  cases e with
  | CS l => cases l <;> rfl
  | _ => rfl

theorem emit_own (s : State) (e : Event) : (s.emit e).unspecified = s.unspecified := by
  cases e with
  | CS l => cases l <;> rfl
  | _ => rfl

theorem ask_state {s t : State} {x : Bool} {e : Event} (h : s.ask x e = .done t) : t = s.emit e := by
  cases x
  · cases h
  · simpa [State.ask] using h.symm

theorem ask_agree {s : State} {u : Unspecified} (h : Agree s u) (x : Bool) (e : Event) :
    RunAgree (s.ask x e) ((s.withUnspecified u).ask x e) := by
  cases x
  · exact ⟨u, h, rfl⟩
  · refine ⟨u, ?_, ?_⟩
    · simp only [State.ask, if_true, Run.state_done, Agree, emit_own]; simpa [Agree] using h
    · simp only [State.ask, if_true, emit_unspecified]; rfl

/-- After an event and a move of the three machines. -/
theorem Agree.emit_move {s t : State} {u : Unspecified} (h : Agree s u) (e : Event) (ho : t.unspecified = (s.emit e).unspecified)
    (k : AgreeOn s.q_st s.fe_st s.fs_st s.unspecified u → AgreeOn t.q_st t.fe_st t.fs_st s.unspecified u) : Agree t u := by
  unfold Agree; rw [ho, emit_own]; exact k h

/-! ### The frame encoder -/

theorem feReturn_unspecified (s : State) (u : Unspecified) : (s.withUnspecified u).feReturn = s.feReturn.withUnspecified u := by
  cases hf : s.fs_st <;> cases hq : s.q_st <;> simp [State.feReturn, State.withUnspecified, hf, hq]

theorem feReturn_agree {s : State} {u : Unspecified} (h : Agree s u) : Agree s.feReturn u := by
  have o : s.feReturn.unspecified = s.unspecified := by unfold State.feReturn; split <;> rfl
  unfold Agree at h ⊢
  rw [o]
  cases hf : s.fs_st <;> cases hq : s.q_st <;> simp only [State.feReturn, hf, hq] at h ⊢ <;>
    exact h.mono (by simp [QState.inStep]) (by simp) (by simp) (by simp [FsState.inLoop]) (by simp) (by simp) (by simp)

/-- FE moves on within a frame. -/
theorem Agree.fe_st {s : State} {u : Unspecified} (h : Agree s u) (hf : s.fe_st ≠ .F_IDLE) (st : FeState) :
    Agree { s with fe_st := st } u :=
  AgreeOn.mono h (fun x => x) (fun x => x) (fun _ => hf) (fun x => x) (fun x => x) (fun x => x) (fun x => x)

/-- An event leaves the agreement alone. -/
theorem Agree.emit {s : State} {u : Unspecified} (h : Agree s u) (e : Event) : Agree (s.emit e) u := by
  simpa [Agree, emit_own] using h

/-- A byte asked for by FE, and then the next state of FE. -/
theorem byte_agree {s : State} {u : Unspecified} (h : Agree s u) (hf : s.fe_st ≠ .F_IDLE) (b b' : Byte) (hb : b' = b) (st : FeState) :
    RunAgree ((s.ask s.inp.tx_byte_ack (.BYTE b)).bind fun s => .done { s with fe_st := st })
      (((s.withUnspecified u).ask s.inp.tx_byte_ack (.BYTE b')).bind fun s => .done { s with fe_st := st }) := by
  subst hb
  refine (ask_agree h _ _).bind fun t v ht k => RunAgree.done (s := { t with fe_st := st }) (k.fe_st ?_ st)
  rw [ask_state ht]; simpa using hf

theorem feRow_agree {s : State} {u : Unspecified} (h : Agree s u) (hf : s.fe_st ≠ .F_IDLE) :
    RunAgree (feRow s) (feRow (s.withUnspecified u)) := by
  obtain ⟨f1, f2, f3, f4⟩ := h.frame hf
  have b0 : frameByte0 u.fe_kind = frameByte0 s.fe_kind := congrArg frameByte0 f1
  have b1 : frameByte1 u.fe_kind u.fe_arg = frameByte1 s.fe_kind s.fe_arg := by
    have g4 : s.fe_kind = .DAT → u.fe_arg = s.fe_arg := f4
    have g1 : u.fe_kind = s.fe_kind := f1
    rw [g1]
    cases hk : s.fe_kind
    · rfl
    · rw [g4 hk]
  have b2 : frameByte2 u.fe_arg = frameByte2 s.fe_arg := f3
  have row : feRow (s.withUnspecified u) = match s.fe_st with
      | .F_IDLE => .done (s.withUnspecified u)
      | .F_CS_LO => .done { (s.withUnspecified u).emit (.CS false) with fe_st := .F_B0 }
      | .F_B0 => ((s.withUnspecified u).ask s.inp.tx_byte_ack (.BYTE (frameByte0 u.fe_kind))).bind fun s => .done { s with fe_st := .F_B1 }
      | .F_B1 =>
        ((s.withUnspecified u).ask s.inp.tx_byte_ack (.BYTE (frameByte1 u.fe_kind u.fe_arg))).bind fun s => .done { s with fe_st := .F_B2 }
      | .F_B2 =>
        ((s.withUnspecified u).ask s.inp.tx_byte_ack (.BYTE (frameByte2 u.fe_arg))).bind fun s =>
          .done (if s.fe_bracket then { s with fe_st := .F_CS_HI } else s.feReturn)
      | .F_CS_HI => .done ((s.withUnspecified u).emit (.CS true)).feReturn := rfl
  rw [row]
  unfold feRow
  cases hst : s.fe_st
  · exact absurd hst hf
  · simp only
    rw [emit_unspecified]
    exact RunAgree.done (s := { s.emit (.CS false) with fe_st := .F_B0 }) ((h.emit _).fe_st (by simpa using hf) _)
  · exact byte_agree h hf _ _ b0 _
  · exact byte_agree h hf _ _ b1 _
  · simp only
    rw [b2]
    refine (ask_agree h _ _).bind fun t v ht k => ?_
    have ht' := ask_state ht
    have tf : t.fe_st ≠ .F_IDLE := by rw [ht']; simpa using hf
    have tb : (t.withUnspecified v).fe_bracket = t.fe_bracket := (k.frame tf).2.1
    by_cases hb : t.fe_bracket = true
    · rw [if_pos hb, if_pos (tb.trans hb)]
      exact RunAgree.done (s := { t with fe_st := .F_CS_HI }) (k.fe_st tf _)
    · rw [if_neg hb, if_neg (fun x => hb (tb.symm.trans x)), feReturn_unspecified]
      exact RunAgree.done (feReturn_agree k)
  · simp only
    rw [emit_unspecified, feReturn_unspecified]
    exact RunAgree.done (feReturn_agree (h.emit _))

theorem feRun_agree (n : Nat) {s : State} {u : Unspecified} (h : Agree s u) : RunAgree (feRun n s) (feRun n (s.withUnspecified u)) := by
  induction n generalizing s u with
  | zero => exact RunAgree.done h
  | succ n ih =>
    have e : feRun (n + 1) (s.withUnspecified u) =
        if s.fe_st = .F_IDLE then .done (s.withUnspecified u) else (feRow (s.withUnspecified u)).bind (feRun n) := rfl
    rw [e, feRun]
    split
    · exact RunAgree.done h
    · rename_i hf; exact (feRow_agree h hf).bind fun _ _ _ k => ih k

/-- A frame is started with the same operands, whatever FE's registers held. -/
theorem feStart_agree {s : State} {u : Unspecified} (h : Agree s u) (k : FrameKind) (arg arg' : Half) (br : Bool) (hl : lo arg' = lo arg)
    (hd : k = .DAT → arg' = arg) :
    ∃ v, (s.withUnspecified u).feStart k arg' br = (s.feStart k arg br).withUnspecified v ∧ Agree (s.feStart k arg br) v :=
  ⟨{ u with fe_kind := k, fe_arg := arg', fe_bracket := br }, rfl,
    ⟨h.pc, h.src, fun _ => ⟨rfl, rfl, hl, hd⟩, h.counters, h.cur, h.bit, h.scratch⟩⟩

theorem frame_agree {s : State} {u : Unspecified} (h : Agree s u) (k : FrameKind) (arg arg' : Half) (br : Bool) (hl : lo arg' = lo arg)
    (hd : k = .DAT → arg' = arg) : RunAgree (feRun 5 (s.feStart k arg br)) (feRun 5 ((s.withUnspecified u).feStart k arg' br)) := by
  obtain ⟨v, e, a⟩ := feStart_agree h k arg arg' br hl hd
  rw [e]; exact feRun_agree 5 a

theorem writeRegisterOp_agree {s : State} {u : Unspecified} (h : Agree s u) (r : Byte) (v : Half) :
    RunAgree (writeRegisterOp r v s) (writeRegisterOp r v (s.withUnspecified u)) :=
  (frame_agree (s := s) h .IDX (setLo s.fe_arg r) (setLo u.fe_arg r) true (by simp) (by simp)).bind fun t w _ k =>
    frame_agree k .DAT v v true rfl (fun _ => rfl)

/-! ### The streamer -/

theorem px_agree {s : State} {u : Unspecified} (h1 : u.src = s.src) (h2 : s.src = .CONST → u.fill_color = s.fill_color)
    (h3 : s.src = .FB → u.cur = s.cur) : (s.withUnspecified u).px = s.px := by
  funext k
  show pixel s.par.toParams u.src u.fill_color u.cur k = pixel s.par.toParams s.src s.fill_color s.cur k
  rw [h1]
  cases hs : s.src
  · rw [h3 hs]; rfl
  · rw [h2 hs]; rfl

theorem afterMark_agree {s : State} {u : Unspecified} (h : Agree s u) (hs : s.fs_st = .S_MARK) (hf : s.fe_st = .F_IDLE) :
    RunAgree (.done s.afterMark) (.done (s.withUnspecified u).afterMark) := by
  refine ⟨{ u with col := s.par.W - 1, grp := 0 }, ⟨h.pc, fun _ => h.src (.inr (by simp [hs])), ?_, fun _ => ⟨rfl, rfl⟩, ?_, ?_, ?_⟩, rfl⟩
  · intro k; exact absurd hf k
  all_goals simp only [Run.state_done, State.afterMark]; cases s.par.STRATEGY <;> simp

theorem afterLoad_agree {s : State} {u : Unspecified} (h : Agree s u) (hs : s.fs_st = .S_LOAD) (hf : s.fe_st = .F_IDLE)
    (hc : s.src = .FB → u.cur = s.cur) : RunAgree (.done s.afterLoad) (.done (s.withUnspecified u).afterLoad) := by
  have k := h.src (.inr (by simp [hs]))
  have c := h.counters (by simp [hs, FsState.inLoop])
  have e : (s.withUnspecified u).afterLoad = match s.par.STRATEGY with
    | .BURST => { s.withUnspecified u with bit := 0, fs_st := .S_PUSH }
    | .BUFFERED => { s.withUnspecified u with fs_st := .S_EXPAND } := rfl
  rw [e]
  unfold State.afterLoad
  cases s.par.STRATEGY
  · exact ⟨u, ⟨h.pc, fun _ => k, fun x => absurd hf x, fun _ => c, fun _ => hc, by simp, by simp⟩, rfl⟩
  · exact ⟨{ u with bit := 0 }, ⟨h.pc, fun _ => k, fun x => absurd hf x, fun _ => c, fun _ => hc, fun _ => rfl, by simp⟩, rfl⟩

theorem afterPush_agree {s : State} {u : Unspecified} (h : Agree s u) (hs : s.fs_st = .S_PUSH) (hf : s.fe_st = .F_IDLE) :
    RunAgree (.done s.afterPush) (.done (s.withUnspecified u).afterPush) := by
  have k := h.src (.inr (by simp [hs]))
  have c := h.counters (by simp [hs, FsState.inLoop])
  have b : u.bit = s.bit := h.bit hs
  have r := h.cur (.inr hs)
  have e : (s.withUnspecified u).afterPush =
    if u.bit = 7 then { s.withUnspecified u with fs_st := .S_ADV } else { s.withUnspecified u with bit := u.bit + 1 } := rfl
  rw [e, b]
  unfold State.afterPush
  split
  · exact ⟨u, ⟨h.pc, fun _ => k, fun x => absurd hf x, fun _ => c, by simp, by simp, by simp⟩, rfl⟩
  · exact ⟨{ u with bit := s.bit + 1 }, ⟨h.pc, fun _ => k, fun x => absurd hf x, fun _ => c, fun _ => r, fun _ => rfl, by
      simp [hs]⟩, rfl⟩

theorem advance_agree {s : State} {u : Unspecified} (h : Agree s u) (hs : s.fs_st = .S_ADV) (hf : s.fe_st = .F_IDLE) :
    RunAgree (.done s.advance) (.done (s.withUnspecified u).advance) := by
  have k := h.src (.inr (by simp [hs]))
  obtain ⟨c, g⟩ : u.col = s.col ∧ u.grp = s.grp := h.counters (by simp [hs, FsState.inLoop])
  have e : (s.withUnspecified u).advance =
    if u.grp ≠ s.par.G - 1 then { s.withUnspecified u with grp := u.grp + 1, fs_st := .S_LOAD }
    else if u.col ≠ 0 then { s.withUnspecified u with col := u.col - 1, grp := 0, fs_st := .S_LOAD }
    else { s.withUnspecified u with
      fs_st := match s.par.STRATEGY with
        | .BURST => .S_DRAIN
        | .BUFFERED => .S_CS_HI } := rfl
  rw [e, c, g]
  unfold State.advance
  split
  · exact ⟨{ u with grp := s.grp + 1 }, ⟨h.pc, fun _ => k, fun x => absurd hf x, fun _ => ⟨c, rfl⟩, by simp, by simp, by simp⟩, rfl⟩
  · split
    · exact ⟨{ u with col := s.col - 1, grp := 0 }, ⟨h.pc, fun _ => k, fun x => absurd hf x, fun _ => ⟨rfl, rfl⟩, by simp, by simp, by
        simp⟩, rfl⟩
    · refine ⟨u, ⟨h.pc, fun _ => k, fun x => absurd hf x, ?_, ?_, ?_, ?_⟩, rfl⟩
      all_goals simp only [Run.state_done]; cases s.par.STRATEGY <;> simp [FsState.inLoop]

theorem fsReturn_agree {s : State} {u : Unspecified} (h : Agree s u) :
    RunAgree (.done s.fsReturn) (.done (s.withUnspecified u).fsReturn) := by
  refine ⟨u, ?_, ?_⟩
  · have o : s.fsReturn.unspecified = s.unspecified := by unfold State.fsReturn; split <;> rfl
    have f : s.fsReturn.fe_st = s.fe_st := by unfold State.fsReturn; split <;> rfl
    have i : s.fsReturn.fs_st = .S_IDLE := by unfold State.fsReturn; split <;> rfl
    have q : s.fsReturn.q_st = (match s.q_st with | .Q_FILL => .Q_DONE | .Q_UPD => .Q_DONE | q => q) := by
      unfold State.fsReturn; split <;> simp_all
    unfold Agree at h ⊢
    simp only [Run.state_done]
    rw [o, f, i, q]
    refine h.mono ?_ ?_ (fun x => x) (by simp [FsState.inLoop]) (by simp) (by simp) (by simp)
    · cases s.q_st <;> simp [QState.inStep]
    · cases s.q_st <;> simp
  · simp only [Run.withUnspecified]
    cases hq : s.q_st <;> simp [State.fsReturn, State.withUnspecified, hq]

/-- FS moves on and nothing new is read. -/
theorem Agree.fs_st {s : State} {u : Unspecified} (h : Agree s u) (hs : s.fs_st ≠ .S_IDLE) (st : FsState)
    (c4 : st.inLoop = true → s.fs_st.inLoop = true) (c5 : st ≠ .S_EXPAND ∧ st ≠ .S_PUSH ∧ st ≠ .S_BULK) :
    Agree { s with fs_st := st } u :=
  AgreeOn.mono h (fun x => x) (fun _ => .inr hs) (fun x => x) c4 (fun x => by rcases x with x | x <;> simp_all) (fun x => absurd x c5.2.1)
    (fun x => absurd x c5.2.2)

theorem fsRow_agree {s : State} {u : Unspecified} (h : Agree s u) (hf : s.fe_st = .F_IDLE) (hs : s.fs_st ≠ .S_IDLE) :
    RunAgree (fsRow s) (fsRow (s.withUnspecified u)) := by
  obtain ⟨s1, s2⟩ : u.src = s.src ∧ (s.src = .CONST → u.fill_color = s.fill_color) := h.src (.inr hs)
  have row : fsRow (s.withUnspecified u) = match s.fs_st with
    | .S_IDLE => .done (s.withUnspecified u)
    | .S_CS_LO => .done { (s.withUnspecified u).emit (.CS false) with fs_st := .S_INDEX }
    | .S_INDEX => .done ((s.withUnspecified u).feStartIndex Config.REG_MEMORY_WRITE false)
    | .S_MARK =>
      if s.par.BULK_MARKER then
        ((s.withUnspecified u).ask s.inp.tx_byte_ack (.BYTE Config.MARK_DATA)).bind fun s => .done s.afterMark
      else .done (s.withUnspecified u).afterMark
    | .S_WIDE => .done { (s.withUnspecified u).emit (.WIDTH .W16) with fs_st := .S_LOAD }
    | .S_LOAD =>
      match u.src with
      | .FB => (loadByte (s.withUnspecified u)).bind fun s => .done s.afterLoad
      | .CONST => .done (s.withUnspecified u).afterLoad
    | .S_EXPAND => .done { s.withUnspecified u with scratch := expand (s.withUnspecified u).px, fs_st := .S_BULK }
    | .S_BULK => ((s.withUnspecified u).ask s.inp.tx_bulk_ack (.BULK u.scratch)).bind fun s => .done { s with fs_st := .S_ADV }
    | .S_PUSH => (s.withUnspecified u).waitFifo.bind fun t => .done (t.emit (.WORD (t.px t.bit))).afterPush
    | .S_ADV => .done (s.withUnspecified u).advance
    | .S_DRAIN => (s.withUnspecified u).waitDrain.bind fun s => .done { s with fs_st := .S_NARROW }
    | .S_NARROW => .done { (s.withUnspecified u).emit (.WIDTH .W8) with fs_st := .S_CS_HI }
    | .S_CS_HI => .done ((s.withUnspecified u).emit (.CS true)).fsReturn := rfl
  rw [row]
  unfold fsRow
  cases hst : s.fs_st <;> simp only
  case S_IDLE => exact absurd hst hs
  case S_CS_LO =>
    rw [emit_unspecified]
    exact RunAgree.done (s := { s.emit (.CS false) with fs_st := .S_INDEX })
      ((h.emit _).fs_st (by simpa using hs) _ (by simp [FsState.inLoop]) (by simp))
  case S_INDEX =>
    obtain ⟨v, e, a⟩ := feStart_agree h .IDX (setLo s.fe_arg Config.REG_MEMORY_WRITE) (setLo u.fe_arg Config.REG_MEMORY_WRITE) false
      (by simp) (by simp)
    exact ⟨v, a, congrArg Run.done e⟩
  case S_MARK =>
    split
    · refine (ask_agree h _ _).bind fun t v ht k => ?_
      have ht' := ask_state ht
      exact afterMark_agree k (by simp [ht', hst]) (by simp [ht', hf])
    · exact afterMark_agree h hst hf
  case S_WIDE =>
    rw [emit_unspecified]
    exact RunAgree.done (s := { s.emit (.WIDTH .W16) with fs_st := .S_LOAD })
      ((h.emit _).fs_st (by simpa using hs) _ (by simp [hst, FsState.inLoop]) (by simp))
  case S_LOAD =>
    rw [s1]
    cases hsrc : s.src <;> simp only
    · obtain ⟨c, g⟩ : u.col = s.col ∧ u.grp = s.grp := h.counters (by simp [hst, FsState.inLoop])
      have e : loadByte (s.withUnspecified u) =
        ((s.withUnspecified u).ask s.inp.fb_ack (.FBREAD u.col u.grp (fbByte s u.col u.grp))).bind fun t =>
          .done { t with cur := fbByte s u.col u.grp } := rfl
      rw [e, c, g]
      unfold loadByte
      rw [Run.bind_assoc, Run.bind_assoc]
      refine (ask_agree h _ _).bind fun t v ht k => ?_
      have ht' := ask_state ht
      have a : Agree { t with cur := fbByte s s.col s.grp } { v with cur := fbByte s s.col s.grp } :=
        ⟨k.pc, k.src, k.frame, k.counters, fun _ _ => rfl, k.bit, k.scratch⟩
      exact afterLoad_agree a (by simp [ht', hst]) (by simp [ht', hf]) fun _ => rfl
    · exact afterLoad_agree h hst hf (by simp [hsrc])
  case S_EXPAND =>
    rw [px_agree s1 s2 (h.cur (.inl hst))]
    exact ⟨{ u with scratch := expand s.px }, ⟨h.pc, fun _ => ⟨s1, s2⟩, fun x => absurd hf x, fun _ => h.counters (by simp [hst, FsState.inLoop]),
      by simp, by simp, fun _ => rfl⟩, rfl⟩
  case S_BULK =>
    rw [show u.scratch = s.scratch from h.scratch hst]
    refine (ask_agree h _ _).bind fun t v ht k => ?_
    have ht' := ask_state ht
    exact RunAgree.done (s := { t with fs_st := .S_ADV }) (k.fs_st (by simp [ht', hst]) _ (by simp [ht', hst, FsState.inLoop]) (by simp))
  case S_PUSH =>
    have b : u.bit = s.bit := h.bit hst
    have p := px_agree s1 s2 (h.cur (.inr hst))
    have w : (s.withUnspecified u).waitFifo = s.waitFifo.withUnspecified u := by
      show (if s.inp.fifo_full then Run.wait (s.withUnspecified u) else .done (s.withUnspecified u)) = _
      unfold State.waitFifo
      cases s.inp.fifo_full <;> rfl
    rw [w]
    unfold State.waitFifo
    split
    · exact ⟨u, h, rfl⟩
    · simp only [Run.withUnspecified, Run.bind_done]
      rw [p, show (s.withUnspecified u).bit = s.bit from b, emit_unspecified]
      exact afterPush_agree (h.emit _) (by simp [hst]) (by simp [hf])
  case S_ADV => exact advance_agree h hst hf
  case S_DRAIN =>
    have w : (s.withUnspecified u).waitDrain = s.waitDrain.withUnspecified u := by
      show (if s.inp.bus_busy then Run.wait (s.withUnspecified u)
        else .done { s.withUnspecified u with out := s.out.drain }) = _
      unfold State.waitDrain
      cases s.inp.bus_busy <;> rfl
    rw [w]
    unfold State.waitDrain
    split
    · exact ⟨u, h, rfl⟩
    · exact RunAgree.done (s := { s with out := s.out.drain, fs_st := .S_NARROW })
        (Agree.fs_st (s := { s with out := s.out.drain }) h hs _ (by simp [FsState.inLoop]) (by simp))
  case S_NARROW =>
    rw [emit_unspecified]
    exact RunAgree.done (s := { s.emit (.WIDTH .W8) with fs_st := .S_CS_HI })
      ((h.emit _).fs_st (by simpa using hs) _ (by simp [FsState.inLoop]) (by simp))
  case S_CS_HI =>
    rw [emit_unspecified]
    exact fsReturn_agree (h.emit _)

theorem streamRow_agree {s : State} {u : Unspecified} (h : Agree s u) (hs : s.fs_st ≠ .S_IDLE) :
    RunAgree (streamRow s) (streamRow (s.withUnspecified u)) := by
  have e : streamRow (s.withUnspecified u) = if s.fe_st = .F_IDLE then fsRow (s.withUnspecified u) else feRow (s.withUnspecified u) := rfl
  rw [e, streamRow]
  split
  · rename_i hf; exact fsRow_agree h hf hs
  · rename_i hf; exact feRow_agree h hf

theorem streamRun_agree (n : Nat) {s : State} {u : Unspecified} (h : Agree s u) :
    RunAgree (streamRun n s) (streamRun n (s.withUnspecified u)) := by
  induction n generalizing s u with
  | zero => exact RunAgree.done h
  | succ n ih =>
    have e : streamRun (n + 1) (s.withUnspecified u) =
        if s.fs_st = .S_IDLE then .done (s.withUnspecified u) else (streamRow (s.withUnspecified u)).bind (streamRun n) := rfl
    rw [e, streamRun]
    split
    · exact RunAgree.done h
    · rename_i hs; exact (streamRow_agree h hs).bind fun _ _ _ k => ih k

/-- FS is started. -/
theorem fsStart_agree {s : State} {u : Unspecified} (h : Agree s u) (hq : s.q_st = .Q_FILL ∨ s.q_st = .Q_UPD) :
    Agree s.fsStart u := by
  refine ⟨h.pc, fun _ => h.src (.inl hq), h.frame, ?_, ?_, ?_, ?_⟩ <;> simp [State.fsStart, FsState.inLoop]

theorem streamOp_agree {s : State} {u : Unspecified} (h : Agree s u) (hq : s.q_st = .Q_FILL ∨ s.q_st = .Q_UPD) :
    RunAgree (streamOp s) (streamOp (s.withUnspecified u)) := streamRun_agree _ (fsStart_agree h hq)

/-! ### The sequencer -/

theorem delayReturn_agree {s : State} {u : Unspecified} (h : Agree s u) : RunAgree (.done s.delayReturn) (.done (s.withUnspecified u).delayReturn) := by
  have e : (s.withUnspecified u).delayReturn = match s.q_st with
    | .Q_RST_HOLD => { s.withUnspecified u with q_st := .Q_RST_HI }
    | .Q_RST_WAIT => { s.withUnspecified u with pc := 0, q_st := .Q_STEP_IDX }
    | .Q_STEP_DLY => { s.withUnspecified u with q_st := .Q_STEP_NEXT }
    | _ => s.withUnspecified u := rfl
  rw [e]
  unfold State.delayReturn
  cases hq : s.q_st <;> simp only
  case Q_RST_HOLD =>
    exact ⟨u, AgreeOn.mono h (by simp [QState.inStep]) (fun k => .inr (by simpa using k)) (fun x => x) (fun x => x) (fun x => x) (fun x => x) (fun x => x), rfl⟩
  case Q_RST_WAIT =>
    refine ⟨{ u with pc := 0 }, ⟨fun _ => rfl, fun k => h.src (.inr ?_), h.frame, h.counters, h.cur, h.bit, h.scratch⟩, rfl⟩
    simpa using k
  case Q_STEP_DLY =>
    exact ⟨u, AgreeOn.mono h (by simp [QState.inStep, hq]) (fun k => .inr (by simpa using k)) (fun x => x) (fun x => x) (fun x => x) (fun x => x) (fun x => x), rfl⟩
  all_goals exact ⟨u, h, rfl⟩

theorem delayOp_agree (n : Nat) {s : State} {u : Unspecified} (h : Agree s u) : RunAgree (delayOp n s) (delayOp n (s.withUnspecified u)) := by
  unfold delayOp
  split
  · exact delayReturn_agree h
  · exact (ask_agree h _ _).bind fun _ _ _ k => delayReturn_agree k

theorem move_agree {s : State} {u : Unspecified} (h : Agree s u) (a b : QState) (hb : b.inStep = false ∧ b ≠ .Q_FILL ∧ b ≠ .Q_UPD) :
    RunAgree (.done (s.move a b)) (.done ((s.withUnspecified u).move a b)) := by
  have e : (s.withUnspecified u).move a b = if s.q_st = a then { s.withUnspecified u with q_st := b } else s.withUnspecified u := rfl
  rw [e]
  unfold State.move
  split
  · exact ⟨u, AgreeOn.mono h (by simp [hb.1]) (fun k => .inr (by simpa [hb.2] using k)) (fun x => x) (fun x => x) (fun x => x) (fun x => x) (fun x => x), rfl⟩
  · exact ⟨u, h, rfl⟩

theorem configLinesOp_agree {s : State} {u : Unspecified} (h : Agree s u) : RunAgree (configLinesOp s) (configLinesOp (s.withUnspecified u)) := by
  have e : configLinesOp (s.withUnspecified u) =
    .done (((s.emit (.CFG true s.par.MODE_INIT true)).withUnspecified u).move .Q_CFG .Q_RST_LO) := rfl
  rw [e]
  exact move_agree (h.emit _) _ _ (by simp [QState.inStep])

theorem resetLow_agree {s : State} {u : Unspecified} (h : Agree s u) : RunAgree (resetLow s) (resetLow (s.withUnspecified u)) := by
  unfold resetLow
  rw [emit_unspecified]
  exact move_agree (h.emit _) _ _ (by simp [QState.inStep])

theorem resetHigh_agree {s : State} {u : Unspecified} (h : Agree s u) : RunAgree (resetHigh s) (resetHigh (s.withUnspecified u)) := by
  unfold resetHigh
  rw [emit_unspecified]
  exact move_agree (h.emit _) _ _ (by simp [QState.inStep])

theorem resetPulseOp_agree {s : State} {u : Unspecified} (h : Agree s u) : RunAgree (resetPulseOp s) (resetPulseOp (s.withUnspecified u)) :=
  (((resetLow_agree h).bind fun _ _ _ k => delayOp_agree _ k).bind fun _ _ _ k => resetHigh_agree k).bind fun _ _ _ k =>
    delayOp_agree s.par.T_RST_WAIT k

theorem stepNext_agree {s : State} {u : Unspecified} (h : Agree s u) : RunAgree (.done s.stepNext) (.done (s.withUnspecified u).stepNext) := by
  have e : (s.withUnspecified u).stepNext =
      if s.q_st = .Q_STEP_NEXT then
        if u.pc + 1 = s.romLength then
          { s.withUnspecified u with pc := u.pc + 1, src := .CONST, fill_color := s.par.INIT_CLEAR_COLOR, q_st := .Q_FILL }
        else { s.withUnspecified u with pc := u.pc + 1, q_st := .Q_STEP_IDX }
      else { s.withUnspecified u with pc := u.pc + 1 } := rfl
  rw [e]
  unfold State.stepNext
  simp only
  split
  · rename_i hq
    rw [show u.pc = s.pc from h.pc (by simp [hq, QState.inStep])]
    split
    · exact ⟨{ u with pc := s.pc + 1, src := .CONST, fill_color := s.par.INIT_CLEAR_COLOR },
        ⟨fun _ => rfl, fun _ => ⟨rfl, fun _ => rfl⟩, h.frame, h.counters, fun _ x => (by cases x), h.bit, h.scratch⟩, rfl⟩
    · refine ⟨{ u with pc := s.pc + 1 }, ⟨fun _ => rfl, fun k => h.src (.inr ?_), h.frame, h.counters, h.cur, h.bit, h.scratch⟩, rfl⟩
      simpa using k
  · exact ⟨{ u with pc := u.pc + 1 }, ⟨fun k => congrArg (· + 1) (h.pc k), h.src, h.frame, h.counters, h.cur, h.bit, h.scratch⟩, rfl⟩

theorem powerOnStepOp_agree {s : State} {u : Unspecified} (h : Agree s u) (reg : Byte) (val : Half) (dly : Nat) :
    RunAgree (powerOnStepOp reg val dly s) (powerOnStepOp reg val dly (s.withUnspecified u)) :=
  ((writeRegisterOp_agree h reg val).bind fun _ _ _ k => delayOp_agree dly k).bind fun _ _ _ k => stepNext_agree k

theorem romEntry_agree {s : State} {u : Unspecified} (h : Agree s u) (hq : s.q_st.inStep = true) :
    (s.withUnspecified u).romEntry? = s.romEntry? := by
  show s.rom[u.pc]? = s.rom[s.pc]?
  rw [h.pc hq]; rfl

theorem romWalk_agree (n : Nat) {s : State} {u : Unspecified} (hi : Inv s) (h : Agree s u) (hf : s.fe_st = .F_IDLE) (hs : s.fs_st = .S_IDLE)
    (hq : s.q_st = .Q_STEP_IDX) (hn : s.pc + n = s.romLength) : RunAgree (romWalk n s) (romWalk n (s.withUnspecified u)) := by
  induction n generalizing s u with
  | zero => exact RunAgree.done h
  | succ n ih =>
    obtain ⟨e, he⟩ : ∃ e, s.romEntry? = some e := by
      have : s.pc < s.rom.length := by unfold State.romLength at hn; omega
      exact ⟨s.rom[s.pc], by simp [State.romEntry?, this]⟩
    obtain ⟨k, ke⟩ := powerOnStepOp_inv hi hf hs hq he
    rw [romWalk, romWalk, romEntry_agree h (by simp [hq, QState.inStep]), he]
    refine (powerOnStepOp_agree h e.reg e.val e.dly).bind fun t v ht a => ?_
    rw [ht] at k
    obtain ⟨u1, u2, u3, u4, u5⟩ := ke t ht
    rcases n with _ | n
    · exact RunAgree.done a
    · rw [if_neg (by omega)] at u5
      refine ih k a u2 u1 u5 ?_
      have hl : t.romLength = s.romLength := by simp [State.romLength, u4]
      omega

/-! ### The host commands -/

theorem finishOp_agree {s : State} {u : Unspecified} (h : Agree s u) : RunAgree (finishOp s) (finishOp (s.withUnspecified u)) := by
  have a : AgreeOn .Q_IDLE s.fe_st s.fs_st s.unspecified u :=
    AgreeOn.mono h (by simp [QState.inStep]) (fun k => .inr (by simpa using k)) (fun x => x) (fun x => x) (fun x => x) (fun x => x) (fun x => x)
  exact ⟨u, a, rfl⟩

theorem acceptInitialize_agree {s : State} {u : Unspecified} (h : Agree s u) :
    ∃ v, Agree s.acceptInitialize v ∧ (s.withUnspecified u).acceptInitialize = s.acceptInitialize.withUnspecified v := by
  refine ⟨{ u with op := HostCommand.INITIALIZE.code, color := s.inp.cmd_color },
    ⟨by simp [State.acceptInitialize, QState.inStep], fun k => h.src (.inr ?_), h.frame, h.counters, h.cur, h.bit, h.scratch⟩, rfl⟩
  simpa [State.acceptInitialize, State.accept] using k

theorem acceptClear_agree {s : State} {u : Unspecified} (h : Agree s u) (color : Half) :
    ∃ v, Agree (s.acceptClear color) v ∧ (s.withUnspecified u).acceptClear color = (s.acceptClear color).withUnspecified v :=
  ⟨{ u with op := (HostCommand.CLEAR color).code, color := color, src := .CONST, fill_color := color },
    ⟨by simp [State.acceptClear, QState.inStep], fun _ => ⟨rfl, fun _ => rfl⟩, h.frame, h.counters, fun _ x => (by cases x), h.bit, h.scratch⟩,
    rfl⟩

theorem acceptUpdate_agree {s : State} {u : Unspecified} (h : Agree s u) (hs : s.fs_st = .S_IDLE) :
    ∃ v, Agree s.acceptUpdate v ∧ (s.withUnspecified u).acceptUpdate = s.acceptUpdate.withUnspecified v := by
  refine ⟨{ u with op := HostCommand.UPDATE.code, color := s.inp.cmd_color, src := .FB },
    ⟨by simp [State.acceptUpdate, QState.inStep], fun _ => ⟨rfl, fun x => (by cases x)⟩, h.frame, h.counters, ?_, h.bit, h.scratch⟩, rfl⟩
  simp [State.acceptUpdate, State.accept, hs]

theorem streamCommand_agree {s : State} {u : Unspecified} (h : Agree s u) (hq : s.q_st = .Q_FILL ∨ s.q_st = .Q_UPD) :
    RunAgree ((streamOp s).bind finishOp) ((streamOp (s.withUnspecified u)).bind finishOp) :=
  (streamOp_agree h hq).bind fun _ _ _ k => finishOp_agree k

theorem initializeOp_agree {s : State} {u : Unspecified} (hi : Inv s) (h : Agree s u) (hf : s.fe_st = .F_IDLE) (hs : s.fs_st = .S_IDLE)
    (hq : s.q_st = .Q_IDLE) : RunAgree (initializeOp s) (initializeOp (s.withUnspecified u)) := by
  obtain ⟨v, a, e⟩ := acceptInitialize_agree h
  have ka : Inv s.acceptInitialize := hi.accept hf hs hq .INITIALIZE s.inp.cmd_color s.fill_color s.src .Q_CFG (.inl rfl)
  have hrow : seqTick s.acceptInitialize = .next (configLinesOp s.acceptInitialize).state := rfl
  have kb := seqTick_inv ka hf hs hrow
  unfold initializeOp
  rw [e]
  simp only [Run.bind_assoc]
  refine (configLinesOp_agree a).bind fun b w hb ab => ?_
  have b' : b = (s.acceptInitialize.emit (.CFG true s.acceptInitialize.par.MODE_INIT true)).move .Q_CFG .Q_RST_LO := by
    unfold configLinesOp at hb; simpa using hb.symm
  rw [hb] at kb
  have kb : Inv b := kb
  obtain ⟨kc, kce⟩ := resetPulseOp_inv kb (by rw [b']; simpa using hf) (by rw [b']; simpa using hs) (by rw [b']; rfl)
  refine (resetPulseOp_agree ab).bind fun c w hc ac => ?_
  obtain ⟨c1, c2, c3, c4, c5⟩ := kce c hc
  rw [hc] at kc
  have kc : Inv c := kc
  have hlen : c.romLength = s.romLength := by
    have : b.rom = s.rom := by rw [b']; rfl
    simp [State.romLength, c5, this]
  have hpos : 0 < s.romLength := by simp [State.romLength, hi.romConstant, Params.N_ROM]
  obtain ⟨kd, kde⟩ := romWalk_inv s.romLength kc c2 c1 c3 (by rw [c4, hlen]; omega) hpos
  refine (romWalk_agree s.romLength kc ac c2 c1 c3 (by rw [c4, hlen]; omega)).bind fun d w hd ad => ?_
  obtain ⟨d1, d2, d3⟩ := kde d hd
  exact streamCommand_agree ad (.inl d3)

/-! ### Rows and steps -/

/-- Both go on, to states that agree. -/
def NextAgree (o o' : Host.Outcome State Fault Refusal) : Prop :=
  ∃ t u, o = .next t ∧ o' = .next (t.withUnspecified u) ∧ Agree t u

theorem NextAgree.of_run {r r' : Run} (h : RunAgree r r') : NextAgree (.next r.state) (.next r'.state) := by
  obtain ⟨u, a, rfl⟩ := h
  refine ⟨r.state, u, rfl, ?_, a⟩
  cases r <;> rfl

theorem NextAgree.of_done {t : State} {r' : State} (h : RunAgree (.done t) (.done r')) : NextAgree (.next t) (.next r') := of_run h

/-- The command port does not show unspecified registers. -/
theorem acceptRow_agree {s : State} {u : Unspecified} (h : Agree s u) (hs : s.fs_st = .S_IDLE) :
    NextAgree (.next (acceptRow s)) (.next (acceptRow (s.withUnspecified u))) := by
  have e1 : portCommand (s.withUnspecified u) = portCommand s := rfl
  have e2 : (s.withUnspecified u).canAccept = s.canAccept := rfl
  have same : NextAgree (.next s) (.next (s.withUnspecified u)) := ⟨s, u, rfl, rfl, h⟩
  unfold acceptRow
  rw [e1, e2]
  generalize portCommand s = c
  cases s.canAccept
  · exact same
  · rcases c with _ | i
    · exact same
    · cases i
      case hostInitialize => obtain ⟨v, a, k⟩ := acceptInitialize_agree h; exact ⟨_, v, rfl, congrArg _ k, a⟩
      case hostClear color => obtain ⟨v, a, k⟩ := acceptClear_agree h color; exact ⟨_, v, rfl, congrArg _ k, a⟩
      case hostUpdate => obtain ⟨v, a, k⟩ := acceptUpdate_agree h hs; exact ⟨_, v, rfl, congrArg _ k, a⟩
      all_goals exact same

theorem seqTick_agree {s : State} {u : Unspecified} (hi : Inv s) (h : Agree s u) (hs : s.fs_st = .S_IDLE) :
    NextAgree (seqTick s) (seqTick (s.withUnspecified u)) := by
  have entry : s.q_st.inStep = true → ∃ e, s.romEntry? = some e ∧ (s.withUnspecified u).romEntry? = some e := by
    intro k
    have hl : s.pc < s.rom.length := hi.pcInRom k
    have he : s.romEntry? = some s.rom[s.pc] := List.getElem?_eq_getElem hl
    exact ⟨_, he, by rw [romEntry_agree h k, he]⟩
  have e : seqTick (s.withUnspecified u) = match s.q_st with
    | .Q_IDLE => .next (acceptRow (s.withUnspecified u))
    | .Q_CFG => .next (configLinesOp (s.withUnspecified u)).state
    | .Q_RST_LO => .next (resetLow (s.withUnspecified u)).state
    | .Q_RST_HOLD => .next (delayOp s.par.T_RST_HOLD (s.withUnspecified u)).state
    | .Q_RST_HI => .next (resetHigh (s.withUnspecified u)).state
    | .Q_RST_WAIT => .next (delayOp s.par.T_RST_WAIT (s.withUnspecified u)).state
    | .Q_STEP_IDX => withRomEntry (s.withUnspecified u) fun e => (s.withUnspecified u).feStartIndex e.reg true
    | .Q_STEP_DAT => withRomEntry (s.withUnspecified u) fun e => (s.withUnspecified u).feStart .DAT e.val true
    | .Q_STEP_DLY => withRomEntry (s.withUnspecified u) fun e => (delayOp e.dly (s.withUnspecified u)).state
    | .Q_STEP_NEXT => .next (s.withUnspecified u).stepNext
    | .Q_FILL => .next (s.withUnspecified u).fsStart
    | .Q_UPD => .next (s.withUnspecified u).fsStart
    | .Q_DONE => .next (s.withUnspecified u).finish := rfl
  rw [e]
  unfold seqTick
  cases hq : s.q_st <;> simp only
  case Q_IDLE => exact acceptRow_agree h hs
  case Q_CFG => exact .of_run (configLinesOp_agree h)
  case Q_RST_LO => exact .of_run (resetLow_agree h)
  case Q_RST_HOLD => exact .of_run (delayOp_agree _ h)
  case Q_RST_HI => exact .of_run (resetHigh_agree h)
  case Q_RST_WAIT => exact .of_run (delayOp_agree _ h)
  case Q_STEP_IDX =>
    obtain ⟨e, e1, e2⟩ := entry (by simp [hq, QState.inStep])
    simp only [withRomEntry, e1, e2]
    obtain ⟨v, k, a⟩ := feStart_agree h .IDX (setLo s.fe_arg e.reg) (setLo u.fe_arg e.reg) true (by simp) (by simp)
    exact ⟨_, v, rfl, congrArg _ k, a⟩
  case Q_STEP_DAT =>
    obtain ⟨e, e1, e2⟩ := entry (by simp [hq, QState.inStep])
    simp only [withRomEntry, e1, e2]
    obtain ⟨v, k, a⟩ := feStart_agree h .DAT e.val e.val true rfl (fun _ => rfl)
    exact ⟨_, v, rfl, congrArg _ k, a⟩
  case Q_STEP_DLY =>
    obtain ⟨e, e1, e2⟩ := entry (by simp [hq, QState.inStep])
    simp only [withRomEntry, e1, e2]
    exact .of_run (delayOp_agree _ h)
  case Q_STEP_NEXT => exact .of_done (stepNext_agree h)
  case Q_FILL => exact ⟨_, u, rfl, rfl, fsStart_agree h (.inl hq)⟩
  case Q_UPD => exact ⟨_, u, rfl, rfl, fsStart_agree h (.inr hq)⟩
  case Q_DONE => exact .of_run (finishOp_agree h)

theorem tick_agree {s : State} {u : Unspecified} (hi : Inv s) (h : Agree s u) : NextAgree (tick s) (tick (s.withUnspecified u)) := by
  have e : tick (s.withUnspecified u) =
      if s.fe_st ≠ .F_IDLE then .next (feRow (s.withUnspecified u)).state
      else if s.fs_st ≠ .S_IDLE then fsTick (s.withUnspecified u)
      else seqTick (s.withUnspecified u) := rfl
  obtain ⟨t, ht, -⟩ := tick_inv hi
  rw [e]
  unfold tick at ht ⊢
  split
  · rename_i hf; exact .of_run (feRow_agree h hf)
  · rename_i hf
    rw [if_neg hf] at ht
    have hf' : s.fe_st = .F_IDLE := by simpa using hf
    split
    · rename_i hs
      rw [if_pos hs] at ht
      have k : ∀ v, NextAgree (.next (fsRow s).state) v → NextAgree (fsTick s) v := by
        intro v hv
        unfold fsTick at ht ⊢
        split
        · rename_i hx; rw [if_pos hx] at ht; cases ht
        · rename_i hx
          rw [if_neg hx] at ht
          split
          · rename_i hy; rw [if_pos hy] at ht; cases ht
          · exact hv
      have k' : fsTick (s.withUnspecified u) = .next (fsRow (s.withUnspecified u)).state := by
        have e' : fsTick (s.withUnspecified u) =
          if !fsPresent s.par.STRATEGY s.fs_st then .refused .absentInThisStrategy
          else if s.fs_st = .S_LOAD ∧ u.src = .FB ∧ fbInRange s u.col u.grp = false then .fault .framebufferOutOfRange
          else .next (fsRow (s.withUnspecified u)).state := rfl
        rw [e', if_neg (by simp [hi.fsBuilt]), if_neg]
        rintro ⟨a, -, b⟩
        obtain ⟨c1, c2⟩ := h.counters (by simp [a, FsState.inLoop])
        obtain ⟨d1, d2⟩ := hi.countersInRange (by simp [a, FsState.inLoop])
        rw [c1, c2] at b
        have : fbInRange s s.col s.grp = true := by simp [fbInRange, d1, d2]
        exact absurd (this.symm.trans b) (by simp)
      rw [k']
      exact k _ (.of_run (fsRow_agree h hf' hs))
    · rename_i hs; exact seqTick_agree hi h (by simpa using hs)

/-- The operation that begins here does not depend on registers that will not be read. -/
theorem fetch_agree {s : State} {u : Unspecified} (h : Agree s u) : fetch (s.withUnspecified u) = fetch s := by
  have b : (s.withUnspecified u).frameBegins = s.frameBegins := by
    show (decide (s.fe_st = .F_CS_LO) || (decide (s.fe_st = .F_B0) && !u.fe_bracket && decide (u.fe_kind = .IDX) &&
      s.req.isNone)) = _
    unfold State.frameBegins
    by_cases hf : s.fe_st = .F_IDLE
    · simp [hf]
    · obtain ⟨f1, f2, -⟩ := h.frame hf
      rw [f1, f2]; rfl
  have f : s.fe_st ≠ .F_IDLE → frameFetch (s.withUnspecified u) = frameFetch s := by
    intro hf
    obtain ⟨f1, f2, f3, f4⟩ : u.fe_kind = s.fe_kind ∧ u.fe_bracket = s.fe_bracket ∧ lo u.fe_arg = lo s.fe_arg ∧
      (s.fe_kind = .DAT → u.fe_arg = s.fe_arg) := h.frame hf
    have fr : (s.withUnspecified u).frame = s.frame := by
      show [frameByte0 u.fe_kind, frameByte1 u.fe_kind u.fe_arg, lo u.fe_arg] = _
      rw [f1, f3]
      cases hk : s.fe_kind
      · simp [State.frame, frameByte0, frameByte1, frameByte2, hk]
      · rw [f4 hk]; simp [State.frame, frameByte0, frameByte1, frameByte2, hk]
    show (if s.fs_st = .S_IDLE ∧ s.q_st = .Q_STEP_IDX ∧ u.fe_kind = .IDX ∧ u.fe_bracket = true then
        (s.withUnspecified u).romEntry?.map fun (e : RomStep) => Instr.writeRegister (lo u.fe_arg) e.val
      else (decode s.par.STRATEGY .wire (s.withUnspecified u).frame).instr?) = _
    rw [f1, f2, f3, fr]
    unfold frameFetch
    split
    · rename_i hx; rw [romEntry_agree h (by simp [hx.2.1, QState.inStep])]; rfl
    · rfl
  have q : seqFetch (s.withUnspecified u) = seqFetch s := by
    have r := fun k => romEntry_agree (s := s) (u := u) h k
    show (match s.q_st with
      | .Q_IDLE => if s.canAccept then portCommand s else none
      | .Q_CFG => (decode s.par.STRATEGY .seq [s.q_st.code]).instr?
      | .Q_RST_LO => (decode s.par.STRATEGY .seq [s.q_st.code]).instr?
      | .Q_RST_HOLD => some (.delay s.par.T_RST_HOLD)
      | .Q_RST_HI => none
      | .Q_RST_WAIT => some (.delay s.par.T_RST_WAIT)
      | .Q_STEP_IDX => (s.withUnspecified u).romEntry?.map fun (e : RomStep) => Instr.powerOnStep e.reg e.val e.dly
      | .Q_STEP_DAT => (s.withUnspecified u).romEntry?.map fun (e : RomStep) => Instr.sendData e.val
      | .Q_STEP_DLY => (s.withUnspecified u).romEntry?.map fun (e : RomStep) => Instr.delay e.dly
      | .Q_STEP_NEXT => none
      | .Q_FILL => some (streamOf s.par.STRATEGY)
      | .Q_UPD => some (streamOf s.par.STRATEGY)
      | .Q_DONE => none) = _
    unfold seqFetch
    cases hq : s.q_st <;> simp only [hq, QState.inStep, forall_true_left] at r ⊢ <;> rw [r]
  show (if (s.withUnspecified u).frameBegins then frameFetch (s.withUnspecified u)
    else if s.fe_st = .F_IDLE ∧ s.fs_st = .S_IDLE then seqFetch (s.withUnspecified u) else none) = _
  rw [b, q]
  unfold fetch
  split
  · rename_i hb
    exact f (by intro e; simp [State.frameBegins, e] at hb)
  · rfl

/-- A frame in progress. -/
theorem frameExec_agree {s : State} {u : Unspecified} {i : Instr} (h : Agree s u) (hb : s.frameBegins = true)
    (hf : frameFetch s = some i) : NextAgree (exec i s) (exec i (s.withUnspecified u)) := by
  have hfe : s.fe_st ≠ .F_IDLE := by
    intro e; simp [State.frameBegins, e] at hb
  obtain ⟨f1, f2, -⟩ : u.fe_kind = s.fe_kind ∧ u.fe_bracket = s.fe_bracket ∧ _ := h.frame hfe
  have data : ∀ v, NextAgree (exec (.sendData v) s) (exec (.sendData v) (s.withUnspecified u)) := fun v =>
    .of_run (frame_agree h .DAT v v true rfl (fun _ => rfl))
  have index : ∀ r, NextAgree (exec (.sendIndex r) s) (exec (.sendIndex r) (s.withUnspecified u)) := fun r => by
    have k := frame_agree h .IDX (setLo s.fe_arg r) (setLo u.fe_arg r) s.fe_bracket (by simp) (by simp)
    have e : sendIndexOp r (s.withUnspecified u) = feRun 5 ((s.withUnspecified u).feStart .IDX (setLo u.fe_arg r) s.fe_bracket) := by
      show feRun 5 ((s.withUnspecified u).feStart .IDX (setLo u.fe_arg r) u.fe_bracket) = _
      rw [f2]
    show NextAgree (.next (sendIndexOp r s).state) (.next (sendIndexOp r (s.withUnspecified u)).state)
    rw [e]
    exact .of_run k
  unfold frameFetch at hf
  split at hf
  · simp only [Option.map_eq_some_iff] at hf
    obtain ⟨e, -, rfl⟩ := hf
    exact .of_run (writeRegisterOp_agree h _ _)
  · simp only [State.frame, decode, decodeFrame] at hf
    split at hf
    · split at hf
      · cases hf; exact index _
      · cases hf
    · split at hf
      · cases hf; exact data _
      · cases hf

/-- An operation SEQ selects. -/
theorem seqExec_agree {s : State} {u : Unspecified} {i : Instr} (hi : Inv s) (h : Agree s u) (hf : s.fe_st = .F_IDLE) (hs : s.fs_st = .S_IDLE)
    (hfetch : seqFetch s = some i) : NextAgree (exec i s) (exec i (s.withUnspecified u)) := by
  have stream : s.q_st = .Q_FILL ∨ s.q_st = .Q_UPD →
      NextAgree (exec (streamOf s.par.STRATEGY) s) (exec (streamOf s.par.STRATEGY) (s.withUnspecified u)) := by
    intro hq
    have k := NextAgree.of_run (streamOp_agree h hq)
    have p : (s.withUnspecified u).par = s.par := rfl
    cases hst : s.par.STRATEGY <;> simpa [streamOf, exec, execStreamBuffered, execStreamBurst, hst, p] using k
  unfold seqFetch at hfetch
  cases hq : s.q_st <;> simp only [hq] at hfetch
  case Q_IDLE =>
    split at hfetch
    · rename_i ha
      have hb : (s.withUnspecified u).canAccept = true := ha
      have k1 := NextAgree.of_run (initializeOp_agree hi h hf hs hq)
      have k2 : ∀ color, NextAgree (.next (clearOp color s).state) (.next (clearOp color (s.withUnspecified u)).state) := by
        intro color
        obtain ⟨v, a, e⟩ := acceptClear_agree h color
        have := streamCommand_agree a (.inl rfl)
        rw [← e] at this
        exact .of_run this
      have k3 : NextAgree (.next (updateOp s).state) (.next (updateOp (s.withUnspecified u)).state) := by
        obtain ⟨v, a, e⟩ := acceptUpdate_agree h hs
        have := streamCommand_agree a (.inr rfl)
        rw [← e] at this
        exact .of_run this
      unfold portCommand at hfetch
      split at hfetch
      · simp only [Inputs.commandBytes, decode, decodeCommand] at hfetch
        split at hfetch <;> simp only [Decoded.instr?, Option.some.injEq, reduceCtorEq] at hfetch <;> subst hfetch
        · simpa [exec, execHostInitialize, ha, hb] using k1
        · simpa [exec, execHostClear, ha, hb] using k2 _
        · simpa [exec, execHostUpdate, ha, hb] using k3
      · cases hfetch
    · cases hfetch
  case Q_CFG =>
    have e : (decode s.par.STRATEGY .seq [QState.Q_CFG.code]).instr? = some .configLines := rfl
    rw [e] at hfetch; cases hfetch
    exact .of_run (configLinesOp_agree h)
  case Q_RST_LO =>
    have e : (decode s.par.STRATEGY .seq [QState.Q_RST_LO.code]).instr? = some .resetPulse := rfl
    rw [e] at hfetch; cases hfetch
    exact .of_run (resetPulseOp_agree h)
  case Q_RST_HOLD => cases hfetch; exact .of_run (delayOp_agree _ h)
  case Q_RST_WAIT => cases hfetch; exact .of_run (delayOp_agree _ h)
  case Q_STEP_IDX =>
    simp only [Option.map_eq_some_iff] at hfetch
    obtain ⟨e, he, rfl⟩ := hfetch
    exact .of_run (powerOnStepOp_agree h _ _ _)
  case Q_STEP_DAT =>
    simp only [Option.map_eq_some_iff] at hfetch
    obtain ⟨e, he, rfl⟩ := hfetch
    exact .of_run (frame_agree h .DAT e.val e.val true rfl (fun _ => rfl))
  case Q_STEP_DLY =>
    simp only [Option.map_eq_some_iff] at hfetch
    obtain ⟨e, he, rfl⟩ := hfetch
    exact .of_run (delayOp_agree _ h)
  case Q_FILL => cases hfetch; exact stream (.inl hq)
  case Q_UPD => cases hfetch; exact stream (.inr hq)
  all_goals cases hfetch

/-- After a reset of the block the registers in question hold the same. -/
theorem blockReset_agree (s : State) (u : Unspecified) :
    NextAgree (.next s.blockReset) (.next (s.withUnspecified u).blockReset) :=
  ⟨s.blockReset, s.blockReset.unspecified, rfl, rfl, ⟨fun _ => rfl, fun _ => ⟨rfl, fun _ => rfl⟩, fun _ => ⟨rfl, rfl, rfl, fun _ => rfl⟩,
    fun _ => ⟨rfl, rfl⟩, fun _ _ => rfl, fun _ => rfl, fun _ => rfl⟩⟩

/-- Idle machines agree whatever their unspecified registers hold (R51). -/
theorem idle_agree {s : State} (h : s.idle = true) (u : Unspecified) : Agree s u := by
  simp only [State.idle, Bool.and_eq_true, decide_eq_true_eq] at h
  obtain ⟨⟨⟨q, f⟩, s'⟩, -⟩ := h
  unfold Agree
  rw [q, f, s']
  refine ⟨?_, ?_, ?_, ?_, ?_, ?_, ?_⟩ <;> simp [QState.inStep, FsState.inLoop]

end Sys2Proof.Machine
end

