-- ==== Sys2Proof/Tests/Slice0.lean ====
section
/-! SUPPORT. Tests: the vectors of 95_test_vectors.md and words written out from the encodings of 30_encoding.md; and for every statement with hypotheses a
state and operands that meet them. -/

set_option maxRecDepth 20000

namespace Sys2Proof.Tests

open Sys2Proof.Machine

/-! ### The states the tests start from -/

/-- One column of eight pixels, buffered, with the masks of 95_test_vectors.md. -/
def tiny : Build := { W := 1, H := 8, STRATEGY := .BUFFERED, MASK_BLANK := 0x0102, MASK_FILLED := 0xA1B2 }

/-- The same in the burst strategy. -/
def tinyBurst : Build := { W := 1, H := 8, STRATEGY := .BURST, MASK_BLANK := 0x0102, MASK_FILLED := 0xA1B2 }

/-- The geometry of program P3. -/
def wider : Build := { W := 2, H := 16, STRATEGY := .BUFFERED, MASK_BLANK := 0x0102, MASK_FILLED := 0xA1B2 }

/-- The parameter set of program P2. -/
def synthetic : Build :=
  { W := 1, H := 8, STRATEGY := .BUFFERED, INIT_CLEAR_COLOR := 0x5A5A, MASK_BLANK := 0x0102, MASK_FILLED := 0xA1B2
    REG_DISPLAY_CONTROL := 0xD0, REG_DRIVE_CONTROL := 0xD1, REG_POWER_CONTROL_1 := 0xA1, REG_POWER_CONTROL_3 := 0xA3
    REG_ENTRY_MODE := 0xE0, VAL_ENTRY_NORMAL := 0x0E01, VAL_ENTRY_MIRRORED := 0x0E02
    PWR := [⟨0xD1, 0x1111⟩, ⟨0xA1, 0x2222⟩, ⟨0xA3, 0x3333⟩, ⟨0xA1, 0x4444⟩], PWR_A := 1, PWR_B := 2
    VAL_DC_1 := 0x0101, VAL_DC_2 := 0x0103, VAL_DC_3 := 0x0107, VAL_DC_4 := 0x010F }

/-- The same with addresses of their own for the power-control registers P2 leaves unused, so that all nine addresses are distinct. -/
def distinct : Build := { synthetic with REG_POWER_CONTROL_2 := 0xA2, REG_POWER_CONTROL_4 := 0xA4, REG_POWER_CONTROL_5 := 0xA5, ok := by decide }

/-- A block just out of reset. -/
def start (p : Build) : State := State.resetOf p

/-- A block whose lines are driven. -/
def driven (p : Build) : State := { State.resetOf p with lines_oe := true }

/-- A block inside a command, in this state of SEQ. -/
def inside (p : Build) (q : QState) : State := { driven p with q_st := q, busy := true }

/-- A block inside a stream of a constant, in this state of FS. -/
def streaming (p : Build) (f : FsState) : State := { inside p .Q_FILL with src := .CONST, fs_st := f, cs_n := false }

/-- The same state in an environment that looks after every row. -/
def byRows (s : State) : State := { s with inp := { s.inp with by_rows := true } }

/-- An undefined panel and words that a `blk_rst` left queued. -/
def broken : State := { start synthetic with out := { Outside.quiet with fifo := [0xA1B2, 0x0102], panel_lost := true, panel_free := 1 } }

/-- An idle block on an idle transport that loses its bytes. -/
def losing : State := { driven tiny with inp := { Inputs.calm with tx_delivers := false } }

/-- An idle block whose transport is at its wide word size. -/
def wide : State := { driven tiny with out := { Outside.quiet with bus_width := .W16 } }

/-- Inputs of a transport that takes no byte. -/
def slow : Inputs := { Inputs.calm with tx_byte_ack := false }

/-- The state an outcome goes on to. -/
def after (o : Host.Outcome State Fault Refusal) : Option State :=
  match o with
  | .next t => some t
  | .fault _ => none
  | .refused _ => none

/-- The trace an outcome leaves. -/
def traceOf (o : Host.Outcome State Fault Refusal) : Option (List Event) := (after o).map (·.trace)

/-! ### Well-formedness -/

/-- The `dly` field of a ROM word has 8 bits (R103). -/
theorem test_wellformed_delay : (Instr.delay 255).wellFormed = true ∧ (Instr.delay 256).wellFormed = false := by decide

theorem test_wellformed_step :
    (Instr.powerOnStep 0x07 0x0037 255).wellFormed = true ∧ (Instr.powerOnStep 0x07 0x0037 256).wellFormed = false := by decide

/-- Exactly one of the two streams is an operation of a block (R170). -/
theorem test_present : Instr.streamBurst.presentIn .BUFFERED = false ∧ Instr.streamBuffered.presentIn .BURST = false := by decide

/-- V19c: `T_PWR_A = 39` is refused. Each other constraint of R15 refuses too. -/
theorem test_parameters_refused :
    ({ T_PWR_A := 39 } : Params).build? = none ∧ ({ H := 12 } : Params).build? = none ∧ ({ W := 0 } : Params).build? = none ∧
    ({ PWR_B := 2 } : Params).build? = none ∧ ({ PWR_A := 1 } : Params).build? = none ∧
    ({ PWR := [⟨1, 0⟩, ⟨0, 0⟩] } : Params).build? = none ∧ ({ VAL_DC_2 := 7 } : Params).build? = none ∧
    ({ BIT_D1 := 1 } : Params).build? = none ∧ ({} : Params).build?.isSome = true := by decide

/-! ### Decoding: words written out from 30_encoding.md -/

theorem test_decode_sendIndex : decodeTableWord 24 0x740007 = some (.sendIndex 0x07) := by decide
theorem test_decode_sendData : decodeTableWord 24 0x761234 = some (.sendData 0x1234) := by decide
theorem test_decode_writeRegister : decodeTableWord 48 0x740007760037 = some (.writeRegister 0x07 0x0037) := by decide

/-- The ROM word of V19. -/
theorem test_decode_powerOnStep : decodeTableWord 32 0x0A070037 = some (.powerOnStep 0x07 0x0037 10) := by decide
theorem test_decode_delay : decodeTableWord 8 40 = some (.delay 40) := by decide
theorem test_decode_configLines : decodeTableWord 4 1 = some .configLines := by decide
theorem test_decode_resetPulse : decodeTableWord 4 2 = some .resetPulse := by decide
theorem test_decode_stream : decode .BUFFERED .wire [0x74, 0x00, 0x22, 0x76] = .ok .streamBuffered ∧
    decode .BURST .wire [0x74, 0x00, 0x22, 0x76] = .ok .streamBurst := by decide
theorem test_decode_initialize : decodeTableWord 18 0x10000 = some .hostInitialize ∧ decodeTableWord 18 0x1BEEF = some .hostInitialize := by decide

/-- The command word of P5. -/
theorem test_decode_clear : decodeTableWord 18 0x2F800 = some (.hostClear 0xF800) := by decide
theorem test_decode_update : decodeTableWord 18 0x30000 = some .hostUpdate := by decide

/-- `cmd_op = 00` is reserved (R104). -/
theorem test_decode_reserved : decodeTableWord 18 0x0F800 = none := by decide

/-! ### One step of each operation -/

/-- V1. -/
theorem test_sendIndex : traceOf (step ((start tiny).withFetchWord 24 0x740007)) =
    some [.CS false, .BYTE 0x74, .BYTE 0x00, .BYTE 0x07, .CS true] := by decide

/-- V5: no chip-select inside a bulk burst. -/
theorem test_sendIndex_in_stream : traceOf (exec (.sendIndex 0x22) (start tiny)) = some [.BYTE 0x74, .BYTE 0x00, .BYTE 0x22] := by decide

/-- V6. -/
theorem test_sendData : traceOf (step ((start tiny).withFetchWord 24 0x761234)) =
    some [.CS false, .BYTE 0x76, .BYTE 0x12, .BYTE 0x34, .CS true] := by decide

/-- V11: payload equal to the markers, no escaping. -/
theorem test_sendData_markers : traceOf (exec (.sendData 0x7476) (start tiny)) =
    some [.CS false, .BYTE 0x76, .BYTE 0x74, .BYTE 0x76, .CS true] := by decide

/-- V12. -/
theorem test_writeRegister : traceOf (step ((start tiny).withFetchWord 48 0x740007760037)) =
    some [.CS false, .BYTE 0x74, .BYTE 0x00, .BYTE 0x07, .CS true, .CS false, .BYTE 0x76, .BYTE 0x00, .BYTE 0x37, .CS true] := by decide

/-- The receiver after V12. -/
theorem test_writeRegister_receiver : (after (exec (.writeRegister 0x07 0x0037) (driven tiny))).map (·.out.panel) =
    some { ir := some 0x07, pr := [(0x07, 0x0037)], pix := [] } := by decide

/-- V17b. -/
theorem test_configLines : (after (exec .configLines (start { tiny with MODE_INIT := false }))).map
    (fun t => (t.trace, t.lines)) = some ([.CFG true false true], ⟨true, true, false, true⟩) := by decide

/-- V18. -/
theorem test_resetPulse : traceOf (step ((start tiny).withFetchWord 4 2)) =
    some [.RST false, .DELAY 50, .RST true, .DELAY 50] := by decide

/-- V18b. -/
theorem test_resetPulse_longer : traceOf (exec .resetPulse (start { tiny with T_RST_HOLD := 120, T_RST_WAIT := 51 })) =
    some [.RST false, .DELAY 120, .RST true, .DELAY 51] := by decide

/-- The example of R143. -/
theorem test_delay : traceOf (step ((start tiny).withFetchWord 8 40)) = some [.DELAY 40] := by decide

/-- No event for 0 (R143). -/
theorem test_delay_zero : traceOf (exec (.delay 0) (start tiny)) = some [] := by decide

/-- V19. -/
theorem test_powerOnStep : (after (step ((start tiny).withFetchWord 32 0x0A070037))).map (fun t => (wire t.trace, timing t.trace, t.pc)) =
    some ([[0x74, 0x00, 0x07], [0x76, 0x00, 0x37]], [.DELAY 10], 1) := by decide

/-- V19b: no `DELAY` event for `dly = 0`. -/
theorem test_powerOnStep_no_delay : (after (step ((start tiny).withFetchWord 32 0x00070037))).map (fun t => (t.trace.length, t.pc)) =
    some (10, 1) := by decide

/-- V20. -/
theorem test_streamBuffered : traceOf (exec .streamBuffered { start tiny with fb := [(0, 0x01)] }) =
    some [.CS false, .BYTE 0x74, .BYTE 0x00, .BYTE 0x22, .BYTE 0x76, .FBREAD 0 0 0x01,
      .BULK #v[0xA1, 0xB2, 0x01, 0x02, 0x01, 0x02, 0x01, 0x02, 0x01, 0x02, 0x01, 0x02, 0x01, 0x02, 0x01, 0x02], .CS true] := by decide

/-- V24: column 1 before column 0. -/
theorem test_streamBuffered_columns : (traceOf (exec .streamBuffered
    { start { tiny with W := 2, ok := by decide } with fb := [(0, 0x80), (1, 0x01)] })).map (fun es => es.filterMap readPlace) = some [(1, 0), (0, 0)] := by decide

/-- V21. -/
theorem test_streamBurst : traceOf (exec .streamBurst { start tinyBurst with fb := [(0, 0x01)] }) =
    some [.CS false, .BYTE 0x74, .BYTE 0x00, .BYTE 0x22, .BYTE 0x76, .WIDTH .W16, .FBREAD 0 0 0x01, .WORD 0xA1B2, .WORD 0x0102,
      .WORD 0x0102, .WORD 0x0102, .WORD 0x0102, .WORD 0x0102, .WORD 0x0102, .WORD 0x0102, .WIDTH .W8, .CS true] := by decide

/-- V27: with the FIFO full the block stays in `S_PUSH` with chip-select low and the word size wide. -/
theorem test_streamBurst_stalled : (after (exec .streamBurst
    { start tinyBurst with fb := [(0, 0x01)], inp := { Inputs.calm with fifo_full := true } })).map
      (fun t => (t.trace.length, t.fs_st, t.bit, t.cs_n, t.out.bus_width)) = some (7, .S_PUSH, 0, false, .W16) := by decide

/-- P2: the 118 events of INITIALIZE, its bursts and its delays. -/
theorem test_initialize : (after (step ((start synthetic).withFetchWord 18 0x10000))).map
    (fun t => (t.trace.length, t.idle, t.pc, (wire t.trace).length, totalDelay t.trace)) = some (118, true, 10, 21, 200) := by decide

/-- The receiver after P2. -/
theorem test_initialize_receiver : (after (step ((start synthetic).withFetchWord 18 0x10000))).map (·.out.panel) =
    some { ir := some 0x22, pr := [(0xA1, 0x4444), (0xA3, 0x3333), (0xD0, 0x010F), (0xD1, 0x1111), (0xE0, 0x0E01)]
           pix := List.replicate 8 0x5A5A } := by decide

/-- P5, first command. -/
theorem test_clear : (traceOf (step ((start tiny).withFetchWord 18 0x2F800))).map wire =
    some [[0x74, 0x00, 0x22, 0x76, 0xF8, 0x00, 0xF8, 0x00, 0xF8, 0x00, 0xF8, 0x00, 0xF8, 0x00, 0xF8, 0x00, 0xF8, 0x00, 0xF8, 0x00]] := by decide

/-- V34: the colour on the port is latched and not used. -/
theorem test_update : (after (step ((start tiny).withFetchWord 18 0x3BEEF))).map (fun t => (t.trace.take 1, t.color, t.src)) =
    some ([.CMD .UPDATE], 0xBEEF, .FB) := by decide

/-- P3: the 16 events of UPDATE on two columns of sixteen pixels. -/
theorem test_update_groups : (traceOf (exec .hostUpdate
    { start wider with fb := [(0, 0x01), (1, 0x80), (2, 0xA5)] })).map
      (fun es => (es.length, es.filterMap readPlace, (wire es).map List.length)) =
    some (16, [(1, 0), (1, 1), (0, 0), (0, 1)], [68]) := by decide

/-- V36: `blk_rst` in the middle of a burst stream leaves the word size wide. -/
theorem test_block_reset : (after (step { streaming tinyBurst .S_PUSH with
    inp := { Inputs.calm with blk_rst := true }, out := { Outside.quiet with bus_width := .W16 } })).map
      (fun t => (t.trace, t.idle, t.lines_oe, t.out.bus_width)) = some ([], true, false, .W16) := by decide

/-- An environment that looks after every row: acceptance of INITIALIZE is a step of its own, and a `blk_rst` before `CFG` is possible (R229). -/
theorem test_by_rows : (after (step (byRows (placeCommand 0x10000 (start tiny))))).map (fun t => (t.trace, t.q_st, t.busy)) =
    some ([.CMD .INITIALIZE], .Q_CFG, true) := by decide

/-- A stall on the second byte of a bulk burst's Index Frame: FE waits in `F_B1`, `BYTE(00)` held out, chip-select low (R130, R224). -/
theorem test_bulk_header_second : (after (drive [slow, Inputs.calm, slow] { inside tiny .Q_FILL with src := .CONST })).map
    (fun t => (t.trace, t.fe_st, t.fs_st, t.req, t.cs_n)) = some ([.CS false, .BYTE 0x74], .F_B1, .S_INDEX, some (.BYTE 0x00), false) := by decide

/-- A stall on the third. -/
theorem test_bulk_header_third : (after (drive [slow, Inputs.calm, Inputs.calm, slow] { inside tiny .Q_FILL with src := .CONST })).map
    (fun t => (t.trace, t.fe_st, t.req)) = some ([.CS false, .BYTE 0x74, .BYTE 0x00], .F_B2, some (.BYTE 0x22)) := by decide

/-- R231: `blk_rst` and INITIALIZE recover the block and the panel, words left in the queue or not. -/
theorem test_recovery : (after (step (placeCommand 0x10000 broken))).map (fun t => (t.panelListens, t.out.ir, t.out.pix)) =
    some (true, some 0x22, List.replicate 8 0x5A5A) := by decide

/-- R158 and P2: where the timed events stand among the bursts of INITIALIZE, up to the second register write. -/
theorem test_observe : (traceOf (step ((start synthetic).withFetchWord 18 0x10000))).map (fun es => (observe es).take 10) =
    some [.timed (.CFG true true true), .timed (.RST false), .timed (.DELAY 50), .timed (.RST true), .timed (.DELAY 50),
      .burst [0x74, 0x00, 0xD0], .burst [0x76, 0x00, 0x00], .timed (.DELAY 10), .burst [0x74, 0x00, 0xD1], .burst [0x76, 0x11, 0x11]] := by decide

/-- `P_WIDTH8` false: the panel is lost in every burst of INITIALIZE (R163, R222, R256). -/
theorem test_wide_initialize : (after (step (placeCommand 0x10000 wide))).map (fun t => (t.idle, t.out.panel_lost)) = some (true, true) := by
  decide

/-! ### Memory -/

/-- Writing what an unlisted address reads as removes the entry. -/
theorem test_memory : Memory.write (Memory.write [] 3 0x01) 3 0x00 = [] ∧ Memory.write [(3, 0x01)] 1 0x80 = [(1, 0x80), (3, 0x01)] ∧
    Memory.wf [(1, 0x80), (3, 0x01)] = true ∧ Memory.wf [(3, 0x01), (1, 0x80)] = false ∧ Memory.wf [(3, 0x00)] = false := by decide

/-! ### For every statement with hypotheses, what meets them -/

/-- Counters at 0 are within every width. -/
theorem fits_zero {s : State} (pc : s.pc = 0) (col : s.col = 0) (grp : s.grp = 0) (op : s.op = 0) : CountersFit s :=
  ⟨by omega, by rw [col]; exact Nat.two_pow_pos _, by rw [grp]; exact Nat.two_pow_pos _, fun _ k => absurd (op ▸ k) (by decide)⟩

/-- The invariant holds in these states: idle, in each kind of wait, and where a command ends. -/
theorem inv_start : Inv (start tiny) := by
  constructor
  case counters => exact fits_zero rfl rfl rfl rfl
  all_goals simp [start, State.resetOf, Memory.wf, cellsRising, Outside.quiet, fsPresent, QState.inStep, FsState.inLoop,
    State.inFrameBracket, FsState.inBracket, QState.linesConfigured]

theorem inv_done : Inv (inside tiny .Q_DONE) := by
  constructor
  case counters => exact fits_zero rfl rfl rfl rfl
  all_goals simp [inside, driven, State.resetOf, Memory.wf, cellsRising, Outside.quiet, fsPresent, QState.inStep, FsState.inLoop,
    State.inFrameBracket, FsState.inBracket, QState.linesConfigured]

/-- The panel is held in reset and the delay primitive has not answered. -/
def held : State := { inside tiny .Q_RST_HOLD with rst_n := false, inp := { Inputs.calm with dly_done := false } }

theorem inv_held : Inv held := by
  constructor
  case counters => exact fits_zero rfl rfl rfl rfl
  all_goals simp [held, inside, driven, State.resetOf, Memory.wf, cellsRising, Outside.quiet, fsPresent, QState.inStep, FsState.inLoop,
    State.inFrameBracket, FsState.inBracket, QState.linesConfigured]

/-- The third byte of a frame of a Power-On Step is not taken. -/
def heldFrame : State :=
  { inside tiny .Q_STEP_DAT with
    fe_st := .F_B2, fe_kind := .DAT, fe_arg := 0x1234, fe_bracket := true, cs_n := false, inp := { Inputs.calm with tx_byte_ack := false } }

theorem inv_heldFrame : Inv heldFrame := by
  constructor
  case counters => exact fits_zero rfl rfl rfl rfl
  all_goals simp [heldFrame, inside, driven, State.resetOf, Memory.wf, cellsRising, Outside.quiet, fsPresent, QState.inStep, FsState.inLoop,
    State.inFrameBracket, FsState.inBracket, QState.linesConfigured, State.frameOfStep, State.romLength, Params.N_ROM]

/-- The FIFO is full. -/
def heldFull : State := { streaming tinyBurst .S_PUSH with inp := { Inputs.calm with fifo_full := true } }

/-- The transport does not drain. -/
def heldBusy : State := { streaming tinyBurst .S_DRAIN with inp := { Inputs.calm with bus_busy := true } }

theorem inv_heldFull : Inv heldFull := by
  have := tinyBurst.geometry
  constructor
  case counters => exact fits_zero rfl rfl rfl rfl
  all_goals simp [heldFull, streaming, inside, driven, State.resetOf, Memory.wf, cellsRising, Outside.quiet, fsPresent, QState.inStep,
    FsState.inLoop, State.inFrameBracket, FsState.inBracket, QState.linesConfigured]
  · decide
  · omega

theorem inv_heldBusy : Inv heldBusy := by
  constructor
  case counters => exact fits_zero rfl rfl rfl rfl
  all_goals simp [heldBusy, streaming, inside, driven, State.resetOf, Memory.wf, cellsRising, Outside.quiet, fsPresent, QState.inStep,
    FsState.inLoop, State.inFrameBracket, FsState.inBracket, QState.linesConfigured]
  decide

theorem witness_EncodedOperationsDecode : (Instr.powerOnStep 0xFF 0xFFFF 255).wellFormed = true ∧
    (Instr.powerOnStep 0xFF 0xFFFF 255).presentIn .BURST = true ∧ (Instr.streamBurst).presentIn .BURST = true ∧
    (Instr.streamBurst).wellFormed = true := by decide

theorem witness_DecodedBytesAreTheEncoding : decode .BURST .cmd [0x01, 0xBE, 0xEF] = .ok .hostInitialize ∧
    decode .BURST .cmd [0x03, 0xBE, 0xEF] = .ok .hostUpdate ∧ decode .BURST .dly [0xFF] = .ok (.delay 255) := by decide

theorem witness_ReservedEncodingsRefused :
    (0x75 : Byte) ≠ 0x74 ∧ (0x75 : Byte) ≠ 0x76 ∧ (0x01 : Byte) ≠ 0x00 ∧ ([0x74, 0x00, 0x23, 0x76] : List Byte) ≠ [0x74, 0x00, 0x22, 0x76] ∧
    ((0x74 : Byte) ≠ 0x74 ∨ (0x77 : Byte) ≠ 0x76) ∧ 4 ≤ (0x04 : Byte).toNat ∧ (0x03 : Byte) ≠ 0x01 ∧ (0x03 : Byte) ≠ 0x02 := by decide

/-- One state for each clause. -/
theorem witness_StepRunsTheDecodedOperation :
    ({ start tiny with inp := { Inputs.calm with blk_rst := true } } : State).inp.blk_rst = true ∧
    (byRows (start tiny)).inp.blk_rst = false ∧ (byRows (start tiny)).inp.by_rows = true ∧
    (let s := placeCommand 0x2F800 (start tiny)
     s.inp.blk_rst = false ∧ s.inp.by_rows = false ∧ s.fe_st = .F_IDLE ∧ s.fs_st = .S_IDLE ∧ s.canAccept = true ∧ s.inp.cmd_valid = true ∧
       decode s.par.STRATEGY .cmd s.inp.commandBytes = .ok (.hostClear 0xF800)) ∧
    (let s := (inside tiny .Q_STEP_DAT).feStart .DAT 0x1234 true
     s.frameBegins = true ∧ ¬(s.fs_st = .S_IDLE ∧ s.q_st = .Q_STEP_IDX ∧ s.fe_kind = .IDX ∧ s.fe_bracket = true) ∧
       decode s.par.STRATEGY .wire s.frame = .ok (.sendData 0x1234)) ∧
    (let s := (inside synthetic .Q_STEP_IDX).feStartIndex 0xD0 true
     s.fe_st = .F_CS_LO ∧ s.fs_st = .S_IDLE ∧ s.q_st = .Q_STEP_IDX ∧ s.fe_kind = .IDX ∧ s.fe_bracket = true ∧
       s.romEntry? = some ⟨0xD0, 0x0000, 10⟩) ∧
    (let s := inside synthetic .Q_STEP_IDX
     s.fe_st = .F_IDLE ∧ s.fs_st = .S_IDLE ∧ s.romEntry? = some ⟨0xD0, 0x0000, 10⟩ ∧
       encode (.powerOnStep 0xD0 0x0000 10) = [0x0A, 0xD0, 0x00, 0x00] ∧
       decode s.par.STRATEGY .rom [0x0A, 0xD0, 0x00, 0x00] = .ok (.powerOnStep 0xD0 0x0000 10)) ∧
    ((inside synthetic .Q_STEP_DAT).q_st = .Q_STEP_DAT ∧ (inside synthetic .Q_STEP_DAT).romEntry? = some ⟨0xD0, 0x0000, 10⟩) ∧
    ((inside synthetic .Q_STEP_DLY).q_st = .Q_STEP_DLY ∧ (inside synthetic .Q_STEP_DLY).romEntry? = some ⟨0xD0, 0x0000, 10⟩) ∧
    decode tiny.STRATEGY .seq [(inside tiny .Q_CFG).q_st.code] = .ok .configLines ∧
    decode tiny.STRATEGY .seq [(inside tiny .Q_RST_LO).q_st.code] = .ok .resetPulse ∧
    (inside tiny .Q_RST_HOLD).fs_st = .S_IDLE ∧ (inside tiny .Q_RST_WAIT).fe_st = .F_IDLE ∧
    decode (inside tiny .Q_UPD).par.STRATEGY .wire [0x74, 0x00, 0x22, 0x76] = .ok .streamBuffered ∧ fetch (start tiny) = none := by decide

theorem witness_FrameEncoderTable :
    (start tiny).fe_st = .F_IDLE ∧ (start tiny).inp.tx_byte_ack = true ∧
    (let s := (inside tiny .Q_STEP_IDX).feStart .IDX 0x07 true
     s.fe_st = .F_CS_LO ∧ s.fe_kind = .IDX ∧ s.fe_bracket = true ∧ s.fs_st = .S_IDLE ∧ s.q_st = .Q_STEP_IDX) ∧
    (let s := (streaming tiny .S_INDEX).feStart .IDX 0x22 false
     s.fe_st = .F_B0 ∧ s.fe_bracket = false ∧ s.fs_st = .S_INDEX) ∧
    (heldFrame.fe_st = .F_B2 ∧ heldFrame.fe_kind = .DAT ∧ heldFrame.fe_bracket = true ∧ heldFrame.fe_st ≠ .F_IDLE) := by decide

theorem witness_SequencerTable :
    (let s := { inside synthetic .Q_STEP_DAT with fe_st := .F_CS_HI }
     s.fs_st = .S_IDLE ∧ s.fe_st = .F_CS_HI ∧ s.q_st = .Q_STEP_DAT) ∧
    (∀ q, (inside synthetic q).fe_st = .F_IDLE ∧ (inside synthetic q).fs_st = .S_IDLE ∧ (inside synthetic q).q_st = q ∧
      (inside synthetic q).inp.dly_done = true) ∧
    (inside synthetic .Q_STEP_DLY).rom[(inside synthetic .Q_STEP_DLY).pc]? = some ⟨0xD0, 0x0000, 10⟩ ∧
    ({ inside synthetic .Q_STEP_DLY with pc := 1 } : State).rom[1]? = some ⟨0xD1, 0x1111, 0⟩ ∧
    ({ inside synthetic .Q_STEP_NEXT with pc := 9 } : State).pc + 1 = (inside synthetic .Q_STEP_NEXT).rom.length ∧
    ({ inside synthetic .Q_STEP_NEXT with pc := 8 } : State).pc + 1 ≠ (inside synthetic .Q_STEP_NEXT).rom.length :=
  ⟨by decide, fun _ => ⟨rfl, rfl, rfl, rfl⟩, by decide, by decide, by decide, by decide⟩

/-- The last bit, the last group and the last column are the places where the clauses meet. -/
theorem witness_StreamerTable :
    (let s := { (streaming tiny .S_INDEX).feStart .IDX 0x22 false with fe_st := .F_B2 }
     s.fs_st = .S_INDEX ∧ s.fe_st = .F_B2 ∧ s.fe_bracket = false ∧ s.inp.tx_byte_ack = true) ∧
    (∀ f, (streaming tinyBurst f).fe_st = .F_IDLE ∧ (streaming tinyBurst f).fs_st = f ∧ (streaming tinyBurst f).src = .CONST) ∧
    (inside tiny .Q_UPD).fs_st = .S_IDLE ∧ tiny.BULK_MARKER = true ∧ ({ tiny with BULK_MARKER := false } : Params).BULK_MARKER = false ∧
    tiny.STRATEGY = .BUFFERED ∧ tinyBurst.STRATEGY = .BURST ∧
    (let s := { streaming wider .S_LOAD with src := .FB, col := 1, grp := 1 }
     s.src = .FB ∧ s.col < s.par.W ∧ s.grp < s.par.G ∧ s.inp.fb_ack = true) ∧
    ({ streaming tinyBurst .S_PUSH with bit := 7 } : State).bit = 7 ∧ ({ streaming tinyBurst .S_PUSH with bit := 6 } : State).bit ≠ 7 ∧
    heldFull.inp.fifo_full = true ∧ heldBusy.inp.bus_busy = true ∧
    (streaming tinyBurst .S_PUSH).inp.fifo_full = false ∧ (streaming tinyBurst .S_DRAIN).inp.bus_busy = false ∧
    ({ streaming wider .S_ADV with grp := 0 } : State).grp ≠ wider.G - 1 ∧
    (({ streaming wider .S_ADV with grp := 1, col := 1 } : State).grp = wider.G - 1 ∧ ({ streaming wider .S_ADV with col := 1 } : State).col ≠ 0) ∧
    (let s := { streaming wider .S_ADV with grp := 1, col := 0 }
     s.fs_st = .S_ADV ∧ s.grp = s.par.G - 1 ∧ s.col = 0) ∧
    (streaming tiny .S_CS_HI).q_st = .Q_FILL :=
  ⟨by decide, fun _ => ⟨rfl, rfl, rfl⟩, by decide⟩

theorem witness_CommandTable :
    (let s := placeCommand 0x10000 (start tiny)
     s.fe_st = .F_IDLE ∧ s.fs_st = .S_IDLE ∧ s.q_st = .Q_IDLE ∧ s.busy = false ∧ s.inp.cmd_valid = true ∧ s.inp.cmd_op = 1) ∧
    (placeCommand 0x2F800 (start tiny)).inp.cmd_op = 2 ∧ (placeCommand 0x30000 (start tiny)).inp.cmd_op = 3 ∧
    (placeCommand 0x0F800 (start tiny)).inp.cmd_op = 0 ∧ (start tiny).inp.cmd_valid = false ∧
    (inside tiny .Q_FILL).q_st = .Q_FILL ∧ (inside tiny .Q_DONE).q_st = .Q_DONE ∧
    (let t := streaming tiny .S_CS_HI
     t.fe_st = .F_IDLE ∧ t.fs_st = .S_CS_HI ∧ t.q_st = .Q_FILL) := by decide

/-- Both forms, and every place the wait of a starter can end in. -/
theorem witness_SendIndexResult :
    (let s := { inside tiny .Q_STEP_IDX with fe_bracket := true }
     s.inp.tx_byte_ack = true ∧ s.fs_st = .S_IDLE ∧ s.fe_bracket = true ∧ s.panelListens = true) ∧
    (let s := streaming tiny .S_INDEX
     s.fs_st = .S_INDEX ∧ s.fe_bracket = false ∧ s.wireClear = true) ∧
    (streaming tiny .S_LOAD).fs_st ≠ .S_IDLE ∧ (streaming tiny .S_LOAD).fs_st ≠ .S_INDEX := by decide

theorem witness_SendDataResult :
    (let s := { inside tiny .Q_STEP_DAT with out := { Outside.quiet with ir := some 0x07 } }
     s.inp.tx_byte_ack = true ∧ s.fs_st = .S_IDLE ∧ s.panelListens = true ∧ s.out.ir = some 0x07) ∧
    (streaming tiny .S_LOAD).fs_st ≠ .S_IDLE ∧ (streaming tiny .S_LOAD).fs_st ≠ .S_INDEX := by decide

theorem witness_WriteRegisterResult :
    (driven tiny).inp.tx_byte_ack = true ∧ (driven tiny).fs_st = .S_IDLE ∧ (driven tiny).panelListens = true ∧ (0x08 : Byte) ≠ 0x07 := by decide

theorem witness_DelayResult :
    (held.inp.dly_done = false ∧ held.par.T_RST_HOLD ≠ 0) ∧
    (∀ q, (inside tiny q).inp.dly_done = true ∧ (inside tiny q).q_st = q) := ⟨by decide, fun _ => ⟨rfl, rfl⟩⟩

/-- Every state of SEQ: the four rows of the pulse, the wait of a step, and the others, of which the last is one. -/
theorem witness_ResetPulseResult : (∀ q, (inside tiny q).inp.dly_done = true ∧ (inside tiny q).q_st = q ∧ (inside tiny q).lines_oe = true) ∧
    (start tiny).inp.dly_done = true ∧ (start tiny).q_st = .Q_IDLE ∧ (start tiny).lines_oe = false :=
  ⟨fun _ => ⟨rfl, rfl, rfl⟩, by decide, by decide, by decide⟩

/-- The last entry and one before it. -/
theorem witness_PowerOnStepResult :
    (let s := { inside synthetic .Q_STEP_IDX with pc := 9 }
     s.inp.tx_byte_ack = true ∧ s.inp.dly_done = true ∧ s.fs_st = .S_IDLE ∧ s.q_st = .Q_STEP_IDX ∧ s.pc + 1 = s.rom.length ∧
       s.panelListens = true) ∧
    ({ inside synthetic .Q_STEP_IDX with pc := 8 } : State).pc + 1 ≠ (inside synthetic .Q_STEP_IDX).rom.length := by decide

/-- For StreamBufferedResult, StreamBurstResult, OtherStrategyAbsent, StreamReachesTheReceiver, StreamWireImage, StreamBracket,
FramebufferReadOrder and StreamCounts: a state of either strategy and of either pixel source. -/
theorem witness_streams :
    (let s := start tiny
     s.par.STRATEGY = .BUFFERED ∧ s.collaboratorsReady = true ∧ s.fe_st = .F_IDLE) ∧
    (let s := { driven tinyBurst with src := .CONST }
     s.par.STRATEGY = .BURST ∧ s.collaboratorsReady = true ∧ s.fe_st = .F_IDLE ∧ s.panelListens = true) := by decide

theorem witness_StrategiesAgree :
    (start tiny).par.STRATEGY = .BUFFERED ∧ (start tinyBurst).par.toParams = { (start tiny).par.toParams with STRATEGY := .BURST } ∧
    (start tinyBurst).src = (start tiny).src ∧ (start tinyBurst).fill_color = (start tiny).fill_color ∧ (start tinyBurst).fb = (start tiny).fb ∧
    (start tiny).collaboratorsReady = true ∧ (start tinyBurst).collaboratorsReady = true ∧ (start tiny).fe_st = .F_IDLE ∧
    (start tinyBurst).fe_st = .F_IDLE := by decide

/-- For InitializeResult, ClearResult, UpdateResult, InitializeTiming and InitializeWireImage. -/
theorem witness_commands :
    (let s := start synthetic
     s.idle = true ∧ s.collaboratorsReady = true ∧ s.rom ≠ [] ∧ s.rom = s.par.rom) := by decide

/-- For ClearAndUpdateEndState and FillPathsDiffer: one state that meets all three hypotheses, with an all-zero framebuffer. -/
theorem witness_ClearAndUpdateEndState :
    ((driven tiny).idle = true ∧ (driven tiny).collaboratorsReady = true ∧ (driven tiny).panelListens = true) ∧
    ∀ c g, fbByte (driven tiny) c g = 0 := ⟨by decide, fun _ _ => rfl⟩

theorem witness_InitializeEndState :
    broken.idle = true ∧ broken.collaboratorsReady = true ∧ broken.rom ≠ [] ∧ broken.inp.tx_delivers = true ∧ broken.out.bus_width = .W8 ∧
    broken.rom = broken.par.rom ∧ broken.par.REG_ENTRY_MODE ≠ broken.par.REG_DISPLAY_CONTROL := by decide

/-- Each cause of each clause. -/
theorem witness_UndefinedPanel :
    ((driven tiny).inp.tx_byte_ack = true ∧ (driven tiny).panelListens = true ∧ (driven tiny).out.ir = none) ∧
    ((start tiny).lines_oe = false ∧ (start tiny).inp.tx_byte_ack = true ∧ (start tiny).idle = true ∧ (start tiny).collaboratorsReady = true) ∧
    (losing.inp.tx_delivers = false ∧ losing.inp.tx_byte_ack = true ∧ losing.idle = true ∧ losing.collaboratorsReady = true ∧ losing.rom ≠ []) ∧
    (wide.out.bus_width = .W16 ∧ wide.inp.tx_byte_ack = true ∧ wide.idle = true ∧ wide.collaboratorsReady = true ∧ wide.rom ≠ []) ∧
    (broken.out.panel_lost = true ∧ broken.inp.tx_byte_ack = true ∧ broken.idle = true ∧ broken.collaboratorsReady = true) := by decide

theorem witness_CommandWhileBusy : (inside tiny .Q_RST_HOLD).busy = true ∧ (inside tiny .Q_RST_HOLD).q_st ≠ .Q_IDLE := by decide

theorem witness_IdleWaitsForACommand :
    (start tiny).idle = true ∧ (start tiny).inp.blk_rst = false ∧ (start tiny).inp.cmd_valid = false ∧
    (placeCommand 0x0F800 (start tiny)).inp.cmd_op = 0 := by decide

theorem witness_StateAfterACommand :
    (let s := { driven tiny with rst_n := true, mode_sel := true }
     s.idle = true ∧ s.collaboratorsReady = true ∧ s.out.bus_width = .W8 ∧ s.rom ≠ [] ∧ s.rst_n = true ∧ s.mode_sel = s.par.MODE_INIT ∧
       (after (exec .hostInitialize s)).isSome = true ∧ (after (exec (.hostClear 0xF800) s)).isSome = true ∧
       (after (exec .hostUpdate s)).isSome = true) := by decide

/-- The first pixel and the last. -/
theorem witness_PixelOrder : (start wider).idle = true ∧ (start wider).collaboratorsReady = true ∧ 0 < wider.W * wider.H ∧ 31 < wider.W * wider.H := by
  decide

/-- Each of the three commands. -/
theorem witness_MemoryWriteInBulkBurstsOnly : (start distinct).idle = true ∧ (start distinct).collaboratorsReady = true ∧
    (start distinct).par.addressesDistinct = true ∧ (start distinct).rom = (start distinct).par.rom := by decide

theorem witness_PowerStagesInOrder : Inv held ∧ held.powerStage = some .inReset ∧ (after (tick held)).bind (·.powerStage) = some .inReset :=
  ⟨inv_held, by decide, by decide⟩

theorem witness_StepIsRows : Inv (start tiny) ∧ (start tiny).inp.blk_rst = false := ⟨inv_start, rfl⟩

/-- For StepKeepsInv, EnvironmentKeepsInv and NeverStops. -/
theorem witness_StepKeepsInv : Inv (start tiny) ∧ ∃ t, step (start tiny) = .next t := ⟨inv_start, _, rfl⟩

theorem witness_EveryNextState : ∃ t, exec (.writeRegister 0x07 0x0037) (driven tiny) = .next t := ⟨_, rfl⟩

theorem witness_FrameOperationsFrame : (∃ t, exec (.sendIndex 0x07) heldFrame = .next t) ∧ (∃ t, exec (.sendData 0x1234) heldFrame = .next t) ∧
    ∃ t, exec (.writeRegister 0x07 0x0037) (driven tiny) = .next t := ⟨⟨_, rfl⟩, ⟨_, rfl⟩, ⟨_, rfl⟩⟩

theorem witness_SequencerOperationsFrame : (∃ t, exec (.delay 50) held = .next t) ∧ (∃ t, exec .configLines (start tiny) = .next t) ∧
    ∃ t, exec .resetPulse (start tiny) = .next t := ⟨⟨_, rfl⟩, ⟨_, rfl⟩, ⟨_, rfl⟩⟩

theorem witness_StepAndStreamFrame : (∃ t, exec (.powerOnStep 0x07 0x0037 10) (start tiny) = .next t) ∧
    (∃ t, exec .streamBuffered (start tiny) = .next t) ∧ ∃ t, exec .streamBurst (start tinyBurst) = .next t := ⟨⟨_, rfl⟩, ⟨_, rfl⟩, ⟨_, rfl⟩⟩

theorem witness_StreamCommandsFrame : (∃ t, exec (.hostClear 0xF800) (start tiny) = .next t) ∧ ∃ t, exec .hostUpdate (start tiny) = .next t :=
  ⟨⟨_, rfl⟩, ⟨_, rfl⟩⟩

theorem witness_BlockedBlockStays :
    (Inv held ∧ held.heldEvent = some (.DELAY 50)) ∧ (Inv heldFrame ∧ heldFrame.heldEvent = some (.BYTE 0x34)) ∧
    (Inv heldFull ∧ heldFull.heldByFlag = true) ∧ (Inv heldBusy ∧ heldBusy.heldByFlag = true) ∧ held.inp.blk_rst = false :=
  ⟨⟨inv_held, by decide⟩, ⟨inv_heldFrame, by decide⟩, ⟨inv_heldFull, by decide⟩, ⟨inv_heldBusy, by decide⟩, rfl⟩

theorem witness_BlockResetResult :
    (let s := { inside tiny .Q_RST_HOLD with inp := { Inputs.calm with blk_rst := true } }
     s.inp.blk_rst = true ∧ s.busy = true) ∧
    ({ start tiny with inp := { Inputs.calm with blk_rst := true } } : State).idle = true := by decide

theorem witness_UnspecifiedRegistersAreNeverRead : Inv (start tiny) ∧ (start tiny).idle = true := ⟨inv_start, by decide⟩

theorem witness_CommandsEnd : Inv (inside tiny .Q_DONE) ∧ (inside tiny .Q_DONE).q_st ≠ .Q_IDLE ∧
    (inside tiny .Q_DONE).collaboratorsReady = true ∧ (inside tiny .Q_DONE).inp.blk_rst = false ∧
    (inside tiny .Q_DONE).inp.cmd_valid = false := ⟨inv_done, by decide, by decide, rfl, rfl⟩

theorem witness_FairCommandsEnd : Inv (inside tiny .Q_DONE) ∧ (inside tiny .Q_DONE).q_st ≠ .Q_IDLE ∧
    Fair (fun n => { Inputs.calm with tx_byte_ack := n % 2 = 1, by_rows := n % 3 = 0 }) :=
  ⟨inv_done, by decide, ⟨fun n => ⟨2 * n + 1, by omega, by simp⟩, fun n => ⟨n, by omega, rfl⟩, fun n => ⟨n, by omega, rfl⟩,
    fun n => ⟨n, by omega, rfl⟩, fun n => ⟨n, by omega, rfl⟩, fun n => ⟨n, by omega, rfl⟩⟩⟩

/-- The widths worked out by hand from R20: 10 entries need 4 bits, two columns or two groups 1 bit, one column or one group 1 bit as well; 319
needs 9 bits, 29 needs 5, and a power of two one more than the number before it. -/
theorem test_widths : (synthetic.PCW, synthetic.CW, synthetic.GW) = (4, 1, 1) ∧ (wider.CW, wider.GW) = (1, 1) ∧
    [0, 1, 2, 7, 8, 29, 319].map leastBits = [1, 1, 2, 3, 4, 5, 9] := by decide

/-- `pc` at the last entry of the ROM, and past it in the initial clear; `col` and `grp` at their largest values. -/
def lastStep : State := { inside synthetic .Q_STEP_NEXT with pc := 9 }

def lastCounters : State := { streaming wider .S_EXPAND with col := 1, grp := 1, pc := 8, op := 1 }

theorem inv_lastStep : Inv lastStep := by
  constructor
  case counters => exact ⟨by decide, by decide, by decide, fun k => by cases k⟩
  all_goals simp [lastStep, inside, driven, State.resetOf, Memory.wf, cellsRising, Outside.quiet, fsPresent, QState.inStep, FsState.inLoop,
    State.inFrameBracket, FsState.inBracket, QState.linesConfigured, State.romLength]
  decide

theorem inv_lastCounters : Inv lastCounters := by
  constructor
  case counters => exact ⟨by decide, by decide, by decide, fun _ _ => by decide⟩
  all_goals simp [lastCounters, streaming, inside, driven, State.resetOf, Memory.wf, cellsRising, Outside.quiet, fsPresent, QState.inStep,
    FsState.inLoop, State.inFrameBracket, FsState.inBracket, QState.linesConfigured]
  all_goals decide

/-- One state for each clause, and a width that a smaller one does not reach. -/
theorem witness_CountersHaveTheirWidths :
    Inv lastStep ∧ Inv lastCounters ∧ Inv held ∧ lastStep.q_st = .Q_STEP_NEXT ∧
    (after (tick lastStep)).map (fun t => (t.pc, t.q_st)) = some (10, .Q_FILL) ∧ lastCounters.col = lastCounters.par.W - 1 ∧
    lastCounters.grp = lastCounters.par.G - 1 ∧ lastCounters.pc = lastCounters.par.N_ROM ∧ lastCounters.q_st ≠ .Q_STEP_NEXT ∧
    (after (tick (inside tiny .Q_RST_WAIT))).map (fun t => (t.pc, t.q_st)) = some (0, .Q_STEP_IDX) ∧
    ¬synthetic.N_ROM < 2 ^ 3 ∧ synthetic.N_ROM < 2 ^ 4 :=
  ⟨inv_lastStep, inv_lastCounters, inv_held, rfl, by decide⟩

end Sys2Proof.Tests
end

section
/-! SUPPORT. The whole step, from its parts: what a step, an operation that begins and a row of the tables can be, once and for all
(R52, R105, R129, R229). -/

namespace Sys2Proof.Machine

/-- An operation that begins is the frame FE was started with, or what SEQ's state selects with FE and FS at rest (R105). -/
theorem fetch_cases {s : State} {i : Instr} (h : fetch s = some i) :
    (s.frameBegins = true ∧ frameFetch s = some i) ∨ (s.fe_st = .F_IDLE ∧ s.fs_st = .S_IDLE ∧ seqFetch s = some i) := by
  unfold fetch at h
  split at h
  · rename_i hb
    exact .inl ⟨hb, h⟩
  · split at h
    · rename_i hr
      exact .inr ⟨hr.1, hr.2, h⟩
    · cases h

/-- Under `blk_rst` a step is the block's reset (R229, R251). -/
theorem step_reset {s : State} (hr : s.inp.blk_rst = true) : step s = .next s.blockReset := by simp [step, hr]

/-- A step runs the operation that begins, where the environment does not look after every row (log entry 15). -/
theorem step_fetched {s : State} {i : Instr} (hr : s.inp.blk_rst = false) (hb : s.inp.by_rows = false) (hf : fetch s = some i) :
    step s = exec i s := by simp [step, hr, hb, hf]

/-- A step is a row where the environment looks after every row and where no operation begins (log entry 15). -/
theorem step_row {s : State} (hr : s.inp.blk_rst = false) (h : s.inp.by_rows = true ∨ fetch s = none) : step s = tick s := by
  obtain hb | hf := h
  · simp [step, hr, hb]
  · simp [step, hr, hf]

/-- There is no other step. -/
theorem step_cases (s : State) :
    s.inp.blk_rst = true ∨ (s.inp.blk_rst = false ∧ s.inp.by_rows = false ∧ ∃ i, fetch s = some i) ∨
      (s.inp.blk_rst = false ∧ (s.inp.by_rows = true ∨ fetch s = none)) := by
  cases s.inp.blk_rst
  · cases s.inp.by_rows
    · cases fetch s with
      | some i => exact .inr (.inl ⟨rfl, rfl, i, rfl⟩)
      | none => exact .inr (.inr ⟨rfl, .inr rfl⟩)
    · exact .inr (.inr ⟨rfl, .inl rfl⟩)
  · exact .inl rfl

/-- A row is one of FE, or one of FS with FE at rest, or one of SEQ with both at rest (R52). -/
theorem tick_cases {s t : State} (h : tick s = .next t) :
    (s.fe_st ≠ .F_IDLE ∧ t = (feRow s).state) ∨
    (s.fe_st = .F_IDLE ∧ s.fs_st ≠ .S_IDLE ∧ t = (fsRow s).state) ∨
    (s.fe_st = .F_IDLE ∧ s.fs_st = .S_IDLE ∧ seqTick s = .next t) := by
  unfold tick at h
  split at h
  · rename_i hf
    cases h
    exact .inl ⟨hf, rfl⟩
  · rename_i hf
    have hf' : s.fe_st = .F_IDLE := not_not.mp hf
    split at h
    · rename_i hs
      unfold fsTick at h
      split at h
      · cases h
      · split at h
        · cases h
        · cases h
          exact .inr (.inl ⟨hf', hs, rfl⟩)
    · rename_i hs
      exact .inr (.inr ⟨hf', not_not.mp hs, h⟩)

end Sys2Proof.Machine
end

section
/-! SUPPORT and PROOFS. The invariant: at reset (R50), under what the environment does between steps (R40 to R47, R62), and over every step. -/

namespace Sys2Proof.Machine

/-- The reset state meets the invariant: the ROM is the one the parameters give, every machine is at rest and every line released (R50). -/
theorem Inv.resetOf (p : Build) : Inv (State.resetOf p) where
  romConstant := rfl
  fbForm := reset_memory_wf p
  prForm := rfl
  busyIff := rfl
  feOwner h := absurd rfl h
  fsOwner h := absurd rfl h
  fsBuilt := rfl
  sourceOf := ⟨nofun, nofun⟩
  pcInRom := nofun
  countersInRange := nofun
  chipSelect := rfl
  resetLine := nofun
  linesDriven := nofun
  modeLine := rfl
  counters := CountersFit.resetOf p

/-- The invariant speaks of no input. -/
theorem Inv.withInputs {s : State} (h : Inv s) (i : Inputs) : Inv { s with inp := i } :=
  { h with counters := { h.counters with } }

/-- Of the framebuffer the invariant asks the canonical form only (R61, R62). -/
theorem Inv.withFramebuffer {s : State} (h : Inv s) (m : Memory) (hm : m.wf = true) : Inv { s with fb := m } :=
  { h with fbForm := hm, counters := { h.counters with } }

/-- An operation that begins answers a next state, which meets the invariant. -/
theorem fetched_inv {s : State} {i : Instr} (h : Inv s) (hi : fetch s = some i) : ∃ t, exec i s = .next t ∧ Inv t := by
  obtain ⟨hb, hi⟩ | ⟨hf, hs, hi⟩ := fetch_cases hi
  · exact frameFetch_inv h hb hi
  · exact seqFetch_inv h hf hs hi

/-- A step answers a next state, which meets the invariant. -/
theorem step_inv {s : State} (h : Inv s) : ∃ t, step s = .next t ∧ Inv t := by
  obtain hr | ⟨hr, hb, i, hf⟩ | ⟨hr, hw⟩ := step_cases s
  · exact ⟨_, step_reset hr, blockReset_inv h⟩
  · rw [step_fetched hr hb hf]
    exact fetched_inv h hf
  · rw [step_row hr hw]
    exact tick_inv h

/-- Settles O45, from the invariant of the block's reset, of every operation that begins and of every row. -/
theorem stepKeepsInv : Obligations.StepKeepsInv := by
  intro s t h ht
  obtain ⟨u, hu, k⟩ := step_inv h
  rw [ht] at hu
  cases hu
  exact k

/-- Settles O46: every machine at rest, every line released, the ROM the parameters' own. -/
theorem resetHasInv : Obligations.ResetHasInv := Inv.resetOf

/-- Settles O47: a host write keeps the framebuffer in canonical form, and of the inputs the invariant does not speak. -/
theorem environmentKeepsInv : Obligations.EnvironmentKeepsInv := fun s i a b h =>
  (h.withInputs i).withFramebuffer (s.fb.write a b) (Memory.write_wf s.fb a b h.fbForm)

/-- Settles O55: `State.resetOf` writes each of these values. -/
theorem resetValues : Obligations.ResetValues := fun _ => ⟨rfl, rfl, rfl, rfl, rfl, rfl, rfl, rfl, rfl⟩

end Sys2Proof.Machine
end

section
/-! SUPPORT and PROOFS. Two runs that differ in the unspecified registers only (R51, R162): each step keeps them in agreement on what is still
to be read. -/

namespace Sys2Proof.Machine

/-- The operation that begins takes states that agree to states that agree. -/
theorem fetched_agree {s : State} {u : Unspecified} {i : Instr} (hi : Inv s) (h : Agree s u) (hf : fetch s = some i) :
    NextAgree (exec i s) (exec i (s.withUnspecified u)) := by
  obtain ⟨hb, hf⟩ | ⟨hfe, hfs, hf⟩ := fetch_cases hf
  · exact frameExec_agree h hb hf
  · exact seqExec_agree hi h hfe hfs hf

/-- A step takes states that agree to states that agree: both reset, both begin the same operation, or both do a row. -/
theorem step_agree {s : State} {u : Unspecified} (hi : Inv s) (h : Agree s u) : NextAgree (step s) (step (s.withUnspecified u)) := by
  have hi' : (s.withUnspecified u).inp = s.inp := rfl
  have hfetch : fetch (s.withUnspecified u) = fetch s := fetch_agree h
  obtain hr | ⟨hr, hb, i, hf⟩ | ⟨hr, hw⟩ := step_cases s
  · rw [step_reset hr, step_reset (hi' ▸ hr)]
    exact blockReset_agree s u
  · rw [step_fetched hr hb hf, step_fetched (hi' ▸ hr) (hi' ▸ hb) (hfetch.trans hf)]
    exact fetched_agree hi h hf
  · rw [step_row hr hw, step_row (hi' ▸ hr) (by rwa [hi', hfetch])]
    exact tick_agree hi h

/-- A run goes on in agreement, whatever inputs the environment sets before each step. -/
theorem drive_agree (is : List Inputs) {s : State} {u : Unspecified} (hi : Inv s) (h : Agree s u) :
    NextAgree (drive is s) (drive is (s.withUnspecified u)) := by
  induction is generalizing s u with
  | nil => exact ⟨s, u, rfl, rfl, h⟩
  | cons i is ih =>
    have hi' : Inv { s with inp := i } := hi.withInputs i
    obtain ⟨t, v, e, e', a⟩ := step_agree (u := u) hi' h
    have e'' : step { s.withUnspecified u with inp := i } = .next (t.withUnspecified v) := e'
    rw [drive, drive, e, e'']
    exact ih (stepKeepsInv _ t hi' e) a

/-- Settles O57: an idle block is still to read none of the unspecified registers, so the runs agree from there on. -/
theorem unspecifiedRegistersAreNeverRead : Obligations.UnspecifiedRegistersAreNeverRead := by
  intro s u is hi hidle
  obtain ⟨t, v, e, e', -⟩ := drive_agree is hi (idle_agree hidle u)
  exact ⟨t, v, e, e'⟩

end Sys2Proof.Machine
end

section
/-! SUPPORT and PROOF. What every operation does from every state, to its end or to a wait: `Extends` for each arm of `exec`
(R27, R37, R42 to R47, R62, R65). -/

namespace Sys2Proof.Machine

/-- Work answered as the next state. -/
theorem Reaches.next {s t : State} {r : Run} (h : Reaches s r) (e : Host.Outcome.next (φ := Fault) (ρ := Refusal) r.state = .next t) :
    ∃ es, Extends es s t := by
  cases e
  exact h

/-- A host command, accepted or not (R205). -/
theorem Reaches.command {s t : State} {r : Run} (h : Reaches s r)
    (e : Host.Outcome.next (φ := Fault) (ρ := Refusal) (if s.canAccept then r.state else s) = .next t) : ∃ es, Extends es s t := by
  split at e
  · exact h.next e
  · exact (Reaches.refl s).next e

/-- Every operation extends what was there by permitted events. -/
theorem exec_extends {i : Instr} {s t : State} (h : exec i s = .next t) : ∃ es, Extends es s t := by
  cases i with
  | sendIndex r => exact (frame_reaches .IDX _ _ s).next h
  | sendData v => exact (frame_reaches .DAT v true s).next h
  | writeRegister r v => exact (writeRegisterOp_reaches r v s).next h
  | powerOnStep reg val dly => exact (powerOnStepOp_reaches reg val dly s).next h
  | delay n => exact (delayOp_reaches n s).next h
  | configLines => exact (configLinesOp_reaches s).next h
  | resetPulse => exact (resetPulseOp_reaches s).next h
  | streamBuffered =>
    simp only [exec, execStreamBuffered] at h
    split at h
    · exact (streamOp_reaches s).next h
    · cases h
  | streamBurst =>
    simp only [exec, execStreamBurst] at h
    split at h
    · exact (streamOp_reaches s).next h
    · cases h
  | hostInitialize => exact (initializeOp_reaches s).command h
  | hostClear color => exact (clearOp_reaches color s).command h
  | hostUpdate => exact (updateOp_reaches s).command h

/-- Settles O49, from what every operation's work reaches. -/
theorem everyNextState : Obligations.EveryNextState := by
  intro i s t h
  obtain ⟨es, k⟩ := exec_extends h
  exact ⟨⟨k.par, k.rom, fun a => by rw [k.fb]⟩, k.inp, es, k.trace, k.lines, k.width, k.permitted⟩

end Sys2Proof.Machine
end

section
/-! SUPPORT and PROOF. The counters' widths (R20) and the moves of `pc` (R22, R30), row by row. -/

namespace Sys2Proof.Machine

/-- SEQ's rows need FE and FS at rest, and `Q_STEP_NEXT` is such a row: no frame or stream is in progress there (R52). -/
theorem Inv.stepNext_atRest {s : State} (h : Inv s) (hq : s.q_st = .Q_STEP_NEXT) : s.fe_st = .F_IDLE ∧ s.fs_st = .S_IDLE := by
  have hs : s.fs_st = .S_IDLE := by
    by_contra hs
    have := h.fsOwner hs
    simp [hq] at this
  refine ⟨?_, hs⟩
  by_contra hf
  have := h.feOwner hf
  simp [State.frameOfStep, State.frameOfStream, hq, hs] at this

/-- A row of FE leaves `pc` alone. -/
theorem feRow_pc (s : State) : (feRow s).state.pc = s.pc :=
  (congrArg State.pc (feRow_frameMask s) : (feRow s).state.frameMask.pc = s.frameMask.pc)

/-- A row of FS leaves `pc` alone. -/
theorem fsRow_pc (s : State) : (fsRow s).state.pc = s.pc :=
  (congrArg State.pc (fsRow_streamMask s) : (fsRow s).state.streamMask.pc = s.streamMask.pc)

/-- Acceptance leaves `pc` alone. -/
theorem acceptRow_pc (s : State) : (acceptRow s).pc = s.pc := by
  unfold acceptRow
  cases s.canAccept
  · rfl
  · generalize portCommand s = c
    rcases c with _ | i
    · rfl
    · cases i <;> rfl

/-- The end of a wait moves `pc` in `Q_RST_WAIT` only. -/
theorem State.delayReturn_pc_of_ne {s : State} (hq : s.q_st ≠ .Q_RST_WAIT) : s.delayReturn.pc = s.pc := by
  unfold State.delayReturn
  split
  · rfl
  · contradiction
  · rfl
  · rfl

/-- A wait that is not over leaves `pc` alone; one that is over leaves `pc` and SEQ as its end does. -/
theorem delayOp_pc (n : Nat) (s : State) : (delayOp n s).state.pc = s.pc ∨
    ((delayOp n s).state.pc = s.delayReturn.pc ∧ (delayOp n s).state.q_st = s.delayReturn.q_st) := by
  cases hd : delayOp n s with
  | done t =>
    obtain ⟨hq, hpc, -⟩ := delayOp_end hd
    exact .inr ⟨hpc, hq⟩
  | wait t =>
    left
    unfold delayOp State.ask at hd
    split at hd
    · cases hd
    · split at hd
      · cases hd
      · cases hd
        rfl

/-- A wait in any state but `Q_RST_WAIT` leaves `pc` alone. -/
theorem delayOp_pc_of_ne (n : Nat) {s : State} (hq : s.q_st ≠ .Q_RST_WAIT) : (delayOp n s).state.pc = s.pc := by
  obtain e | ⟨e, -⟩ := delayOp_pc n s
  · exact e
  · rw [e, State.delayReturn_pc_of_ne hq]

/-- A row that reads the ROM answers by the entry at `pc`. -/
theorem withRomEntry_next {s t : State} {f : RomStep → State} (h : withRomEntry s f = .next t) : ∃ e, t = f e := by
  unfold withRomEntry at h
  split at h
  · rename_i e _
    cases h
    exact ⟨e, rfl⟩
  · cases h

/-- A row of SEQ other than `Q_STEP_NEXT` leaves `pc` alone, or ends the reset pulse with `pc = 0` (R22, R30). -/
theorem seqTick_pc {s t : State} (hq : s.q_st ≠ .Q_STEP_NEXT) (h : seqTick s = .next t) :
    t.pc = s.pc ∨ (s.q_st = .Q_RST_WAIT ∧ t.q_st = .Q_STEP_IDX ∧ t.pc = 0) := by
  unfold seqTick at h
  cases hs : s.q_st <;> simp only [hs] at h
  case Q_IDLE => cases h; exact .inl (acceptRow_pc s)
  case Q_CFG => cases h; exact .inl (by simp [configLinesOp])
  case Q_RST_LO => cases h; exact .inl (by simp [resetLow])
  case Q_RST_HOLD => cases h; exact .inl (delayOp_pc_of_ne _ (by simp [hs]))
  case Q_RST_HI => cases h; exact .inl (by simp [resetHigh])
  case Q_RST_WAIT =>
    cases h
    obtain e | ⟨e, q⟩ := delayOp_pc s.par.T_RST_WAIT s
    · exact .inl e
    · exact .inr ⟨rfl, by rw [q]; simp [State.delayReturn, hs], by rw [e]; simp [State.delayReturn, hs]⟩
  case Q_STEP_IDX => obtain ⟨e, rfl⟩ := withRomEntry_next h; exact .inl rfl
  case Q_STEP_DAT => obtain ⟨e, rfl⟩ := withRomEntry_next h; exact .inl rfl
  case Q_STEP_DLY => obtain ⟨e, rfl⟩ := withRomEntry_next h; exact .inl (delayOp_pc_of_ne _ (by simp [hs]))
  case Q_STEP_NEXT => exact absurd hs hq
  case Q_FILL => cases h; exact .inl rfl
  case Q_UPD => cases h; exact .inl rfl
  case Q_DONE => cases h; exact .inl rfl

/-- Any row but `Q_STEP_NEXT`'s leaves `pc` alone, or ends the reset pulse with `pc = 0`. -/
theorem tick_pc {s t : State} (hq : s.q_st ≠ .Q_STEP_NEXT) (h : tick s = .next t) :
    t.pc = s.pc ∨ (s.q_st = .Q_RST_WAIT ∧ t.q_st = .Q_STEP_IDX ∧ t.pc = 0) := by
  obtain ⟨-, rfl⟩ | ⟨-, -, rfl⟩ | ⟨-, -, h⟩ := tick_cases h
  · exact .inl (feRow_pc s)
  · exact .inl (fsRow_pc s)
  · exact seqTick_pc hq h

/-- `Q_STEP_NEXT` adds 1 to `pc` and ends the program exactly at the end of the ROM (R30, R147). -/
theorem State.stepNext_fill {s : State} (hq : s.q_st = .Q_STEP_NEXT) : s.stepNext.q_st = .Q_FILL ↔ s.pc + 1 = s.romLength := by
  unfold State.stepNext
  by_cases he : s.pc + 1 = s.romLength <;> simp [hq, he]

/-- The row `Q_STEP_NEXT` under the invariant, which has FE and FS at rest there and the ROM as the parameters give it. -/
theorem tick_stepNext {s t : State} (h : Inv s) (hq : s.q_st = .Q_STEP_NEXT) (ht : tick s = .next t) :
    t.pc = s.pc + 1 ∧ (t.q_st = .Q_FILL ↔ t.pc = s.par.N_ROM) := by
  obtain ⟨hf, hs⟩ := h.stepNext_atRest hq
  have e : t = s.stepNext := by simpa [tick, hf, hs, seqTick, hq] using ht.symm
  have hN : s.romLength = s.par.N_ROM := by simp [State.romLength, h.romConstant]
  subst e
  rw [State.stepNext_fill hq, State.stepNext_pc, hN]
  exact ⟨rfl, Iff.rfl⟩

/-- Settles O60: the widths by `leastBits`, the bounds from the invariant, the moves of `pc` row by row. -/
theorem countersHaveTheirWidths : Obligations.CountersHaveTheirWidths := by
  refine ⟨fun p => ?_, fun s h => ?_, fun s t h ht => ⟨fun hq => tick_stepNext h hq ht, fun hq => tick_pc hq ht⟩⟩
  · exact ⟨leastBits_pos _, leastBits_pos _, leastBits_pos _, lt_leastBits _, lt_leastBits _, lt_leastBits _,
      fun w hw => ⟨leastBits_le hw, leastBits_le hw, leastBits_le hw⟩⟩
  · obtain ⟨hpc, hcol, hgrp, -⟩ := h.counters
    exact ⟨hpc, Nat.lt_of_le_of_lt hpc (lt_leastBits _), hcol, hgrp⟩

end Sys2Proof.Machine
end

section
/-! SUPPORT and PROOFS. A stream seen from outside: the one burst it puts on the wire, the pixel at each place of it (R87, R171), and what a
listening receiver makes of it (R79). -/

namespace Sys2Proof.Machine

/-! ### The burst of a stream -/

/-- Events between two edges of chip-select add their bytes to the burst that is open, if one is (R11). -/
theorem wireFrom_append (es fs : List Event) (h : ∀ e ∈ es, isChipSelect e = false) (burst : Option (List Byte)) :
    wireFrom burst (es ++ fs) = wireFrom (burst.map (· ++ es.flatMap eventBytes)) fs := by
  induction es generalizing burst with
  | nil => simp
  | cons e es ih =>
    obtain ⟨he, hes⟩ := List.forall_mem_cons.1 h
    have step : wireFrom burst (e :: (es ++ fs)) = wireFrom (burst.map (· ++ eventBytes e)) (es ++ fs) := by
      cases e with
      | CS l => cases he
      | _ => rfl
    rw [List.cons_append, step, ih hes]
    cases burst <;> simp

/-- A bracket of chip-select is one burst, whatever burst it comes upon (R11). -/
theorem wireFrom_bracket (es fs : List Event) (h : ∀ e ∈ es, isChipSelect e = false) (burst : Option (List Byte)) :
    wireFrom burst (.CS false :: es ++ .CS true :: fs) = es.flatMap eventBytes :: wireFrom none fs := by
  have opened : wireFrom burst (.CS false :: (es ++ .CS true :: fs)) = wireFrom (some []) (es ++ .CS true :: fs) := by
    cases burst <;> rfl
  rw [List.cons_append, opened, wireFrom_append es _ h]
  rfl

/-- What a stream does inside its bracket (R171 to R173). -/
def bracketTrace (p : Params) (src : PixelSource) (fill : Half) (fb : Nat → Nat → Byte) : List Event :=
  indexTrace false Config.REG_MEMORY_WRITE ++ markerTrace p ++ widenTrace p ++ groupsTrace p src fill fb ++ narrowTrace p

theorem streamTrace_eq_bracket (p : Params) (src : PixelSource) (fill : Half) (fb : Nat → Nat → Byte) :
    streamTrace p src fill fb = .CS false :: bracketTrace p src fill fb ++ [.CS true] := by
  simp [streamTrace, headTrace, tailTrace, bracketTrace]

theorem narrow_not_chipSelect {e : Event} (h : e.isNarrow = true) : isChipSelect e = false := by
  cases e with
  | CS l => cases h
  | _ => rfl

theorem wide_not_chipSelect {e : Event} (h : e.isWide = true) : isChipSelect e = false := by
  cases e with
  | CS l => cases h
  | _ => rfl

/-- The groups of a stream do not touch chip-select, in either strategy. -/
theorem groupsTrace_not_chipSelect (p : Params) (src : PixelSource) (fill : Half) (fb : Nat → Nat → Byte) :
    ∀ e ∈ groupsTrace p src fill fb, isChipSelect e = false := by
  intro e he
  cases hst : p.STRATEGY
  · exact narrow_not_chipSelect (List.all_eq_true.1 (groupsTrace_narrow p src fill fb hst) e he)
  · exact wide_not_chipSelect (List.all_eq_true.1 (groupsTrace_wide p src fill fb hst) e he)

/-- Chip-select does not move inside the bracket of a stream (R175). -/
theorem bracketTrace_not_chipSelect (p : Params) (src : PixelSource) (fill : Half) (fb : Nat → Nat → Byte) :
    ∀ e ∈ bracketTrace p src fill fb, isChipSelect e = false := by
  have hindex : ∀ e ∈ indexTrace false Config.REG_MEMORY_WRITE, isChipSelect e = false := by decide
  have hmarker : ∀ e ∈ markerTrace p, isChipSelect e = false := by
    unfold markerTrace; cases p.BULK_MARKER <;> decide
  have hwiden : ∀ e ∈ widenTrace p, isChipSelect e = false := by
    unfold widenTrace; cases p.STRATEGY <;> decide
  have hnarrow : ∀ e ∈ narrowTrace p, isChipSelect e = false := by
    unfold narrowTrace; cases p.STRATEGY <;> decide
  simp only [bracketTrace, List.forall_mem_append]
  exact ⟨⟨⟨⟨hindex, hmarker⟩, hwiden⟩, groupsTrace_not_chipSelect p src fill fb⟩, hnarrow⟩

/-- The bytes inside the bracket of a stream are its burst: a change of the word size has none (R94, R171, R174). -/
theorem bracketTrace_bytes (p : Build) (src : PixelSource) (fill : Half) (fb : Nat → Nat → Byte) :
    (bracketTrace p.toParams src fill fb).flatMap eventBytes = streamBurst p.toParams src fill fb := by
  obtain ⟨-, -, -, hG, hGH⟩ := p.geometry
  have hindex : (indexTrace false Config.REG_MEMORY_WRITE).flatMap eventBytes = indexFrame Config.REG_MEMORY_WRITE := rfl
  have hmarker : (markerTrace p.toParams).flatMap eventBytes = if p.BULK_MARKER then [Config.MARK_DATA] else [] := by
    unfold markerTrace; cases p.BULK_MARKER <;> rfl
  have hwiden : (widenTrace p.toParams).flatMap eventBytes = [] := by
    unfold widenTrace; cases p.STRATEGY <;> rfl
  have hnarrow : (narrowTrace p.toParams).flatMap eventBytes = [] := by
    unfold narrowTrace; cases p.STRATEGY <;> rfl
  simp [bracketTrace, streamBurst, hindex, hmarker, hwiden, hnarrow, groupsTrace_bytes p.toParams src fill fb hG hGH]

/-- A stream is one burst on the wire, before whatever comes after it (R171, R175). -/
theorem wireFrom_streamTrace (p : Build) (src : PixelSource) (fill : Half) (fb : Nat → Nat → Byte) (fs : List Event)
    (burst : Option (List Byte)) :
    wireFrom burst (streamTrace p.toParams src fill fb ++ fs) = streamBurst p.toParams src fill fb :: wireFrom none fs := by
  rw [streamTrace_eq_bracket, List.append_assoc, ← bracketTrace_bytes]
  exact wireFrom_bracket _ fs (bracketTrace_not_chipSelect p.toParams src fill fb) burst

/-! ### The places of a burst -/

/-- The `n`-th word of a list stands at bytes `2n` and `2n + 1` of its bytes, high byte first (R67, R101). -/
theorem wordBytes_getElem? {vs : List Half} {n : Nat} {v : Half} (h : vs[n]? = some v) :
    (vs.flatMap wordBytes)[2 * n]? = some (hi v) ∧ (vs.flatMap wordBytes)[2 * n + 1]? = some (lo v) := by
  induction vs generalizing n with
  | nil => simp at h
  | cons w vs ih =>
    cases n with
    | zero =>
      obtain rfl : w = v := by simpa using h
      exact ⟨rfl, rfl⟩
    | succ n => exact ih (by simpa using h)

/-- Two bytes to a word. -/
theorem wordBytes_length (vs : List Half) : (vs.flatMap wordBytes).length = 2 * vs.length := by
  simp [List.length_flatMap, wordBytes, Nat.mul_comm]

@[simp] theorem streamPixels_length (p : Params) (src : PixelSource) (fill : Half) (fb : Nat → Nat → Byte) :
    (streamPixels p src fill fb).length = p.W * p.H := by simp [streamPixels]

theorem streamPixels_getElem? {p : Params} {n : Nat} (h : n < p.W * p.H) (src : PixelSource) (fill : Half) (fb : Nat → Nat → Byte) :
    (streamPixels p src fill fb)[n]? = some (streamPixel p src fill fb n) := by simp [streamPixels, h]

/-- The number of bytes before the first pixel of a bulk burst (R94, R180). -/
def headerLength (p : Params) : Nat := if p.BULK_MARKER then 4 else 3

theorem streamHeader_length (p : Params) :
    (indexFrame Config.REG_MEMORY_WRITE ++ if p.BULK_MARKER then [Config.MARK_DATA] else []).length = headerLength p := by
  unfold headerLength; cases p.BULK_MARKER <;> rfl

theorem streamBurst_length (p : Params) (src : PixelSource) (fill : Half) (fb : Nat → Nat → Byte) :
    (streamBurst p src fill fb).length = headerLength p + 2 * (p.W * p.H) := by
  rw [streamBurst, List.length_append, streamHeader_length, wordBytes_length, streamPixels_length]

/-- After the header, the `n`-th pixel of R171 stands at the `n`-th pair of bytes. -/
theorem streamBurst_pixel {p : Params} {n : Nat} (h : n < p.W * p.H) (src : PixelSource) (fill : Half) (fb : Nat → Nat → Byte) :
    (streamBurst p src fill fb)[headerLength p + 2 * n]? = some (hi (streamPixel p src fill fb n)) ∧
      (streamBurst p src fill fb)[headerLength p + 2 * n + 1]? = some (lo (streamPixel p src fill fb n)) := by
  have skip : ∀ i, (streamBurst p src fill fb)[headerLength p + i]? = ((streamPixels p src fill fb).flatMap wordBytes)[i]? := by
    intro i
    rw [streamBurst, List.getElem?_append_right (by rw [streamHeader_length]; omega), streamHeader_length, Nat.add_sub_cancel_left]
  rw [Nat.add_assoc, skip, skip]
  exact wordBytes_getElem? (streamPixels_getElem? h src fill fb)

/-- R87 from R171: a column is whole byte-groups, so position `n mod 8` of group `(n mod H) div 8` is row `n mod H` of its column. -/
theorem streamPixel_fb (p : Build) (fill : Half) (fb : Nat → Nat → Byte) (n : Nat) :
    streamPixel p.toParams .FB fill fb n =
      if logicalPixel fb (p.W - 1 - n / p.H) (n % p.H) then p.MASK_FILLED else p.MASK_BLANK := by
  obtain ⟨-, -, hH, -, -⟩ := p.geometry
  have hrow : n % p.H % 8 = n % 8 := Nat.mod_mod_of_dvd n (Nat.dvd_of_mod_eq_zero hH)
  rw [logicalPixel, hrow]
  rfl

/-! ### The stream and UPDATE as operations -/

/-- The stream a block is built with runs (R170). -/
theorem exec_streamOf (s : State) : exec (streamOf s.par.STRATEGY) s = .next (streamOp s).state := by
  cases h : s.par.STRATEGY
  · simp [streamOf, exec, execStreamBuffered, h]
  · simp [streamOf, exec, execStreamBurst, h]

/-- What `idle` says, part by part. -/
theorem State.idle_parts {s : State} (h : s.idle = true) :
    s.q_st = .Q_IDLE ∧ s.fe_st = .F_IDLE ∧ s.fs_st = .S_IDLE ∧ s.busy = false := by
  simpa [State.idle, and_assoc] using h

/-- An idle block can accept a command (R200). -/
theorem State.canAccept_of_idle {s : State} (h : s.idle = true) : s.canAccept = true := by
  obtain ⟨hq, -, -, hb⟩ := State.idle_parts h
  simp [State.canAccept, hq, hb]

/-- UPDATE runs on a block that can accept a command (R202, R205). -/
theorem exec_hostUpdate {s : State} (h : s.canAccept = true) : exec .hostUpdate s = .next (updateOp s).state := by
  simp [exec, execHostUpdate, h]

/-- The wire of a command that only streams is the stream's burst: `CMD` and `DONE` are not on it (R11). -/
theorem wire_streamCommand (c : HostCommand) (p : Build) (src : PixelSource) (fill : Half) (fb : Nat → Nat → Byte) :
    wire (.CMD c :: streamTrace p.toParams src fill fb ++ [.DONE]) = [streamBurst p.toParams src fill fb] :=
  wireFrom_streamTrace p src fill fb [.DONE] none

/-- Settles O26, from the events of a stream and what a listening receiver makes of them. -/
theorem streamReachesTheReceiver : Obligations.StreamReachesTheReceiver := by
  intro s hready hlisten hfe
  obtain ⟨t, ht, hp, -⟩ := streamOp_done s hready hfe
  refine ⟨t, by rw [exec_streamOf, ht]; rfl, ?_⟩
  rw [hp.out, stream_out s hlisten]
  rfl

/-- Settles O36: the one burst of UPDATE, read pair by pair by R171, whose formula is R87's. -/
theorem pixelOrder : Obligations.PixelOrder := by
  intro s hidle hready
  obtain ⟨t, ht, hp, -⟩ := updateOp_done s hready (State.idle_parts hidle).2.1
  refine ⟨t, _, streamBurst s.par.toParams .FB s.fill_color (fbByte s), ?_, hp.trace, wire_streamCommand _ _ _ _ _,
    streamBurst_length _ _ _ _, ?_⟩
  · rw [exec_hostUpdate (State.canAccept_of_idle hidle), ht]
    rfl
  · rintro n hn _ rfl
    rw [← streamPixel_fb s.par s.fill_color]
    exact streamBurst_pixel hn _ _ _

end Sys2Proof.Machine
end

section
/-! SUPPORT and PROOFS. Decoder and encoder (R90 to R98, R103 to R106): what each place's bytes are read as, which bytes are read as an operation
at all, and which are refused. -/

namespace Sys2Proof

/-! ### Bytes and values -/

/-- `h : l` is `256 * h + l`, unsigned (R16). -/
theorem join_toNat (h l : Byte) : (join h l).toNat = 256 * h.toNat + l.toNat := by
  have hl : l.toNat < 2 ^ 8 := l.isLt
  calc (join h l).toNat
      = h.toNat <<< 8 ||| l.toNat := BitVec.toNat_append h l
    _ = h.toNat <<< 8 + l.toNat := (Nat.shiftLeft_add_eq_or_of_lt hl _).symm
    _ = 256 * h.toNat + l.toNat := by rw [Nat.shiftLeft_eq, Nat.mul_comm]

/-- A value's two bytes are its quotient and remainder by 256: `join_toNat`, and a byte is below 256 (R98). -/
theorem hi_lo_toNat (v : Half) : (hi v).toNat = v.toNat / 256 ∧ (lo v).toNat = v.toNat % 256 := by
  have hv : v.toNat = 256 * (hi v).toNat + (lo v).toNat := by rw [← join_toNat, join_hi_lo]
  have hl : (lo v).toNat < 256 := (lo v).isLt
  omega

/-- Settles O5: the Data Frame carries `hi v` and `lo v`. -/
theorem dataFramePayload : Obligations.DataFramePayload := fun v => ⟨hi v, lo v, rfl, hi_lo_toNat v⟩

/-! ### What the encodings decode to -/

theorem decode_indexFrame (st : Strategy) (r : Byte) : decode st .wire (indexFrame r) = .ok (.sendIndex r) := rfl

theorem decode_dataFrame (st : Strategy) (v : Half) : decode st .wire (dataFrame v) = .ok (.sendData v) :=
  congrArg (fun v => Decoded.ok (.sendData v)) (join_hi_lo v)

theorem decode_registerWrite (st : Strategy) (r : Byte) (v : Half) :
    decode st .wire (indexFrame r ++ dataFrame v) = .ok (.writeRegister r v) :=
  congrArg (fun v => Decoded.ok (.writeRegister r v)) (join_hi_lo v)

/-- The head of a bulk burst is the stream of the block's strategy (R94, R105, R170). -/
theorem decode_bulkHead (st : Strategy) :
    decode st .wire (indexFrame Config.REG_MEMORY_WRITE ++ [Config.MARK_DATA]) = .ok (streamOf st) := rfl

theorem decode_romWord (st : Strategy) (d r h l : Byte) :
    decode st .rom [d, r, h, l] = .ok (.powerOnStep r (join h l) d.toNat) := rfl

/-- CLEAR's command word carries its colour (R104). -/
theorem decode_encode_hostClear (st : Strategy) (color : Half) : decode st .cmd (encode (.hostClear color)) = .ok (.hostClear color) :=
  congrArg (fun v => Decoded.ok (.hostClear v)) (join_hi_lo color)

theorem decode_delayField (st : Strategy) (d : Byte) : decode st .dly [d] = .ok (.delay d.toNat) := rfl

/-- A delay below 256 is its field, read back (R103). -/
theorem delayField_toNat {n : Nat} (h : n < 256) : (BitVec.ofNat 8 n).toNat = n := by
  rw [BitVec.toNat_ofNat, Nat.mod_eq_of_lt h]

/-- A ROM entry whose delay fits is read back from its word (R103). -/
theorem decode_encode_powerOnStep (st : Strategy) (reg : Byte) (val : Half) {dly : Nat} (h : dly < 256) :
    decode st .rom (encode (.powerOnStep reg val dly)) = .ok (.powerOnStep reg val dly) := by
  rw [encode, decode_romWord, join_hi_lo, delayField_toNat h]

/-- A delay that fits is read back from its field (R103, R143). -/
theorem decode_encode_delay (st : Strategy) {n : Nat} (h : n < 256) : decode st .dly (encode (.delay n)) = .ok (.delay n) := by
  rw [encode, decode_delayField, delayField_toNat h]

/-- Settles O2, operation by operation: each place reads its own words back. -/
theorem encodedOperationsDecode : Obligations.EncodedOperationsDecode := by
  intro st i hfits hpresent
  cases i with
  | sendIndex r => exact decode_indexFrame st r
  | sendData v => exact decode_dataFrame st v
  | writeRegister r v => exact decode_registerWrite st r v
  | powerOnStep reg val dly => exact decode_encode_powerOnStep st reg val (of_decide_eq_true hfits)
  | delay n => exact decode_encode_delay st (of_decide_eq_true hfits)
  | configLines => rfl
  | resetPulse => rfl
  | streamBuffered =>
    obtain rfl : st = .BUFFERED := by simpa [Instr.presentIn] using hpresent
    exact decode_bulkHead _
  | streamBurst =>
    obtain rfl : st = .BURST := by simpa [Instr.presentIn] using hpresent
    exact decode_bulkHead _
  | hostInitialize => rfl
  | hostClear color => exact decode_encode_hostClear st color
  | hostUpdate => rfl

/-- Settles O1: each byte string is written out from the encoding of its operation, and the decoder computes on it. -/
theorem specWordsDecode : Obligations.SpecWordsDecode := by
  intro st
  cases st <;> decide

/-! ### Which bytes are read as an operation -/

/-- `bs` in place `f` of a block of strategy `st` is the encoding of `i`, but for the colour bits that INITIALIZE and UPDATE ignore (R104). -/
structure EncodedAt (st : Strategy) (f : Format) (bs : List Byte) (i : Instr) : Prop where
  place : f = formatOf i
  fits : i.wellFormed = true
  present : i.presentIn st = true
  bytes : bs = encode i ∨ (i = .hostInitialize ∧ ∃ h l : Byte, bs = [0x01, h, l]) ∨ (i = .hostUpdate ∧ ∃ h l : Byte, bs = [0x03, h, l])

/-- The stream of a block exists in it. -/
theorem streamOf_encodedAt (st : Strategy) :
    EncodedAt st .wire (indexFrame Config.REG_MEMORY_WRITE ++ [Config.MARK_DATA]) (streamOf st) := by
  cases st <;> exact ⟨rfl, rfl, rfl, .inl rfl⟩

theorem decodeFrame_encodedAt {m a b : Byte} {i : Instr} (st : Strategy) (h : decodeFrame m a b = .ok i) :
    EncodedAt st .wire [m, a, b] i := by
  unfold decodeFrame at h
  split at h
  next hm =>
    split at h
    next ha =>
      cases h
      exact ⟨rfl, rfl, rfl, .inl (by simp [encode, indexFrame, hm, ha])⟩
    next => cases h
  next =>
    split at h
    next hm =>
      cases h
      exact ⟨rfl, rfl, rfl, .inl (by simp [encode, dataFrame, hm])⟩
    next => cases h

theorem decodeBulk_encodedAt {st : Strategy} {m p r d : Byte} {i : Instr} (h : decodeBulk st m p r d = .ok i) :
    EncodedAt st .wire [m, p, r, d] i := by
  unfold decodeBulk at h
  split at h
  next hb =>
    obtain ⟨rfl, rfl, rfl, rfl⟩ := hb
    cases h
    exact streamOf_encodedAt st
  next => cases h

theorem decodePair_encodedAt {m p r d h l : Byte} {i : Instr} (st : Strategy) (k : decodePair m p r d h l = .ok i) :
    EncodedAt st .wire [m, p, r, d, h, l] i := by
  unfold decodePair at k
  split at k
  next => cases k
  next hmd =>
    obtain ⟨rfl, rfl⟩ : m = Config.MARK_INDEX ∧ d = Config.MARK_DATA := by simpa using hmd
    split at k
    next => cases k
    next hp =>
      obtain rfl := not_not.1 hp
      cases k
      exact ⟨rfl, rfl, rfl, .inl (by simp [encode, indexFrame, dataFrame])⟩

theorem decodeCommand_encodedAt {x h l : Byte} {i : Instr} (st : Strategy) (k : decodeCommand x h l = .ok i) :
    EncodedAt st .cmd [x, h, l] i := by
  unfold decodeCommand at k
  split at k
  next => cases k
  next hx =>
    obtain rfl : x = 0x01 := BitVec.eq_of_toNat_eq hx
    cases k
    exact ⟨rfl, rfl, rfl, .inr (.inl ⟨rfl, h, l, rfl⟩)⟩
  next hx =>
    obtain rfl : x = 0x02 := BitVec.eq_of_toNat_eq hx
    cases k
    exact ⟨rfl, rfl, rfl, .inl (by simp [encode])⟩
  next hx =>
    obtain rfl : x = 0x03 := BitVec.eq_of_toNat_eq hx
    cases k
    exact ⟨rfl, rfl, rfl, .inr (.inr ⟨rfl, h, l, rfl⟩)⟩
  next => cases k

theorem decodeSeqCode_encodedAt {q : Byte} {i : Instr} (st : Strategy) (h : decodeSeqCode q = .ok i) : EncodedAt st .seq [q] i := by
  unfold decodeSeqCode at h
  split at h
  next hq =>
    obtain rfl : q = 0x01 := BitVec.eq_of_toNat_eq hq
    cases h
    exact ⟨rfl, rfl, rfl, .inl rfl⟩
  next hq =>
    obtain rfl : q = 0x02 := BitVec.eq_of_toNat_eq hq
    cases h
    exact ⟨rfl, rfl, rfl, .inl rfl⟩
  next => cases h

/-- A byte as a delay fits its field (R103). -/
theorem delayFits_toNat (d : Byte) : delayFits d.toNat = true := decide_eq_true d.isLt

theorem decode_encodedAt {st : Strategy} {f : Format} {bs : List Byte} {i : Instr} (h : decode st f bs = .ok i) :
    EncodedAt st f bs i := by
  unfold decode at h
  split at h
  next => exact decodeFrame_encodedAt st h
  next => exact decodeBulk_encodedAt h
  next => exact decodePair_encodedAt st h
  next d r x y =>
    cases h
    exact ⟨rfl, delayFits_toNat d, rfl, .inl (by simp [encode])⟩
  next => exact decodeCommand_encodedAt st h
  next => exact decodeSeqCode_encodedAt st h
  next d =>
    cases h
    exact ⟨rfl, delayFits_toNat d, rfl, .inl (by simp [encode])⟩
  next => cases h

/-- Settles O3, place by place. -/
theorem decodedBytesAreTheEncoding : Obligations.DecodedBytesAreTheEncoding := fun _ _ _ _ h =>
  let ⟨place, fits, present, bytes⟩ := decode_encodedAt h
  ⟨place, fits, present, bytes⟩

/-! ### What is refused -/

theorem decodeFrame_badMarker {m : Byte} (hx : m ≠ Config.MARK_INDEX) (hd : m ≠ Config.MARK_DATA) (a b : Byte) :
    decodeFrame m a b = .error .badMarker := by rw [decodeFrame, if_neg hx, if_neg hd]

theorem decodeFrame_badPad {a : Byte} (ha : a ≠ Config.INDEX_PAD) (b : Byte) :
    decodeFrame Config.MARK_INDEX a b = .error .badPad := by rw [decodeFrame, if_pos rfl, if_neg ha]

theorem decodeBulk_badBulkHeader {m p r d : Byte}
    (h : [m, p, r, d] ≠ indexFrame Config.REG_MEMORY_WRITE ++ [Config.MARK_DATA]) (st : Strategy) :
    decodeBulk st m p r d = .error .badBulkHeader := by
  unfold decodeBulk
  split
  next hb =>
    obtain ⟨rfl, rfl, rfl, rfl⟩ := hb
    exact absurd rfl h
  next => rfl

theorem decodePair_badMarker {m d : Byte} (h : m ≠ Config.MARK_INDEX ∨ d ≠ Config.MARK_DATA) (p r x y : Byte) :
    decodePair m p r d x y = .error .badMarker := by rw [decodePair, if_pos h]

theorem decodePair_badPad {p : Byte} (hp : p ≠ Config.INDEX_PAD) (r x y : Byte) :
    decodePair Config.MARK_INDEX p r Config.MARK_DATA x y = .error .badPad := by
  rw [decodePair, if_neg (by simp), if_pos hp]

theorem decodeCommand_tooWide {x : Byte} (hx : 4 ≤ x.toNat) (h l : Byte) : decodeCommand x h l = .error .commandTooWide := by
  unfold decodeCommand
  split
  next e => omega
  next e => omega
  next e => omega
  next e => omega
  next => rfl

theorem decodeSeqCode_noOperation {q : Byte} (h1 : q ≠ 0x01) (h2 : q ≠ 0x02) : decodeSeqCode q = .error .noOperationHere := by
  unfold decodeSeqCode
  split
  next e => exact absurd (BitVec.eq_of_toNat_eq e) h1
  next e => exact absurd (BitVec.eq_of_toNat_eq e) h2
  next => rfl

/-- Settles O4: the refusals of each place, and the ROM word, of which none is refused. -/
theorem reservedEncodingsRefused : Obligations.ReservedEncodingsRefused := fun st =>
  ⟨fun _ a b hx hd => decodeFrame_badMarker hx hd a b,
    fun _ b ha => decodeFrame_badPad ha b,
    fun _ _ _ _ h => decodeBulk_badBulkHeader h st,
    fun _ p r _ x y h => decodePair_badMarker h p r x y,
    fun _ r x y hp => decodePair_badPad hp r x y,
    fun _ _ => rfl,
    fun _ h l hx => decodeCommand_tooWide hx h l,
    fun _ h1 h2 => decodeSeqCode_noOperation h1 h2,
    fun d r h l => ⟨join h l, join_toNat h l, decode_romWord st d r h l⟩⟩

end Sys2Proof
end

section
/-! SUPPORT and PROOF. Where an operation begins, and that a step runs it (R105, R229; log entry 15): what `fetch` answers, place by place. -/

namespace Sys2Proof.Machine

theorem instr?_of_ok {d : Decoded} {i : Instr} (h : d = .ok i) : d.instr? = some i := by rw [h]; rfl

/-- With FE and FS at rest, what begins is what SEQ's state selects (R105). -/
theorem fetch_atRest {s : State} (hf : s.fe_st = .F_IDLE) (hs : s.fs_st = .S_IDLE) : fetch s = seqFetch s := by
  have hb : s.frameBegins = false := by simp [State.frameBegins, hf]
  simp [fetch, hb, hf, hs]

/-- A frame that begins is the operation (R105). -/
theorem fetch_frame {s : State} (hb : s.frameBegins = true) : fetch s = frameFetch s := by simp [fetch, hb]

/-- A command on the port of an idle block (R104, R200). -/
theorem seqFetch_command {s : State} {i : Instr} (ha : s.canAccept = true) (hv : s.inp.cmd_valid = true)
    (hd : decode s.par.STRATEGY .cmd s.inp.commandBytes = .ok i) : seqFetch s = some i := by
  have hq : s.q_st = .Q_IDLE := by
    simp only [State.canAccept, Bool.and_eq_true, decide_eq_true_eq] at ha
    exact ha.1
  simp only [seqFetch, hq, ha, portCommand, hv, if_true]
  exact instr?_of_ok hd

/-- A frame on its own is read from its bytes (R91, R92). -/
theorem frameFetch_alone {s : State} {i : Instr}
    (hw : ¬(s.fs_st = .S_IDLE ∧ s.q_st = .Q_STEP_IDX ∧ s.fe_kind = .IDX ∧ s.fe_bracket = true))
    (hd : decode s.par.STRATEGY .wire s.frame = .ok i) : frameFetch s = some i := by
  rw [frameFetch, if_neg hw]
  exact instr?_of_ok hd

/-- The Index Frame of a power-on step is the first half of a register write (R93, R105). -/
theorem frameFetch_write {s : State} {e : RomStep} (hs : s.fs_st = .S_IDLE) (hq : s.q_st = .Q_STEP_IDX) (hk : s.fe_kind = .IDX)
    (hbr : s.fe_bracket = true) (he : s.romEntry? = some e) : frameFetch s = some (.writeRegister (lo s.fe_arg) e.val) := by
  rw [frameFetch, if_pos ⟨hs, hq, hk, hbr⟩, he]
  rfl

/-- In `Q_CFG` and `Q_RST_LO` the code alone selects the operation (R21, R105). -/
theorem seqFetch_code {s : State} {i : Instr} (hq : s.q_st = .Q_CFG ∨ s.q_st = .Q_RST_LO)
    (hd : decode s.par.STRATEGY .seq [s.q_st.code] = .ok i) : seqFetch s = some i := by
  obtain hq | hq := hq <;> simp only [seqFetch, hq] at hd ⊢ <;> exact instr?_of_ok hd

/-- In `Q_FILL` and `Q_UPD` the stream of the block begins (R105, R206). -/
theorem seqFetch_stream {s : State} (hq : s.q_st = .Q_FILL ∨ s.q_st = .Q_UPD) : seqFetch s = some (streamOf s.par.STRATEGY) := by
  obtain hq | hq := hq <;> simp only [seqFetch, hq]

/-- The word of a bulk head is the stream of the block, and nothing else. -/
theorem eq_streamOf_of_decode {st : Strategy} {i : Instr} (h : decode st .wire [0x74, 0x00, 0x22, 0x76] = .ok i) : i = streamOf st :=
  (Decoded.ok.inj ((decode_bulkHead st).symm.trans h)).symm

/-- Settles O6: a step runs what `fetch` answers, and `fetch` answers place by place. -/
theorem stepRunsTheDecodedOperation : Obligations.StepRunsTheDecodedOperation := by
  intro s
  refine ⟨step_reset, fun hr hb => step_row hr (.inl hb), fun hr hb => ?_⟩
  have runs {i : Instr} (h : fetch s = some i) : step s = exec i s := step_fetched hr hb h
  have runsAtRest {i : Instr} (hf : s.fe_st = .F_IDLE) (hs : s.fs_st = .S_IDLE) (h : seqFetch s = some i) : step s = exec i s :=
    runs ((fetch_atRest hf hs).trans h)
  have runsEntry (e : RomStep) (hf : s.fe_st = .F_IDLE) (hs : s.fs_st = .S_IDLE) (hq : s.q_st = .Q_STEP_IDX)
      (he : s.romEntry? = some e) : step s = exec (.powerOnStep e.reg e.val e.dly) s :=
    runsAtRest hf hs (by simp [seqFetch, hq, he])
  refine ⟨?command, ?frame, ?write, ?word, runsEntry, ?data, ?delay, ?code, ?hold, ?wait, ?stream, fun h => step_row hr (.inr h)⟩
  case command => exact fun i hf hs ha hv hd => runsAtRest hf hs (seqFetch_command ha hv hd)
  case frame => exact fun i hbegins hw hd => runs ((fetch_frame hbegins).trans (frameFetch_alone hw hd))
  case write =>
    intro e hf hs hq hk hbr he
    have hbegins : s.frameBegins = true := by simp [State.frameBegins, hf]
    exact runs ((fetch_frame hbegins).trans (frameFetch_write hs hq hk hbr he))
  case word =>
    rintro i e _ hf hs hq he rfl hdly hd
    obtain rfl := Decoded.ok.inj ((decode_encode_powerOnStep _ e.reg e.val hdly).symm.trans hd)
    exact runsEntry e hf hs hq he
  case data => exact fun e hf hs hq he => runsAtRest hf hs (by simp [seqFetch, hq, he])
  case delay => exact fun e hf hs hq he => runsAtRest hf hs (by simp [seqFetch, hq, he])
  case code => exact fun i hf hs hq hd => runsAtRest hf hs (seqFetch_code hq hd)
  case hold => exact fun hf hs hq => runsAtRest hf hs (by simp [seqFetch, hq])
  case wait => exact fun hf hs hq => runsAtRest hf hs (by simp [seqFetch, hq])
  case stream =>
    intro i hf hs hq hd
    obtain rfl := eq_streamOf_of_decode hd
    exact runsAtRest hf hs (seqFetch_stream hq)

end Sys2Proof.Machine
end

section
/-! SUPPORT and PROOF. A step is a number of rows of the transition tables (R52, R129, R189; log entry 15). -/

namespace Sys2Proof.Machine

/-- An operation that begins does one or more rows of the tables. -/
theorem fetched_rows {s : State} {i : Instr} (h : Inv s) (hi : fetch s = some i) : ∃ t, exec i s = .next t ∧ SomeRows s t := by
  obtain ⟨hb, hi⟩ | ⟨hf, hs, hi⟩ := fetch_cases hi
  · exact frameFetch_rows h hb hi
  · exact seqFetch_rows h hf hs hi

/-- A step out of reset does one or more rows of the tables: those of the operation that begins, or a single one. -/
theorem step_rows {s : State} (h : Inv s) (hr : s.inp.blk_rst = false) : ∃ t, step s = .next t ∧ SomeRows s t := by
  obtain hr' | ⟨-, hb, i, hf⟩ | ⟨-, hw⟩ := step_cases s
  · rw [hr] at hr'
    cases hr'
  · rw [step_fetched hr hb hf]
    exact fetched_rows h hf
  · obtain ⟨t, ht, -⟩ := tick_inv h
    exact ⟨t, (step_row hr hw).trans ht, SomeRows.row ht⟩

/-- Settles O44: the operation that begins is rows by its own table, frame or sequencer; where none begins the step is a row. -/
theorem stepIsRows : Obligations.StepIsRows := by
  intro s h hr
  obtain ⟨t, ht, n, hn⟩ := step_rows h hr
  exact ⟨n, t, hn, ht⟩

end Sys2Proof.Machine
end

section
/-! SUPPORT and PROOFS. The frame encoder (R24, R128): its rows, where its starter goes on, and what a frame leaves alone. -/

namespace Sys2Proof.Machine

/-! ### The rows of the frame encoder -/

/-- While FE is at work a row is one of FE (R52). -/
theorem tick_frame {s : State} (h : s.fe_st ≠ .F_IDLE) : tick s = .next (feRow s).state := by simp [tick, h]

theorem tick_csLow {s : State} (h : s.fe_st = .F_CS_LO) : tick s = .next { s.emit (.CS false) with fe_st := .F_B0 } := by
  simp [tick_frame, feRow, h]

theorem tick_byte0 {s : State} (h : s.fe_st = .F_B0) (hack : s.inp.tx_byte_ack = true) :
    tick s = .next { s.emit (.BYTE (frameByte0 s.fe_kind)) with fe_st := .F_B1 } := by
  simp [tick_frame, feRow, h, State.ask_ready hack]

theorem tick_byte1 {s : State} (h : s.fe_st = .F_B1) (hack : s.inp.tx_byte_ack = true) :
    tick s = .next { s.emit (.BYTE (frameByte1 s.fe_kind s.fe_arg)) with fe_st := .F_B2 } := by
  simp [tick_frame, feRow, h, State.ask_ready hack]

/-- The third byte of a frame with its own bracket leaves the bracket to be closed. -/
theorem tick_byte2_bracket {s : State} (h : s.fe_st = .F_B2) (hack : s.inp.tx_byte_ack = true) (hbr : s.fe_bracket = true) :
    tick s = .next { s.emit (.BYTE (lo s.fe_arg)) with fe_st := .F_CS_HI } := by
  simp [tick_frame, feRow, h, State.ask_ready hack, hbr, frameByte2]

/-- The third byte of a frame without a bracket is its end. -/
theorem tick_byte2_open {s : State} (h : s.fe_st = .F_B2) (hack : s.inp.tx_byte_ack = true) (hbr : s.fe_bracket = false) :
    tick s = .next (s.emit (.BYTE (lo s.fe_arg))).feReturn := by
  simp [tick_frame, feRow, h, State.ask_ready hack, hbr, frameByte2]

theorem tick_csHigh {s : State} (h : s.fe_st = .F_CS_HI) : tick s = .next (s.emit (.CS true)).feReturn := by
  simp [tick_frame, feRow, h]

/-! ### Where the starter goes on -/

/-- Handing control back writes `fe_st` and the starter's state and nothing else (R160, R188). -/
theorem State.feReturn_eq (s : State) :
    s.feReturn = { s with fe_st := .F_IDLE, q_st := s.feReturn.q_st, fs_st := s.feReturn.fs_st } := by
  unfold State.feReturn
  split <;> rfl

/-- SEQ, waiting for a frame, goes on to the Data Frame or to the delay of its step; in any other state it stays (R160; log entry 19). -/
def QState.afterFrame (q : QState) : QState :=
  if q = .Q_STEP_IDX then .Q_STEP_DAT else if q = .Q_STEP_DAT then .Q_STEP_DLY else q

/-- With FS at rest the end of a frame is SEQ's. -/
theorem State.feReturn_sequencer {s : State} (h : s.fs_st = .S_IDLE) :
    s.feReturn.fs_st = .S_IDLE ∧ s.feReturn.q_st = s.q_st.afterFrame := by
  obtain ⟨hs, hq⟩ := (State.feReturn_moves s).1 h
  refine ⟨hs, hq.trans ?_⟩
  cases s.q_st <;> rfl

/-- In a state of FS that waits for no frame, neither starter moves (log entry 19). -/
theorem State.feReturn_elsewhere {s : State} (h : s.fs_st ≠ .S_IDLE) (h' : s.fs_st ≠ .S_INDEX) :
    s.feReturn.fs_st = s.fs_st ∧ s.feReturn.q_st = s.q_st := by
  unfold State.feReturn
  split
  · contradiction
  · contradiction
  · contradiction
  · exact ⟨rfl, rfl⟩

/-- SEQ after two frames, as WRITE_REGISTER sends them. -/
theorem QState.afterFrame_afterFrame (q : QState) :
    q.afterFrame.afterFrame = if q = .Q_STEP_IDX ∨ q = .Q_STEP_DAT then .Q_STEP_DLY else q := by
  cases q <;> rfl

/-! ### The table -/

/-- A frame without its own bracket is an Index Frame: only FS starts one (R123, R180). -/
theorem Inv.data_bracketed {s : State} (h : Inv s) (hf : s.fe_st ≠ .F_IDLE) (hk : s.fe_kind = .DAT) : s.fe_bracket = true := by
  obtain ⟨-, hbr, -⟩ | ⟨-, -, hk', -⟩ := h.feOwner hf
  · exact hbr
  · rw [hk] at hk'
    cases hk'

/-- Settles O7, row by row. -/
theorem frameEncoderTable : Obligations.FrameEncoderTable := by
  intro s
  refine ⟨fun h => by simp [feRow, h], fun _ _ _ => rfl, fun r br => ⟨setLo s.fe_arg r, lo_setLo _ _, rfl⟩, tick_csLow, ?bytes, ?csHigh,
    ?data⟩
  case bytes =>
    intro hack
    refine ⟨fun h hk => ?_, fun h hk => ?_, fun h hk => ?_, fun h hk => ?_, fun h hbr => tick_byte2_bracket h hack hbr, fun h hbr =>
      ⟨_, _, (tick_byte2_open h hack hbr).trans (congrArg _ (State.feReturn_eq _)), fun hs => ?_⟩⟩
    · rw [tick_byte0 h hack, hk]; rfl
    · rw [tick_byte0 h hack, hk]; rfl
    · rw [tick_byte1 h hack, hk]; rfl
    · rw [tick_byte1 h hack, hk]; rfl
    · exact (State.feReturn_moves _).2 hs
  case csHigh =>
    refine fun h => ⟨_, _, (tick_csHigh h).trans (congrArg _ (State.feReturn_eq _)), fun hs => ?_⟩
    obtain ⟨hfs, hq⟩ := State.feReturn_sequencer (s := s.emit (.CS true)) hs
    exact ⟨hfs, fun q => by rw [hq, State.emit_q_st, q]; rfl, fun q => by rw [hq, State.emit_q_st, q]; rfl⟩
  case data =>
    rintro hi hf ⟨hk, hbr⟩
    simp [hi.data_bracketed hf hk] at hbr

/-! ### What a frame leaves alone -/

/-- What has the same mask for frames differs in a frame's fields only. -/
theorem same_of_frameMask {s t : State} (h : t.frameMask = s.frameMask) :
    SameStore s t ∧ SameLines s t ∧ SameCommand s t ∧ SameCounters s t ∧ SameSource s t ∧ t.pc = s.pc := by
  have same {β : Type} (f : State → β) : f t.frameMask = f s.frameMask := congrArg f h
  have fb : t.fb = s.fb := same State.fb
  exact ⟨⟨same State.par, same State.rom, fun a => by rw [fb]⟩, ⟨same State.rst_n, same State.mode_sel, same State.lines_oe⟩,
    ⟨same State.op, same State.color, same State.busy, same State.inp⟩,
    ⟨same State.col, same State.grp, same State.bit, same State.cur, same State.scratch⟩, ⟨same State.src, same State.fill_color⟩,
    same State.pc⟩

/-- A frame, begun or waiting, writes a frame's fields only. -/
theorem frame_frameMask (k : FrameKind) (arg : Half) (br : Bool) (s : State) :
    (feRun 5 (s.feStart k arg br)).state.frameMask = s.frameMask := feRun_frameMask 5 _

/-- Settles O50: each of the three writes a frame's fields only, whether it comes to its end or to a wait. -/
theorem frameOperationsFrame : Obligations.FrameOperationsFrame := by
  rintro i s t (⟨r, rfl⟩ | ⟨v, rfl⟩ | ⟨r, v, rfl⟩) h
  · obtain rfl : (sendIndexOp r s).state = t := Host.Outcome.next.inj h
    exact same_of_frameMask (frame_frameMask .IDX _ s.fe_bracket s)
  · obtain rfl : (sendDataOp v s).state = t := Host.Outcome.next.inj h
    exact same_of_frameMask (frame_frameMask .DAT v true s)
  · obtain rfl : (writeRegisterOp r v s).state = t := Host.Outcome.next.inj h
    exact same_of_frameMask (writeRegisterOp_frameMask r v s)

end Sys2Proof.Machine
end

section
/-! SUPPORT and PROOFS. The results of SEND_INDEX, SEND_DATA and WRITE_REGISTER (R122 to R125): the lines after a frame, what a listening receiver
makes of it (R77, R78), and the whole result of each. -/

namespace Sys2Proof.Machine

/-! ### The lines after a frame -/

/-- Bytes move no line (R27). -/
theorem lines_after_bytes (bs : List Byte) (l : Lines) : (bs.map Event.BYTE).foldl Lines.after l = l := by
  induction bs with
  | nil => rfl
  | cons b bs ih => exact ih

/-- After a frame chip-select is high where the frame has its own bracket, and no other line has moved (R27, R125). -/
theorem lines_after_frame (br : Bool) (bs : List Byte) (l : Lines) :
    (frameTrace br bs).foldl Lines.after l = { l with cs_n := if br then true else l.cs_n } := by
  cases br
  · exact lines_after_bytes bs l
  · simp [frameTrace, lines_after_bytes, Lines.after]

/-- Chip-select and the other lines, after work whose events are those of a frame. -/
theorem Produced.frame_lines {br : Bool} {bs : List Byte} {s t : State} (h : Produced (frameTrace br bs) s t) :
    t.cs_n = (if br then true else s.cs_n) ∧ SameLines s t := by
  have e := h.lines.trans (lines_after_frame br bs s.lines)
  exact ⟨congrArg Lines.cs_n e, congrArg Lines.rst_n e, congrArg Lines.mode_sel e, congrArg Lines.lines_oe e⟩

/-- Chip-select and the other lines after the two frames of a register write. -/
theorem Produced.write_lines {r : Byte} {v : Half} {s t : State} (h : Produced (writeTrace r v) s t) : t.cs_n = true ∧ SameLines s t := by
  have e : t.lines = { s.lines with cs_n := true } := h.lines
  exact ⟨congrArg Lines.cs_n e, congrArg Lines.rst_n e, congrArg Lines.mode_sel e, congrArg Lines.lines_oe e⟩

/-! ### The receiver after a frame -/

/-- A frame without its own bracket adds its bytes to the burst that is open, on a clear wire (R125). -/
theorem frame_out_open {s : State} (h : s.wireClear = true) (bs : List Byte) :
    (s.emits (frameTrace false bs)).out = { s.out with rx := s.out.rx ++ bs } := by
  obtain ⟨hd, hw, hf⟩ : s.inp.tx_delivers = true ∧ s.out.bus_width = .W8 ∧ s.out.fifo = [] := by
    simpa [State.wireClear, and_assoc] using h
  have hbytes : (bs.map Event.BYTE).flatMap eventBytes = bs := by simp [List.flatMap_map, eventBytes]
  have hout := (emits_narrow (bs.map Event.BYTE) s (by simp [Event.isNarrow]) hd hw hf).1
  rwa [hbytes] at hout

/-- A register reads what was written to it. -/
theorem Panel.reg_setReg (p : Panel) (r : Byte) (v : Half) : (p.setReg r v).reg r = some v := cellsFind_put _ _ _

/-- A write to one register leaves the others alone. -/
theorem Panel.reg_setReg_ne {r k : Byte} (h : k ≠ r) (p : Panel) (v : Half) : (p.setReg r v).reg k = p.reg k :=
  cellsFind_put_ne _ _ _ _ fun e => h (BitVec.eq_of_toNat_eq e)

/-- A Data burst writes the selected register and nothing else (R78). -/
theorem data_out {s : State} (h : s.panelListens = true) {k : Byte} (hk : s.out.ir = some k) (v : Half) :
    (s.emits (dataTrace v)).out = s.out.took (s.out.panel.setReg k v) := by
  refine (frame_out s h _ _ ?_).1
  rw [receive_data, Panel.data?, show s.out.panel.ir = some k from hk]
  rfl

/-- An Index burst selects its register, and the panel goes on listening (R77). -/
theorem index_out {s : State} (h : s.panelListens = true) (r : Byte) :
    (s.emits (indexTrace true r)).out = s.out.took { s.out.panel with ir := some r } ∧
      (s.emits (indexTrace true r)).panelListens = true := by
  obtain ⟨hd, hw, hf, -, hl⟩ := State.listens_parts h
  obtain ⟨hout, hoe⟩ := frame_out s h _ _ (receive_index s.par.BULK_MARKER s.out.panel r)
  have hout' : (s.emits (indexTrace true r)).out = s.out.took { s.out.panel with ir := some r } := hout
  refine ⟨hout', ?_⟩
  have hoe' : (s.emits (indexTrace true r)).lines_oe = true := hoe
  simp [State.panelListens, State.wireClear, hout', hoe', Outside.took, Outside.withPanel, hd, hw, hf, hl]

/-- The two bursts of a register write select the register and write it, and nothing else (R77, R78). -/
theorem write_out {s : State} (h : s.panelListens = true) (r : Byte) (v : Half) :
    (s.emits (writeTrace r v)).out = s.out.took ({ s.out.panel with ir := some r }.setReg r v) := by
  obtain ⟨hout, hlisten⟩ := index_out h r
  have hir : (s.emits (indexTrace true r)).out.ir = some r := by rw [hout]; rfl
  rw [writeTrace, State.emits_append, data_out hlisten hir, hout]
  rfl

/-! ### The results -/

theorem indexTrace_eq (br : Bool) (r : Byte) : indexTrace br r =
    if br then [.CS false, .BYTE 0x74, .BYTE 0x00, .BYTE r, .CS true] else [.BYTE 0x74, .BYTE 0x00, .BYTE r] := by
  cases br <;> rfl

/-- Settles O11, from what SEND_INDEX ends in: its events, its lines, its starter's move and the receiver follow by their own lemmas. -/
theorem sendIndexResult : Obligations.SendIndexResult := by
  intro r s hack
  obtain ⟨t, ht, hp, hcommand, hcounters, hsource, hpc, hreq, hfe, hkind, harg, hbr, hfs, hq⟩ := sendIndexOp_done r s hack
  obtain ⟨hcs, hlines⟩ := hp.frame_lines
  refine ⟨t, by rw [exec, execSendIndex, ht]; rfl, indexTrace_eq s.fe_bracket r ▸ hp.trace, hcs, hlines, hp.store, hcommand, hcounters,
    hsource, hpc, hreq, hfe, hkind, by rw [harg, lo_setLo], by rw [harg, hi_setLo], hbr, ?_, ?_, ?_, ?_, ?_⟩
  · rw [hfs, hq]
    exact State.feReturn_sequencer
  · rw [hfs, hq]
    exact (State.feReturn_moves s).2
  · rw [hfs, hq]
    exact State.feReturn_elsewhere
  · intro hbracket hlisten
    rw [hp.out, hbracket, (index_out hlisten r).1]
    rfl
  · intro hbracket hclear
    rw [hp.out, hbracket]
    exact frame_out_open hclear _

/-- Settles O12: as SEND_INDEX, with a bracket always. -/
theorem sendDataResult : Obligations.SendDataResult := by
  intro v s hack
  obtain ⟨t, ht, hp, hcommand, hcounters, hsource, hpc, hreq, hfe, hkind, harg, hbr, hfs, hq⟩ := sendDataOp_done v s hack
  obtain ⟨hcs, hlines⟩ := hp.frame_lines
  refine ⟨t, by rw [exec, execSendData, ht]; rfl, hp.trace, hcs, hlines, hp.store, hcommand, hcounters,
    hsource, hpc, hreq, hfe, hkind, harg, hbr, ?_, ?_, ?_⟩
  · rw [hfs, hq]
    exact State.feReturn_sequencer
  · rw [hfs, hq]
    exact State.feReturn_elsewhere
  · intro hlisten k hk
    obtain ⟨-, -, -, -, hlost⟩ := State.listens_parts hlisten
    rw [hp.out, data_out hlisten hk v]
    exact ⟨hk, rfl, hlost, Panel.reg_setReg _ k v, fun _ hne => Panel.reg_setReg_ne hne _ v⟩

/-- Settles O13: an Index Frame, then a Data Frame, whose starter is handed control after each. -/
theorem writeRegisterResult : Obligations.WriteRegisterResult := by
  intro r v s hack
  obtain ⟨t, ht, hp, hcommand, hcounters, hsource, hpc, hreq, hfe, hkind, harg, hbr, hfs, hq⟩ := writeRegisterOp_done r v s hack
  obtain ⟨hcs, hlines⟩ := hp.write_lines
  refine ⟨t, _, by rw [exec, execWriteRegister, ht]; rfl, hp.trace, rfl, rfl, hcs, hlines, hp.store, hcommand, hcounters,
    hsource, hpc, hreq, hfe, hkind, harg, hbr, ?_, ?_⟩
  · intro hidle
    obtain ⟨hfs1, hq1⟩ := State.feReturn_sequencer hidle
    obtain ⟨hfs2, hq2⟩ := State.feReturn_sequencer hfs1
    rw [hfs, hq, hq2, hq1]
    exact ⟨hfs2, QState.afterFrame_afterFrame _⟩
  · intro hlisten
    obtain ⟨-, -, -, -, hlost⟩ := State.listens_parts hlisten
    rw [hp.out, write_out hlisten r v]
    exact ⟨rfl, rfl, hlost, Panel.reg_setReg _ r v, fun _ hne => Panel.reg_setReg_ne hne _ v⟩

end Sys2Proof.Machine
end

section
/-! SUPPORT and PROOFS. The wire image of the host commands (R126, R159, R190): the bursts of the ROM, register write by register write, then the
one bulk burst; and the registers the ROM names (R74, R152). -/

namespace Sys2Proof

/-! ### The registers the ROM names -/

/-- Every power-control write names one of the six registers of R152. -/
theorem Build.powerRegister (p : Build) {w : PwrWrite} (h : w ∈ p.PWR) : w.reg ∈ p.powerRegs := by
  obtain ⟨-, -, hpower, -⟩ := p.parts
  simp only [Params.powerSequenceOk, Bool.and_eq_true, List.all_eq_true] at hpower
  simpa using hpower.2 w h

/-- Every ROM entry names one of the eight Register Addresses that the parameters name (R74, R150 to R154). -/
theorem Build.romRegister (p : Build) {e : RomStep} (h : e ∈ p.rom) : e.reg ∈ p.addresses.tail := by
  have display : p.REG_DISPLAY_CONTROL ∈ p.addresses.tail := by simp [Params.addresses]
  have power (r : Byte) (hr : r ∈ p.powerRegs) : r ∈ p.addresses.tail :=
    List.mem_cons_of_mem _ (List.mem_append_left [p.REG_ENTRY_MODE] hr)
  have entry : p.REG_ENTRY_MODE ∈ p.addresses.tail := by simp [Params.addresses]
  simp only [Params.rom, List.mem_append, List.mem_cons, List.not_mem_nil, or_false] at h
  obtain ((rfl | h) | rfl) | rfl | rfl | rfl | rfl := h
  · exact display
  · obtain ⟨i, hi, rfl⟩ := List.mem_mapIdx.1 h
    exact power _ (p.powerRegister (List.getElem_mem hi))
  · exact entry
  all_goals exact display

/-- Where the nine addresses are distinct, no ROM entry names the memory-write register (R74). -/
theorem Build.romRegister_ne (p : Build) (hd : p.addressesDistinct = true) {e : RomStep} (h : e ∈ p.rom) : e.reg ≠ 0x22 := by
  intro he
  have nodup : (Config.REG_MEMORY_WRITE :: p.addresses.tail).Nodup := of_decide_eq_true hd
  exact (List.nodup_cons.1 nodup).1 (show (0x22 : Byte) ∈ _ from he ▸ p.romRegister h)

end Sys2Proof

namespace Sys2Proof.Machine

/-- The bursts of a register write: an Index burst, then its Data burst (R93, R126). -/
def registerBursts (r : Byte) (v : Half) : List (List Byte) := [[0x74, 0x00, r], [0x76, hi v, lo v]]

/-- The bursts of the ROM, entry by entry (R159). -/
def romBursts (rom : List RomStep) : List (List Byte) := rom.flatMap fun e => registerBursts e.reg e.val

/-! ### The wire of INITIALIZE -/

/-- A delay is not on the wire (R11). -/
theorem wireFrom_delayTrace (n : Nat) (fs : List Event) : wireFrom none (delayTrace n ++ fs) = wireFrom none fs := by
  unfold delayTrace
  split <;> rfl

/-- A Power-On Step is two bursts (R126). -/
theorem wireFrom_stepTrace (e : RomStep) (fs : List Event) :
    wireFrom none (stepTrace e ++ fs) = registerBursts e.reg e.val ++ wireFrom none fs := by
  rw [stepTrace, List.append_assoc, ← wireFrom_delayTrace e.dly fs]
  rfl

/-- The ROM is two bursts for each entry, in order (R159). -/
theorem wireFrom_romTrace (rom : List RomStep) (fs : List Event) :
    wireFrom none (romTrace rom ++ fs) = romBursts rom ++ wireFrom none fs := by
  induction rom with
  | nil => rfl
  | cons e rom ih =>
    calc wireFrom none (romTrace (e :: rom) ++ fs)
        = wireFrom none (stepTrace e ++ (romTrace rom ++ fs)) := by rw [← List.append_assoc]; rfl
      _ = registerBursts e.reg e.val ++ (romBursts rom ++ wireFrom none fs) := by rw [wireFrom_stepTrace, ih]
      _ = romBursts (e :: rom) ++ wireFrom none fs := by rw [← List.append_assoc]; rfl

/-- The wire of INITIALIZE: the ROM's bursts, then the bulk burst of the initial clear (R159, R262). -/
theorem wire_hostInitialize (p : Build) (rom : List RomStep) :
    wire (.CMD .INITIALIZE :: initializeTrace p.toParams rom ++ [.DONE]) =
      romBursts rom ++ [streamBurst p.toParams .CONST p.INIT_CLEAR_COLOR fun _ _ => 0] := by
  have head : .CMD .INITIALIZE :: initializeTrace p.toParams rom ++ [.DONE] =
      .CMD .INITIALIZE :: (configTrace p.toParams ++ resetTrace p.toParams) ++
        (romTrace rom ++ (streamTrace p.toParams .CONST p.INIT_CLEAR_COLOR (fun _ _ => 0) ++ [.DONE])) := by
    simp [initializeTrace]
  calc wire (.CMD .INITIALIZE :: initializeTrace p.toParams rom ++ [.DONE])
      = wireFrom none (romTrace rom ++ (streamTrace p.toParams .CONST p.INIT_CLEAR_COLOR (fun _ _ => 0) ++ [.DONE])) := by
        rw [head]; rfl
    _ = romBursts rom ++ [streamBurst p.toParams .CONST p.INIT_CLEAR_COLOR fun _ _ => 0] := by
        rw [wireFrom_romTrace, wireFrom_streamTrace]; rfl

/-! ### The counts -/

theorem romBursts_length (rom : List RomStep) : (romBursts rom).length = 2 * rom.length := by
  simp [romBursts, registerBursts, List.length_flatMap, Nat.mul_comm]

/-- Six bytes for each entry: three in each burst. -/
theorem romBursts_bytes (rom : List RomStep) : ((romBursts rom).map List.length).sum = 6 * rom.length := by
  induction rom with
  | nil => rfl
  | cons e rom ih =>
    have step : romBursts (e :: rom) = registerBursts e.reg e.val ++ romBursts rom := rfl
    rw [step, List.map_append, List.sum_append, ih, List.length_cons]
    simp [registerBursts]
    omega

/-! ### INITIALIZE and CLEAR as operations -/

/-- INITIALIZE runs on a block that can accept a command (R201, R205). -/
theorem exec_hostInitialize {s : State} (h : s.canAccept = true) : exec .hostInitialize s = .next (initializeOp s).state := by
  simp [exec, execHostInitialize, h]

/-- CLEAR runs on a block that can accept a command (R203, R205). -/
theorem exec_hostClear {s : State} (h : s.canAccept = true) (color : Half) : exec (.hostClear color) s = .next (clearOp color s).state := by
  simp [exec, execHostClear, h]

/-- INITIALIZE with the ROM the parameters give, as its wire shows it. -/
theorem hostInitialize_wire {s : State} (hidle : s.idle = true) (hready : s.collaboratorsReady = true) (hrom : s.rom = s.par.rom) :
    ∃ t es, exec .hostInitialize s = .next t ∧ t.trace = s.trace ++ es ∧
      wire es = romBursts s.rom ++ [streamBurst s.par.toParams .CONST s.par.INIT_CLEAR_COLOR fun _ _ => 0] := by
  obtain ⟨-, -, hfs, -⟩ := State.idle_parts hidle
  have hpos : 0 < s.rom.length := by rw [hrom, Params.rom_length]; exact Nat.succ_pos _
  obtain ⟨t, ht, hp, -⟩ := initializeOp_done s hready hfs hpos
  exact ⟨t, _, by rw [exec_hostInitialize (State.canAccept_of_idle hidle), ht]; rfl, hp.trace, wire_hostInitialize s.par s.rom⟩

/-- CLEAR, as its wire shows it. -/
theorem hostClear_wire {s : State} (hidle : s.idle = true) (hready : s.collaboratorsReady = true) (color : Half) :
    ∃ t es, exec (.hostClear color) s = .next t ∧ t.trace = s.trace ++ es ∧
      wire es = [streamBurst s.par.toParams .CONST color (fbByte s)] := by
  obtain ⟨-, hfe, -, -⟩ := State.idle_parts hidle
  obtain ⟨t, ht, hp, -⟩ := clearOp_done color s hready hfe
  exact ⟨t, _, by rw [exec_hostClear (State.canAccept_of_idle hidle), ht]; rfl, hp.trace, wire_streamCommand _ _ _ _ _⟩

/-- UPDATE, as its wire shows it. -/
theorem hostUpdate_wire {s : State} (hidle : s.idle = true) (hready : s.collaboratorsReady = true) :
    ∃ t es, exec .hostUpdate s = .next t ∧ t.trace = s.trace ++ es ∧
      wire es = [streamBurst s.par.toParams .FB s.fill_color (fbByte s)] := by
  obtain ⟨-, hfe, -, -⟩ := State.idle_parts hidle
  obtain ⟨t, ht, hp, -⟩ := updateOp_done s hready hfe
  exact ⟨t, _, by rw [exec_hostUpdate (State.canAccept_of_idle hidle), ht]; rfl, hp.trace, wire_streamCommand _ _ _ _ _⟩

/-- Settles O39, from the wire of INITIALIZE and the counts of its two parts. -/
theorem initializeWireImage : Obligations.InitializeWireImage := by
  intro s hidle hready hrom
  obtain ⟨t, es, ht, htrace, hwire⟩ := hostInitialize_wire hidle hready hrom
  have hlen : s.rom.length = s.par.N_ROM := by rw [hrom, Params.rom_length]
  refine ⟨t, es, ht, htrace, hwire, ?bursts, ?bytes⟩
  case bursts => rw [hwire, List.length_append, romBursts_length, hlen]; rfl
  case bytes =>
    rw [hwire, List.map_append, List.sum_append, romBursts_bytes, hlen, List.map_singleton, List.sum_singleton, streamBurst_length,
      Nat.mul_assoc 2, Nat.add_assoc]
    rfl

/-! ### The memory-write register -/

/-- A bulk burst begins with the Index Frame of the memory-write register (R94). -/
theorem streamBurst_take (p : Params) (src : PixelSource) (fill : Half) (fb : Nat → Nat → Byte) :
    (streamBurst p src fill fb).take 3 = [0x74, 0x00, 0x22] := rfl

/-- The bursts of the ROM as those of a list of register writes. -/
theorem romBursts_eq (rom : List RomStep) :
    romBursts rom = (rom.map fun e => (e.reg, e.val)).flatMap fun w => registerBursts w.1 w.2 := by
  rw [List.flatMap_map]
  rfl

/-- Settles O43: the register writes are the ROM's for INITIALIZE, and CLEAR and UPDATE make none. -/
theorem memoryWriteInBulkBurstsOnly : Obligations.MemoryWriteInBulkBurstsOnly := by
  rintro s i hidle hready hdistinct (⟨rfl, hrom⟩ | ⟨color, rfl⟩ | rfl)
  · obtain ⟨t, es, ht, htrace, hwire⟩ := hostInitialize_wire hidle hready hrom
    refine ⟨t, es, _, _, ht, htrace, hwire.trans (by rw [romBursts_eq]; rfl), ?_, fun h => absurd rfl h, streamBurst_take _ _ _ _,
      streamBurst_length _ _ _ _⟩
    intro _ hw
    obtain ⟨e, he, rfl⟩ := List.mem_map.1 hw
    exact s.par.romRegister_ne hdistinct (hrom ▸ he)
  · obtain ⟨t, es, ht, htrace, hwire⟩ := hostClear_wire hidle hready color
    exact ⟨t, es, _, [], ht, htrace, hwire, nofun, fun _ => rfl, streamBurst_take _ _ _ _, streamBurst_length _ _ _ _⟩
  · obtain ⟨t, es, ht, htrace, hwire⟩ := hostUpdate_wire hidle hready
    exact ⟨t, es, _, [], ht, htrace, hwire, nofun, fun _ => rfl, streamBurst_take _ _ _ _, streamBurst_length _ _ _ _⟩

end Sys2Proof.Machine
end

section
/-! SUPPORT and PROOFS. The power-on ROM of an admitted parameter set (R150 to R155): its entries, its delays, and the display-control values. -/

namespace Sys2Proof

/-- The value with the one bit `b` set has that bit and no other. -/
theorem oneBit_getLsbD (b k : Fin 16) : (Params.oneBit b).getLsbD k = decide (k = b) := by
  revert b k
  decide

/-- What R155 asks of the display-control values, part by part. -/
theorem Build.displayValues (p : Build) :
    [p.BIT_D0, p.BIT_GON, p.BIT_D1, p.BIT_DTE].Nodup ∧
    (p.VAL_DC_1.getLsbD p.BIT_D0 = true ∧ p.VAL_DC_1.getLsbD p.BIT_GON = false ∧ p.VAL_DC_1.getLsbD p.BIT_D1 = false ∧
      p.VAL_DC_1.getLsbD p.BIT_DTE = false) ∧
    p.VAL_DC_2 = p.VAL_DC_1 ||| Params.oneBit p.BIT_GON ∧ p.VAL_DC_3 = p.VAL_DC_2 ||| Params.oneBit p.BIT_D1 ∧
    p.VAL_DC_4 = p.VAL_DC_3 ||| Params.oneBit p.BIT_DTE := by
  obtain ⟨-, -, -, h⟩ := p.parts
  simp only [Params.displayValuesOk, Bool.and_eq_true, Bool.not_eq_true', beq_iff_eq, decide_eq_true_eq] at h
  obtain ⟨⟨⟨⟨⟨⟨⟨hD0, hGON⟩, hD1⟩, hDTE⟩, h2⟩, h3⟩, h4⟩, hnodup⟩ := h
  exact ⟨hnodup, ⟨hD0, hGON, hD1, hDTE⟩, h2, h3, h4⟩

/-- Setting the bit `b` sets that bit and leaves the others as they are. -/
theorem setBit_getLsbD {v w : Half} {b : Fin 16} (h : w = v ||| Params.oneBit b) (k : Fin 16) :
    w.getLsbD k = (v.getLsbD k || decide (k = b)) := by
  rw [h, BitVec.getLsbD_or, oneBit_getLsbD]

/-- Settles O41: the parts of R155, each value read bit by bit. -/
theorem displayControlValues : Obligations.DisplayControlValues := by
  intro p
  obtain ⟨hnodup, ⟨hD0, hGON, hD1, hDTE⟩, h2, h3, h4⟩ := p.displayValues
  exact ⟨hnodup, hD0, hGON, hD1, hDTE, fun k => ⟨setBit_getLsbD h2 k, setBit_getLsbD h3 k, setBit_getLsbD h4 k⟩⟩

/-- R35 as a choice between two values. -/
theorem Params.VAL_ENTRY_eq (p : Params) :
    p.VAL_ENTRY = if p.SCAN_DIR = .NORMAL then p.VAL_ENTRY_NORMAL else p.VAL_ENTRY_MIRRORED := by
  unfold Params.VAL_ENTRY
  cases p.SCAN_DIR <;> rfl

/-- Settles O40: the first entry, the power-control entries and the last five, with the bounds and registers R15 admits. -/
theorem romLayout : Obligations.RomLayout := by
  intro p
  obtain ⟨-, -, hoff, hA, hB, hon⟩ := p.delays
  obtain ⟨hAB, hBN⟩ := p.powerPlaces
  refine ⟨p.rom_length, rfl, hoff, fun i w hw => ?power, hA, hB, hAB, hBN, ?entry, p.rom_after 1, p.rom_after 2, p.rom_after 3,
    p.rom_after 4, hon⟩
  case power =>
    obtain ⟨hi, rfl⟩ := List.getElem?_eq_some_iff.1 hw
    exact ⟨p.rom_power i hi, p.powerRegister (List.getElem_mem hi)⟩
  case entry =>
    rw [← Params.VAL_ENTRY_eq]
    exact p.rom_after 0

end Sys2Proof
end

section
/-! SUPPORT and PROOFS. The sequencer's own operations CONFIG_LINES, DELAY and RESET_PULSE (R141 to R143): the whole state each ends in, and what
each leaves alone, waiting or not. -/

namespace Sys2Proof.Machine

/-! ### CONFIG_LINES -/

/-- A move of SEQ writes SEQ's state and nothing else. -/
theorem State.move_eq (a b : QState) (s : State) : s.move a b = { s with q_st := if s.q_st = a then b else s.q_st } := by
  unfold State.move
  split <;> rfl

/-- Settles O15: the event, then SEQ's move. -/
theorem configLinesResult : Obligations.ConfigLinesResult := fun s =>
  congrArg Host.Outcome.next (State.move_eq .Q_CFG .Q_RST_LO (s.emit (.CFG true s.par.MODE_INIT true)))

/-! ### DELAY -/

/-- SEQ's next state when a wait is over; where it waits for none it stays (R160; log entry 19). -/
def QState.afterWait (q : QState) : QState :=
  match q with
  | .Q_RST_HOLD => .Q_RST_HI
  | .Q_RST_WAIT => .Q_STEP_IDX
  | .Q_STEP_DLY => .Q_STEP_NEXT
  | q => q

theorem QState.afterWait_elsewhere {q : QState} (hhold : q ≠ .Q_RST_HOLD) (hwait : q ≠ .Q_RST_WAIT) (hdly : q ≠ .Q_STEP_DLY) :
    q.afterWait = q := by
  unfold QState.afterWait
  split
  · contradiction
  · contradiction
  · contradiction
  · rfl

/-- The end of a wait writes SEQ's state, and `pc` where the reset pulse is over (R22, R160). -/
theorem State.delayReturn_eq (s : State) :
    s.delayReturn = { s with q_st := s.q_st.afterWait, pc := if s.q_st = .Q_RST_WAIT then 0 else s.pc } := by
  unfold State.delayReturn
  split
  next h => rw [h]; rfl
  next h => rw [h]; rfl
  next h => rw [h]; rfl
  next hhold hwait hdly => rw [QState.afterWait_elsewhere hhold hwait hdly, if_neg hwait]

/-- DELAY with a delay primitive that does not answer: the wait is held out, and nothing else changes (R224; log entry 9). -/
theorem delayOp_held {n : Nat} {s : State} (hn : n ≠ 0) (h : s.inp.dly_done = false) :
    delayOp n s = .wait { s with req := some (.DELAY n) } := by
  simp [delayOp, hn, State.ask_wait h]

/-- DELAY that has nothing to wait for: the whole state it ends in (R143, R160). -/
theorem delayOp_eq {n : Nat} {s : State} (h : n = 0 ∨ s.inp.dly_done = true) :
    delayOp n s = .done { s with
      trace := s.trace ++ delayTrace n
      req := if n = 0 then s.req else none
      q_st := s.q_st.afterWait, pc := if s.q_st = .Q_RST_WAIT then 0 else s.pc } := by
  by_cases hn : n = 0
  · simp [delayOp, delayTrace, hn, State.delayReturn_eq]
  · simp only [delayOp, delayTrace, hn, if_false, State.ask_ready (h.resolve_left hn), Run.bind_done, State.delayReturn_eq]
    rfl

/-- Settles O14: held out while it is not answered; once it is over, SEQ goes on by `QState.afterWait`. -/
theorem delayResult : Obligations.DelayResult := by
  refine ⟨fun n s hn h => congrArg (Host.Outcome.next ∘ Run.state) (delayOp_held hn h), fun n s h =>
    ⟨_, _, congrArg (Host.Outcome.next ∘ Run.state) (delayOp_eq h), ?hold, ?wait, ?dly, ?elsewhere⟩⟩
  case hold => intro hq; simp [hq, QState.afterWait]
  case wait => intro hq; simp [hq, QState.afterWait]
  case dly => intro hq; simp [hq, QState.afterWait]
  case elsewhere => exact fun hhold hwait hdly => ⟨QState.afterWait_elsewhere hhold hwait hdly, if_neg hwait⟩

/-! ### RESET_PULSE -/

/-- SEQ stands in one of the four rows of RESET_PULSE (R160). -/
def QState.inPulse (q : QState) : Bool := decide (q = .Q_RST_LO ∨ q = .Q_RST_HOLD ∨ q = .Q_RST_HI ∨ q = .Q_RST_WAIT)

/-- RESET_PULSE with a delay primitive that answers: the whole state it ends in. From any of its rows SEQ comes to the ROM, from elsewhere
it moves as after a wait (R142, R160, R255; log entries 2 and 19). -/
theorem resetPulseOp_eq {s : State} (h : s.inp.dly_done = true) :
    resetPulseOp s = .done { s with
      rst_n := true
      trace := s.trace ++ resetTrace s.par.toParams
      req := none
      out := if s.lines_oe then s.out.panelReset else s.out
      q_st := if s.q_st.inPulse then .Q_STEP_IDX else s.q_st.afterWait
      pc := if s.q_st.inPulse then 0 else s.pc } := by
  obtain ⟨hhold, hwait, -⟩ := s.par.delays
  have h1 : s.par.T_RST_HOLD ≠ 0 := by omega
  have h2 : s.par.T_RST_WAIT ≠ 0 := by omega
  simp [resetPulseOp, resetLow, resetHigh, State.move_eq, delayOp_eq, h, delayTrace, resetTrace, h1, h2]
  constructor <;> cases s.q_st <;> rfl

/-- Settles O16: SEQ's place from the four rows, from `Q_STEP_DLY` and from elsewhere, and the bounds of R15. -/
theorem resetPulseResult : Obligations.ResetPulseResult := by
  intro s h
  obtain ⟨hhold, hwait, -⟩ := s.par.delays
  refine ⟨_, _, congrArg (Host.Outcome.next ∘ Run.state) (resetPulseOp_eq h), ?inside, ?dly, ?elsewhere, hhold, hwait⟩
  case inside =>
    intro hq
    have hp : s.q_st.inPulse = true := decide_eq_true hq
    exact ⟨if_pos hp, if_pos hp⟩
  case dly => intro hq; simp [hq, QState.inPulse, QState.afterWait]
  case elsewhere =>
    intro hlo hhold hhi hwait hdly
    have hp : s.q_st.inPulse ≠ true := by simp [QState.inPulse, hlo, hhold, hhi, hwait]
    exact ⟨(if_neg hp).trans (QState.afterWait_elsewhere hhold hwait hdly), if_neg hp⟩

/-! ### What they leave alone -/

/-- What has the same mask for reset pulses differs in a reset pulse's fields only. -/
theorem same_of_resetMask {s t : State} (h : t.resetMask = s.resetMask) :
    SameStore s t ∧ SameCommand s t ∧ SameCounters s t ∧ SameSource s t ∧ SameFrame s t ∧ t.fs_st = s.fs_st ∧
      t.cs_n = s.cs_n ∧ t.mode_sel = s.mode_sel ∧ t.lines_oe = s.lines_oe := by
  have same {β : Type} (f : State → β) : f t.resetMask = f s.resetMask := congrArg f h
  have fb : t.fb = s.fb := same State.fb
  exact ⟨⟨same State.par, same State.rom, fun a => by rw [fb]⟩,
    ⟨same State.op, same State.color, same State.busy, same State.inp⟩,
    ⟨same State.col, same State.grp, same State.bit, same State.cur, same State.scratch⟩, ⟨same State.src, same State.fill_color⟩,
    ⟨same State.fe_st, same State.fe_kind, same State.fe_arg, same State.fe_bracket⟩, same State.fs_st,
    same State.cs_n, same State.mode_sel, same State.lines_oe⟩

/-- Settles O51: DELAY and RESET_PULSE write the fields of their masks only, waiting or not, and CONFIG_LINES never waits. -/
theorem sequencerOperationsFrame : Obligations.SequencerOperationsFrame := by
  rintro i s t (⟨n, rfl⟩ | rfl | rfl) h
  case inl =>
    obtain rfl : (delayOp n s).state = t := Host.Outcome.next.inj h
    have mask : (delayOp n s).state.delayMask = s.delayMask := delayOp_delayMask n s
    obtain ⟨store, command, counters, source, frame, fs, lines⟩ := same_of_resetMask (delayMask_resetMask mask)
    exact ⟨store, command, counters, source, frame, fs, fun _ => lines, fun _ => (congrArg State.out mask :),
      fun _ => (congrArg State.rst_n mask :), nofun⟩
  case inr.inl =>
    obtain rfl := Host.Outcome.next.inj ((configLinesResult s).symm.trans h)
    exact ⟨⟨rfl, rfl, fun _ => rfl⟩, ⟨rfl, rfl, rfl, rfl⟩, ⟨rfl, rfl, rfl, rfl, rfl⟩, ⟨rfl, rfl⟩, ⟨rfl, rfl, rfl, rfl⟩, rfl,
      fun hne => absurd rfl hne, fun _ => rfl, nofun, fun _ => rfl⟩
  case inr.inr =>
    obtain rfl : (resetPulseOp s).state = t := Host.Outcome.next.inj h
    obtain ⟨store, command, counters, source, frame, fs, lines⟩ := same_of_resetMask (resetPulseOp_resetMask s)
    exact ⟨store, command, counters, source, frame, fs, fun _ => lines, fun hne => absurd rfl hne, nofun, nofun⟩

end Sys2Proof.Machine
end

section
/-! SUPPORT and PROOFS. The sequencer's table (R160), and its Power-On Step (R147): what the step ends in, and what a step and a stream leave
alone, waiting or not. -/

namespace Sys2Proof.Machine

/-! ### The rows of the sequencer -/

/-- With FE and FS at rest a row is one of SEQ (R52). -/
theorem tick_sequencer {s : State} (hf : s.fe_st = .F_IDLE) (hs : s.fs_st = .S_IDLE) : tick s = seqTick s := by simp [tick, hf, hs]

/-- The end of the Index Frame of a Power-On Step takes SEQ to the Data Frame (R160). -/
theorem State.feReturn_stepIndex {s : State} (hs : s.fs_st = .S_IDLE) (hq : s.q_st = .Q_STEP_IDX) :
    s.feReturn = { s with fe_st := .F_IDLE, q_st := .Q_STEP_DAT } := by simp [State.feReturn, hs, hq]

/-- The end of its Data Frame takes SEQ to the delay (R160). -/
theorem State.feReturn_stepData {s : State} (hs : s.fs_st = .S_IDLE) (hq : s.q_st = .Q_STEP_DAT) :
    s.feReturn = { s with fe_st := .F_IDLE, q_st := .Q_STEP_DLY } := by simp [State.feReturn, hs, hq]

/-- A row that reads an entry that the ROM has. -/
theorem withRomEntry_some {s : State} {e : RomStep} (he : s.rom[s.pc]? = some e) (f : RomStep → State) :
    withRomEntry s f = .next (f e) := by simp [withRomEntry, State.romEntry?, he]

/-- The row that starts the Index Frame of the entry at `pc`. -/
theorem seqTick_stepIndex {s : State} {e : RomStep} (hq : s.q_st = .Q_STEP_IDX) (he : s.rom[s.pc]? = some e) :
    seqTick s = .next (s.feStartIndex e.reg true) := by simp only [seqTick, hq, withRomEntry_some he]

/-- The row that starts its Data Frame. -/
theorem seqTick_stepData {s : State} {e : RomStep} (hq : s.q_st = .Q_STEP_DAT) (he : s.rom[s.pc]? = some e) :
    seqTick s = .next (s.feStart .DAT e.val true) := by simp only [seqTick, hq, withRomEntry_some he]

/-- A row that is a wait, answered: the event, and SEQ's next state. -/
theorem delayOp_answered {n : Nat} {s : State} (hn : n ≠ 0) (h : s.inp.dly_done = true) :
    (delayOp n s).state =
      { s.emit (.DELAY n) with q_st := s.q_st.afterWait, pc := if s.q_st = .Q_RST_WAIT then 0 else s.pc } := by
  rw [delayOp_eq (.inr h), delayTrace, if_neg hn, if_neg hn]
  rfl

/-- Settles O8, row by row. -/
theorem sequencerTable : Obligations.SequencerTable := by
  refine ⟨fun s hs hf => ⟨fun hq => ?index, fun hq => ?data⟩, fun s hf hs => ?_⟩
  case index => rw [tick_csHigh hf, State.feReturn_stepIndex (by simpa) (by simpa)]
  case data => rw [tick_csHigh hf, State.feReturn_stepData (by simpa) (by simpa)]
  obtain ⟨hhold, hwait, -⟩ := s.par.delays
  rw [tick_sequencer hf hs]
  refine ⟨?cfg, ?low, ?hold, ?high, ?wait, fun e he => ⟨?stepIndex, ?stepData, ?delay, ?noDelay⟩, ?last, ?next⟩
  case cfg => intro hq; simp [seqTick, hq, configLinesOp, State.move_eq]
  case low => intro hq; simp [seqTick, hq, resetLow, State.move_eq]
  case hold =>
    intro hq hd
    simp [seqTick, hq, delayOp_answered (show s.par.T_RST_HOLD ≠ 0 by omega) hd, QState.afterWait]
  case high => intro hq; simp [seqTick, hq, resetHigh, State.move_eq]
  case wait =>
    intro hq hd
    simp [seqTick, hq, delayOp_answered (show s.par.T_RST_WAIT ≠ 0 by omega) hd, QState.afterWait]
  case stepIndex => exact fun hq => ⟨setLo s.fe_arg e.reg, lo_setLo _ _, seqTick_stepIndex hq he⟩
  case stepData => exact fun hq => seqTick_stepData hq he
  case delay =>
    intro hq hn hd
    simp [seqTick, hq, withRomEntry_some he, delayOp_answered hn hd, QState.afterWait]
  case noDelay =>
    intro hq hn
    simp [seqTick, hq, withRomEntry_some he, hn, delayOp, State.delayReturn_eq, QState.afterWait]
  case last => intro hq hlast; simp [seqTick, hq, State.stepNext, State.romLength, hlast]
  case next => intro hq hmore; simp [seqTick, hq, State.stepNext, State.romLength, hmore]

/-! ### The result of a Power-On Step -/

/-- A wait moves no line (R27). -/
theorem lines_after_delay (n : Nat) (l : Lines) : (delayTrace n).foldl Lines.after l = l := by
  unfold delayTrace
  split <;> rfl

/-- After a Power-On Step chip-select is high, and no other line has moved (R27, R125). -/
theorem lines_after_step (e : RomStep) (l : Lines) : (stepTrace e).foldl Lines.after l = { l with cs_n := true } := by
  rw [stepTrace, List.foldl_append, lines_after_delay]
  rfl

/-- A wait does nothing outside. -/
theorem delay_out (n : Nat) (s : State) : (s.emits (delayTrace n)).out = s.out := by
  unfold delayTrace
  split <;> rfl

/-- A listening receiver takes the register write of a Power-On Step, and the wait does nothing to it (R77, R78). -/
theorem step_out {s : State} (h : s.panelListens = true) (e : RomStep) :
    (s.emits (stepTrace e)).out = s.out.took ({ s.out.panel with ir := some e.reg }.setReg e.reg e.val) := by
  rw [stepTrace, State.emits_append, delay_out, write_out h]

/-- Settles O17: what the step ends in, with its lines and the receiver from its events. -/
theorem powerOnStepResult : Obligations.PowerOnStepResult := by
  intro reg val dly s hack hd hfs hq
  obtain ⟨t, ht, hp, hcommand, hcounters, hfe, hfs', hpc, hlast, hmore⟩ := powerOnStepOp_done reg val dly s hack hd hfs hq
  have lines : t.lines = { s.lines with cs_n := true } := hp.lines.trans (lines_after_step _ s.lines)
  refine ⟨t, by rw [exec, execPowerOnStep, ht]; rfl, ?trace, hpc, congrArg Lines.cs_n lines,
    ⟨congrArg Lines.rst_n lines, congrArg Lines.mode_sel lines, congrArg Lines.lines_oe lines⟩, hp.store, hcommand, hcounters, hfe, hfs',
    hlast, hmore, fun hlisten => ?panel⟩
  case trace =>
    rw [hp.trace, List.append_assoc]
    rfl
  case panel =>
    rw [hp.out, step_out hlisten]
    exact ⟨rfl, rfl, Panel.reg_setReg _ reg val, fun _ hne => Panel.reg_setReg_ne hne _ val⟩

/-! ### What a Power-On Step and a stream leave alone -/

/-- What has the same mask for Power-On Steps differs in a step's fields only. -/
theorem same_of_stepMask {s t : State} (h : t.stepMask = s.stepMask) :
    SameStore s t ∧ SameLines s t ∧ SameCommand s t ∧ SameCounters s t := by
  have same {β : Type} (f : State → β) : f t.stepMask = f s.stepMask := congrArg f h
  have fb : t.fb = s.fb := same State.fb
  exact ⟨⟨same State.par, same State.rom, fun a => by rw [fb]⟩, ⟨same State.rst_n, same State.mode_sel, same State.lines_oe⟩,
    ⟨same State.op, same State.color, same State.busy, same State.inp⟩,
    ⟨same State.col, same State.grp, same State.bit, same State.cur, same State.scratch⟩⟩

/-- What has the same mask for streams differs in a stream's fields only. -/
theorem same_of_streamMask {s t : State} (h : t.streamMask = s.streamMask) :
    SameStore s t ∧ SameLines s t ∧ SameCommand s t ∧ SameSource s t ∧ t.pc = s.pc := by
  have same {β : Type} (f : State → β) : f t.streamMask = f s.streamMask := congrArg f h
  have fb : t.fb = s.fb := same State.fb
  exact ⟨⟨same State.par, same State.rom, fun a => by rw [fb]⟩, ⟨same State.rst_n, same State.mode_sel, same State.lines_oe⟩,
    ⟨same State.op, same State.color, same State.busy, same State.inp⟩, ⟨same State.src, same State.fill_color⟩, same State.pc⟩

/-- A stream that is not refused is the one the block is built with (R170). -/
theorem exec_stream_next {i : Instr} {s t : State} (hi : i = .streamBuffered ∨ i = .streamBurst) (h : exec i s = .next t) :
    t = (streamOp s).state := by
  obtain rfl | rfl := hi
  · simp only [exec, execStreamBuffered] at h
    split at h
    · exact (Host.Outcome.next.inj h).symm
    · cases h
  · simp only [exec, execStreamBurst] at h
    split at h
    · exact (Host.Outcome.next.inj h).symm
    · cases h

/-- Settles O52: each writes the fields of its mask only, whether it comes to its end or to a wait. -/
theorem stepAndStreamFrame : Obligations.StepAndStreamFrame := by
  refine fun i s t h => ⟨?step, fun hi => ?stream⟩
  case step =>
    rintro ⟨reg, val, dly, rfl⟩
    obtain rfl : (powerOnStepOp reg val dly s).state = t := Host.Outcome.next.inj h
    exact same_of_stepMask (powerOnStepOp_stepMask reg val dly s)
  case stream =>
    rw [exec_stream_next hi h]
    exact same_of_streamMask (streamOp_streamMask s)

end Sys2Proof.Machine
end

section
/-! SUPPORT and PROOFS. INITIALIZE as a whole (R158, R201): its trace and the state it ends in, and what an observer of wire and time sees of it
(R11, R159, R260). -/

namespace Sys2Proof.Machine

/-! ### A stream seen from the lines and from time -/

theorem narrow_not_timing {e : Event} (h : e.isNarrow = true) : isTiming e = false := by
  cases e with
  | CFG => cases h
  | RST => cases h
  | DELAY => cases h
  | _ => rfl

theorem wide_not_timing {e : Event} (h : e.isWide = true) : isTiming e = false := by
  cases e with
  | CFG => cases h
  | RST => cases h
  | DELAY => cases h
  | _ => rfl

/-- The groups of a stream hold no timed event, in either strategy. -/
theorem groupsTrace_not_timing (p : Params) (src : PixelSource) (fill : Half) (fb : Nat → Nat → Byte) :
    ∀ e ∈ groupsTrace p src fill fb, isTiming e = false := by
  intro e he
  cases hst : p.STRATEGY
  · exact narrow_not_timing (List.all_eq_true.1 (groupsTrace_narrow p src fill fb hst) e he)
  · exact wide_not_timing (List.all_eq_true.1 (groupsTrace_wide p src fill fb hst) e he)

/-- No timed event stands inside the bracket of a stream (R171 to R173). -/
theorem bracketTrace_not_timing (p : Params) (src : PixelSource) (fill : Half) (fb : Nat → Nat → Byte) :
    ∀ e ∈ bracketTrace p src fill fb, isTiming e = false := by
  have hindex : ∀ e ∈ indexTrace false Config.REG_MEMORY_WRITE, isTiming e = false := by decide
  have hmarker : ∀ e ∈ markerTrace p, isTiming e = false := by
    unfold markerTrace; cases p.BULK_MARKER <;> decide
  have hwiden : ∀ e ∈ widenTrace p, isTiming e = false := by
    unfold widenTrace; cases p.STRATEGY <;> decide
  have hnarrow : ∀ e ∈ narrowTrace p, isTiming e = false := by
    unfold narrowTrace; cases p.STRATEGY <;> decide
  simp only [bracketTrace, List.forall_mem_append]
  exact ⟨⟨⟨⟨hindex, hmarker⟩, hwiden⟩, groupsTrace_not_timing p src fill fb⟩, hnarrow⟩

/-- Events that are neither timed nor edges of chip-select move no line (R27). -/
theorem lines_after_quiet {es : List Event} (ht : ∀ e ∈ es, isTiming e = false) (hc : ∀ e ∈ es, isChipSelect e = false) (l : Lines) :
    es.foldl Lines.after l = l := by
  induction es with
  | nil => rfl
  | cons e es ih =>
    obtain ⟨he, hes⟩ := List.forall_mem_cons.1 ht
    obtain ⟨ke, kes⟩ := List.forall_mem_cons.1 hc
    have step : l.after e = l := by
      cases e with
      | CFG => cases he
      | RST => cases he
      | CS => cases ke
      | _ => rfl
    rw [List.foldl_cons, step, ih hes kes]

/-- After a stream chip-select is high, and no other line has moved (R27, R175). -/
theorem lines_after_stream (p : Params) (src : PixelSource) (fill : Half) (fb : Nat → Nat → Byte) (l : Lines) :
    (streamTrace p src fill fb).foldl Lines.after l = { l with cs_n := true } := by
  rw [streamTrace_eq_bracket, List.cons_append, List.foldl_cons, List.foldl_append,
    lines_after_quiet (bracketTrace_not_timing p src fill fb) (bracketTrace_not_chipSelect p src fill fb)]
  rfl

/-! ### The lines and the trace of INITIALIZE -/

/-- After the ROM, begun with chip-select high, the lines are as before (R27, R125). -/
theorem lines_after_rom (rom : List RomStep) {l : Lines} (h : l.cs_n = true) : (romTrace rom).foldl Lines.after l = l := by
  have high : { l with cs_n := true } = l := by rw [← h]
  induction rom with
  | nil => rfl
  | cons e rom ih =>
    rw [romTrace, List.flatMap_cons, List.foldl_append, lines_after_step, high]
    exact ih

/-- The lines INITIALIZE leaves: driven, at their released levels (R27, R141, R158). -/
def Lines.released (p : Params) : Lines := { cs_n := true, rst_n := true, mode_sel := p.MODE_INIT, lines_oe := true }

/-- The trace of the command INITIALIZE, from its acceptance to `DONE` (R158, R201). -/
def hostInitializeTrace (p : Params) (rom : List RomStep) : List Event := .CMD .INITIALIZE :: initializeTrace p rom ++ [.DONE]

/-- Acceptance and reset pulse, then the ROM, then the stream and `DONE`. -/
theorem hostInitializeTrace_eq (p : Params) (rom : List RomStep) :
    hostInitializeTrace p rom = (.CMD .INITIALIZE :: (configTrace p ++ resetTrace p)) ++
      (romTrace rom ++ (streamTrace p .CONST p.INIT_CLEAR_COLOR (fun _ _ => 0) ++ [.DONE])) := by
  simp [hostInitializeTrace, initializeTrace]

/-- Whatever the lines were, INITIALIZE leaves them released. -/
theorem lines_after_hostInitialize (p : Params) (rom : List RomStep) (l : Lines) :
    (hostInitializeTrace p rom).foldl Lines.after l = Lines.released p := by
  have pulse : (.CMD .INITIALIZE :: (configTrace p ++ resetTrace p)).foldl Lines.after l = Lines.released p := rfl
  rw [hostInitializeTrace_eq, List.foldl_append, List.foldl_append, List.foldl_append, pulse, lines_after_rom rom rfl,
    lines_after_stream]
  rfl

/-- INITIALIZE on an idle block with collaborators that answer: what `initializeOp_done` says, of the operation. -/
theorem hostInitialize_done {s : State} (hidle : s.idle = true) (hready : s.collaboratorsReady = true) (hrom : s.rom ≠ []) :
    ∃ t, exec .hostInitialize s = .next t ∧ Produced (hostInitializeTrace s.par.toParams s.rom) s t ∧
      CommandDone .INITIALIZE s.inp.cmd_color .CONST s.par.INIT_CLEAR_COLOR s t ∧ t.pc = s.rom.length := by
  obtain ⟨-, -, hfs, -⟩ := State.idle_parts hidle
  obtain ⟨t, ht, h⟩ := initializeOp_done s hready hfs (List.length_pos_of_ne_nil hrom)
  exact ⟨t, by rw [exec_hostInitialize (State.canAccept_of_idle hidle), ht]; rfl, h⟩

/-- Settles O21: events, registers and lines of INITIALIZE. -/
theorem initializeResult : Obligations.InitializeResult := by
  intro s hidle hready hrom
  obtain ⟨t, ht, hp, hdone, hpc⟩ := hostInitialize_done hidle hready hrom
  have lines : t.lines = Lines.released s.par.toParams := hp.lines.trans (lines_after_hostInitialize _ _ _)
  refine ⟨t, ht, ?trace, hp.store, ?idle, hdone.op, hdone.color, hpc, hdone.inp, hdone.src, hdone.fill_color, congrArg Lines.cs_n lines,
    congrArg Lines.rst_n lines, congrArg Lines.mode_sel lines, congrArg Lines.lines_oe lines, hdone.req⟩
  case trace =>
    rw [hp.trace, hostInitializeTrace_eq]
    simp only [List.append_assoc]
    rfl
  case idle => simp [State.idle, hdone.q_st, hdone.fe_st, hdone.fs_st, hdone.busy]

/-! ### INITIALIZE observed -/

/-- Events that are neither timed nor edges of chip-select show in the burst that is open only (R11). -/
theorem observeFrom_append {es : List Event} (ht : ∀ e ∈ es, isTiming e = false) (hc : ∀ e ∈ es, isChipSelect e = false)
    (fs : List Event) (burst : Option (List Byte)) :
    observeFrom burst (es ++ fs) = observeFrom (burst.map (· ++ es.flatMap eventBytes)) fs := by
  induction es generalizing burst with
  | nil => simp
  | cons e es ih =>
    obtain ⟨he, hes⟩ := List.forall_mem_cons.1 ht
    obtain ⟨ke, kes⟩ := List.forall_mem_cons.1 hc
    have step : observeFrom burst (e :: (es ++ fs)) = observeFrom (burst.map (· ++ eventBytes e)) (es ++ fs) := by
      cases e with
      | CFG => cases he
      | RST => cases he
      | DELAY => cases he
      | CS => cases ke
      | _ => rfl
    rw [List.cons_append, step, ih hes kes]
    cases burst <;> simp

/-- A stream is observed as its one burst, before whatever comes after it (R171, R175). -/
theorem observeFrom_streamTrace (p : Build) (src : PixelSource) (fill : Half) (fb : Nat → Nat → Byte) (fs : List Event) :
    observeFrom none (streamTrace p.toParams src fill fb ++ fs) = .burst (streamBurst p.toParams src fill fb) :: observeFrom none fs := by
  have bracket : streamTrace p.toParams src fill fb ++ fs = .CS false :: (bracketTrace p.toParams src fill fb ++ .CS true :: fs) := by
    simp [streamTrace_eq_bracket]
  have opened (es : List Event) : observeFrom none (.CS false :: es) = observeFrom (some []) es := rfl
  rw [bracket, opened, observeFrom_append (bracketTrace_not_timing _ src fill fb) (bracketTrace_not_chipSelect _ src fill fb),
    bracketTrace_bytes]
  rfl

/-- A delay as it is observed: none for 0 (R143). -/
def observedDelay (n : Nat) : List Observed := if n = 0 then [] else [.timed (.DELAY n)]

/-- A Power-On Step as it is observed: its two bursts, then its delay (R147). -/
def observedStep (e : RomStep) : List Observed :=
  [.burst [0x74, 0x00, e.reg], .burst [0x76, hi e.val, lo e.val]] ++ observedDelay e.dly

theorem observeFrom_delayTrace (n : Nat) (fs : List Event) :
    observeFrom none (delayTrace n ++ fs) = observedDelay n ++ observeFrom none fs := by
  unfold delayTrace observedDelay
  split <;> rfl

theorem observeFrom_stepTrace (e : RomStep) (fs : List Event) :
    observeFrom none (stepTrace e ++ fs) = observedStep e ++ observeFrom none fs := by
  rw [stepTrace, List.append_assoc, observedStep, List.append_assoc, ← observeFrom_delayTrace]
  rfl

theorem observeFrom_romTrace (rom : List RomStep) (fs : List Event) :
    observeFrom none (romTrace rom ++ fs) = rom.flatMap observedStep ++ observeFrom none fs := by
  induction rom with
  | nil => rfl
  | cons e rom ih =>
    rw [romTrace, List.flatMap_cons, List.append_assoc, observeFrom_stepTrace, List.flatMap_cons, List.append_assoc]
    exact congrArg _ ih

/-- INITIALIZE before its first burst (R141, R142). -/
def observedPulse (p : Params) : List Observed :=
  [.timed (.CFG true p.MODE_INIT true), .timed (.RST false), .timed (.DELAY p.T_RST_HOLD), .timed (.RST true), .timed (.DELAY p.T_RST_WAIT)]

/-- INITIALIZE as it is observed: the reset pulse, the ROM, the burst of the initial clear (R158, R159). -/
theorem observe_hostInitialize (p : Build) (rom : List RomStep) :
    observe (hostInitializeTrace p.toParams rom) =
      observedPulse p.toParams ++ rom.flatMap observedStep ++
        [.burst (streamBurst p.toParams .CONST p.INIT_CLEAR_COLOR fun _ _ => 0)] := by
  rw [hostInitializeTrace_eq, List.append_assoc]
  calc observe (_ ++ (romTrace rom ++ _))
      = observedPulse p.toParams ++ observeFrom none (romTrace rom ++
          (streamTrace p.toParams .CONST p.INIT_CLEAR_COLOR (fun _ _ => 0) ++ [.DONE])) := rfl
    _ = _ := by rw [observeFrom_romTrace, observeFrom_streamTrace]; rfl

/-! ### The delays of INITIALIZE -/

theorem observedDelay_timed (n : Nat) : (observedDelay n).filterMap Observed.timed? = delayTrace n := by
  unfold observedDelay delayTrace
  split <;> rfl

/-- The timed events of the ROM are its delays, in order. -/
theorem observedSteps_timed (rom : List RomStep) :
    (rom.flatMap observedStep).filterMap Observed.timed? = (rom.map RomStep.dly).flatMap delayTrace := by
  have step (e : RomStep) : (observedStep e).filterMap Observed.timed? = delayTrace e.dly := observedDelay_timed e.dly
  simp [List.filterMap_flatMap, List.flatMap_map, step]

end Sys2Proof.Machine

namespace Sys2Proof

open Machine

/-- The delays of the first `n` power-control writes: those of the two delayed ones, as far as they are among them (R152). -/
theorem Build.powerDelays (p : Build) (n : Nat) :
    ((List.range n).map p.powerDelay).flatMap delayTrace =
      (if p.PWR_A < n then [.DELAY p.T_PWR_A] else []) ++ (if p.PWR_B < n then [.DELAY p.T_PWR_B] else []) := by
  obtain ⟨-, -, -, hA, hB, -⟩ := p.delays
  obtain ⟨hAB, -⟩ := p.powerPlaces
  have step (i : Nat) : delayTrace (p.powerDelay i) =
      (if i = p.PWR_A then [.DELAY p.T_PWR_A] else if i = p.PWR_B then [.DELAY p.T_PWR_B] else []) := by
    have nA : p.T_PWR_A ≠ 0 := by omega
    have nB : p.T_PWR_B ≠ 0 := by omega
    unfold Params.powerDelay
    split
    · exact if_neg nA
    · split
      · exact if_neg nB
      · rfl
  induction n with
  | zero => rfl
  | succ n ih =>
    rw [List.range_succ, List.map_append, List.flatMap_append, ih]
    simp only [List.map_singleton, List.flatMap_singleton, step]
    by_cases nA : n = p.PWR_A
    · rw [if_neg (by omega), if_neg (by omega), if_pos nA, if_pos (by omega), if_neg (by omega)]
      rfl
    · by_cases nB : n = p.PWR_B
      · rw [if_pos (by omega), if_neg (by omega), if_neg nA, if_pos nB, if_pos (by omega), if_pos (by omega)]
        rfl
      · have hA : p.PWR_A < n + 1 ↔ p.PWR_A < n := by omega
        have hB : p.PWR_B < n + 1 ↔ p.PWR_B < n := by omega
        simp only [nA, nB, hA, hB, if_false, List.append_nil]

/-- The delays of the ROM: after display off, after the two power-control writes, after the last display-control write (R150 to R154). -/
theorem Build.romDelays (p : Build) :
    (p.rom.map RomStep.dly).flatMap delayTrace = [.DELAY p.T_DISP_OFF, .DELAY p.T_PWR_A, .DELAY p.T_PWR_B, .DELAY p.T_DISP_ON] := by
  obtain ⟨-, -, hoff, -, -, hon⟩ := p.delays
  obtain ⟨hAB, hBN⟩ := p.powerPlaces
  have power : p.powerEntries.map RomStep.dly = (List.range p.N_PWR).map p.powerDelay := by
    refine List.ext_getElem (by simp [Params.powerEntries, Params.N_PWR]) fun i _ _ => ?_
    simp [Params.powerEntries]
  have delays : p.rom.map RomStep.dly = [p.T_DISP_OFF] ++ (List.range p.N_PWR).map p.powerDelay ++ [0, 0, 0, 0, p.T_DISP_ON] := by
    simp [Params.rom, power]
  rw [delays, List.flatMap_append, List.flatMap_append, p.powerDelays, if_pos (by omega), if_pos hBN]
  have noff : p.T_DISP_OFF ≠ 0 := by omega
  have non : p.T_DISP_ON ≠ 0 := by omega
  simp [delayTrace, noff, non]

end Sys2Proof

namespace Sys2Proof.Machine

/-- The timed events of INITIALIZE with the ROM the parameters give (R159). -/
theorem timing_hostInitialize (p : Build) :
    timing (hostInitializeTrace p.toParams p.rom) =
      [.CFG true p.MODE_INIT true, .RST false, .DELAY p.T_RST_HOLD, .RST true, .DELAY p.T_RST_WAIT,
        .DELAY p.T_DISP_OFF, .DELAY p.T_PWR_A, .DELAY p.T_PWR_B, .DELAY p.T_DISP_ON] := by
  rw [← observe_timing, observe_hostInitialize, List.filterMap_append, List.filterMap_append, observedSteps_timed, p.romDelays]
  rfl

theorem eventDelay_of_not_timing {e : Event} (h : isTiming e = false) : eventDelay e = 0 := by
  cases e with
  | DELAY => cases h
  | _ => rfl

/-- All delays of a trace are timed events (R11). -/
theorem totalDelay_timing (es : List Event) : totalDelay (timing es) = totalDelay es := by
  induction es with
  | nil => rfl
  | cons e es ih =>
    have cons (fs : List Event) : totalDelay (e :: fs) = eventDelay e + totalDelay fs := by simp [totalDelay]
    rw [cons, ← ih]
    cases h : isTiming e
    · rw [eventDelay_of_not_timing h, Nat.zero_add, timing, List.filter_cons_of_neg (by simp [h])]
      rfl
    · rw [timing, List.filter_cons_of_pos h, cons]
      rfl

/-- Settles O37: what is observed of INITIALIZE, its timed events and their sum. -/
theorem initializeTiming : Obligations.InitializeTiming := by
  intro s hidle hready hrom
  have hne : s.rom ≠ [] := by rw [hrom]; exact List.cons_ne_nil _ _
  obtain ⟨t, ht, hp, -⟩ := hostInitialize_done hidle hready hne
  obtain ⟨hhold, hwait, hoff, hA, hB, hon⟩ := s.par.delays
  have htiming := timing_hostInitialize s.par
  rw [← hrom] at htiming
  have total : totalDelay (hostInitializeTrace s.par.toParams s.rom) =
      s.par.T_RST_HOLD + s.par.T_RST_WAIT + s.par.T_DISP_OFF + s.par.T_PWR_A + s.par.T_PWR_B + s.par.T_DISP_ON := by
    rw [← totalDelay_timing, htiming]
    simp [totalDelay, eventDelay, Nat.add_assoc]
  exact ⟨t, _, ht, hp.trace, htiming, observe_hostInitialize s.par s.rom, hhold, hwait, hoff, hA, hB, hon, total, by omega⟩

end Sys2Proof.Machine
end

section
/-! SUPPORT and PROOF. A command in progress ends (R192, R209): each step brings it nearer to its `DONE`. -/

namespace Sys2Proof.Machine

/-- With SEQ in `Q_IDLE` the whole block is idle: FE and FS are at work for SEQ only (R52). -/
theorem Inv.idle {s : State} (h : Inv s) (hq : s.q_st = .Q_IDLE) : s.idle = true := by
  have hfs : s.fs_st = .S_IDLE := by
    by_contra hne
    obtain hq' | hq' := h.fsOwner hne <;> simp [hq] at hq'
  have hfe : s.fe_st = .F_IDLE := by
    by_contra hne
    obtain ⟨-, -, ⟨hq', -⟩ | ⟨hq', -⟩⟩ | ⟨hindex, -⟩ := h.feOwner hne
    · simp [hq] at hq'
    · simp [hq] at hq'
    · simp [hfs] at hindex
  have hbusy : s.busy = false := by simp [h.busyIff, hq]
  simp [State.idle, hq, hfe, hfs, hbusy]

/-- The first of a number of steps. -/
theorem steps_succ {s t : State} (h : step s = .next t) (n : Nat) : steps (n + 1) s = steps n t := by simp [steps, h]

/-- One step of a command in progress: the inputs stay, the trace grows, and less is left of the command; the step that ends it produces
`DONE` last. -/
theorem step_left {s : State} (h : Inv s) (hq : s.q_st ≠ .Q_IDLE) (hready : s.collaboratorsReady = true) (hr : s.inp.blk_rst = false)
    (hc : s.inp.cmd_valid = false) :
    ∃ t, step s = .next t ∧ Inv t ∧ t.inp = s.inp ∧ (∃ es, t.trace = s.trace ++ es) ∧
      (t.q_st = .Q_IDLE → ∃ es, t.trace = s.trace ++ es ++ [.DONE]) ∧ workLeft t < workLeft s := by
  obtain ⟨t, ht, n, hn⟩ := step_rows h hr
  obtain ⟨ki, kinp, ktrace, kdone, -, kleft⟩ := ticks_left (n + 1) h hready hc hn
  have one : min (n + 1) 1 = 1 := by omega
  rw [if_neg hq, one] at kleft
  exact ⟨t, ht, ki, kinp, ktrace, kdone hq, kleft⟩

/-- Settles O58, by induction on what is left of the command. -/
theorem commandsEnd : Obligations.CommandsEnd := by
  intro s
  induction hk : workLeft s using Nat.strong_induction_on generalizing s with
  | _ k ih =>
    intro h hq hready hr hc
    obtain ⟨t, ht, ki, kinp, ⟨es, ktrace⟩, kdone, kleft⟩ := step_left h hq hready hr hc
    by_cases hend : t.q_st = .Q_IDLE
    case pos =>
      obtain ⟨fs, hfs⟩ := kdone hend
      exact ⟨1, t, fs, steps_succ ht 0, ki.idle hend, hfs⟩
    case neg =>
      have kready : t.collaboratorsReady = true := by rw [State.collaboratorsReady, kinp]; exact hready
      obtain ⟨n, u, fs, hu, hidle, htrace⟩ :=
        ih (workLeft t) (hk ▸ kleft) t rfl ki hend kready (by rw [kinp]; exact hr) (by rw [kinp]; exact hc)
      exact ⟨n + 1, u, es ++ fs, (steps_succ ht n).trans hu, hidle, by rw [htrace, ktrace, List.append_assoc s.trace]⟩

end Sys2Proof.Machine
end

section
/-! SUPPORT and PROOFS. The streamer's table (R180 to R188), and the stream that a block is built without (R170). -/

namespace Sys2Proof.Machine

/-! ### The rows of the streamer -/

/-- With FE at rest a row is one of FS, in a state of the block's strategy and at an address of the framebuffer (R25, R52, R60). -/
theorem tick_streamer {s : State} (hf : s.fe_st = .F_IDLE) (hs : s.fs_st ≠ .S_IDLE) (built : fsPresent s.par.STRATEGY s.fs_st = true)
    (inRange : s.fs_st = .S_LOAD → s.src = .FB → s.col < s.par.W ∧ s.grp < s.par.G) : tick s = .next (fsRow s).state := by
  have noFault : ¬(s.fs_st = .S_LOAD ∧ s.src = .FB ∧ fbInRange s s.col s.grp = false) := by
    rintro ⟨hload, hsrc, hout⟩
    simp [fbInRange, inRange hload hsrc] at hout
  simp [tick, hf, hs, fsTick, built, noFault]

/-- A row of FS that reads no address, by the state it stands in. -/
theorem tick_of_fsRow {s t : State} {f : FsState} (hf : s.fe_st = .F_IDLE) (hs : s.fs_st = f) (built : fsPresent s.par.STRATEGY f = true)
    (hr : (fsRow s).state = t) (hi : f ≠ .S_IDLE := by decide) (hl : f ≠ .S_LOAD := by decide) : tick s = .next t := by
  subst hs hr
  exact tick_streamer hf hi built fun h => absurd h hl

/-- `S_LOAD` from the framebuffer: the read, then what the strategy does with the byte (R182). -/
theorem tick_load_fb {s : State} (hf : s.fe_st = .F_IDLE) (hs : s.fs_st = .S_LOAD) (hsrc : s.src = .FB) (hc : s.col < s.par.W)
    (hg : s.grp < s.par.G) (hack : s.inp.fb_ack = true) :
    tick s = .next ({ s.emit (.FBREAD s.col s.grp (fbByte s s.col s.grp)) with cur := fbByte s s.col s.grp } : State).afterLoad := by
  rw [tick_streamer hf (by simp [hs]) (by simp [hs, fsPresent]) fun _ _ => ⟨hc, hg⟩]
  simp [fsRow, hs, hsrc, loadByte, State.ask_ready hack]

/-- `S_LOAD` of a constant reads nothing (R63, R182). -/
theorem tick_load_const {s : State} (hf : s.fe_st = .F_IDLE) (hs : s.fs_st = .S_LOAD) (hsrc : s.src = .CONST) :
    tick s = .next s.afterLoad := by
  rw [tick_streamer hf (by simp [hs]) (by simp [hs, fsPresent]) (by simp [hsrc])]
  simp [fsRow, hs, hsrc]

/-- `S_MARK`: the data marker, where the block is built with it, and the counters (R180). -/
theorem tick_mark {s : State} (hf : s.fe_st = .F_IDLE) (hs : s.fs_st = .S_MARK) (hack : s.par.BULK_MARKER = true → s.inp.tx_byte_ack = true) :
    tick s = .next (if s.par.BULK_MARKER then s.emit (.BYTE Config.MARK_DATA) else s).afterMark := by
  refine tick_of_fsRow hf hs rfl ?_
  cases hm : s.par.BULK_MARKER
  · simp [fsRow, hs, hm]
  · simp [fsRow, hs, hm, State.ask_ready (hack hm)]

/-- `S_PUSH` with room in the FIFO: the word, then the next bit or the advance (R184). -/
theorem tick_push {s : State} (hf : s.fe_st = .F_IDLE) (hs : s.fs_st = .S_PUSH) (hst : s.par.STRATEGY = .BURST)
    (hroom : s.inp.fifo_full = false) : tick s = .next (s.emit (.WORD (s.px s.bit))).afterPush :=
  tick_of_fsRow hf hs (by rw [hst]; rfl) (by simp [fsRow, hs, State.waitFifo, hroom])

/-- `S_ADV` (R187). -/
theorem tick_advance {s : State} (hf : s.fe_st = .F_IDLE) (hs : s.fs_st = .S_ADV) : tick s = .next s.advance :=
  tick_of_fsRow hf hs rfl (by simp [fsRow, hs])

/-- `S_CS_HI`: the bracket closes, and SEQ goes on (R186, R206). -/
theorem tick_close {s : State} (hf : s.fe_st = .F_IDLE) (hs : s.fs_st = .S_CS_HI) : tick s = .next (s.emit (.CS true)).fsReturn :=
  tick_of_fsRow hf hs rfl (by simp [fsRow, hs])

/-- The end of a stream writes `fs_st` and SEQ's state and nothing else (R206). -/
theorem State.fsReturn_eq (s : State) : s.fsReturn = { s with fs_st := .S_IDLE, q_st := s.fsReturn.q_st } := by
  unfold State.fsReturn
  split <;> rfl

/-- SEQ, waiting for a stream, goes to `Q_DONE`; in any other state it stays (R206; log entry 19). -/
theorem State.fsReturn_sequencer (s : State) :
    s.fsReturn.q_st = if s.q_st = .Q_FILL ∨ s.q_st = .Q_UPD then .Q_DONE else s.q_st := by
  rw [State.fsReturn_q_st]
  cases s.q_st <;> rfl

/-- Pixel `k` stands at bytes `2k` and `2k + 1` of the scratch buffer, high byte first (R100). -/
theorem expand_getElem (px : Fin 8 → Half) (k : Fin 8) : (expand px)[2 * k.val] = hi (px k) ∧ (expand px)[2 * k.val + 1] = lo (px k) := by
  fin_cases k <;> exact ⟨rfl, rfl⟩

/-- Settles O9, row by row. -/
theorem streamerTable : Obligations.StreamerTable := by
  refine ⟨fun s hs hfe hbr hack => ?indexEnd, fun s hf => ⟨?start, ?opens, ?index, ?mark, ?widen, ?load, ?buffered, ?burst, ?adv, ?closes⟩⟩
  case indexEnd => simp [tick_byte2_open hfe hack hbr, State.feReturn, hs]
  case start => rintro hs (hq | hq) <;> simp [tick_sequencer hf hs, seqTick, hq, State.fsStart]
  case opens => exact fun hs => tick_of_fsRow hf hs rfl (by simp [fsRow, hs])
  case index =>
    exact fun hs => ⟨setLo s.fe_arg Config.REG_MEMORY_WRITE, lo_setLo _ _, tick_of_fsRow hf hs rfl (by
      simp [fsRow, hs, State.feStartIndex, State.feStart])⟩
  case mark =>
    refine fun hs => ⟨fun hm hack => ⟨fun hst => ?_, fun hst => ?_⟩, fun hm => ⟨fun hst => ?_, fun hst => ?_⟩⟩
    · simp [tick_mark hf hs fun _ => hack, hm, State.afterMark, hst, Config.MARK_DATA]
    · simp [tick_mark hf hs fun _ => hack, hm, State.afterMark, hst, Config.MARK_DATA]
    · simp [tick_mark hf hs (by simp [hm]), hm, State.afterMark, hst]
    · simp [tick_mark hf hs (by simp [hm]), hm, State.afterMark, hst]
  case widen => exact fun hs hst => tick_of_fsRow hf hs (by rw [hst]; rfl) (by simp [fsRow, hs])
  case load =>
    refine fun hs => ⟨fun hsrc hc hg hack => ⟨fun hst => ?_, fun hst => ?_⟩, fun hsrc => ⟨fun hst => ?_, fun hst => ?_⟩⟩
    · simp [tick_load_fb hf hs hsrc hc hg hack, State.afterLoad, hst]
    · simp [tick_load_fb hf hs hsrc hc hg hack, State.afterLoad, hst]
    · simp [tick_load_const hf hs hsrc, State.afterLoad, hst]
    · simp [tick_load_const hf hs hsrc, State.afterLoad, hst]
  case buffered =>
    refine fun hst => ⟨fun hs => ⟨expand s.px, ?_, expand_getElem s.px⟩, fun hs hack => ?_⟩
    · exact tick_of_fsRow hf hs (by rw [hst]; rfl) (by simp [fsRow, hs])
    · exact tick_of_fsRow hf hs (by rw [hst]; rfl) (by simp [fsRow, hs, State.ask_ready hack])
  case burst =>
    refine fun hst => ⟨fun hs hfull => ?_, fun hs hroom => ⟨fun hb => ?_, fun hb => ?_⟩, fun hs hbusy => ?_, fun hs hfree => ?_,
      fun hs => ?_⟩
    · exact tick_of_fsRow hf hs (by rw [hst]; rfl) (by simp [fsRow, hs, State.waitFifo, hfull])
    · simp [tick_push hf hs hst hroom, State.afterPush, hb]
    · simp [tick_push hf hs hst hroom, State.afterPush, hb]
    · exact tick_of_fsRow hf hs (by rw [hst]; rfl) (by simp [fsRow, hs, State.waitDrain, hbusy])
    · exact tick_of_fsRow hf hs (by rw [hst]; rfl) (by simp [fsRow, hs, State.waitDrain, hfree])
    · exact tick_of_fsRow hf hs (by rw [hst]; rfl) (by simp [fsRow, hs])
  case adv =>
    intro hs
    rw [tick_advance hf hs]
    refine ⟨fun hg => ?_, fun hg hc => ?_, fun hg hc => ⟨fun hst => ?_, fun hst => ?_⟩⟩
    · simp [State.advance, hg]
    · simp [State.advance, hg, hc]
    · simp [State.advance, hg, hc, hst]
    · simp [State.advance, hg, hc, hst]
  case closes =>
    refine fun hs => ⟨_, (tick_close hf hs).trans (congrArg _ (State.fsReturn_eq _)), fun hq => ?_⟩
    rw [State.fsReturn_sequencer, State.emit_q_st, if_pos hq]

/-! ### The stream a block is built without -/

/-- Settles O20: either operation looks at the strategy first. -/
theorem otherStrategyAbsent : Obligations.OtherStrategyAbsent := fun _ =>
  ⟨fun hst => by simp [exec, execStreamBuffered, hst], fun hst => by simp [exec, execStreamBurst, hst]⟩

end Sys2Proof.Machine
end

section
/-! SUPPORT and PROOFS. The results of the two streams (R172, R173), and what every stream sends and reads: its one burst (R171, R174), its
bracket (R175), its framebuffer reads (R176) and its counts (R190). -/

namespace Sys2Proof.Machine

/-! ### The results -/

/-- What a whole stream, begun with FE at rest and collaborators that answer, leaves in the state (R172, R173, R189, R206). -/
structure StreamDone (s t : State) : Prop where
  trace : t.trace = s.trace ++ streamTrace s.par.toParams s.src s.fill_color (fbByte s)
  out : t.out = (s.emits (streamTrace s.par.toParams s.src s.fill_color (fbByte s))).out
  cs_n : t.cs_n = true
  lines : SameLines s t
  store : SameStore s t
  command : SameCommand s t
  source : SameSource s t
  pc : t.pc = s.pc
  req : t.req = none
  fs_st : t.fs_st = .S_IDLE
  fe_st : t.fe_st = .F_IDLE
  fe_kind : t.fe_kind = .IDX
  register : lo t.fe_arg = 0x22
  high : hi t.fe_arg = hi s.fe_arg
  fe_bracket : t.fe_bracket = false
  col : t.col = 0
  grp : t.grp = s.par.G - 1
  group : s.groupDone t 0 (s.par.G - 1)
  q_st : t.q_st = if s.q_st = .Q_FILL ∨ s.q_st = .Q_UPD then .Q_DONE else s.q_st

/-- The stream a block is built with, begun with FE at rest and collaborators that answer, ends. -/
theorem stream_done {s : State} (hready : s.collaboratorsReady = true) (hfe : s.fe_st = .F_IDLE) :
    ∃ t, exec (streamOf s.par.STRATEGY) s = .next t ∧ StreamDone s t := by
  obtain ⟨t, ht, hp, hcommand, hsource, hpc, hfe', hkind, harg, hbracket, hfs, hq, hcol, hgrp, hgroup, hreq⟩ := streamOp_done s hready hfe
  have lines : t.lines = { s.lines with cs_n := true } := hp.lines.trans (lines_after_stream _ _ _ _ _)
  refine ⟨t, by rw [exec_streamOf, ht]; rfl, ?_⟩
  exact
    { trace := hp.trace, out := hp.out, cs_n := congrArg Lines.cs_n lines
      lines := ⟨congrArg Lines.rst_n lines, congrArg Lines.mode_sel lines, congrArg Lines.lines_oe lines⟩
      store := hp.store, command := hcommand, source := hsource, pc := hpc, req := hreq, fs_st := hfs, fe_st := hfe', fe_kind := hkind
      register := by rw [harg, lo_setLo]; rfl
      high := by rw [harg, hi_setLo]
      fe_bracket := hbracket, col := hcol, grp := hgrp, group := hgroup, q_st := hq.trans s.fsReturn_sequencer }

/-- The group byte is read where the framebuffer is the source, and is left as it was where it is not (R182). -/
theorem StreamDone.cur {s t : State} (h : StreamDone s t) : t.cur = if s.src = .FB then fbByte s 0 (s.par.G - 1) else s.cur := by
  obtain ⟨hcur, -⟩ := h.group
  rw [hcur]
  cases s.src <;> rfl

/-- The head of a stream, written out (R94, R180, R181). -/
theorem headTrace_eq (p : Params) : headTrace p =
    [.CS false, .BYTE 0x74, .BYTE 0x00, .BYTE 0x22] ++ (if p.BULK_MARKER then [.BYTE 0x76] else []) ++ widenTrace p := rfl

/-- One group of a stream, with the read by its source (R172, R173). -/
theorem groupTrace_eq (p : Params) (src : PixelSource) (fill : Half) (fb : Nat → Nat → Byte) (c g : Nat) : groupTrace p src fill fb c g =
    (if src = .FB then [.FBREAD c g (fb c g)] else []) ++ pixelTrace p src fill (fb c g) := by
  cases src <;> rfl

/-- Settles O18, from what a whole stream leaves, in the buffered strategy. -/
theorem streamBufferedResult : Obligations.StreamBufferedResult := by
  intro s hst hready hfe
  obtain ⟨t, ht, h⟩ := stream_done hready hfe
  obtain ⟨-, hscratch, hbit⟩ := h.group
  rw [hst] at ht hscratch hbit
  refine ⟨t, ht, ?trace, h.cs_n, h.lines, h.store, h.command, h.source, h.pc, h.req, h.fs_st, h.fe_st, h.fe_kind, h.register, h.high,
    h.fe_bracket, h.col, h.grp, hbit, h.cur, hscratch, h.q_st⟩
  case trace =>
    rw [h.trace]
    simp [streamTrace, headTrace_eq, widenTrace, groupsTrace, columns, groupTrace_eq, pixelTrace, tailTrace, narrowTrace, hst]

/-- The end of a burst leaves the transport as it is (log entry 7). -/
theorem Outside.closeBurst_transport (o : Outside) (marker listening : Bool) :
    (o.closeBurst marker listening).bus_width = o.bus_width ∧ (o.closeBurst marker listening).fifo = o.fifo := by
  unfold Outside.closeBurst
  split
  · split <;> exact ⟨rfl, rfl⟩
  · exact ⟨rfl, rfl⟩

/-- A burst stream leaves the transport narrow, with nothing queued (R173, R185, R186; log entry 7). -/
theorem transport_after_stream {p : Params} (hst : p.STRATEGY = .BURST) (src : PixelSource) (fill : Half) (fb : Nat → Nat → Byte) (s : State) :
    (s.emits (streamTrace p src fill fb)).out.bus_width = .W8 ∧ (s.emits (streamTrace p src fill fb)).out.fifo = [] := by
  have parts : streamTrace p src fill fb = headTrace p ++ groupsTrace p src fill fb ++ [.WIDTH .W8, .CS true] := by
    simp [streamTrace, tailTrace, narrowTrace, hst]
  rw [parts, State.emits_append]
  exact Outside.closeBurst_transport _ _ _

/-- Settles O19, from what a whole stream leaves, in the burst strategy. -/
theorem streamBurstResult : Obligations.StreamBurstResult := by
  intro s hst hready hfe
  obtain ⟨t, ht, h⟩ := stream_done hready hfe
  obtain ⟨-, hscratch, hbit⟩ := h.group
  obtain ⟨hwidth, hfifo⟩ := transport_after_stream hst s.src s.fill_color (fbByte s) s
  rw [← h.out] at hwidth hfifo
  rw [hst] at ht hscratch hbit
  refine ⟨t, ht, ?trace, hwidth, hfifo, h.cs_n, h.lines, h.store, h.command, h.source, h.pc, h.req, h.fs_st, h.fe_st, h.fe_kind,
    h.register, h.high, h.fe_bracket, h.col, h.grp, hbit, hscratch, h.cur, h.q_st⟩
  case trace =>
    rw [h.trace]
    simp [streamTrace, headTrace_eq, widenTrace, groupsTrace, columns, groupTrace_eq, pixelTrace, positions, tailTrace, narrowTrace, hst]

/-! ### The burst and its bracket -/

/-- A stream is one burst on the wire (R171). -/
theorem wire_streamTrace (p : Build) (src : PixelSource) (fill : Half) (fb : Nat → Nat → Byte) :
    wire (streamTrace p.toParams src fill fb) = [streamBurst p.toParams src fill fb] := by
  rw [wire, ← List.append_nil (streamTrace _ _ _ _), wireFrom_streamTrace]
  rfl

/-- Settles O31: the stream's one burst, with its pixels by the formula of R171. -/
theorem streamWireImage : Obligations.StreamWireImage := by
  intro s hready hfe
  obtain ⟨t, ht, h⟩ := stream_done hready hfe
  refine ⟨t, _, ht, h.trace, ?_⟩
  rw [wire_streamTrace, streamBurst, streamPixels, List.flatMap_map]
  cases s.src <;> rfl

/-- Settles O33: what stands inside the bracket of a stream does not touch chip-select. -/
theorem streamBracket : Obligations.StreamBracket := by
  intro s hready hfe
  obtain ⟨t, ht, h⟩ := stream_done hready hfe
  refine ⟨t, bracketTrace s.par.toParams s.src s.fill_color (fbByte s), ht, ?_, ?_⟩
  · rw [h.trace, streamTrace_eq_bracket]
    simp
  · rintro e he l rfl
    cases bracketTrace_not_chipSelect _ _ _ _ _ he

/-! ### The framebuffer reads -/

/-- The framebuffer reads of a stream: columns from last to first, groups ascending (R176). -/
def streamReads (p : Params) (src : PixelSource) (fb : Nat → Nat → Byte) : List Event :=
  (columns p.W).flatMap fun c => (List.range p.G).flatMap fun g => readTrace src fb c g

theorem groupTrace_reads (p : Params) (src : PixelSource) (fill : Half) (fb : Nat → Nat → Byte) (c g : Nat) :
    (groupTrace p src fill fb c g).filter isRead = readTrace src fb c g := by
  unfold groupTrace pixelTrace
  cases src <;> cases p.STRATEGY <;> rfl

/-- Head and end of a stream read nothing, and each group reads its own byte (R176). -/
theorem streamTrace_reads (p : Params) (src : PixelSource) (fill : Half) (fb : Nat → Nat → Byte) :
    (streamTrace p src fill fb).filter isRead = streamReads p src fb := by
  have hhead : (headTrace p).filter isRead = [] := by
    unfold headTrace markerTrace widenTrace
    cases p.BULK_MARKER <;> cases p.STRATEGY <;> rfl
  have htail : (tailTrace p).filter isRead = [] := by
    unfold tailTrace narrowTrace
    cases p.STRATEGY <;> rfl
  simp [streamTrace, hhead, htail, groupsTrace, List.filter_flatMap, groupTrace_reads, streamReads]

/-- Settles O32: neither the burst nor the reads of a stream depend on the strategy. -/
theorem strategiesAgree : Obligations.StrategiesAgree := by
  intro s s' hst hpar hsrc hfill hfb hready hready' hfe hfe'
  obtain ⟨t, ht, h⟩ := stream_done hready hfe
  obtain ⟨t', ht', h'⟩ := stream_done hready' hfe'
  have hst' : s'.par.STRATEGY = .BURST := by rw [hpar]
  have hbyte : fbByte s' = fbByte s := by
    funext c g
    rw [fbByte, hfb, hpar]
    rfl
  rw [hst] at ht
  rw [hst'] at ht'
  refine ⟨t, t', _, _, ht, ht', h.trace, h'.trace, ?_, ?_⟩
  · rw [wire_streamTrace, wire_streamTrace, hbyte, hsrc, hfill, hpar]
    rfl
  · rw [streamTrace_reads, streamTrace_reads, hbyte, hsrc, hpar]
    rfl

/-- A place is read by a framebuffer read alone. -/
theorem filterMap_readPlace_reads (es : List Event) : (es.filter isRead).filterMap readPlace = es.filterMap readPlace := by
  rw [List.filterMap_filter]
  congr 1
  funext e
  cases e <;> rfl

/-- The places a stream from the framebuffer reads, by the number of the read (R176). -/
theorem streamReads_places (p : Params) (fb : Nat → Nat → Byte) :
    (streamReads p .FB fb).filterMap readPlace = (List.range (p.W * p.G)).map fun n => (p.W - 1 - n / p.G, n % p.G) := by
  rw [streamReads, columns_eq, List.flatMap_map, List.filterMap_flatMap, range_mul_flatMap, List.map_flatMap]
  congr 1
  funext i
  rw [List.filterMap_flatMap, List.map_map, List.map_eq_flatMap]
  refine List.flatMap_congr fun g hg => ?_
  have hg : g < p.G := List.mem_range.1 hg
  have hdiv : (i * p.G + g) / p.G = i := by
    rw [Nat.mul_comm, Nat.mul_add_div (by omega), Nat.div_eq_of_lt hg, Nat.add_zero]
  have hmod : (i * p.G + g) % p.G = g := by rw [Nat.mul_comm, Nat.mul_add_mod, Nat.mod_eq_of_lt hg]
  simp [readTrace, readPlace, hdiv, hmod]

/-- A stream of a constant reads nothing (R63). -/
theorem streamReads_const (p : Params) (fb : Nat → Nat → Byte) : streamReads p .CONST fb = [] := by simp [streamReads, readTrace]

/-- Each read of a stream answers what the framebuffer holds at its place (R47, R176). -/
theorem streamReads_value {p : Params} {src : PixelSource} {fb : Nat → Nat → Byte} {c g : Nat} {v : Byte}
    (h : Event.FBREAD c g v ∈ streamReads p src fb) : v = fb c g := by
  simp only [streamReads, List.mem_flatMap] at h
  obtain ⟨c', -, g', -, h⟩ := h
  cases src with
  | FB =>
    obtain ⟨rfl, rfl, rfl⟩ : c = c' ∧ g = g' ∧ v = fb c' g' := by simpa [readTrace] using h
    rfl
  | CONST => simp [readTrace] at h

/-- Settles O34, from the reads of a stream. -/
theorem framebufferReadOrder : Obligations.FramebufferReadOrder := by
  intro s hready hfe
  obtain ⟨t, ht, h⟩ := stream_done hready hfe
  refine ⟨t, _, ht, h.trace, ?places, fun c g v he => ?value⟩
  case places =>
    rw [← filterMap_readPlace_reads, streamTrace_reads]
    cases s.src with
    | FB => exact streamReads_places _ _
    | CONST => rw [streamReads_const]; rfl
  case value =>
    refine streamReads_value (p := s.par.toParams) (src := s.src) ?_
    rw [← streamTrace_reads _ _ s.fill_color]
    exact List.mem_filter.2 ⟨he, rfl⟩

/-! ### The counts -/

/-- What is counted the same in every group of a stream is counted `W * G` times in its groups. -/
theorem groupsTrace_countP {p : Params} {src : PixelSource} {fill : Half} {fb : Nat → Nat → Byte} {f : Event → Bool} {n : Nat}
    (h : ∀ c g, (groupTrace p src fill fb c g).countP f = n) : (groupsTrace p src fill fb).countP f = p.W * p.G * n := by
  have hcolumn (c : Nat) : ((List.range p.G).flatMap fun g => groupTrace p src fill fb c g).countP f = p.G * n := by
    simp [List.countP_flatMap, Function.comp_def, h]
  simp [groupsTrace, List.countP_flatMap, Function.comp_def, hcolumn, columns, Nat.mul_assoc]

/-- A count over a stream, from its head, one of its groups, and its end. -/
theorem streamTrace_countP {p : Params} {src : PixelSource} {fill : Half} {fb : Nat → Nat → Byte} {f : Event → Bool} {a n b : Nat}
    (hhead : (headTrace p).countP f = a) (hgroup : ∀ c g, (groupTrace p src fill fb c g).countP f = n) (htail : (tailTrace p).countP f = b) :
    (streamTrace p src fill fb).countP f = a + p.W * p.G * n + b := by
  rw [streamTrace, List.countP_append, List.countP_append, hhead, groupsTrace_countP hgroup, htail]

/-- The numbers of reads, bytes, bulk transfers, words, changes of width and edges of chip-select in a list of events (R190). -/
structure KindCounts (es : List Event) (reads bytes bulks words widths edges : Nat) : Prop where
  reads : es.countP isRead = reads
  bytes : es.countP isByte = bytes
  bulks : es.countP isBulk = bulks
  words : es.countP isWord = words
  widths : es.countP isWidth = widths
  edges : es.countP isChipSelect = edges

/-- The head of a stream: its header bytes, one edge, and in the burst strategy the widening. -/
theorem headTrace_counts (p : Params) : KindCounts (headTrace p) 0 (headerLength p) 0 0 (if p.STRATEGY = .BURST then 1 else 0) 1 := by
  unfold headTrace markerTrace widenTrace headerLength
  cases p.BULK_MARKER <;> cases p.STRATEGY <;> exact ⟨rfl, rfl, rfl, rfl, rfl, rfl⟩

/-- A group: one read from the framebuffer, and one bulk transfer or eight words. -/
theorem groupTrace_counts (p : Params) (src : PixelSource) (fill : Half) (fb : Nat → Nat → Byte) (c g : Nat) :
    KindCounts (groupTrace p src fill fb c g) (if src = .FB then 1 else 0) 0 (if p.STRATEGY = .BUFFERED then 1 else 0)
      (if p.STRATEGY = .BURST then 8 else 0) 0 0 := by
  unfold groupTrace pixelTrace
  cases src <;> cases p.STRATEGY <;> exact ⟨rfl, rfl, rfl, rfl, rfl, rfl⟩

/-- The end of a stream: one edge, and in the burst strategy the narrowing. -/
theorem tailTrace_counts (p : Params) : KindCounts (tailTrace p) 0 0 0 0 (if p.STRATEGY = .BURST then 1 else 0) 1 := by
  unfold tailTrace narrowTrace
  cases p.STRATEGY <;> exact ⟨rfl, rfl, rfl, rfl, rfl, rfl⟩

/-- The counts of a whole stream (R190). -/
theorem streamTrace_counts (p : Build) (src : PixelSource) (fill : Half) (fb : Nat → Nat → Byte) :
    KindCounts (streamTrace p.toParams src fill fb) (if src = .FB then p.W * p.G else 0) (headerLength p.toParams)
      (if p.STRATEGY = .BUFFERED then p.W * p.G else 0) (if p.STRATEGY = .BURST then p.W * p.H else 0)
      (if p.STRATEGY = .BURST then 2 else 0) 2 := by
  obtain ⟨-, -, -, -, hGH⟩ := p.geometry
  have hwords : p.W * p.G * 8 = p.W * p.H := by rw [Nat.mul_assoc, hGH]
  have head := headTrace_counts p.toParams
  have group := groupTrace_counts p.toParams src fill fb
  have tail := tailTrace_counts p.toParams
  constructor
  case reads => rw [streamTrace_countP head.reads (fun c g => (group c g).reads) tail.reads]; split <;> simp
  case bytes => rw [streamTrace_countP head.bytes (fun c g => (group c g).bytes) tail.bytes]; simp
  case bulks => rw [streamTrace_countP head.bulks (fun c g => (group c g).bulks) tail.bulks]; split <;> simp
  case words => rw [streamTrace_countP head.words (fun c g => (group c g).words) tail.words]; split <;> simp [hwords]
  case widths => rw [streamTrace_countP head.widths (fun c g => (group c g).widths) tail.widths]; split <;> simp
  case edges => rw [streamTrace_countP head.edges (fun c g => (group c g).edges) tail.edges]; simp

/-- Settles O35: the length of the stream's one burst, and its events counted kind by kind. -/
theorem streamCounts : Obligations.StreamCounts := by
  intro s hready hfe
  obtain ⟨t, ht, h⟩ := stream_done hready hfe
  have counts := streamTrace_counts s.par s.src s.fill_color (fbByte s)
  refine ⟨t, _, ht, h.trace, ?_, counts.reads, counts.bytes, counts.bulks, counts.words, counts.widths, counts.edges⟩
  rw [wire_streamTrace, List.map_singleton, streamBurst_length, Nat.mul_assoc]
  rfl

end Sys2Proof.Machine
end

section
/-! SUPPORT and PROOFS. The command port (R200, R205, R206): which command a row of `Q_IDLE` accepts, what is not accepted, and that an idle block
waits for a command (R252). -/

namespace Sys2Proof.Machine

/-! ### Acceptance -/

/-- The command on the port is what its code says (R104). -/
theorem portCommand_eq {s : State} {op : BitVec 2} (hv : s.inp.cmd_valid = true) (hop : s.inp.cmd_op = op) :
    portCommand s = (decodeCommand (op.setWidth 8) (hi s.inp.cmd_color) (lo s.inp.cmd_color)).instr? := by
  subst hop
  rw [portCommand, if_pos hv]
  rfl

theorem portCommand_initialize {s : State} (hv : s.inp.cmd_valid = true) (hop : s.inp.cmd_op = 1) :
    portCommand s = some .hostInitialize := portCommand_eq hv hop

theorem portCommand_clear {s : State} (hv : s.inp.cmd_valid = true) (hop : s.inp.cmd_op = 2) :
    portCommand s = some (.hostClear s.inp.cmd_color) := by
  rw [portCommand_eq hv hop, ← join_hi_lo s.inp.cmd_color, hi_join, lo_join]
  rfl

theorem portCommand_update {s : State} (hv : s.inp.cmd_valid = true) (hop : s.inp.cmd_op = 3) :
    portCommand s = some .hostUpdate := portCommand_eq hv hop

/-- No request, or the reserved code, is no command (R104, R200). -/
theorem portCommand_none {s : State} (h : s.inp.cmd_valid = false ∨ s.inp.cmd_op = 0) : portCommand s = none := by
  cases hv : s.inp.cmd_valid with
  | false => simp [portCommand, hv]
  | true =>
    obtain h | h := h
    · simp [hv] at h
    · exact portCommand_eq hv h

/-- A row of `Q_IDLE` that cannot accept a command, or finds none, does nothing (R205, R206). -/
theorem acceptRow_none {s : State} (h : s.canAccept = false ∨ portCommand s = none) : acceptRow s = s := by
  unfold acceptRow
  obtain h | h := h <;> simp [h]

/-- SEQ elsewhere than in `Q_IDLE`, or `busy`: no command is accepted (R200, R205). -/
theorem State.canAccept_false {s : State} (h : s.busy = true ∨ s.q_st ≠ .Q_IDLE) : s.canAccept = false := by
  obtain h | h := h <;> simp [State.canAccept, h]

/-- Settles O10, row by row. -/
theorem commandTable : Obligations.CommandTable := by
  intro s hf hs
  refine ⟨?accepted, ?nothing, ?starts, ?ends, ?done⟩
  case accepted =>
    intro hq hb hv
    have ha : s.canAccept = true := by simp [State.canAccept, hq, hb]
    have row : tick s = .next (acceptRow s) := by simp [tick_sequencer hf hs, seqTick, hq]
    rw [row, acceptRow, if_pos ha]
    refine ⟨fun hop => ?_, fun hop => ?_, fun hop => ?_⟩
    · rw [portCommand_initialize hv hop]; rfl
    · rw [portCommand_clear hv hop]; rfl
    · rw [portCommand_update hv hop]; rfl
  case nothing =>
    intro hq h
    have refused : s.canAccept = false ∨ portCommand s = none :=
      h.imp (fun hb => State.canAccept_false (.inl hb)) portCommand_none
    simp [tick_sequencer hf hs, seqTick, hq, acceptRow_none refused]
  case starts => rintro (hq | hq) <;> simp [tick_sequencer hf hs, seqTick, hq, State.fsStart]
  case ends =>
    intro t hft hst hq
    rw [tick_close hft hst, State.fsReturn_eq, State.fsReturn_sequencer, State.emit_q_st, if_pos hq]
  case done =>
    intro hq
    simp only [tick_sequencer hf hs, seqTick, hq]
    rfl

/-- Settles O24: the three commands ask first whether the block can accept one. -/
theorem commandWhileBusy : Obligations.CommandWhileBusy := by
  intro s h
  have ha : s.canAccept = false := State.canAccept_false h
  exact ⟨by simp [exec, execHostInitialize, ha], fun _ => by simp [exec, execHostClear, ha], by simp [exec, execHostUpdate, ha]⟩

/-- Settles O25: no operation begins, and the row of `Q_IDLE` finds no command. -/
theorem idleWaitsForACommand : Obligations.IdleWaitsForACommand := by
  intro s hidle hr h
  obtain ⟨hq, hf, hs, -⟩ := State.idle_parts hidle
  have hport : portCommand s = none := portCommand_none h
  have hfetch : fetch s = none := by simp [fetch_atRest hf hs, seqFetch, hq, hport]
  rw [step_row hr (.inr hfetch), tick_sequencer hf hs]
  simp [seqTick, hq, acceptRow_none (.inr hport)]

end Sys2Proof.Machine
end

section
/-! SUPPORT and PROOFS. CLEAR and UPDATE as operations (R202, R203): their results, what they leave alone, waiting or not, and the state after any
completed command (R204). -/

namespace Sys2Proof.Machine

/-! ### The results -/

/-- The trace of a command that only streams, from its acceptance to `DONE` (R202, R203). -/
def streamCommandTrace (c : HostCommand) (p : Params) (src : PixelSource) (fill : Half) (fb : Nat → Nat → Byte) : List Event :=
  .CMD c :: streamTrace p src fill fb ++ [.DONE]

/-- CLEAR on an idle block with collaborators that answer: what `clearOp_done` says, of the operation. -/
theorem hostClear_done {s : State} (hidle : s.idle = true) (hready : s.collaboratorsReady = true) (color : Half) :
    ∃ t, exec (.hostClear color) s = .next t ∧
      Produced (streamCommandTrace (.CLEAR color) s.par.toParams .CONST color (fbByte s)) s t ∧
      CommandDone (.CLEAR color) color .CONST color s t ∧ t.pc = s.pc := by
  obtain ⟨-, hfe, -, -⟩ := State.idle_parts hidle
  obtain ⟨t, ht, hp, hdone, hpc, -⟩ := clearOp_done color s hready hfe
  exact ⟨t, by rw [exec_hostClear (State.canAccept_of_idle hidle), ht]; rfl, hp, hdone, hpc⟩

/-- UPDATE on an idle block with collaborators that answer: what `updateOp_done` says, of the operation. -/
theorem hostUpdate_done {s : State} (hidle : s.idle = true) (hready : s.collaboratorsReady = true) :
    ∃ t, exec .hostUpdate s = .next t ∧
      Produced (streamCommandTrace .UPDATE s.par.toParams .FB s.fill_color (fbByte s)) s t ∧
      CommandDone .UPDATE s.inp.cmd_color .FB s.fill_color s t ∧ t.pc = s.pc := by
  obtain ⟨-, hfe, -, -⟩ := State.idle_parts hidle
  obtain ⟨t, ht, hp, hdone, hpc, -⟩ := updateOp_done s hready hfe
  exact ⟨t, by rw [exec_hostUpdate (State.canAccept_of_idle hidle), ht]; rfl, hp, hdone, hpc⟩

section Done

variable {c : HostCommand} {color fill : Half} {src : PixelSource} {s t : State}

/-- A completed command leaves the block idle (R204). -/
theorem CommandDone.idle (h : CommandDone c color src fill s t) : t.idle = true := by
  simp [State.idle, h.q_st, h.fe_st, h.fs_st, h.busy]

/-- A completed command has taken its request down and moved no other input, so the collaborators still answer (log entry 6). -/
theorem CommandDone.ready (h : CommandDone c color src fill s t) (hready : s.collaboratorsReady = true) :
    t.collaboratorsReady = true := by
  rw [State.collaboratorsReady, h.inp]
  exact hready

end Done

/-- The lines after a command that only streams: chip-select high, the others where they were (R27, R175). -/
theorem Produced.streamCommand_lines {c : HostCommand} {p : Params} {src : PixelSource} {fill : Half} {fb : Nat → Nat → Byte} {s t : State}
    (h : Produced (streamCommandTrace c p src fill fb) s t) : t.cs_n = true ∧ SameLines s t := by
  have after : (streamCommandTrace c p src fill fb).foldl Lines.after s.lines = { s.lines with cs_n := true } := by
    rw [streamCommandTrace, List.cons_append, List.foldl_cons, List.foldl_append, lines_after_stream]
    rfl
  have lines : t.lines = { s.lines with cs_n := true } := h.lines.trans after
  exact ⟨congrArg Lines.cs_n lines, congrArg Lines.rst_n lines, congrArg Lines.mode_sel lines, congrArg Lines.lines_oe lines⟩

/-- The trace after such a command, in the form the statements have it. -/
theorem Produced.streamCommand_trace {c : HostCommand} {p : Params} {src : PixelSource} {fill : Half} {fb : Nat → Nat → Byte} {s t : State}
    (h : Produced (streamCommandTrace c p src fill fb) s t) :
    t.trace = s.trace ++ ([.CMD c] : List Event) ++ streamTrace p src fill fb ++ ([.DONE] : List Event) := by
  rw [h.trace, streamCommandTrace]
  simp

/-- Settles O22: events, registers and lines of CLEAR. -/
theorem clearResult : Obligations.ClearResult := by
  intro color s hidle hready
  obtain ⟨t, ht, hp, hdone, hpc⟩ := hostClear_done hidle hready color
  obtain ⟨hcs, hlines⟩ := hp.streamCommand_lines
  exact ⟨t, ht, hp.streamCommand_trace, hp.store, hlines, hcs, hdone.idle, hdone.op, hdone.color, hpc, hdone.inp, hdone.src,
    hdone.fill_color, hdone.req⟩

/-- Settles O23: events, registers and lines of UPDATE. -/
theorem updateResult : Obligations.UpdateResult := by
  intro s hidle hready
  obtain ⟨t, ht, hp, hdone, hpc⟩ := hostUpdate_done hidle hready
  obtain ⟨hcs, hlines⟩ := hp.streamCommand_lines
  exact ⟨t, ht, hp.streamCommand_trace, hp.store, hlines, hcs, hdone.idle, hdone.op, hdone.color, hpc, hdone.inp, hdone.src,
    hdone.fill_color, hdone.req⟩

/-! ### What CLEAR and UPDATE leave alone -/

/-- What has the same mask for CLEAR and UPDATE differs in a stream's fields and `busy` only. -/
theorem same_of_commandMask {s t : State} (h : t.commandMask = s.commandMask) :
    SameStore s t ∧ SameLines s t ∧ t.pc = s.pc ∧ t.fill_color = s.fill_color := by
  have same {β : Type} (f : State → β) : f t.commandMask = f s.commandMask := congrArg f h
  have fb : t.fb = s.fb := same State.fb
  exact ⟨⟨same State.par, same State.rom, fun a => by rw [fb]⟩, ⟨same State.rst_n, same State.mode_sel, same State.lines_oe⟩,
    same State.pc, same State.fill_color⟩

/-- A host command answers the state its work comes to, or, where it is not accepted, the state it found (R205). -/
theorem command_next {s t : State} {r : Run}
    (h : Host.Outcome.next (φ := Fault) (ρ := Refusal) (if s.canAccept then r.state else s) = .next t) : t = r.state ∨ t = s := by
  cases h
  split
  · exact .inl rfl
  · exact .inr rfl

/-- Settles O53: after acceptance each writes the fields of its mask only, whether it comes to its end or to a wait. -/
theorem streamCommandsFrame : Obligations.StreamCommandsFrame := by
  refine fun s t => ⟨fun color h => ?clear, fun h => ?update⟩
  case clear =>
    obtain rfl | rfl := command_next h
    · obtain ⟨hstore, hlines, hpc, -⟩ := same_of_commandMask (streamCommand_commandMask (s.acceptClear color))
      exact ⟨hstore, hlines, hpc⟩
    · exact ⟨⟨rfl, rfl, fun _ => rfl⟩, ⟨rfl, rfl, rfl⟩, rfl⟩
  case update =>
    obtain rfl | rfl := command_next h
    · obtain ⟨hstore, hlines, hpc, hfill⟩ := same_of_commandMask (streamCommand_commandMask s.acceptUpdate)
      exact ⟨hstore, hlines, hpc, hfill⟩
    · exact ⟨⟨rfl, rfl, fun _ => rfl⟩, ⟨rfl, rfl, rfl⟩, rfl, rfl⟩

/-! ### The state after a command -/

/-- The word size after an operation is what its events made it (R37). -/
theorem exec_width {i : Instr} {s t : State} {es : List Event} (h : exec i s = .next t) (ht : t.trace = s.trace ++ es) :
    t.out.bus_width = es.foldl widthAfter s.out.bus_width := by
  obtain ⟨fs, k⟩ := exec_extends h
  obtain rfl : es = fs := List.append_cancel_left (ht.symm.trans k.trace)
  exact k.width

/-- Events that do not change the word size leave it (R37). -/
theorem width_after_others {es : List Event} (h : ∀ e ∈ es, isWidth e = false) (w : BusWidth) : es.foldl widthAfter w = w := by
  induction es with
  | nil => rfl
  | cons e es ih =>
    obtain ⟨he, hes⟩ := List.forall_mem_cons.1 h
    have step : widthAfter w e = w := by
      cases e with
      | WIDTH => cases he
      | _ => rfl
    rw [List.foldl_cons, step, ih hes]

/-- A stream begun at the narrow word size ends at it: it changes nothing, or narrows again before chip-select (R173, R185). -/
theorem width_after_stream (p : Build) (src : PixelSource) (fill : Half) (fb : Nat → Nat → Byte) :
    (streamTrace p.toParams src fill fb).foldl widthAfter .W8 = .W8 := by
  cases hst : p.STRATEGY with
  | BUFFERED =>
    have unchanged : (streamTrace p.toParams src fill fb).countP isWidth = 0 := by
      rw [(streamTrace_counts p src fill fb).widths, hst]
      rfl
    exact width_after_others (fun e he => by simpa using List.countP_eq_zero.1 unchanged e he) _
  | BURST =>
    rw [streamTrace, List.foldl_append, tailTrace, narrowTrace, hst]
    rfl

/-- The ROM does not change the word size (R147). -/
theorem width_after_rom (rom : List RomStep) (w : BusWidth) : (romTrace rom).foldl widthAfter w = w := by
  induction rom with
  | nil => rfl
  | cons e rom ih =>
    have step : (stepTrace e).foldl widthAfter w = w := by
      rw [stepTrace, delayTrace]
      split <;> rfl
    rw [romTrace, List.flatMap_cons, List.foldl_append, step]
    exact ih

/-- INITIALIZE begun at the narrow word size ends at it. -/
theorem width_after_hostInitialize (p : Build) (rom : List RomStep) :
    (hostInitializeTrace p.toParams rom).foldl widthAfter .W8 = .W8 := by
  have pulse : (.CMD .INITIALIZE :: (configTrace p.toParams ++ resetTrace p.toParams)).foldl widthAfter .W8 = .W8 := rfl
  rw [hostInitializeTrace_eq, List.foldl_append, List.foldl_append, List.foldl_append, pulse, width_after_rom, width_after_stream]
  rfl

/-- A command that only streams, begun at the narrow word size, ends at it. -/
theorem width_after_streamCommand (c : HostCommand) (p : Build) (src : PixelSource) (fill : Half) (fb : Nat → Nat → Byte) :
    (streamCommandTrace c p.toParams src fill fb).foldl widthAfter .W8 = .W8 := by
  have accepted : widthAfter .W8 (.CMD c) = .W8 := rfl
  rw [streamCommandTrace, List.cons_append, List.foldl_cons, List.foldl_append, accepted, width_after_stream]
  rfl

/-- R204 for a command that only streams. -/
theorem streamCommand_after {i : Instr} {c : HostCommand} {color fill : Half} {src : PixelSource} {s t : State}
    (hi : i ≠ .hostInitialize) (hwidth : s.out.bus_width = .W8) (ht : exec i s = .next t)
    (hp : Produced (streamCommandTrace c s.par.toParams src fill (fbByte s)) s t) (hdone : CommandDone c color src fill s t) :
    t.q_st = .Q_IDLE ∧ t.fe_st = .F_IDLE ∧ t.fs_st = .S_IDLE ∧ t.busy = false ∧ t.cs_n = true ∧ t.out.bus_width = .W8 ∧
      (i = .hostInitialize → t.rst_n = true ∧ t.mode_sel = s.par.MODE_INIT) ∧
      (s.rst_n = true → t.rst_n = true) ∧ (s.mode_sel = s.par.MODE_INIT → t.mode_sel = s.par.MODE_INIT) := by
  obtain ⟨hcs, hrst, hmode, -⟩ := hp.streamCommand_lines
  refine ⟨hdone.q_st, hdone.fe_st, hdone.fs_st, hdone.busy, hcs, ?_, (absurd · hi), hrst.trans, hmode.trans⟩
  rw [exec_width ht hp.trace, hwidth, width_after_streamCommand]

/-- Settles O30: the result of each command, with its lines and its word size. -/
theorem stateAfterACommand : Obligations.StateAfterACommand := by
  intro s hidle hready hwidth hrom i t hi ht
  have same {t' : State} (ht' : exec i s = .next t') : t' = t := Host.Outcome.next.inj (ht'.symm.trans ht)
  obtain rfl | ⟨color, rfl⟩ | rfl := hi
  · obtain ⟨t', ht', hp, hdone, -⟩ := hostInitialize_done hidle hready hrom
    obtain rfl := same ht'
    have lines : t'.lines = Lines.released s.par.toParams := hp.lines.trans (lines_after_hostInitialize _ _ _)
    have hrst : t'.rst_n = true := congrArg Lines.rst_n lines
    have hmode : t'.mode_sel = s.par.MODE_INIT := congrArg Lines.mode_sel lines
    refine ⟨hdone.q_st, hdone.fe_st, hdone.fs_st, hdone.busy, congrArg Lines.cs_n lines, ?_, fun _ => ⟨hrst, hmode⟩, fun _ => hrst,
      fun _ => hmode⟩
    rw [exec_width ht hp.trace, hwidth, width_after_hostInitialize]
  · obtain ⟨t', ht', hp, hdone, -⟩ := hostClear_done hidle hready color
    obtain rfl := same ht'
    exact streamCommand_after nofun hwidth ht hp hdone
  · obtain ⟨t', ht', hp, hdone, -⟩ := hostUpdate_done hidle hready
    obtain rfl := same ht'
    exact streamCommand_after nofun hwidth ht hp hdone

end Sys2Proof.Machine
end

section
/-! SUPPORT and PROOFS. What the host commands leave in a listening panel (R87, R202, R203, R208), and INITIALIZE in any panel at the narrow word
size (R201, R231, R255). -/

namespace Sys2Proof

/-! ### The last entries of the ROM -/

/-- The last entry of the ROM is the last that names the display-control register (R154). -/
theorem Params.rom_lastDisplayControl (p : Params) :
    p.rom.reverse.find? (fun e => e.reg == p.REG_DISPLAY_CONTROL) = some ⟨p.REG_DISPLAY_CONTROL, p.VAL_DC_4, p.T_DISP_ON⟩ := by
  simp [Params.rom]

/-- The entry before the four display-control writes is the last that names the entry-mode register, if that is another one (R153). -/
theorem Params.rom_lastEntryMode (p : Params) (h : p.REG_ENTRY_MODE ≠ p.REG_DISPLAY_CONTROL) :
    p.rom.reverse.find? (fun e => e.reg == p.REG_ENTRY_MODE) = some ⟨p.REG_ENTRY_MODE, p.VAL_ENTRY, 0⟩ := by
  simp [Params.rom, h.symm]

end Sys2Proof

namespace Sys2Proof.Machine

/-! ### The pixels of the two sources -/

/-- A constant stream is `W * H` copies of its colour (R102, R203). -/
theorem streamPixels_const (p : Params) (fill : Half) (fb : Nat → Nat → Byte) :
    streamPixels p .CONST fill fb = List.replicate (p.W * p.H) fill := by
  have pixel (n : Nat) : streamPixel p .CONST fill fb n = fill := rfl
  rw [streamPixels, List.map_congr_left fun n _ => pixel n]
  simp

/-- The stream of the framebuffer is the masks of its logical pixels (R87, R202). -/
theorem streamPixels_fb (p : Build) (fill : Half) (fb : Nat → Nat → Byte) :
    streamPixels p.toParams .FB fill fb = (List.range (p.W * p.H)).map fun n =>
      if logicalPixel fb (p.W - 1 - n / p.H) (n % p.H) then p.MASK_FILLED else p.MASK_BLANK :=
  List.map_congr_left fun n _ => streamPixel_fb p fill fb n

/-- The stream of the framebuffer holds the two masks only (R208). -/
theorem streamPixels_masks (p : Build) (fill : Half) (fb : Nat → Nat → Byte) :
    ∀ v ∈ streamPixels p.toParams .FB fill fb, v = p.MASK_FILLED ∨ v = p.MASK_BLANK := by
  rw [streamPixels_fb]
  intro v hv
  obtain ⟨n, -, rfl⟩ := List.mem_map.1 hv
  exact ite_eq_or_eq _ _ _

/-- The stream of an all-zero framebuffer is the blank mask only (R208). -/
theorem streamPixels_blank (p : Build) (fill : Half) {fb : Nat → Nat → Byte} (h : ∀ c g, fb c g = 0) :
    streamPixels p.toParams .FB fill fb = List.replicate (p.W * p.H) p.MASK_BLANK := by
  have blank (x y : Nat) : logicalPixel fb x y = false := by simp [logicalPixel, h]
  simp [streamPixels_fb, blank]

/-! ### CLEAR and UPDATE on a listening panel -/

/-- What the receiver made of the burst is the panel from then on. -/
theorem Outside.took_panel (o : Outside) (p : Panel) : (o.took p).panel = p := rfl

/-- The panel listens after it has taken a burst, while the lines stay driven and the transport delivers. -/
theorem State.panelListens_took {s t : State} {p : Panel} (h : s.panelListens = true) (ht : t.out = s.out.took p)
    (hi : t.inp.otherThanRequest = s.inp.otherThanRequest) (hl : t.lines_oe = true) : t.panelListens = true := by
  obtain ⟨hd, hw, hf, -, hlost⟩ := State.listens_parts h
  have delivers := congrArg Inputs.tx_delivers hi
  have hd' : t.inp.tx_delivers = true := delivers.trans hd
  simp [State.panelListens, State.wireClear, ht, hl, hd', Outside.took, Outside.withPanel, hw, hf, hlost]

/-- `DONE` does nothing outside. -/
theorem State.emits_done_out (s : State) : (s.emits [.DONE]).out = s.out := rfl

/-- Acceptance and `DONE` do nothing outside: what a command that only streams does there is its stream. -/
theorem streamCommand_emits (c : HostCommand) (p : Params) (src : PixelSource) (fill : Half) (fb : Nat → Nat → Byte) (s : State) :
    (s.emits (streamCommandTrace c p src fill fb)).out = ((s.emit (.CMD c)).emits (streamTrace p src fill fb)).out := by
  rw [streamCommandTrace, List.cons_append, State.emits_cons, State.emits_append, State.emits_done_out, State.complete_cmd]

/-- A command that only streams is one bulk burst to a listening panel (R79). -/
theorem streamCommand_out {s : State} (h : s.panelListens = true) (c : HostCommand) (src : PixelSource) (fill : Half)
    (fb : Nat → Nat → Byte) : (s.emits (streamCommandTrace c s.par.toParams src fill fb)).out = s.out.took
      { s.out.panel with
        ir := some Config.REG_MEMORY_WRITE
        pix := s.out.pix ++ streamPixels s.par.toParams src fill fb } := by
  have stream := stream_out (s.emit (.CMD c)) h src fill fb
  rw [State.emit_par, State.emit_cmd_out] at stream
  rw [streamCommand_emits, stream]

/-- Settles O28: the one burst of each command, with its pixels by their source. -/
theorem clearAndUpdateEndState : Obligations.ClearAndUpdateEndState := by
  intro s hidle hready hlisten
  refine ⟨fun color => ?clear, ?update⟩
  case clear =>
    obtain ⟨t, ht, hp, -⟩ := hostClear_done hidle hready color
    refine ⟨t, ht, ?_⟩
    rw [hp.out, streamCommand_out hlisten, streamPixels_const]
    rfl
  case update =>
    obtain ⟨t, ht, hp, -⟩ := hostUpdate_done hidle hready
    refine ⟨t, ht, ?_⟩
    rw [hp.out, streamCommand_out hlisten, streamPixels_fb]
    rfl

/-- Settles O42: CLEAR leaves an idle block and a listening panel, on which UPDATE streams the same framebuffer's masks. -/
theorem fillPathsDiffer : Obligations.FillPathsDiffer := by
  intro s hidle hready hlisten color
  obtain ⟨t, ht, hp, hdone, -⟩ := hostClear_done hidle hready color
  have tout := hp.out.trans (streamCommand_out hlisten _ _ _ _)
  obtain ⟨-, -, -, hoe⟩ := hp.streamCommand_lines
  obtain ⟨-, -, -, hdriven, -⟩ := State.listens_parts hlisten
  have tlisten : t.panelListens = true := State.panelListens_took hlisten tout hp.inp (hoe.trans hdriven)
  obtain ⟨u, hu, kp, -⟩ := hostUpdate_done hdone.idle (hdone.ready hready)
  have uout := kp.out.trans (streamCommand_out tlisten _ _ _ _)
  rw [hp.par, fbByte_congr hp.par hp.fb] at uout
  refine ⟨t, u, streamPixels s.par.toParams .FB t.fill_color (fbByte s), ht, hu, ?_, ?_, streamPixels_length _ _ _ _,
    streamPixels_masks _ _ _, streamPixels_blank _ _⟩
  · rw [tout, streamPixels_const]
    rfl
  · rw [uout]
    rfl

/-! ### The ROM on a listening panel -/

/-- What a register write makes of the panel: it selects the register and writes it (R77, R78). -/
def Panel.afterStep (p : Panel) (e : RomStep) : Panel := { p with ir := some e.reg }.setReg e.reg e.val

/-- What the register writes of a ROM make of it, in order (R158). -/
def Panel.afterRom (p : Panel) (rom : List RomStep) : Panel := rom.foldl Panel.afterStep p

theorem Panel.afterRom_pix (p : Panel) (rom : List RomStep) : (p.afterRom rom).pix = p.pix := by
  induction rom generalizing p with
  | nil => rfl
  | cons e rom ih => exact ih (p.afterStep e)

/-- A register holds the value of the last entry that names it, and one that no entry names is left alone (R77, R78). -/
theorem Panel.afterRom_reg (p : Panel) (rom : List RomStep) (a : Byte) :
    (p.afterRom rom).reg a = match rom.reverse.find? fun e => e.reg == a with
      | some e => some e.val
      | none => p.reg a := by
  induction rom generalizing p with
  | nil => rfl
  | cons e rom ih =>
    have written : (p.afterStep e).reg a = if e.reg = a then some e.val else p.reg a := by
      split
      next h => exact h ▸ Panel.reg_setReg _ _ _
      next h => exact Panel.reg_setReg_ne (Ne.symm h) _ _
    have step : (p.afterRom (e :: rom)).reg a = ((p.afterStep e).afterRom rom).reg a := rfl
    rw [step, ih, List.reverse_cons, List.find?_append]
    cases rom.reverse.find? fun e => e.reg == a with
    | some e' => rfl
    | none =>
      rw [written]
      by_cases h : e.reg = a <;> simp [h]

/-- A listening panel takes the ROM's register writes and goes on listening (R158). -/
theorem rom_out {s : State} (h : s.panelListens = true) (rom : List RomStep) :
    (s.emits (romTrace rom)).panelListens = true ∧ (s.emits (romTrace rom)).out.panel = s.out.panel.afterRom rom := by
  induction rom generalizing s with
  | nil => exact ⟨h, rfl⟩
  | cons e rom ih =>
    have out := step_out h e
    obtain ⟨-, -, -, hdriven, -⟩ := State.listens_parts h
    have lines : (s.emits (stepTrace e)).lines = { s.lines with cs_n := true } := (State.emits_lines _ _).trans (lines_after_step e _)
    have listens : (s.emits (stepTrace e)).panelListens = true :=
      State.panelListens_took h out (by simp) ((congrArg Lines.lines_oe lines).trans hdriven)
    obtain ⟨hl, hp⟩ := ih listens
    rw [romTrace, List.flatMap_cons, State.emits_append]
    refine ⟨hl, hp.trans ?_⟩
    rw [out]
    rfl

/-! ### INITIALIZE -/

/-- The events of INITIALIZE before its first burst: acceptance, CONFIG_LINES and the reset pulse (R158). -/
def pulseTrace (p : Params) : List Event := .CMD .INITIALIZE :: (configTrace p ++ resetTrace p)

/-- They drive the lines, reset the panel, and do nothing else outside (R141, R142, R255). -/
theorem pulse_out (s : State) :
    (s.emits (pulseTrace s.par.toParams)).out = s.out.panelReset ∧ (s.emits (pulseTrace s.par.toParams)).lines_oe = true := ⟨rfl, rfl⟩

/-- Nothing queued in the transport. -/
def State.unqueued (s : State) : State := { s with out := { s.out with fifo := [] } }

/-- With `bus_busy` down, words still queued are off the wire when chip-select falls: what follows is as if none had been (R26; log entry 7). -/
theorem emits_unqueued {s : State} (hbusy : s.inp.bus_busy = false) (es : List Event) :
    (s.emits (.CS false :: es)).out = (s.unqueued.emits (.CS false :: es)).out := by
  have opened : (s.emit (.CS false)).out = (s.unqueued.emit (.CS false)).out := by
    simp [hbusy, State.unqueued, Outside.openBurst]
  exact (State.emits_congr (s := s.unqueued.emit (.CS false)) (t := s.emit (.CS false)) es rfl rfl opened rfl rfl rfl rfl).1

/-- INITIALIZE, with what comes after the reset pulse as from a transport with nothing queued: the ROM's first burst clears the queue. -/
theorem hostInitialize_emits {s : State} (hbusy : s.inp.bus_busy = false) (hrom : s.rom ≠ []) :
    (s.emits (hostInitializeTrace s.par.toParams s.rom)).out =
      (((s.emits (pulseTrace s.par.toParams)).unqueued.emits (romTrace s.rom)).emits
        (streamTrace s.par.toParams .CONST s.par.INIT_CLEAR_COLOR fun _ _ => 0)).out := by
  obtain ⟨e, rom, he⟩ := List.exists_cons_of_ne_nil hrom
  obtain ⟨es, hes⟩ : ∃ es, romTrace s.rom = .CS false :: es := he ▸ ⟨_, rfl⟩
  have busy : (s.emits (pulseTrace s.par.toParams)).inp.bus_busy = false := by rw [State.emits_inp, hbusy]
  rw [hostInitializeTrace_eq, ← pulseTrace, State.emits_append, hes, List.cons_append, emits_unqueued busy, ← List.cons_append,
    State.emits_append, State.emits_append, State.emits_done_out]

/-- A ROM that has an entry, and the initial clear: the panel, whatever it was, listens, holds the ROM's registers and the initial colour (R201). -/
theorem hostInitialize_panel {s t : State} (hp : Produced (hostInitializeTrace s.par.toParams s.rom) s t) (hbusy : s.inp.bus_busy = false)
    (hrom : s.rom ≠ []) (hd : s.inp.tx_delivers = true) (hw : s.out.bus_width = .W8) :
    t.panelListens = true ∧ t.out.panel =
      { s.out.panel.afterRom s.rom with
        ir := some Config.REG_MEMORY_WRITE
        pix := s.out.pix ++ List.replicate (s.par.W * s.par.H) s.par.INIT_CLEAR_COLOR } := by
  obtain ⟨pulsed, driven⟩ := pulse_out s
  have atRom : (s.emits (pulseTrace s.par.toParams)).unqueued.panelListens = true := by
    simp [State.panelListens, State.wireClear, State.unqueued, pulsed, driven, Outside.panelReset, hd, hw]
  have before : (s.emits (pulseTrace s.par.toParams)).unqueued.out.panel = s.out.panel := by
    have reset := congrArg Outside.panel pulsed
    exact reset
  obtain ⟨listens, panel⟩ := rom_out atRom s.rom
  rw [before] at panel
  have tout := hp.out.trans (hostInitialize_emits hbusy hrom)
  generalize hu : (s.emits (pulseTrace s.par.toParams)).unqueued.emits (romTrace s.rom) = u at listens panel tout
  have upar : u.par = s.par := by rw [← hu, State.emits_par]; exact State.emits_par _ _
  have uinp : u.inp = s.inp := by rw [← hu, State.emits_inp]; exact State.emits_inp _ _
  have upix : u.out.pix = s.out.pix := (congrArg Panel.pix panel).trans (Panel.afterRom_pix _ _)
  have stream := stream_out u listens .CONST s.par.INIT_CLEAR_COLOR fun _ _ => 0
  rw [upar, streamPixels_const, panel, upix] at stream
  have lines : t.lines = Lines.released s.par.toParams := hp.lines.trans (lines_after_hostInitialize _ _ _)
  refine ⟨State.panelListens_took listens (tout.trans stream) (by rw [hp.inp, uinp]) (congrArg Lines.lines_oe lines), ?_⟩
  rw [tout, stream, Outside.took_panel]

/-- Settles O27: the panel INITIALIZE leaves, and the last entries of the parameters' own ROM. -/
theorem initializeEndState : Obligations.InitializeEndState := by
  intro s hidle hready hrom hd hw
  obtain ⟨-, -, -, -, -, hbusy⟩ := State.ready_flags hready
  obtain ⟨t, ht, hp, -⟩ := hostInitialize_done hidle hready hrom
  obtain ⟨listens, panel⟩ := hostInitialize_panel hp hbusy hrom hd hw
  have regs (a : Byte) : t.out.panel.reg a = match s.rom.reverse.find? fun e => e.reg == a with
      | some e => some e.val
      | none => s.out.panel.reg a := by
    rw [panel]
    exact Panel.afterRom_reg _ _ a
  refine ⟨t, ht, listens, congrArg Panel.ir panel, congrArg Panel.pix panel, regs, fun hpar => ⟨?display, fun hne => ?entry⟩⟩
  case display => rw [regs, hpar, Params.rom_lastDisplayControl]
  case entry => rw [regs, hpar, Params.rom_lastEntryMode _ hne]

end Sys2Proof.Machine
end

section
/-! SUPPORT and PROOF. Bursts that cannot reach the panel in a known form (R78, R163, R207, R222, R256, R258; log entries 2 and 8): the
receiver's state is undefined after each of them. -/

namespace Sys2Proof.Machine

/-! ### A burst that is not heard -/

/-- The panel's state has become undefined for the `n`-th time and is so still: free values (log entry 2). -/
def Outside.lostAt (n : Nat) (o : Outside) : Prop := o.panel = Panel.free n ∧ o.panel_lost = true ∧ o.panel_free = n + 1

/-- What the block sends now cannot reach the panel in a known form (R207, R222, R256, R258). -/
def State.cutOff (s : State) : Prop :=
  s.lines_oe = false ∨ s.inp.tx_delivers = false ∨ s.out.bus_width = .W16 ∨ s.out.panel_lost = true

/-- The burst that is open does not reach the panel in a known form, whatever else it holds (log entry 8). -/
def State.unheard (s : State) : Prop := s.out.rx_ok = false ∨ s.lines_oe = false ∨ s.out.panel_lost = true

/-- A panel whose state is undefined is cut off until it is reset (R258). -/
theorem State.cutOff_of_lostAt {s : State} {n : Nat} (h : s.out.lostAt n) : s.cutOff := .inr (.inr (.inr h.2.1))

theorem Outside.losePanel_lostAt (o : Outside) : o.losePanel.lostAt o.panel_free := ⟨rfl, rfl, rfl⟩

/-- At the end of a burst that is not heard the panel's state becomes undefined. -/
theorem State.emit_high_unheard {s : State} (h : s.unheard) : (s.emit (.CS true)).out.lostAt s.out.panel_free := by
  have lost : (s.out.rx_ok && s.lines_oe && s.out.fifo.isEmpty && !s.out.panel_lost) = false := by
    obtain h | h | h := h <;> simp [h]
  rw [State.emit_cs_high_out, Outside.closeBurst, if_neg (by simp [lost])]
  exact Outside.losePanel_lostAt _

/-- A byte sent while the panel is cut off leaves the burst unheard. -/
theorem State.emit_byte_cutOff {s : State} (h : s.cutOff) (b : Byte) : (s.emit (.BYTE b)).unheard := by
  obtain h | h | h | h := h
  · exact .inr (.inl h)
  · exact .inl (by simp [Outside.send, byteClear, h])
  · exact .inl (by simp [Outside.send, byteClear, h])
  · exact .inr (.inr h)

/-- Within a burst nothing makes it heard again, and the panel's state is not touched. -/
theorem State.complete_unheard {e : Event} (ht : isTiming e = false) (hc : isChipSelect e = false) {s : State} (h : s.unheard) :
    (s.complete e).unheard ∧ (s.complete e).out.panel_free = s.out.panel_free := by
  have less {s' : State} (hok : s.out.rx_ok = false → s'.out.rx_ok = false) (hoe : s'.lines_oe = s.lines_oe)
      (hlost : s'.out.panel_lost = s.out.panel_lost) : s'.unheard := by
    obtain h | h | h := h
    · exact .inl (hok h)
    · exact .inr (.inl (hoe.trans h))
    · exact .inr (.inr (hlost.trans h))
  cases e with
  | CFG => cases ht
  | RST => cases ht
  | DELAY => cases ht
  | CS => cases hc
  | CMD => exact ⟨h, rfl⟩
  | DONE => exact ⟨h, rfl⟩
  | FBREAD => exact ⟨h, rfl⟩
  | BYTE => exact ⟨less (fun k => by simp [Outside.send, k]) rfl rfl, rfl⟩
  | BULK => exact ⟨less (fun k => by simp [Outside.send, k]) rfl rfl, rfl⟩
  | WORD => exact ⟨less (fun k => by simp [k]) rfl rfl, rfl⟩
  | WIDTH n =>
    cases n with
    | W8 => exact ⟨less (fun k => by simp [Outside.drain, k]) rfl rfl, rfl⟩
    | W16 => exact ⟨less (fun k => by simp [k]) rfl rfl, rfl⟩

theorem State.emits_unheard {es : List Event} (ht : ∀ e ∈ es, isTiming e = false) (hc : ∀ e ∈ es, isChipSelect e = false) {s : State}
    (h : s.unheard) : (s.emits es).unheard ∧ (s.emits es).out.panel_free = s.out.panel_free := by
  induction es generalizing s with
  | nil => exact ⟨h, rfl⟩
  | cons e es ih =>
    obtain ⟨he, hes⟩ := List.forall_mem_cons.1 ht
    obtain ⟨ke, kes⟩ := List.forall_mem_cons.1 hc
    obtain ⟨step, same⟩ := State.complete_unheard he ke h
    obtain ⟨rest, same'⟩ := ih hes kes step
    exact ⟨rest, same'.trans same⟩

/-- A burst that begins with a byte, sent while the panel is cut off, leaves the panel undefined (R163, R207, R222). -/
theorem burst_lost {b : Byte} {es : List Event} (ht : ∀ e ∈ Event.BYTE b :: es, isTiming e = false)
    (hc : ∀ e ∈ Event.BYTE b :: es, isChipSelect e = false) {s : State} (h : s.cutOff) :
    (s.emits (.CS false :: .BYTE b :: es ++ [.CS true])).out.lostAt s.out.panel_free := by
  have opened : (s.emit (.CS false)).cutOff := h
  obtain ⟨unheard, same⟩ := State.emits_unheard (List.forall_mem_cons.1 ht).2 (List.forall_mem_cons.1 hc).2
    (State.emit_byte_cutOff opened b)
  have closed := State.emit_high_unheard unheard
  rw [same] at closed
  rw [State.emits_append]
  exact closed

/-! ### The bursts of the block, not heard -/

/-- A frame. -/
theorem frame_lost (b : Byte) (bs : List Byte) {s : State} (h : s.cutOff) :
    (s.emits (frameTrace true (b :: bs))).out.lostAt s.out.panel_free :=
  burst_lost (es := bs.map Event.BYTE) (by simp [isTiming]) (by simp [isChipSelect]) h

/-- A register write: its two frames, each lost (R163). -/
theorem write_lost (r : Byte) (v : Half) {s : State} (h : s.cutOff) :
    (s.emits (writeTrace r v)).out.lostAt (s.out.panel_free + 1) := by
  have index : (s.emits (indexTrace true r)).out.lostAt s.out.panel_free := frame_lost _ _ h
  have data : ((s.emits (indexTrace true r)).emits (dataTrace v)).out.lostAt _ := frame_lost _ _ (State.cutOff_of_lostAt index)
  rw [index.2.2] at data
  rwa [writeTrace, State.emits_append]

/-- A stream. -/
theorem stream_lost (p : Params) (src : PixelSource) (fill : Half) (fb : Nat → Nat → Byte) {s : State} (h : s.cutOff) :
    (s.emits (streamTrace p src fill fb)).out.lostAt s.out.panel_free := by
  obtain ⟨b, es, he⟩ : ∃ b es, bracketTrace p src fill fb = .BYTE b :: es := ⟨_, _, rfl⟩
  have ht := bracketTrace_not_timing p src fill fb
  have hc := bracketTrace_not_chipSelect p src fill fb
  rw [streamTrace_eq_bracket, he]
  rw [he] at ht hc
  exact burst_lost ht hc h

/-- The ROM: two bursts lost for each entry, and the panel still cut off. -/
theorem rom_lost (rom : List RomStep) {s : State} (h : s.cutOff) :
    (s.emits (romTrace rom)).cutOff ∧ (s.emits (romTrace rom)).out.panel_free = s.out.panel_free + 2 * rom.length := by
  induction rom generalizing s with
  | nil => exact ⟨h, rfl⟩
  | cons e rom ih =>
    have step : (s.emits (stepTrace e)).out.lostAt (s.out.panel_free + 1) := by
      rw [stepTrace, State.emits_append, delay_out]
      exact write_lost e.reg e.val h
    obtain ⟨hcut, hfree⟩ := ih (State.cutOff_of_lostAt step)
    rw [romTrace, List.flatMap_cons, State.emits_append]
    refine ⟨hcut, hfree.trans ?_⟩
    rw [step.2.2, List.length_cons]
    omega

/-- CLEAR and UPDATE. -/
theorem streamCommand_lost (c : HostCommand) (p : Params) (src : PixelSource) (fill : Half) (fb : Nat → Nat → Byte) {s : State}
    (h : s.cutOff) : (s.emits (streamCommandTrace c p src fill fb)).out.lostAt s.out.panel_free := by
  have accepted : (s.emit (.CMD c)).cutOff := h
  rw [streamCommand_emits]
  exact stream_lost p src fill fb accepted

/-- INITIALIZE, where neither its driving of the lines nor its reset of the panel helps: two bursts for each ROM entry and one for the clear. -/
theorem hostInitialize_lost {s : State} (h : s.inp.tx_delivers = false ∨ s.out.bus_width = .W16) :
    (s.emits (hostInitializeTrace s.par.toParams s.rom)).out.lostAt (s.out.panel_free + 2 * s.rom.length) := by
  have pulsed : (s.emits (pulseTrace s.par.toParams)).cutOff := .inr (h.imp (fun hd => by rw [State.emits_inp, hd]) .inl)
  obtain ⟨hcut, hfree⟩ := rom_lost s.rom pulsed
  have stream := stream_lost s.par.toParams .CONST s.par.INIT_CLEAR_COLOR (fun _ _ => 0) hcut
  have before : (s.emits (pulseTrace s.par.toParams)).out.panel_free = s.out.panel_free := by rw [(pulse_out s).1]; rfl
  rw [hfree, before] at stream
  rwa [hostInitializeTrace_eq, ← pulseTrace, State.emits_append, State.emits_append, State.emits_append, State.emits_done_out]

/-- A Data Frame on a listening panel with no register selected leaves its state undefined (R78). -/
theorem data_lost {s : State} (h : s.panelListens = true) (hir : s.out.ir = none) (v : Half) :
    (s.emits (dataTrace v)).out.panel = Panel.free s.out.panel_free ∧ (s.emits (dataTrace v)).out.panel_lost = true := by
  obtain ⟨hd, hw, hf, -, -⟩ := State.listens_parts h
  have opened : (s.emit (.CS false)).out = { s.out with rx := [], rx_ok := s.lines_oe } := Outside.openBurst_empty hf _ _
  have clear : (s.emit (.CS false)).wireClear = true := by simp [State.wireClear, opened, hd, hw, hf]
  have sent := frame_out_open clear (dataFrame v)
  rw [opened] at sent
  generalize hu : (s.emit (.CS false)).emits (frameTrace false (dataFrame v)) = u at sent
  have closed : s.emits (dataTrace v) = u.emit (.CS true) := hu ▸ rfl
  have refused : u.out.panel.receive? u.par.BULK_MARKER u.out.rx = none := by
    rw [sent, List.nil_append, receive_data, Panel.data?]
    exact congrArg (Option.map _) hir
  rw [closed]
  obtain ⟨hpanel, hlost⟩ := u.emit_high_lost refused
  exact ⟨by rw [hpanel, sent], hlost⟩

/-! ### The operations -/

/-- Settles O29: each operation runs with its ordinary trace, and each of its bursts is lost. -/
theorem undefinedPanel : Obligations.UndefinedPanel := by
  refine ⟨fun v s hack hlisten hir => ?data, fun s h => ⟨fun r v hack => ?write, fun color hidle hready => ?clear, fun hidle hready => ?update⟩,
    fun s h hidle hready hrom => ?init⟩
  case data =>
    obtain ⟨t, ht, hp, -⟩ := sendDataOp_done v s hack
    refine ⟨t, by rw [exec, execSendData, ht]; rfl, hp.trace, ?_⟩
    rw [hp.out]
    exact data_lost hlisten hir v
  case write =>
    obtain ⟨t, ht, hp, -⟩ := writeRegisterOp_done r v s hack
    have lost := write_lost r v h
    rw [← hp.out] at lost
    exact ⟨t, by rw [exec, execWriteRegister, ht]; rfl, hp.trace, lost.1, lost.2.1⟩
  case clear =>
    obtain ⟨t, ht, hp, hdone, -⟩ := hostClear_done hidle hready color
    have lost := streamCommand_lost (.CLEAR color) s.par.toParams .CONST color (fbByte s) h
    rw [← hp.out] at lost
    exact ⟨t, ht, hp.streamCommand_trace, hdone.idle, lost⟩
  case update =>
    obtain ⟨t, ht, hp, hdone, -⟩ := hostUpdate_done hidle hready
    have lost := streamCommand_lost .UPDATE s.par.toParams .FB s.fill_color (fbByte s) h
    rw [← hp.out] at lost
    exact ⟨t, ht, hp.streamCommand_trace, hdone.idle, lost⟩
  case init =>
    obtain ⟨t, ht, hp, hdone, -⟩ := hostInitialize_done hidle hready hrom
    obtain ⟨hpanel, hlost, -⟩ := hostInitialize_lost h
    refine ⟨t, ht, ?_, hdone.idle, by rw [hp.out, hpanel], by rw [hp.out, hlost]⟩
    rw [hp.trace, hostInitializeTrace]
    simp

end Sys2Proof.Machine
end

section
/-! SUPPORT and PROOFS. What 60_exceptions.md says of steps: the block traps on nothing (R220, R225), and one whose collaborator does not answer
stays where it is (R130, R191, R224). -/

namespace Sys2Proof.Machine

/-! ### No step stops -/

/-- Settles O48: under the invariant neither fault check nor the strategy's refusal can strike. -/
theorem neverStops : Obligations.NeverStops := by
  intro s h
  obtain ⟨t, ht, -⟩ := step_inv h
  exact ⟨t, ht⟩

/-! ### A blocked block -/

/-- A row that changes nothing may be repeated. -/
theorem ticks_of_fixed {s : State} (h : tick s = .next s) (n : Nat) : ticks n s = .next s := by
  induction n with
  | zero => rfl
  | succ n ih => simpa [ticks, h] using ih

/-- The event that is held up does not depend on whether it is held out yet. -/
theorem State.heldEvent_req (s : State) (r : Option Event) : { s with req := r }.heldEvent = s.heldEvent := rfl

/-- Where a first row leads to a state that the next row leaves alone, the step ends there, however many rows it has. -/
theorem step_of_fixed {s t : State} (h : Inv s) (hr : s.inp.blk_rst = false) (ht : tick s = .next t) (hfix : tick t = .next t) :
    step s = .next t := by
  obtain ⟨u, hu, n, hn⟩ := step_rows h hr
  have hend : ticks (n + 1) s = .next t := by simpa [ticks, ht] using ticks_of_fixed hfix n
  have : u = t := Host.Outcome.next.inj (hn.symm.trans hend)
  rw [hu, this]

/-- Settles O54: the row that is held up holds the request out, and repeated it changes nothing, so the step does no more than that row. -/
theorem blockedBlockStays : Obligations.BlockedBlockStays := by
  refine fun s h hr => ⟨fun e he => ?event, fun hflag => ?flag⟩
  case event =>
    have hrow : tick s = .next { s with req := some e } := (tick_held h).1 e he
    have hagain : tick { s with req := some e } = .next { s with req := some e } :=
      (tick_held (h.req (some e))).1 e ((s.heldEvent_req (some e)).trans he)
    exact step_of_fixed h hr hrow hagain
  case flag =>
    have hrow : tick s = .next s := (tick_held h).2 hflag
    exact step_of_fixed h hr hrow hrow

end Sys2Proof.Machine
end

section
/-! SUPPORT and PROOF. The stages of the panel's power-up (R241) along the rows of the tables: the release of the reset line, the end of a
Data Frame and the end of the ROM go to the next stage, and every other row leaves it. -/

namespace Sys2Proof.Machine

/-! ### The order of the stages -/

/-- Where both states tell the power stage, it is the same or the next one of R241. -/
def StageInOrder (s t : State) : Prop :=
  ∀ a b : PowerStage, s.powerStage = some a → t.powerStage = some b → b = a ∨ b.number = a.number + 1

theorem StageInOrder.same {s t : State} (h : t.powerStage = s.powerStage) : StageInOrder s t := by
  intro a b ha hb
  rw [h, ha] at hb
  cases hb
  exact .inl rfl

theorem StageInOrder.of_before_none {s t : State} (h : s.powerStage = none) : StageInOrder s t := by
  intro a b ha
  rw [h] at ha
  cases ha

theorem StageInOrder.of_after_none {s t : State} (h : t.powerStage = none) : StageInOrder s t := by
  intro a b _ hb
  rw [h] at hb
  cases hb

/-- What holds of the second state holds of any with the same stage. -/
theorem StageInOrder.congr {s t u : State} (h : StageInOrder s t) (e : u.powerStage = t.powerStage) : StageInOrder s u := by
  intro a b ha hb
  exact h a b ha (e ▸ hb)

/-- From the stages of both states. -/
theorem StageInOrder.of_stages {s t : State} {a b : PowerStage} (ha : s.powerStage = some a) (hb : t.powerStage = some b)
    (h : b = a ∨ b.number = a.number + 1) : StageInOrder s t := by
  intro a' b' ha' hb'
  rw [ha] at ha'
  rw [hb] at hb'
  cases ha'
  cases hb'
  exact h

/-- The stage is read off SEQ's state, `pc`, the command's code and the parameters. -/
theorem State.powerStage_congr {s t : State} (hq : t.q_st = s.q_st) (hpc : t.pc = s.pc) (hop : t.op = s.op) (hpar : t.par = s.par) :
    t.powerStage = s.powerStage := by simp only [State.powerStage, hq, hpc, hop, hpar]

/-- After the second to the last power-control write the power is coming up (R152). -/
theorem stageAfter_power {n k : Nat} (h1 : 1 < k) (hk : k ≤ n + 1) : stageAfter n k = .powerComingUp := by
  simp [stageAfter, show k ≠ 0 by omega, show k ≠ 1 by omega, hk]

/-- The entry after the power-control writes sets the scan direction (R153). -/
theorem stageAfter_scan (n : Nat) : stageAfter n (n + 2) = .scanDirectionSet := by simp [stageAfter]

/-- The entries after that are the turning-on stages (R154). -/
theorem stageAfter_turningOn (n j : Nat) : stageAfter n (n + 2 + (j + 1)) = .turningOn (j + 1) := by
  simp [stageAfter, show n + 2 + (j + 1) ≠ 1 by omega, show ¬ n + 2 + (j + 1) ≤ n + 1 by omega]

/-- The whole ROM brings the panel to the last of the four turning-on stages (R150). -/
theorem stageAfter_rom (p : Params) : stageAfter p.N_PWR p.N_ROM = .turningOn 4 := stageAfter_turningOn p.N_PWR 3

/-- One more ROM entry leaves the stage or brings the next one. A sequence of no power-control write would pass over `powerComingUp`. -/
theorem stageAfter_succ {n : Nat} (hn : 0 < n) (k : Nat) :
    stageAfter n (k + 1) = stageAfter n k ∨ (stageAfter n (k + 1)).number = (stageAfter n k).number + 1 := by
  obtain rfl | rfl | ⟨h1, hk⟩ | rfl | rfl | hj : k = 0 ∨ k = 1 ∨ (1 < k ∧ k ≤ n) ∨ k = n + 1 ∨ k = n + 2 ∨ n + 2 < k := by omega
  · exact .inr rfl
  · right; rw [stageAfter_power (by omega) (by omega)]; rfl
  · left; rw [stageAfter_power (by omega) (by omega), stageAfter_power h1 (by omega)]
  · right; rw [stageAfter_scan, stageAfter_power (by omega) (by omega)]; rfl
  · right; rw [stageAfter_turningOn n 0, stageAfter_scan]; rfl
  · right
    obtain ⟨j, rfl⟩ : ∃ j, k = n + 2 + (j + 1) := ⟨k - (n + 3), by omega⟩
    rw [show n + 2 + (j + 1) + 1 = n + 2 + (j + 1 + 1) from rfl, stageAfter_turningOn, stageAfter_turningOn]
    rfl

/-- An admitted power-control sequence is not empty: two of its writes are followed by a delay (R15, R152). -/
theorem powerSequence_nonempty (p : Build) : 0 < p.N_PWR := by
  obtain ⟨hab, hb⟩ := p.powerPlaces
  exact Nat.zero_lt_of_lt hb

/-! ### The rows -/

/-- A frame that ends leaves the stage, but that the Data Frame of a Power-On Step ends the writing of a ROM entry (R160). -/
theorem feReturn_stageInOrder (s : State) : StageInOrder s s.feReturn := by
  unfold State.feReturn
  split
  · exact .same rfl
  next hq => exact .same (by simp [State.powerStage, hq])
  next hq =>
    exact .of_stages (a := stageAfter s.par.N_PWR s.pc) (by simp [State.powerStage, hq]) rfl (stageAfter_succ (powerSequence_nonempty s.par) s.pc)
  · exact .same rfl

/-- A row of FE keeps the order: it leaves SEQ alone or ends the frame (R128). -/
theorem feRow_stageInOrder (s : State) : StageInOrder s (feRow s).state := by
  have ends : ∀ e, StageInOrder s (s.emit e).feReturn := fun e => (feReturn_stageInOrder s).congr
    (State.powerStage_congr (State.feReturn_congr (by simp) (by simp)).2 (by simp) (by simp) (by simp))
  unfold feRow
  cases s.fe_st
  case F_IDLE => exact .same rfl
  case F_CS_LO => exact .same rfl
  case F_B0 => cases s.inp.tx_byte_ack <;> exact .same rfl
  case F_B1 => cases s.inp.tx_byte_ack <;> exact .same rfl
  case F_B2 =>
    cases s.inp.tx_byte_ack
    · exact .same rfl
    · simp only [State.ask_ready, Run.bind_done, Run.state_done]
      split
      · exact .same rfl
      · exact ends _
  case F_CS_HI => exact ends _

/-- A stream that ends leaves the stage: the initial clear of INITIALIZE ends at `active`, another stream tells none (R206). -/
theorem fsReturn_stageInOrder (s : State) : StageInOrder s s.fsReturn := by
  unfold State.fsReturn
  split
  next hq => exact .same (by simp [State.powerStage, hq])
  next hq => exact .of_before_none (by simp [State.powerStage, hq])
  · exact .same rfl

/-- The end of a read leaves the stage (R188). -/
theorem afterLoad_powerStage (s : State) : s.afterLoad.powerStage = s.powerStage := by
  unfold State.afterLoad
  split <;> rfl

/-- The end of a push leaves the stage (R184). -/
theorem afterPush_powerStage (s : State) : s.afterPush.powerStage = s.powerStage := by
  unfold State.afterPush
  split <;> rfl

/-- The next byte-group leaves the stage (R187). -/
theorem advance_powerStage (s : State) : s.advance.powerStage = s.powerStage := by
  unfold State.advance
  split
  · rfl
  · split <;> rfl

/-- A row of FS keeps the order: it leaves SEQ alone or ends the stream (R188). -/
theorem fsRow_stageInOrder (s : State) : StageInOrder s (fsRow s).state := by
  unfold fsRow
  cases s.fs_st
  case S_MARK =>
    dsimp only
    split
    · cases s.inp.tx_byte_ack <;> exact .same rfl
    · exact .same rfl
  case S_LOAD =>
    dsimp only
    split
    · unfold loadByte
      cases s.inp.fb_ack
      · exact .same rfl
      · exact .same (afterLoad_powerStage _)
    · exact .same (afterLoad_powerStage s)
  case S_BULK => cases s.inp.tx_bulk_ack <;> exact .same rfl
  case S_PUSH =>
    dsimp only
    unfold State.waitFifo
    split
    · exact .same rfl
    · exact .same (afterPush_powerStage (s.emit (.WORD (s.px s.bit))))
  case S_ADV => exact .same (advance_powerStage s)
  case S_DRAIN =>
    dsimp only
    unfold State.waitDrain
    split <;> exact .same rfl
  case S_CS_HI =>
    exact (fsReturn_stageInOrder s).congr (State.powerStage_congr (by simp [State.fsReturn_q_st]) (by simp) (by simp) (by simp))
  all_goals exact .same rfl

/-- The end of a wait leaves the stage (R160). -/
theorem delayReturn_powerStage (s : State) : s.delayReturn.powerStage = s.powerStage := by
  unfold State.delayReturn
  split
  next hq => simp [State.powerStage, hq]
  next hq => simp [State.powerStage, hq, stageAfter]
  next hq => simp [State.powerStage, hq]
  · rfl

/-- A wait leaves the stage, over or not (R143, R160). -/
theorem delayOp_powerStage (n : Nat) (s : State) : (delayOp n s).state.powerStage = s.powerStage := by
  unfold delayOp
  split
  · exact delayReturn_powerStage s
  · cases s.inp.dly_done
    · rfl
    · exact delayReturn_powerStage (s.emit (.DELAY n))

/-- The choice after a Power-On Step: the next entry at the stage the last one brought, or after the whole ROM the initial clear (R147, R158). -/
theorem stepNext_stageInOrder {s : State} (h : Inv s) (hq : s.q_st = .Q_STEP_NEXT) : StageInOrder s s.stepNext := by
  have hN : s.romLength = s.par.N_ROM := by simp [State.romLength, h.romConstant]
  have before : s.powerStage = some (stageAfter s.par.N_PWR (s.pc + 1)) := by simp [State.powerStage, hq]
  by_cases hend : s.pc + 1 = s.romLength
  · have last : s.powerStage = some (.turningOn 4) := by rw [before, hend, hN, stageAfter_rom]
    by_cases hop : s.op = HostCommand.INITIALIZE.code
    · exact .of_stages (b := .active) last (by simp [State.stepNext, State.powerStage, hq, hend, hop]) (.inr rfl)
    · exact .of_after_none (by simp [State.stepNext, State.powerStage, hq, hend, hop])
  · exact .same (by simp [State.stepNext, State.powerStage, hq, hend])

/-- A row of SEQ keeps the order (R160, R206): the reset line's release brings `settling`, the end of the ROM the initial clear. -/
theorem seqTick_stageInOrder {s t : State} (h : Inv s) (ht : seqTick s = .next t) : StageInOrder s t := by
  unfold seqTick at ht
  cases hq : s.q_st <;> simp only [hq] at ht
  case Q_IDLE => exact .of_before_none (by simp [State.powerStage, hq])
  case Q_CFG => exact .of_before_none (by simp [State.powerStage, hq])
  case Q_RST_LO => exact .of_before_none (by simp [State.powerStage, hq])
  case Q_RST_HOLD => cases ht; exact .same (delayOp_powerStage _ s)
  case Q_RST_HI =>
    cases ht
    exact .of_stages (a := .inReset) (b := .settling) (by simp [State.powerStage, hq]) (by simp [State.powerStage, resetHigh, hq]) (.inr rfl)
  case Q_RST_WAIT => cases ht; exact .same (delayOp_powerStage _ s)
  case Q_STEP_IDX => obtain ⟨e, rfl⟩ := withRomEntry_next ht; exact .same rfl
  case Q_STEP_DAT => obtain ⟨e, rfl⟩ := withRomEntry_next ht; exact .same rfl
  case Q_STEP_DLY => obtain ⟨e, rfl⟩ := withRomEntry_next ht; exact .same (delayOp_powerStage _ s)
  case Q_STEP_NEXT => cases ht; exact stepNext_stageInOrder h hq
  case Q_FILL => cases ht; exact .same rfl
  case Q_UPD => cases ht; exact .same rfl
  case Q_DONE => cases ht; exact .of_after_none rfl

/-- Settles O38: the row is one of FE, of FS or of SEQ, and each keeps the order. -/
theorem powerStagesInOrder : Obligations.PowerStagesInOrder := by
  intro s t a b h ht
  have order : StageInOrder s t := by
    obtain ⟨-, rfl⟩ | ⟨-, -, rfl⟩ | ⟨-, -, hseq⟩ := tick_cases ht
    · exact feRow_stageInOrder s
    · exact fsRow_stageInOrder s
    · exact seqTick_stageInOrder h hseq
  exact order a b

end Sys2Proof.Machine
end

section
/-! SUPPORT and PROOF. The block's reset as a step (R50, R251): what it leaves outside the block, idle or with a command cut short. -/

namespace Sys2Proof.Machine

/-- A busy block has a command in progress. -/
theorem State.inFlight_of_busy {s : State} (h : s.busy = true) : s.inFlight = true := by simp [State.inFlight, h]

/-- An idle block has nothing in progress. -/
theorem State.inFlight_of_idle {s : State} (h : s.idle = true) : s.inFlight = false := by
  obtain ⟨hq, hfe, hfs, hbusy⟩ := State.idle_parts h
  simp [State.inFlight, hq, hfe, hfs, hbusy]

/-- Work cut short: the panel is lost, and the bytes of an open burst are dropped (R251; log entries 2 and 30). -/
theorem State.blockReset_out_of_inFlight {s : State} (h : s.inFlight = true) :
    s.blockReset.out = { s.out.losePanel with rx := [], rx_ok := false } := if_pos h

/-- Nothing cut short: nothing outside changes (log entry 29). -/
theorem State.blockReset_out_of_not_inFlight {s : State} (h : s.inFlight = false) : s.blockReset.out = s.out :=
  if_neg (by simp [h])

/-- The transport's word size and its queue outlast the block's reset (R251; log entry 20). -/
theorem State.blockReset_transport (s : State) :
    s.blockReset.out.bus_width = s.out.bus_width ∧ s.blockReset.out.fifo = s.out.fifo := by
  cases h : s.inFlight
  · rw [State.blockReset_out_of_not_inFlight h]
    exact ⟨rfl, rfl⟩
  · rw [State.blockReset_out_of_inFlight h]
    exact ⟨rfl, rfl⟩

/-- Settles O56: under `blk_rst` the step is the block's reset, whose fields are known one by one. -/
theorem blockResetResult : Obligations.BlockResetResult := by
  intro s hr
  obtain ⟨width, queue⟩ := s.blockReset_transport
  refine ⟨s.blockReset, step_reset hr, rfl, rfl, rfl, rfl, rfl, rfl, rfl, rfl, rfl, rfl, ⟨rfl, rfl, fun _ => rfl⟩, width, queue,
    fun hidle => State.blockReset_out_of_not_inFlight (State.inFlight_of_idle hidle), fun hbusy => ?panel⟩
  rw [State.blockReset_out_of_inFlight (State.inFlight_of_busy hbusy)]
  exact ⟨rfl, rfl⟩

end Sys2Proof.Machine
end

section
/-! SUPPORT and PROOF. A command in progress ends in every fair environment that does not reset the block (R192, R209, R224, R256): what holds it up
is one level of one collaborator, nothing changes until that level is right, and then the step brings the command nearer to its `DONE`. -/

namespace Sys2Proof.Machine

/-! ### The level that a block waits for -/

/-- The levels by which the environment lets the block go on (R26, R42 to R47), one per field of `Fair`. -/
inductive Level where
  | byte | bulk | delay | read | fifo | drain

/-- These inputs hold the level right. -/
def Level.right (l : Level) (i : Inputs) : Bool :=
  match l with
  | .byte => i.tx_byte_ack
  | .bulk => i.tx_bulk_ack
  | .delay => i.dly_done
  | .read => i.fb_ack
  | .fifo => !i.fifo_full
  | .drain => !i.bus_busy

/-- The one level that the machine at work can be waiting for (R52): FE waits for bytes, FS as its state says, SEQ for delays. Where FS waits for
nothing any level would do. -/
def State.awaited (s : State) : Level :=
  if s.fe_st ≠ .F_IDLE then .byte
  else match s.fs_st with
    | .S_IDLE => .delay
    | .S_LOAD => .read
    | .S_BULK => .bulk
    | .S_PUSH => .fifo
    | .S_DRAIN => .drain
    | _ => .byte

/-- Where the awaited level is right, nothing holds the block up. -/
theorem State.goesOn_of_right {s : State} (h : s.awaited.right s.inp = true) : s.goesOn := by
  unfold State.goesOn State.heldEvent State.heldByFlag
  unfold State.awaited at h
  cases hfe : s.fe_st with
  | F_IDLE =>
    cases hfs : s.fs_st with
    | S_IDLE => cases hq : s.q_st <;> simp_all [Level.right]
    | _ => simp_all [Level.right]
  | _ => simp_all [Level.right]

/-- In a fair environment every level is right again and again (R256). -/
theorem Fair.right {env : Nat → Inputs} (h : Fair env) (l : Level) (n : Nat) : ∃ m, n ≤ m ∧ l.right (env m) = true := by
  cases l with
  | byte => exact h.byte n
  | bulk => exact h.bulk n
  | delay => exact h.delay n
  | read => exact h.read n
  | fifo => simpa [Level.right] using h.fifo n
  | drain => simpa [Level.right] using h.drain n

/-! ### The environment -/

/-- An environment that answers again and again and does not reset the block. -/
structure Answers (env : Nat → Inputs) : Prop extends Fair env where
  noReset : ∀ n, (env n).blk_rst = false

/-- The environment from its second step on. -/
def later (env : Nat → Inputs) : Nat → Inputs := fun n => env (n + 1)

/-- What comes again and again still does so after the first step. -/
theorem again_later {p : Nat → Prop} (h : ∀ n, ∃ m, n ≤ m ∧ p m) (n : Nat) : ∃ m, n ≤ m ∧ p (m + 1) := by
  obtain ⟨m, hm, k⟩ := h (n + 1)
  obtain ⟨m, rfl⟩ : ∃ j, m = j + 1 := ⟨m - 1, by omega⟩
  exact ⟨m, by omega, k⟩

theorem Answers.later {env : Nat → Inputs} (h : Answers env) : Answers (later env) where
  byte := again_later h.byte
  bulk := again_later h.bulk
  delay := again_later h.delay
  read := again_later h.read
  fifo := again_later h.fifo
  drain := again_later h.drain
  noReset n := h.noReset (n + 1)

/-- The first of a number of steps in an environment. -/
theorem driveFor_succ {env : Nat → Inputs} {s t : State} (h : step { s with inp := env 0 } = .next t) (n : Nat) :
    driveFor env (n + 1) s = driveFor (later env) n t := by
  have inputs : (List.range (n + 1)).map env = env 0 :: (List.range n).map (later env) := by
    simp [List.range_succ_eq_map, later, Function.comp_def]
  rw [driveFor, inputs, drive, h, driveFor]

/-! ### One step of a command in progress -/

/-- A step of a command in progress adds to the trace, with `DONE` last if it ends the command; it brings the command nearer to its end where nothing
holds the block up. -/
theorem step_work {s : State} (h : Inv s) (hq : s.q_st ≠ .Q_IDLE) (hr : s.inp.blk_rst = false) :
    ∃ t, step s = .next t ∧ Inv t ∧ (∃ es, t.trace = s.trace ++ es) ∧ (t.q_st = .Q_IDLE → t.trace = s.trace ++ [.DONE]) ∧
      (s.goesOn → workLeft t < workLeft s) := by
  have busy : s.busy = true := by simp [h.busyIff, hq]
  obtain hreset | ⟨-, hb, i, hf⟩ | ⟨-, hw⟩ := step_cases s
  · simp [hr] at hreset
  · obtain ⟨t, ht, n, hn⟩ := fetched_rows h hf
    obtain ⟨kbusy, kinp⟩ := exec_busy busy ht
    obtain ⟨ki, kq, ktrace, -, kleft⟩ := ticks_work (n + 1) h hq hn kbusy kinp
    exact ⟨t, (step_fetched hr hb hf).trans ht, ki, ktrace, fun hend => absurd hend kq, kleft n.succ_pos⟩
  · obtain ⟨t, ht, ki⟩ := tick_inv h
    obtain ⟨-, ktrace, kdone⟩ := tick_trace h hq ht
    exact ⟨t, (step_row hr hw).trans ht, ki, ktrace, kdone, fun hg => tick_left h hg hq ht⟩

/-- A step that is held up changes nothing but the request held out (R130, R191, R224). -/
theorem step_held {s : State} (h : Inv s) (hr : s.inp.blk_rst = false) (hheld : ¬s.goesOn) : ∃ r, step s = .next { s with req := r } := by
  obtain ⟨byEvent, byFlag⟩ := blockedBlockStays s h hr
  cases he : s.heldEvent with
  | some e => exact ⟨some e, byEvent e he⟩
  | none => exact ⟨s.req, byFlag (by simpa [State.goesOn, he] using hheld)⟩

/-! ### The run to `DONE` -/

/-- Some number of steps in this environment ends the command in progress, and `DONE` is the last event. -/
def State.endsIn (env : Nat → Inputs) (s : State) : Prop :=
  ∃ n t es, driveFor env n s = .next t ∧ t.idle = true ∧ t.trace = s.trace ++ es ++ ([.DONE] : List Event)

section Environment

variable {env : Nat → Inputs} {s t : State}

/-- A step that produces `DONE` last ends the command. -/
theorem State.endsIn_of_done (ht : step { s with inp := env 0 } = .next t) (hidle : t.idle = true) (hdone : t.trace = s.trace ++ [.DONE]) :
    s.endsIn env :=
  ⟨1, t, [], driveFor_succ ht 0, hidle, by simpa using hdone⟩

/-- A command that ends after a step ends. -/
theorem State.endsIn_of_step (ht : step { s with inp := env 0 } = .next t) (htrace : ∃ es, t.trace = s.trace ++ es)
    (hend : t.endsIn (later env)) : s.endsIn env := by
  obtain ⟨es, htrace⟩ := htrace
  obtain ⟨n, u, fs, hu, hidle, hdone⟩ := hend
  exact ⟨n + 1, u, es ++ fs, (driveFor_succ ht n).trans hu, hidle, by rw [hdone, htrace, List.append_assoc s.trace]⟩

/-- Every command in progress with less than `k` left ends in every environment that answers. -/
def EndsWithin (k : Nat) : Prop :=
  ∀ (env : Nat → Inputs) (s : State), workLeft s < k → Inv s → s.q_st ≠ .Q_IDLE → Answers env → s.endsIn env

/-- A command that is not held up ends with its next step, or is nearer to its end after it. -/
theorem State.endsIn_of_goesOn {k : Nat} (within : EndsWithin k) (hk : workLeft s ≤ k) (h : Inv s) (hq : s.q_st ≠ .Q_IDLE)
    (henv : Answers env) (hgo : { s with inp := env 0 }.goesOn) : s.endsIn env := by
  obtain ⟨t, ht, ki, ktrace, kdone, kleft⟩ := step_work (h.withInputs (env 0)) hq (henv.noReset 0)
  by_cases hend : t.q_st = .Q_IDLE
  · exact State.endsIn_of_done ht (ki.idle hend) (kdone hend)
  · exact State.endsIn_of_step ht ktrace (within _ t (lt_of_lt_of_le (kleft hgo) hk) ki hend henv.later)

/-- A command whose awaited level is right `d` steps from now ends: it stays where it is, waiting for that level, until a step is not held up. -/
theorem State.endsIn_of_right {k : Nat} (within : EndsWithin k) (d : Nat) (hk : workLeft s ≤ k) (h : Inv s) (hq : s.q_st ≠ .Q_IDLE)
    (henv : Answers env) (hd : s.awaited.right (env d) = true) : s.endsIn env := by
  induction d generalizing env s with
  | zero => exact State.endsIn_of_goesOn within hk h hq henv (State.goesOn_of_right hd)
  | succ d ih =>
    by_cases hgo : { s with inp := env 0 }.goesOn
    · exact State.endsIn_of_goesOn within hk h hq henv hgo
    · have hi : Inv { s with inp := env 0 } := h.withInputs (env 0)
      obtain ⟨r, ht⟩ := step_held hi (henv.noReset 0) hgo
      exact State.endsIn_of_step ht ⟨[], (List.append_nil s.trace).symm⟩ (ih hk (hi.req r) hq henv.later hd)

end Environment

/-- Every command in progress ends, by induction on the bound on what is left of it. -/
theorem endsWithin (k : Nat) : EndsWithin k := by
  induction k with
  | zero => exact fun _ s hk => absurd hk (workLeft s).not_lt_zero
  | succ k ih =>
    intro env s hk h hq henv
    obtain ⟨d, -, hd⟩ := henv.right s.awaited 0
    exact State.endsIn_of_right ih d (Nat.le_of_lt_succ hk) h hq henv hd

/-- Settles O59: the bound on what is left of the command falls again and again, each time the level it waits for is right. -/
theorem fairCommandsEnd : Obligations.FairCommandsEnd := fun s env h hq hfair hreset =>
  endsWithin (workLeft s + 1) env s (Nat.lt_succ_self _) h hq { hfair with noReset := hreset }

end Sys2Proof.Machine
end
